-- ==== Sys2Proof/Word.lean ====
section
/-! DEFINITION. The word, byte and identifier types of the CXR-800 and their plainest arithmetic (spec R3-R6, R10). -/

namespace Sys2Proof

/-- A 64-bit word: a scalar register, an instruction word, a special register (R13, R105). -/
abbrev Word := BitVec 64

/-- One byte of storage. -/
abbrev Byte := BitVec 8

/-- The context identifier CTXID[11:0] (R10): cluster in [11:5], core in [4:3], context in [2:0]. -/
abbrev CtxId := BitVec 12

/-- A core, as cluster × 4 + core (R10). -/
abbrev CoreId := BitVec 9

/-- A cluster number (R10). -/
abbrev ClusterId := BitVec 7

/-- A tenant partition number (R11). -/
abbrev PartId := BitVec 4

/-- Bits [lo + n − 1 : lo] of a natural number (R4). -/
def bitsAt (v lo n : Nat) : Nat := v / 2 ^ lo % 2 ^ n

/-- `v` rounded up to a multiple of `n` (n > 0). -/
def roundUp (v n : Nat) : Nat := (v + n - 1) / n * n

/-- ceil(v / n) for n > 0. -/
def ceilDiv (v n : Nat) : Nat := (v + n - 1) / n

end Sys2Proof
end

