-- ==== Sys2Proof/Syntax.lean ====
section
/-! DEFINITION. The operands and the one inductive `Instr` of the CXR-800: a constructor for every row of
spec/opcode_table.json, the instructions of R116-R117 first, then the steps of the other agents (spec file 95). -/

namespace Sys2Proof

/-- The element formats of R52, in the order of their codes 0 to 20. -/
inductive Fmt
  | n8 | n16 | n32 | n64 | i8 | i16 | i32 | i64 | f16 | bf16 | f32 | f64
  | e4m3 | e5m2 | e2m1 | ue8m0 | tern5 | pos32 | v256 | bool1 | xacc
deriving DecidableEq, Repr, Inhabited

/-- Rounding modes of R60. -/
inductive Rnd | rne | rtz | rdn | rup
deriving DecidableEq, Repr, Inhabited

/-- The arithmetic modifier of R63. -/
structure Arith where
  rnd : Rnd
  sat : Bool
  ftz : Bool
deriving DecidableEq, Repr, Inhabited

/-- Condition codes 0 to 9 of R114. -/
inductive Cond | eq | ne | lt | le | gt | ge | ltn | len | gtn | gen
deriving DecidableEq, Repr, Inhabited

/-- Condition codes 0 to 5, those of column compares and selections (R113). -/
inductive ColCond | eq | ne | lt | le | gt | ge
deriving DecidableEq, Repr, Inhabited

/-- The logic operations of `flog` (R130). -/
inductive Logic | and | or | xor | andn | not
deriving DecidableEq, Repr, Inhabited

abbrev SReg := Fin 64
abbrev FReg := Fin 16
abbrev CReg := Fin 32
abbrev PReg := Fin 16
abbrev HReg := Fin 16
abbrev BReg := Fin 32
abbrev AReg := Fin 4
abbrev CapReg := Fin 4

/-- A scalar source (R123): kinds 01, 10 and 11. -/
inductive Src
  | s (n : SReg)
  | k (n : Fin 1024)
  | lit (v : BitVec 10)
deriving DecidableEq, Repr, Inhabited

/-- A column register or a position list, read as a column (R149). -/
inductive Col
  | c (n : CReg)
  | p (n : PReg)
deriving DecidableEq, Repr, Inhabited

/-- A column source under R149: a column, or a scalar broadcast under R30. -/
inductive ColSrc
  | col (r : Col)
  | sc (x : Src)
deriving DecidableEq, Repr, Inhabited

/-- The position-list qualifier of R115: none, or p0 to p14. -/
abbrev Qual := Option (Fin 15)

/-- The barrier binding of a copy (R115): none, or BB0 to BB14. -/
abbrev Binding := Option (Fin 15)

/-- The memory operand of a form-M scalar access (R88, R110): base, index, policy register, displacement. -/
structure MemRef where
  base : Src
  idx  : Src
  pol  : SReg
  disp : BitVec 11
deriving DecidableEq, Repr, Inhabited

/-- The buffer mode of a copy as encoded in disp11[10:4] (R248); mode 3 and a handle beside mode 0 are refused at issue (R249). -/
structure BufSide where
  mode   : BitVec 2
  handle : BReg
deriving DecidableEq, Repr, Inhabited

/-- The scopes of R278. -/
inductive Scope | context | core | cluster | module | system
deriving DecidableEq, Repr, Inhabited

/-- Scaling modes of `mldw` (R236): 0 nos, 1 mx, 2 cs; any other literal is refused (R236). -/
abbrev ScaleLit := BitVec 10

/-- The header of a request flit (R403), as the link layer delivers it. `check` is bytes 120-127. -/
structure Flit where
  type   : BitVec 8
  dest   : BitVec 10
  src    : BitVec 10
  part   : PartId
  tag    : Word
  addr   : BitVec 52
  len    : BitVec 32
  opc    : BitVec 32
  inline : List (BitVec 8)
  check  : Word
deriving DecidableEq, Repr, Inhabited

/-- What a peer answers to an outstanding request (R404, R406). -/
inductive PeerAnswer
  | data (bytes : List (BitVec 8))
  | protection
  | poison
deriving DecidableEq, Repr, Inhabited

/-- The question another module asks a den of this module (R386, R387, R392): `create` makes
a block's record. -/
inductive DenQuestion
  | exclusive (weightExp : BitVec 5)
  | outstanding
  | fin
  | setFin (template : Word)
  | create (base : BitVec 57) (fmt : BitVec 5) (template : Word)
deriving DecidableEq, Repr, Inhabited

/-- The settings a configuration image must state (R410). -/
structure ImageData where
  moduleNo   : BitVec 10
  routes     : List (BitVec 10 × Fin 16)
  timeout    : Nat
  quotas     : List (PartId × Nat)
  savePools  : List (PartId × Nat)
  shadowPool : Nat
  denSize    : Nat
  finSize    : Nat
  reserved   : Nat
  thermal    : Nat
  slots      : List (CoreId × List (BitVec 8))
deriving DecidableEq, Repr, Inhabited

/-- A firmware slot of module flash (R409): its version, its image, its signature. -/
structure FirmwareSlot where
  version   : Nat
  image     : List (BitVec 8)
  signature : List (BitVec 8)
deriving DecidableEq, Repr, Inhabited

/-- The instructions and steps of the CXR-800. -/
inductive Instr
  -- 0x01 scalar integer (R126)
  | add (d : SReg) (a b : Src)
  | sub (d : SReg) (a b : Src)
  | mul (d : SReg) (a b : Src)
  | mulh (d : SReg) (a b : Src)
  | mulhn (d : SReg) (a b : Src)
  | div (d : SReg) (a b : Src)
  | divn (d : SReg) (a b : Src)
  | rem (d : SReg) (a b : Src)
  | remn (d : SReg) (a b : Src)
  | and (d : SReg) (a b : Src)
  | or (d : SReg) (a b : Src)
  | xor (d : SReg) (a b : Src)
  | andn (d : SReg) (a b : Src)
  | shl (d : SReg) (a b : Src)
  | shr (d : SReg) (a b : Src)
  | sra (d : SReg) (a b : Src)
  | rotl (d : SReg) (a b : Src)
  | min (d : SReg) (a b : Src)
  | max (d : SReg) (a b : Src)
  | minn (d : SReg) (a b : Src)
  | maxn (d : SReg) (a b : Src)
  | popc (d : SReg) (a : Src)
  | clz (d : SReg) (a : Src)
  | ctz (d : SReg) (a : Src)
  | bfx (d : SReg) (a b c : Src)
  | bfxn (d : SReg) (a b c : Src)
  | bfi (d : SReg) (a b c : Src)
  | csel (d : SReg) (a b : Src) (f : FReg)
  | addsh (d : SReg) (a b : Src) (m : BitVec 5)
  -- 0x02 immediates (R129)
  | addi (d : SReg) (a : Src) (imm : BitVec 33)
  | andi (d : SReg) (a : Src) (imm : BitVec 33)
  | ori (d : SReg) (a : Src) (imm : BitVec 33)
  | xori (d : SReg) (a : Src) (imm : BitVec 33)
  | shli (d : SReg) (a : Src) (imm : BitVec 33)
  | shri (d : SReg) (a : Src) (imm : BitVec 33)
  | srai (d : SReg) (a : Src) (imm : BitVec 33)
  | muli (d : SReg) (a : Src) (imm : BitVec 33)
  | ldi (d : SReg) (imm : BitVec 33)
  | ldhi (d : SReg) (imm : BitVec 33)
  -- 0x03 predicates (R130)
  | scmp (d : FReg) (a b : Src) (cc : Cond)
  | flog (d : FReg) (a b : FReg) (op : Logic)
  | fset (d : FReg) (a : Src)
  | ftos (d : SReg) (a : FReg)
  -- 0x04, 0x05 branches and jumps (R131, R133)
  | br (neg : Bool) (f : FReg) (disp : BitVec 45)
  | bra (disp : BitVec 45)
  | call (disp : BitVec 45)
  | bryl (neg : Bool) (disp : BitVec 45)
  | jr (a : Src)
  | callr (a : Src)
  -- 0x06, 0x07 scalar memory (R134)
  | ldb (d : SReg) (m : MemRef)
  | ldbn (d : SReg) (m : MemRef)
  | ldh (d : SReg) (m : MemRef)
  | ldhn (d : SReg) (m : MemRef)
  | ldw (d : SReg) (m : MemRef)
  | ldwn (d : SReg) (m : MemRef)
  | ldd (d : SReg) (m : MemRef)
  | stb (d : SReg) (m : MemRef)
  | sth (d : SReg) (m : MemRef)
  | stw (d : SReg) (m : MemRef)
  | std (d : SReg) (m : MemRef)
  -- 0x08 scalar atomics (R139)
  | aadd (d : SReg) (m : MemRef) (w32 : Bool)
  | aand (d : SReg) (m : MemRef) (w32 : Bool)
  | aor (d : SReg) (m : MemRef) (w32 : Bool)
  | axor (d : SReg) (m : MemRef) (w32 : Bool)
  | amin (d : SReg) (m : MemRef) (w32 : Bool)
  | amax (d : SReg) (m : MemRef) (w32 : Bool)
  | aminn (d : SReg) (m : MemRef) (w32 : Bool)
  | amaxn (d : SReg) (m : MemRef) (w32 : Bool)
  | axchg (d : SReg) (m : MemRef) (w32 : Bool)
  | acas (d : SReg) (m : MemRef) (w32 : Bool)
  -- 0x09 fence (R298)
  | fenceFull (scope : Scope)
  | fenceAcq (scope : Scope)
  | fenceRel (scope : Scope)
  -- 0x10 column integer (R157)
  | vadd (d : CReg) (a b : ColSrc) (sat : Bool) (q : Qual)
  | vsub (d : CReg) (a b : ColSrc) (sat : Bool) (q : Qual)
  | vmul (d : CReg) (a b : ColSrc) (sat : Bool) (q : Qual)
  | vmulh (d : CReg) (a b : ColSrc) (q : Qual)
  | vmin (d : CReg) (a b : ColSrc) (q : Qual)
  | vmax (d : CReg) (a b : ColSrc) (q : Qual)
  | vabs (d : CReg) (a : ColSrc) (sat : Bool) (q : Qual)
  | vneg (d : CReg) (a : ColSrc) (sat : Bool) (q : Qual)
  | vand (d : CReg) (a b : ColSrc) (q : Qual)
  | vor (d : CReg) (a b : ColSrc) (q : Qual)
  | vxor (d : CReg) (a b : ColSrc) (q : Qual)
  | vshl (d : CReg) (a b : ColSrc) (q : Qual)
  | vshr (d : CReg) (a b : ColSrc) (q : Qual)
  | vsra (d : CReg) (a b : ColSrc) (q : Qual)
  | vpopc (d : CReg) (a : ColSrc) (q : Qual)
  | vclz (d : CReg) (a : ColSrc) (q : Qual)
  | vmov (d : CReg) (a : ColSrc) (q : Qual)
  | vbcast (d : CReg) (a b : Src)
  | viota (d : CReg) (a b c : Src) (sat : Bool)
  | vsel (d : CReg) (a b : ColSrc) (c : Col) (q : Qual)
  | vmulw (d : CReg) (a b : ColSrc)
  | vmad (d : CReg) (a b c : ColSrc) (sat : Bool) (q : Qual)
  -- 0x11 column float (R159)
  | fadd (d : CReg) (a b : ColSrc) (m : Arith) (q : Qual)
  | fsub (d : CReg) (a b : ColSrc) (m : Arith) (q : Qual)
  | fmul (d : CReg) (a b : ColSrc) (m : Arith) (q : Qual)
  | ffma (d : CReg) (a b c : ColSrc) (m : Arith) (q : Qual)
  | fmin (d : CReg) (a b : ColSrc) (m : Arith) (q : Qual)
  | fmax (d : CReg) (a b : ColSrc) (m : Arith) (q : Qual)
  | fabs (d : CReg) (a : ColSrc) (m : Arith) (q : Qual)
  | fneg (d : CReg) (a : ColSrc) (m : Arith) (q : Qual)
  | fdiv (d : CReg) (a b : ColSrc) (m : Arith) (q : Qual)
  | fsqrt (d : CReg) (a : ColSrc) (m : Arith) (q : Qual)
  | fexp2 (d : CReg) (a : ColSrc) (m : Arith) (q : Qual)
  | flog2 (d : CReg) (a : ColSrc) (m : Arith) (q : Qual)
  | fscl (d : CReg) (a b : ColSrc) (m : Arith) (q : Qual)
  -- 0x12 tests (R161)
  | vcmp (d : CReg) (a b : ColSrc) (cc : ColCond)
  | vnz (d : CReg) (a : Col)
  | vnan (d : CReg) (a : Col)
  -- 0x13 conversions (R162-R166)
  | cvtn (d : CReg) (a : Col) (t : BitVec 10) (m : Arith)
  | cvtw (d : CReg) (a : Col) (t : BitVec 10) (m : Arith)
  | cvt42 (d : CReg) (a : Col) (m : Arith)
  | cvtif (d : CReg) (a : Col) (t : BitVec 10) (m : Arith)
  | cvtfi (d : CReg) (a : Col) (t : BitVec 10) (m : Arith)
  | unpk3 (d : CReg) (a : Col)
  | pk3 (d : CReg) (a : Col)
  | cvts (d : CReg) (a b : Col) (m : Arith)
  -- 0x14 reductions (R167-R170)
  | redSum (d : SReg) (a : Col) (m : Arith) (q : Qual)
  | redMin (d : SReg) (a : Col) (m : Arith) (q : Qual)
  | redMax (d : SReg) (a : Col) (m : Arith) (q : Qual)
  | redCnt (d : SReg) (a : Col) (m : Arith) (q : Qual)
  | scanInc (d : CReg) (a : Col) (m : Arith)
  | scanExc (d : CReg) (a : Col) (m : Arith)
  | segred (d : CReg) (a b : Col) (m : Arith)
  | tdot (d : SReg) (a b : Col) (sat : Bool)
  | redDot (d : SReg) (a b : Col) (m : Arith) (q : Qual)
  -- 0x18 column memory (R172-R181)
  | ldc (d : CReg) (a b : Src) (pol : SReg) (q : Qual) (disp : BitVec 11)
  | stc (d : CReg) (a b : Src) (pol : SReg) (q : Qual) (disp : BitVec 11)
  | gath (d : CReg) (a : Src) (b : Col) (pol : SReg) (q : Qual) (disp : BitVec 11)
  | scat (d : CReg) (a : Src) (b : Col) (pol : SReg) (q : Qual) (disp : BitVec 11)
  | ldt (d : CReg) (h : HReg) (b : ColSrc) (pol : SReg)
  | stt (d : CReg) (h : HReg) (b : ColSrc) (pol : SReg)
  | btld (d : CReg) (h : HReg) (b : Col) (pol : SReg)
  | segst (d : CReg) (a : Src) (pol : SReg) (disp : BitVec 11)
  | catom (d : CReg) (a : Src) (b : Col) (pol : SReg) (w32 : Bool) (op : Fin 8)
  -- 0x19 column management (R183-R186)
  | calloc (d : Col) (a : Src) (fmt : Fmt)
  | cfree (d : Col)
  | cfmt (d : CReg) (fmt : Fmt)
  | len (d : SReg) (a : Col)
  | trunc (d : Col) (a : Src)
  | setvl (a : ColSrc)
  | cdesc (d : CReg) (a : Col)
  -- 0x20 selection (R198-R203)
  | sel (d : PReg) (a b : ColSrc) (cc : ColCond) (q : Qual)
  | selr (d : PReg) (a b c : ColSrc) (q : Qual)
  | selb (d : PReg) (a : Col) (q : Qual)
  | pand (d : PReg) (a b : Col)
  | por (d : PReg) (a b : Col)
  | pdiff (d : PReg) (a b : Col)
  | prjp (d : PReg) (a b : Col)
  -- 0x21 projection (R204-R206)
  | prj (d : CReg) (a b : Col)
  | plc (d : CReg) (a b : Col)
  | pcol (d : CReg) (a : Col) (b : Src)
  -- 0x22 joins (R207-R210)
  | joinH (d : PReg) (a b : Col)
  | joinM (d : PReg) (a b : Col)
  | semi (d : PReg) (a b : Col)
  | anti (d : PReg) (a b : Col)
  -- 0x23 grouping (R211, R212)
  | grp (d : CReg) (a : Col)
  | aggSum (d : CReg) (a b : Col) (c : ColSrc) (m : Arith)
  | aggMin (d : CReg) (a b : Col) (c : ColSrc) (m : Arith)
  | aggMax (d : CReg) (a b : Col) (c : ColSrc) (m : Arith)
  | aggCnt (d : CReg) (a b : Col) (c : ColSrc) (m : Arith)
  -- 0x24 sorting and search (R213-R216)
  | sort (d : PReg) (a : Col)
  | sortd (d : PReg) (a : Col)
  | topk (d : PReg) (a : Col) (b : Src)
  | srch (d : PReg) (a : Col) (b : ColSrc)
  | uniq (d : PReg) (a : Col)
  -- 0x28 streams and buffers (R242-R247)
  | strm (d : CReg) (a : BReg) (b c : Src) (fmt : Fmt)
  | unstrm (d : CReg)
  | bfwait (a : BReg) (full : Bool)
  | bftry (d : FReg) (a : BReg) (st : Fin 4)
  | bfsetCfg (a : BReg) (b c : Src)
  | bfsetCfga (a : BReg) (b c : Src)
  | bfsetClaim (a : BReg)
  | bfsetFull (a : BReg)
  | bfsetRel (a : BReg)
  | bfinfo (d : SReg) (a : BReg)
  -- 0x29 copies (R248-R253)
  | cpy (d : SReg) (a b : Src) (pol : SReg) (q : Binding) (buf : BufSide)
  | cpyx (d : SReg) (a b : Src) (pol : SReg) (q : Binding) (buf : BufSide)
  | cpyc (d : SReg) (a b : Src) (pol : SReg) (q : Binding) (buf : BufSide)
  | txc (d : SReg) (a : Src) (pol : SReg) (q : Binding)
  | txe (d : SReg) (a : Src) (pol : SReg) (q : Binding)
  -- 0x2A matrix (R256-R264)
  | matt (a : Src)
  | mldw (a : ColSrc) (mode : ScaleLit) (c : Option Col) (fmt : Fmt)
  | mmul (d : AReg) (a : Col) (b : Src)
  | mmuls (d : AReg) (a b : Col) (c : Src)
  | macswp (d : AReg)
  | macrd (d : CReg) (a : AReg) (b c : Src) (fmt : Fmt)
  | macclr (d : AReg) (fmt : Fmt)
  -- 0x2B exact reduction (R267-R269)
  | xred (a : Src) (b : Col) (ftz : Bool)
  | xfin (d : CReg) (a b : Src) (m : Arith)
  | xclr (a b : Src)
  -- 0x30 handles (R381-R388)
  | hmk (d : HReg) (a b c : Src) (fmt : Fmt)
  | hcpy (d a : HReg)
  | hdrop (a : HReg)
  | hfin (a : HReg) (b : Src)
  | hexcl (d : FReg) (a : HReg)
  | hld (d : HReg) (a : Src)
  | hst (a : Src) (b : HReg)
  | hinfo (d : SReg) (a : HReg) (sel : BitVec 10)
  | hsp (d : HReg) (a c : Src) (fmt : Fmt)
  -- 0x31 key-value cache (R392-R394)
  | kvapp (a : HReg) (b : CReg)
  | kvdem (d : FReg) (a : HReg) (b : Src)
  | kvpro (a : HReg) (b : Src)
  | kvinfo (d : SReg) (a : HReg) (b : Src)
  -- 0x38 barriers (R303)
  | barInit (a b : Src)
  | barPost (a b : Src)
  | barArr (d : SReg) (a : Src)
  | barWait (d : FReg) (a b : Src)
  | barTry (d : SReg) (a b : Src)
  -- 0x39 queues (R308)
  | qmk (d : SReg) (a : Src)
  | qenq (d : SReg) (a : Src) (b : SReg) (c : FReg)
  | qdeq (d : SReg) (a : Src) (c : FReg)
  | qrm (d : SReg) (a b : Src)
  | qinfo (d : SReg) (a : Src)
  -- 0x3A tasks (R309-R314)
  | tsub (a b : Src)
  | tdep (d : SReg) (a b : Src)
  | lcap (a b : Src)
  | coord (d : SReg) (sel : BitVec 10)
  -- 0x40 frozen contexts (R340-R346)
  | frzRd (d : SReg) (a : CapReg) (b : Src)
  | frzWr (a : CapReg) (b c : Src)
  | frzResRetry (a : CapReg)
  | frzResSkip (a : CapReg)
  | frzResPc (a : CapReg) (b : Src)
  | frzKill (a : CapReg)
  | frzInfo (d : SReg) (a : CapReg)
  -- 0x41 system (R118)
  | mfs (d : SReg) (sr : BitVec 12)
  | mts (sr : BitVec 12) (a : Src)
  | trap (n : BitVec 21)
  | brk (n : BitVec 21)
  | tlbiPage (a : Src)
  | tlbiRange (a : Src) (count : BitVec 19)
  | pin (d : FReg) (a : Src) (slot : Fin 8) (lines : BitVec 21)
  | unpin (slot : Fin 8)
  | halt (n : BitVec 21)
  | cyc (d : SReg)
  -- the refusal of R122, taken at issue
  | illegalInstruction (w : BitVec 64) (reservedOperand : Bool)
  -- instructions without operands, of the groups above
  | ret
  | mdet
  | mflip
  | tend
  | tyld
  | hret
  | tlbiAll
  | nop
  -- steps of the fetch, the engines and the memory system
  | instructionFetch
  | elementGroup (c : CtxId) (g : Fin 4)
  | relationalGroupCommit (c : CtxId)
  | indexBatch (c : CtxId)
  | copySegment (c : CtxId)
  | activationRow (c : CtxId)
  | byteBatch (c : CtxId)
  | stripFill (k : CoreId) (b : BReg)
  | bufferAdmission (c : CtxId)
  | memoryReply (c : CtxId)
  | storeFailedAfterRelease (c : CtxId)
  | uncorrectableError (pa : BitVec 52)
  -- steps of the sett, the stops and the scheduler
  | handlerStart (cl : ClusterId)
  | stopAbandon
  | stopComplete
  | successorDecrement (cl : ClusterId)
  | leaseHeld (cl : ClusterId)
  | taskLaunch (k : CoreId)
  | idleSteal (k : CoreId)
  | stealRequest (thief victim : CoreId)
  | slotTableCycle (k : CoreId)
  | admissionRotate (k : CoreId)
  -- steps of queues, dens and the migration engine
  | queueRequest (k : CoreId)
  | queueReply (c : CtxId)
  | dropAtDen (cl : ClusterId)
  | finaliserArm (cl : ClusterId)
  | migrationStart (granule : Nat)
  | migrationSwitch (granule : Nat)
  | deadlineExpiry (c : CtxId)
  -- steps of Plefel Link
  | peerRead (f : Flit)
  | peerWrite (f : Flit)
  | peerAtomic (f : Flit)
  | xaccAdd (f : Flit)
  | peerDrop (f : Flit)
  | peerReply (tag : BitVec 64) (answer : PeerAnswer)
  | segmentWrite (f : Flit) (bytes : List (BitVec 8)) (crc : BitVec 64)
  | segmentRead (f : Flit)
  | flitForward (f : Flit)
  | replyTimeout (tag : BitVec 64)
  -- steps of the host and the management window
  | cxlMemRead (addr : BitVec 52) (len : Fin 65)
  | cxlMemWrite (addr : BitVec 52) (bytes : List (BitVec 8))
  | unsupportedRequest (tag : BitVec 16)
  | graphArm (garmb : BitVec 64)
  | rearm
  | registerWrite (offset : BitVec 25) (value : BitVec 64)
  | stop (cmd : BitVec 64)
  | restore (cmd : BitVec 64)
  | resumeHalted (cmd : BitVec 64)
  | reclaim (cmd : BitVec 64)
  | kill (cmd : BitVec 64)
  | resumePartition (cmd : BitVec 64)
  | killPartition (cmd : BitVec 64)
  | snap (cmd : BitVec 64)
  | slotEntryWrite (cmd : BitVec 64)
  | pageRootWrite (cmd : BitVec 64)
  | handlerRegisterWrite (cmd : BitVec 64)
  | counterRead (cmd : BitVec 64)
  | counterClear (cmd : BitVec 64)
  | peerWindowWrite (cmd : BitVec 64)
  | readback (cmd : BitVec 64)
  | marginWindow (cmd : BitVec 64)
  | quote (cmd : BitVec 64)
  | snapTrig
  | thermalStop
  | moduleReset (slots : List FirmwareSlot) (image : Option ImageData)
  | clusterUp (cl : ClusterId)
  | hbmTrainingComplete
  | flitReplay (f : Flit)
  | peerDenRequest (f : Flit) (den : ClusterId) (rec : BitVec 20) (gen : BitVec 17) (q : DenQuestion)
  | cxlCacheSnoop (addr : BitVec 52)
  | firmwareImageLoad (slot : FirmwareSlot)
  | migrationAbandon (granule : Nat)
deriving DecidableEq, Repr, Inhabited

end Sys2Proof
end

