-- ==== Sys2Proof/WellFormed.lean ====
section
/-! DEFINITION. Which instructions have an encoding: the even destinations of R112, the field limits that the constructors'
types do not already say, and the listed special registers of R119. -/

namespace Sys2Proof

/-- An access right of R119. -/
inductive SrAccess | ro | rw | h
deriving DecidableEq, Repr

/-- The access right of a special-register number, none for a number the table of R119 does not list. -/
def srAccess (n : Nat) : Option SrAccess :=
  if n ≤ 3 then some .ro
  else if n = 8 ∨ n = 0xA then some .rw
  else if n = 9 ∨ n = 0xB then some .ro
  else if 0x10 ≤ n ∧ n ≤ 0x16 then some .ro
  else if n = 0x18 ∨ n = 0x19 then some .rw
  else if n = 0x1A then some .ro
  else if n = 0x20 ∨ n = 0x21 then some .rw
  else if n = 0x22 ∨ n = 0x30 ∨ n = 0x31 ∨ n = 0x40 ∨ n = 0x41 then some .ro
  else if 0x50 ≤ n ∧ n ≤ 0x5E then some .rw
  else if 0x60 ≤ n ∧ n ≤ 0x65 then some .ro
  else if 0x100 ≤ n ∧ n ≤ 0x13F then some .h
  else if n = 0x200 then some .h
  else none

/-- Whether a context of the kind given may name the number (R120; step 9 of R121). -/
def srNamed (handler : Bool) (n : Nat) : Bool :=
  match srAccess n with
  | none => false
  | some .h => handler
  | some _ => true

/-- An even register number (R112); every even number of these classes has a successor that exists. -/
def evenReg {n : Nat} (r : Fin n) : Bool := r.val % 2 == 0

/-- The shift count of `shli`, `shri` and `srai` lies in imm33[5:0] (R129). -/
def shiftImm (imm : BitVec 33) : Bool := imm.toNat < 64

/-- Not a position list: what every source of major op 0x11 is (R122's table of fates, R159). -/
def ColSrc.notList : ColSrc → Bool
  | .col (.p _) => false
  | _ => true

/-- The limits that the operand types leave open: shift counts below 64 (R129), the unused b of `flog.not` (R125), even
registers (R112), a scale column of `mldw` exactly when a scaling mode is given (R236), special registers of R119, a count
of `tlbi.range` that is not 0 (R370), and no list among the sources of major op 0x11. -/
def Instr.wf : Instr → Bool
  | .shli _ _ imm | .shri _ _ imm | .srai _ _ imm => shiftImm imm
  | .flog _ _ b op => op != .not || b == 0
  | .acas d _ _ => evenReg d
  | .fadd _ a b _ _ | .fsub _ a b _ _ | .fmul _ a b _ _ | .fmin _ a b _ _ | .fmax _ a b _ _ | .fdiv _ a b _ _
  | .fscl _ a b _ _ => a.notList && b.notList
  | .ffma _ a b c _ _ => a.notList && b.notList && c.notList
  | .fabs _ a _ _ | .fneg _ a _ _ | .fsqrt _ a _ _ | .fexp2 _ a _ _ | .flog2 _ a _ _ => a.notList
  | .cvt42 d _ _ => evenReg d
  | .btld d _ _ _ => evenReg d
  | .segst d _ _ _ => evenReg d
  | .joinH d _ _ | .joinM d _ _ | .semi d _ _ | .anti d _ _ => evenReg d
  | .grp d _ => evenReg d
  | .mldw _ mode c _ => (mode == 0) == c.isNone
  | .qenq _ _ b _ => evenReg b
  | .qdeq d _ _ => evenReg d
  | .mfs _ sr => srNamed true sr.toNat
  | .mts sr _ => srNamed true sr.toNat
  | .tlbiRange _ count => count != 0
  | _ => true

/-- Whether the constructor is an instruction with an encoding (R116-R117), not a step of another agent. -/
def Instr.encoded : Instr → Bool
  | .illegalInstruction .. | .instructionFetch | .elementGroup .. | .relationalGroupCommit .. | .indexBatch ..
  | .copySegment .. | .activationRow .. | .byteBatch .. | .stripFill .. | .bufferAdmission .. | .memoryReply ..
  | .storeFailedAfterRelease .. | .uncorrectableError .. | .handlerStart .. | .stopAbandon | .stopComplete
  | .successorDecrement .. | .leaseHeld .. | .taskLaunch .. | .idleSteal .. | .stealRequest .. | .slotTableCycle ..
  | .admissionRotate .. | .queueRequest .. | .queueReply .. | .dropAtDen .. | .finaliserArm .. | .migrationStart ..
  | .migrationSwitch .. | .deadlineExpiry .. | .peerRead .. | .peerWrite .. | .peerAtomic .. | .xaccAdd .. | .peerDrop ..
  | .peerReply .. | .segmentWrite .. | .segmentRead .. | .flitForward .. | .replyTimeout .. | .cxlMemRead ..
  | .cxlMemWrite .. | .unsupportedRequest .. | .graphArm .. | .rearm | .registerWrite .. | .stop .. | .restore ..
  | .resumeHalted .. | .reclaim .. | .kill .. | .resumePartition .. | .killPartition .. | .snap .. | .slotEntryWrite ..
  | .pageRootWrite .. | .handlerRegisterWrite .. | .counterRead .. | .counterClear .. | .peerWindowWrite .. | .readback ..
  | .marginWindow .. | .quote .. | .snapTrig | .thermalStop | .moduleReset .. | .clusterUp .. | .hbmTrainingComplete
  | .flitReplay .. | .peerDenRequest .. | .cxlCacheSnoop .. | .firmwareImageLoad .. | .migrationAbandon .. => false
  | _ => true

/-- A well-formed instruction: one that some word encodes. -/
abbrev Instr.WF (i : Instr) : Prop := i.encoded = true ∧ i.wf = true

end Sys2Proof
end

