-- ==== Sys2Proof/Decode.lean ====
section
/-! DEFINITION. Decoding an instruction word by the checks of R121 over the five layouts of R109, and after it the encoder,
written from the same tables (R109-R119, R125, R156, R187, R236, R297, R340, R380). -/

namespace Sys2Proof

/-- The two fates of a refused word (R121): illegal instruction (0x04), reserved operand (0x05). -/
inductive BadWord | illegal | reserved
deriving DecidableEq, Repr

/-- What the context's state decides in R121: a handler context (steps 4, 7, 9), an attached context (step 7). -/
structure DecodeCtx where
  handler  : Bool
  attached : Bool
deriving DecidableEq, Repr

/-! ## Fields of R109 -/

/-- A source field with its kind tag (R111). -/
abbrev SrcBits := Nat × Nat

def fOp (w : Nat) : Nat := bitsAt w 57 7
def fFn (w : Nat) : Nat := bitsAt w 51 6
def fD (w : Nat) : Nat := bitsAt w 45 6
def fA (w : Nat) : SrcBits := (bitsAt w 43 2, bitsAt w 33 10)
def fB (w : Nat) : SrcBits := (bitsAt w 31 2, bitsAt w 21 10)
def fC (w : Nat) : SrcBits := (bitsAt w 19 2, bitsAt w 9 10)
def fM (w : Nat) : Nat := bitsAt w 4 5
def fQ (w : Nat) : Nat := bitsAt w 0 4
def fImm33 (w : Nat) : BitVec 33 := BitVec.ofNat 33 (bitsAt w 0 33)
def fPol (w : Nat) : Nat := bitsAt w 15 6
def fQM (w : Nat) : Nat := bitsAt w 11 4
def fDisp11 (w : Nat) : BitVec 11 := BitVec.ofNat 11 (bitsAt w 0 11)
def fNeg (w : Nat) : Bool := bitsAt w 50 1 == 1
def fF (w : Nat) : Nat := bitsAt w 46 4
def fZero (w : Nat) : Nat := bitsAt w 45 1
def fDisp45 (w : Nat) : BitVec 45 := BitVec.ofNat 45 (bitsAt w 0 45)
def fSr (w : Nat) : Nat := bitsAt w 21 12
def fImm21 (w : Nat) : BitVec 21 := BitVec.ofNat 21 (bitsAt w 0 21)

/-! ## Register numbers and kinds (R111, R112) -/

def regNum (n v : Nat) : Option (Fin n) := if h : v < n then some ⟨v, h⟩ else none

/-- An even destination (R112). -/
def evenNum (n v : Nat) : Option (Fin n) := if v % 2 = 0 then regNum n v else none

/-- A kind-00 field of the class given (R111). -/
def classNum (n cls : Nat) (x : SrcBits) : Option (Fin n) :=
  if x.1 = 0 ∧ x.2 / 128 = cls then regNum n (x.2 % 64) else none

def Src.parse (x : SrcBits) : Option Src :=
  match x.1 with
  | 1 => (regNum 64 (x.2 % 64)).map .s
  | 2 => (regNum 1024 x.2).map .k
  | 3 => some (.lit (BitVec.ofNat 10 x.2))
  | _ => none

/-- "col only": kind 00 of class c or p (R149). -/
def Col.parse (x : SrcBits) : Option Col :=
  match classNum 32 0 x with
  | some r => some (Col.c r)
  | none => (classNum 16 1 x).map Col.p

/-- "col": a column or a scalar to broadcast (R149). -/
def ColSrc.parse (x : SrcBits) : Option ColSrc :=
  if x.1 = 0 then (Col.parse x).map .col else (Src.parse x).map .sc

/-- "lit": kind 11 only. -/
def litParse (x : SrcBits) : Option (BitVec 10) := if x.1 = 3 then some (BitVec.ofNat 10 x.2) else none

/-- A class-a register, which an attached context alone may name (step 7 of R121). -/
def aNum (k : DecodeCtx) (x : SrcBits) : Option AReg := if k.attached then classNum 4 4 x else none
def aDest (k : DecodeCtx) (v : Nat) : Option AReg := if k.attached then regNum 4 v else none

/-- The bits of a source field that must be zero: the whole of an unused one, bit 6 of kind 00, bits 9 to 6 of kind 01. -/
def zeroSrc (used : Bool) (x : SrcBits) : Bool :=
  if used then
    match x.1 with
    | 0 => x.2 / 64 % 2 == 0
    | 1 => x.2 / 64 == 0
    | _ => true
  else x.1 == 0 && x.2 == 0

/-! ## Modifier and qualifier (R63, R113-R115) -/

inductive MUse | unused | arith | value
deriving DecidableEq, Repr

def zeroM (u : MUse) (m : Nat) : Bool :=
  match u with
  | .unused => m == 0
  | .arith => m % 2 == 0
  | .value => true

def Fmt.ofCode (n : Nat) : Option Fmt :=
  [Fmt.n8, .n16, .n32, .n64, .i8, .i16, .i32, .i64, .f16, .bf16, .f32, .f64, .e4m3, .e5m2, .e2m1, .ue8m0, .tern5, .pos32,
   .v256, .bool1, .xacc][n]?

def Rnd.ofCode (n : Nat) : Rnd :=
  match n with
  | 0 => .rne
  | 1 => .rtz
  | 2 => .rdn
  | _ => .rup

def Arith.ofBits (m : Nat) : Arith := { rnd := Rnd.ofCode (m / 8 % 4), sat := m / 4 % 2 == 1, ftz := m / 2 % 2 == 1 }

/-- R63's integer rule: only SAT may be set. -/
def satOf (m : Nat) : Option Bool := if m / 8 = 0 ∧ m / 2 % 2 = 0 then some (m / 4 % 2 == 1) else none

/-- A modifier of which no bit may be set. -/
def noneOf (m : Nat) : Option Unit := if m / 2 = 0 then some () else none

/-- A modifier of which only FTZ may be set (R267). -/
def ftzOf (m : Nat) : Option Bool := if m / 4 = 0 then some (m / 2 % 2 == 1) else none

def Cond.ofCode (n : Nat) : Option Cond := [Cond.eq, .ne, .lt, .le, .gt, .ge, .ltn, .len, .gtn, .gen][n]?
def ColCond.ofCode (n : Nat) : Option ColCond := [ColCond.eq, .ne, .lt, .le, .gt, .ge][n]?
def Logic.ofCode (n : Nat) : Option Logic := [Logic.and, .or, .xor, .andn, .not][n]?
def Scope.ofCode (n : Nat) : Option Scope := [Scope.context, .core, .cluster, .module, .system][n]?

/-- A position-list qualifier or a copy binding: 15 is none (R115). -/
def qualOf (q : Nat) : Option (Fin 15) := regNum 15 q

/-- A qualifier that must be 15 (R115). -/
def noQual (q : Nat) : Option Unit := if q = 15 then some () else none

/-- An atomic width: 0 is 64 bits, 1 is 32 (R115). -/
def width32 (q : Nat) : Option Bool := if q = 0 then some false else if q = 1 then some true else none

/-! ## Steps 5 to 9 of R121 -/

/-- A must-be-zero bit decides before any reserved operand does. -/
def judge (zero : Bool) (i : Option Instr) : Except BadWord Instr :=
  if zero then (match i with | some i => .ok i | none => .error .reserved) else .error .illegal

/-- The must-be-zero bits of a form-T word, given which fields the instruction uses. -/
def zeroT (w : Nat) (d a b c : Bool) (m : MUse) (q : Bool) : Bool :=
  (d || fD w == 0) && zeroSrc a (fA w) && zeroSrc b (fB w) && zeroSrc c (fC w) && zeroM m (fM w) && (q || fQ w == 0)

def zeroW (w : Nat) (a : Bool) : Bool := zeroSrc a (fA w)

def zeroMem (w : Nat) (b q : Bool) : Bool := zeroSrc true (fA w) && zeroSrc b (fB w) && (q || fQM w == 0)

def zeroS (w : Nat) (d a sr imm : Bool) : Bool :=
  (d || fD w == 0) && zeroSrc a (fA w) && (sr || fSr w == 0) && (imm || bitsAt w 0 21 == 0)

def sD (w : Nat) : Option SReg := regNum 64 (fD w)
def cD (w : Nat) : Option CReg := regNum 32 (fD w)
def pD (w : Nat) : Option PReg := regNum 16 (fD w)
def fDst (w : Nat) : Option FReg := regNum 16 (fD w)
def hD (w : Nat) : Option HReg := regNum 16 (fD w)
def srcA (w : Nat) : Option Src := Src.parse (fA w)
def srcB (w : Nat) : Option Src := Src.parse (fB w)
def srcC (w : Nat) : Option Src := Src.parse (fC w)
def colA (w : Nat) : Option Col := Col.parse (fA w)
def colB (w : Nat) : Option Col := Col.parse (fB w)
def colC (w : Nat) : Option Col := Col.parse (fC w)
def csA (w : Nat) : Option ColSrc := ColSrc.parse (fA w)
def csB (w : Nat) : Option ColSrc := ColSrc.parse (fB w)
def csC (w : Nat) : Option ColSrc := ColSrc.parse (fC w)
def hA (w : Nat) : Option HReg := classNum 16 2 (fA w)
def bA (w : Nat) : Option BReg := classNum 32 3 (fA w)
def capA (w : Nat) : Option CapReg := classNum 4 6 (fA w)
/-- A source of major op 0x11: its formats are floating point, and no list has one of them, so class p is a class the operand
does not accept (the third last row of the fates under R122). -/
def floatSrc (x : SrcBits) : Option ColSrc :=
  match ColSrc.parse x with
  | some r => if r.notList then some r else none
  | none => none
def fsA (w : Nat) : Option ColSrc := floatSrc (fA w)
def fsB (w : Nat) : Option ColSrc := floatSrc (fB w)
def fsC (w : Nat) : Option ColSrc := floatSrc (fC w)
def ar (w : Nat) : Arith := Arith.ofBits (fM w)
def polReg (w : Nat) : Option SReg := regNum 64 (fPol w)

def memRef (w : Nat) : Option MemRef := do
  some { base := ← srcA w, idx := ← srcB w, pol := ← polReg w, disp := fDisp11 w }

/-! ## One shape per row of the field tables -/

def tSAB (w : Nat) (k : SReg → Src → Src → Instr) : Except BadWord Instr :=
  judge (zeroT w true true true false .unused false) (do some (k (← sD w) (← srcA w) (← srcB w)))

def tSA (w : Nat) (k : SReg → Src → Instr) : Except BadWord Instr :=
  judge (zeroT w true true false false .unused false) (do some (k (← sD w) (← srcA w)))

def tSABC (w : Nat) (k : SReg → Src → Src → Src → Instr) : Except BadWord Instr :=
  judge (zeroT w true true true true .unused false) (do some (k (← sD w) (← srcA w) (← srcB w) (← srcC w)))

def tA (w : Nat) (k : Src → Instr) : Except BadWord Instr :=
  judge (zeroT w false true false false .unused false) (do some (k (← srcA w)))

def tAB (w : Nat) (k : Src → Src → Instr) : Except BadWord Instr :=
  judge (zeroT w false true true false .unused false) (do some (k (← srcA w) (← srcB w)))

def tNone (w : Nat) (i : Instr) : Except BadWord Instr :=
  judge (zeroT w false false false false .unused false) (some i)

def wImm (w : Nat) (k : SReg → Src → BitVec 33 → Instr) : Except BadWord Instr :=
  judge (zeroW w true) (do some (k (← sD w) (← srcA w) (fImm33 w)))

def wShift (w : Nat) (k : SReg → Src → BitVec 33 → Instr) : Except BadWord Instr :=
  judge (zeroW w true && bitsAt w 6 27 == 0) (do some (k (← sD w) (← srcA w) (fImm33 w)))

def wLoad (w : Nat) (k : SReg → BitVec 33 → Instr) : Except BadWord Instr :=
  judge (zeroW w false) (do some (k (← sD w) (fImm33 w)))

def mScalar (w : Nat) (k : SReg → MemRef → Instr) : Except BadWord Instr :=
  judge (zeroMem w true false) (do some (k (← sD w) (← memRef w)))

def mAtomic (w : Nat) (k : SReg → MemRef → Bool → Instr) : Except BadWord Instr :=
  judge (zeroMem w true true) (do some (k (← sD w) (← memRef w) (← width32 (fQM w))))

def vSatQ2 (w : Nat) (k : CReg → ColSrc → ColSrc → Bool → Qual → Instr) : Except BadWord Instr :=
  judge (zeroT w true true true false .arith true)
    (do some (k (← cD w) (← csA w) (← csB w) (← satOf (fM w)) (qualOf (fQ w))))

def vQ2 (w : Nat) (k : CReg → ColSrc → ColSrc → Qual → Instr) : Except BadWord Instr :=
  judge (zeroT w true true true false .arith true)
    (do let _ ← noneOf (fM w); some (k (← cD w) (← csA w) (← csB w) (qualOf (fQ w))))

def vSatQ1 (w : Nat) (k : CReg → ColSrc → Bool → Qual → Instr) : Except BadWord Instr :=
  judge (zeroT w true true false false .arith true)
    (do some (k (← cD w) (← csA w) (← satOf (fM w)) (qualOf (fQ w))))

def vQ1 (w : Nat) (k : CReg → ColSrc → Qual → Instr) : Except BadWord Instr :=
  judge (zeroT w true true false false .arith true)
    (do let _ ← noneOf (fM w); some (k (← cD w) (← csA w) (qualOf (fQ w))))

def vF2 (w : Nat) (k : CReg → ColSrc → ColSrc → Arith → Qual → Instr) : Except BadWord Instr :=
  judge (zeroT w true true true false .arith true)
    (do some (k (← cD w) (← fsA w) (← fsB w) (ar w) (qualOf (fQ w))))

def vF1 (w : Nat) (k : CReg → ColSrc → Arith → Qual → Instr) : Except BadWord Instr :=
  judge (zeroT w true true false false .arith true)
    (do some (k (← cD w) (← fsA w) (ar w) (qualOf (fQ w))))

def tTest (w : Nat) (k : CReg → Col → Instr) : Except BadWord Instr :=
  judge (zeroT w true true false false .unused true) (do let _ ← noQual (fQ w); some (k (← cD w) (← colA w)))

def tCvt (w : Nat) (k : CReg → Col → BitVec 10 → Arith → Instr) : Except BadWord Instr :=
  judge (zeroT w true true true false .arith true)
    (do let _ ← noQual (fQ w); some (k (← cD w) (← colA w) (← litParse (fB w)) (ar w)))

/-- `unpk3`, `pk3`. Of an m that is not zero, m[0] is an illegal bit (0x04; R63, R121 step 5), another is reserved (0x05; R166): log
entry 91. -/
def tPk (w : Nat) (k : CReg → Col → Instr) : Except BadWord Instr :=
  judge (zeroT w true true false false .arith true)
    (do let _ ← noneOf (fM w); let _ ← noQual (fQ w); some (k (← cD w) (← colA w)))

def tRed (w : Nat) (k : SReg → Col → Arith → Qual → Instr) : Except BadWord Instr :=
  judge (zeroT w true true false false .arith true) (do some (k (← sD w) (← colA w) (ar w) (qualOf (fQ w))))

def tScan (w : Nat) (k : CReg → Col → Arith → Instr) : Except BadWord Instr :=
  judge (zeroT w true true false false .arith true)
    (do let _ ← noQual (fQ w); some (k (← cD w) (← colA w) (ar w)))

/-- `ldc`, `stc`. -/
def mCol (w : Nat) (k : CReg → Src → Src → SReg → Qual → BitVec 11 → Instr) : Except BadWord Instr :=
  judge (zeroMem w true true)
    (do some (k (← cD w) (← srcA w) (← srcB w) (← polReg w) (qualOf (fQM w)) (fDisp11 w)))

/-- `gath`, `scat`. -/
def mIdx (w : Nat) (k : CReg → Src → Col → SReg → Qual → BitVec 11 → Instr) : Except BadWord Instr :=
  judge (zeroMem w true true)
    (do some (k (← cD w) (← srcA w) (← colB w) (← polReg w) (qualOf (fQM w)) (fDisp11 w)))

/-- `ldt`, `stt`. -/
def mTensor (w : Nat) (k : CReg → HReg → ColSrc → SReg → Instr) : Except BadWord Instr :=
  judge (zeroMem w true true && bitsAt w 0 11 == 0)
    (do let _ ← noQual (fQM w); some (k (← cD w) (← hA w) (← csB w) (← polReg w)))

/-- `calloc`, `cfree`, `trunc`: the target is c[d] when b is zero, else the list that b names, with d zero (R183). -/
def target (w : Nat) : Option Col :=
  if fB w = (0, 0) then (cD w).map .c else (classNum 16 1 (fB w)).map .p

def zeroTarget (w : Nat) (a : Bool) (m : MUse) : Bool := zeroT w (fB w == (0, 0)) a true false m false

def tSel2 (w : Nat) (k : PReg → Col → Col → Instr) : Except BadWord Instr :=
  judge (zeroT w true true true false .unused true)
    (do let _ ← noQual (fQ w); some (k (← pD w) (← colA w) (← colB w)))

def tPrj (w : Nat) (k : CReg → Col → Col → Instr) : Except BadWord Instr :=
  judge (zeroT w true true true false .unused true)
    (do let _ ← noQual (fQ w); some (k (← cD w) (← colA w) (← colB w)))

def tJoin (w : Nat) (k : PReg → Col → Col → Instr) : Except BadWord Instr :=
  judge (zeroT w true true true false .unused true)
    (do let _ ← noQual (fQ w); some (k (← evenNum 16 (fD w)) (← colA w) (← colB w)))

def tAgg (w : Nat) (k : CReg → Col → Col → ColSrc → Arith → Instr) : Except BadWord Instr :=
  judge (zeroT w true true true true .arith true)
    (do let _ ← noQual (fQ w); some (k (← cD w) (← colA w) (← colB w) (← csC w) (ar w)))

def tSort (w : Nat) (k : PReg → Col → Instr) : Except BadWord Instr :=
  judge (zeroT w true true false false .unused true) (do let _ ← noQual (fQ w); some (k (← pD w) (← colA w)))

def mCopy (w : Nat) (k : SReg → Src → Src → SReg → Binding → BufSide → Instr) : Except BadWord Instr :=
  judge (zeroMem w true true && bitsAt w 0 4 == 0)
    (do some (k (← sD w) (← srcA w) (← srcB w) (← polReg w) (qualOf (fQM w))
          { mode := BitVec.ofNat 2 (bitsAt w 9 2), handle := ← regNum 32 (bitsAt w 4 5) }))

def mTx (w : Nat) (k : SReg → Src → SReg → Binding → Instr) : Except BadWord Instr :=
  judge (zeroMem w false true && bitsAt w 0 11 == 0)
    (do some (k (← sD w) (← srcA w) (← polReg w) (qualOf (fQM w))))

/-! ## The opcode grids of R117 -/

def dec01 (w : Nat) : Except BadWord Instr :=
  match fFn w with
  | 0 => tSAB w .add
  | 1 => tSAB w .sub
  | 2 => tSAB w .mul
  | 3 => tSAB w .mulh
  | 4 => tSAB w .mulhn
  | 5 => tSAB w .div
  | 6 => tSAB w .divn
  | 7 => tSAB w .rem
  | 8 => tSAB w .remn
  | 9 => tSAB w .and
  | 10 => tSAB w .or
  | 11 => tSAB w .xor
  | 12 => tSAB w .andn
  | 13 => tSAB w .shl
  | 14 => tSAB w .shr
  | 15 => tSAB w .sra
  | 16 => tSAB w .rotl
  | 17 => tSAB w .min
  | 18 => tSAB w .max
  | 19 => tSAB w .minn
  | 20 => tSAB w .maxn
  | 21 => tSA w .popc
  | 22 => tSA w .clz
  | 23 => tSA w .ctz
  | 24 => tSABC w .bfx
  | 25 => tSABC w .bfxn
  | 26 => tSABC w .bfi
  | 27 => judge (zeroT w true true true false .unused true)
      (do some (.csel (← sD w) (← srcA w) (← srcB w) (← regNum 16 (fQ w))))
  | 28 => judge (zeroT w true true true false .value false)
      (do some (.addsh (← sD w) (← srcA w) (← srcB w) (BitVec.ofNat 5 (fM w))))
  | _ => .error .illegal

def dec02 (w : Nat) : Except BadWord Instr :=
  match fFn w with
  | 0 => wImm w .addi
  | 1 => wImm w .andi
  | 2 => wImm w .ori
  | 3 => wImm w .xori
  | 4 => wShift w .shli
  | 5 => wShift w .shri
  | 6 => wShift w .srai
  | 7 => wImm w .muli
  | 8 => wLoad w .ldi
  | 9 => wLoad w .ldhi
  | _ => .error .illegal

def dec03 (w : Nat) : Except BadWord Instr :=
  match fFn w with
  | 0 => judge (zeroT w true true true false .value false)
      (do some (.scmp (← fDst w) (← srcA w) (← srcB w) (← Cond.ofCode (fM w))))
  | 1 => judge (zeroT w true true (fM w != 4) false .value false)
      (do
        let op ← Logic.ofCode (fM w)
        let d ← fDst w
        let a ← classNum 16 5 (fA w)
        if op = .not then some (.flog d a 0 op) else some (.flog d a (← classNum 16 5 (fB w)) op))
  | 2 => judge (zeroT w true true false false .unused false) (do some (.fset (← fDst w) (← srcA w)))
  | 3 => judge (zeroT w true true false false .unused false) (do some (.ftos (← sD w) (← classNum 16 5 (fA w))))
  | _ => .error .illegal

def dec04 (w : Nat) : Except BadWord Instr :=
  match fFn w with
  | 0 => judge (fZero w == 0) (do some (.br (fNeg w) (← regNum 16 (fF w)) (fDisp45 w)))
  | 1 => judge (fZero w == 0 && fF w == 0 && !fNeg w) (some (.bra (fDisp45 w)))
  | 2 => judge (fZero w == 0 && fF w == 0 && !fNeg w) (some (.call (fDisp45 w)))
  | 3 => judge (fZero w == 0 && fF w == 0) (some (.bryl (fNeg w) (fDisp45 w)))
  | _ => .error .illegal

def dec05 (w : Nat) : Except BadWord Instr :=
  match fFn w with
  | 0 => tA w .jr
  | 1 => tA w .callr
  | 2 => tNone w .ret
  | _ => .error .illegal

def dec06 (w : Nat) : Except BadWord Instr :=
  match fFn w with
  | 0 => mScalar w .ldb
  | 1 => mScalar w .ldbn
  | 2 => mScalar w .ldh
  | 3 => mScalar w .ldhn
  | 4 => mScalar w .ldw
  | 5 => mScalar w .ldwn
  | 6 => mScalar w .ldd
  | _ => .error .illegal

def dec07 (w : Nat) : Except BadWord Instr :=
  match fFn w with
  | 0 => mScalar w .stb
  | 1 => mScalar w .sth
  | 2 => mScalar w .stw
  | 3 => mScalar w .std
  | _ => .error .illegal

def dec08 (w : Nat) : Except BadWord Instr :=
  match fFn w with
  | 0 => mAtomic w .aadd
  | 1 => mAtomic w .aand
  | 2 => mAtomic w .aor
  | 3 => mAtomic w .axor
  | 4 => mAtomic w .amin
  | 5 => mAtomic w .amax
  | 6 => mAtomic w .aminn
  | 7 => mAtomic w .amaxn
  | 8 => mAtomic w .axchg
  | 9 => judge (zeroMem w true true)
      (do some (.acas (← evenNum 64 (fD w)) (← memRef w) (← width32 (fQM w))))
  | _ => .error .illegal

/-- R298. -/
def dec09 (w : Nat) : Except BadWord Instr :=
  match fFn w with
  | 0 => judge (zeroS w false false false true && bitsAt w 5 16 == 0)
      (do
        let sc ← Scope.ofCode (bitsAt w 0 3)
        match bitsAt w 3 2 with
        | 0 => some (.fenceFull sc)
        | 1 => some (.fenceAcq sc)
        | 2 => some (.fenceRel sc)
        | _ => none)
  | _ => .error .illegal

def dec10 (w : Nat) : Except BadWord Instr :=
  match fFn w with
  | 0 => vSatQ2 w .vadd
  | 1 => vSatQ2 w .vsub
  | 2 => vSatQ2 w .vmul
  | 3 => vQ2 w .vmulh
  | 4 => vQ2 w .vmin
  | 5 => vQ2 w .vmax
  | 6 => vSatQ1 w .vabs
  | 7 => vSatQ1 w .vneg
  | 8 => vQ2 w .vand
  | 9 => vQ2 w .vor
  | 10 => vQ2 w .vxor
  | 11 => vQ2 w .vshl
  | 12 => vQ2 w .vshr
  | 13 => vQ2 w .vsra
  | 14 => vQ1 w .vpopc
  | 15 => vQ1 w .vclz
  | 16 => vQ1 w .vmov
  | 17 => judge (zeroT w true true true false .arith true)
      (do let _ ← noneOf (fM w); let _ ← noQual (fQ w); some (.vbcast (← cD w) (← srcA w) (← srcB w)))
  | 18 => judge (zeroT w true true true true .arith true)
      (do let _ ← noQual (fQ w); some (.viota (← cD w) (← srcA w) (← srcB w) (← srcC w) (← satOf (fM w))))
  | 19 => judge (zeroT w true true true true .arith true)
      (do let _ ← noneOf (fM w); some (.vsel (← cD w) (← csA w) (← csB w) (← colC w) (qualOf (fQ w))))
  | 20 => judge (zeroT w true true true false .arith true)
      (do let _ ← noneOf (fM w); let _ ← noQual (fQ w); some (.vmulw (← cD w) (← csA w) (← csB w)))
  | 21 => judge (zeroT w true true true true .arith true)
      (do some (.vmad (← cD w) (← csA w) (← csB w) (← csC w) (← satOf (fM w)) (qualOf (fQ w))))
  | _ => .error .illegal

def dec11 (w : Nat) : Except BadWord Instr :=
  match fFn w with
  | 0 => vF2 w .fadd
  | 1 => vF2 w .fsub
  | 2 => vF2 w .fmul
  | 3 => judge (zeroT w true true true true .arith true)
      (do some (.ffma (← cD w) (← fsA w) (← fsB w) (← fsC w) (ar w) (qualOf (fQ w))))
  | 4 => vF2 w .fmin
  | 5 => vF2 w .fmax
  | 6 => vF1 w .fabs
  | 7 => vF1 w .fneg
  | 8 => vF2 w .fdiv
  | 9 => vF1 w .fsqrt
  | 10 => vF1 w .fexp2
  | 11 => vF1 w .flog2
  | 12 => vF2 w .fscl
  | _ => .error .illegal

def dec12 (w : Nat) : Except BadWord Instr :=
  match fFn w with
  | 0 => judge (zeroT w true true true false .value true)
      (do let _ ← noQual (fQ w); some (.vcmp (← cD w) (← csA w) (← csB w) (← ColCond.ofCode (fM w))))
  | 1 => tTest w .vnz
  | 2 => tTest w .vnan
  | _ => .error .illegal

def dec13 (w : Nat) : Except BadWord Instr :=
  match fFn w with
  | 0 => tCvt w .cvtn
  | 1 => tCvt w .cvtw
  | 2 => judge (zeroT w true true false false .arith true)
      (do let _ ← noQual (fQ w); some (.cvt42 (← evenNum 32 (fD w)) (← colA w) (ar w)))
  | 3 => tCvt w .cvtif
  | 4 => tCvt w .cvtfi
  | 5 => tPk w .unpk3
  | 6 => tPk w .pk3
  | 7 => judge (zeroT w true true true false .arith true)
      (do let _ ← noQual (fQ w); some (.cvts (← cD w) (← colA w) (← colB w) (ar w)))
  | _ => .error .illegal

def dec14 (w : Nat) : Except BadWord Instr :=
  match fFn w with
  | 0 => tRed w .redSum
  | 1 => tRed w .redMin
  | 2 => tRed w .redMax
  | 3 => tRed w .redCnt
  | 4 => tScan w .scanInc
  | 5 => tScan w .scanExc
  | 6 => judge (zeroT w true true true false .arith true)
      (do let _ ← noQual (fQ w); some (.segred (← cD w) (← colA w) (← colB w) (ar w)))
  | 7 => judge (zeroT w true true true false .arith true)
      (do let _ ← noQual (fQ w); some (.tdot (← sD w) (← colA w) (← colB w) (← satOf (fM w))))
  | 8 => judge (zeroT w true true true false .arith true)
      (do some (.redDot (← sD w) (← colA w) (← colB w) (ar w) (qualOf (fQ w))))
  | _ => .error .illegal

def dec18 (w : Nat) : Except BadWord Instr :=
  match fFn w with
  | 0 => mCol w .ldc
  | 1 => mCol w .stc
  | 2 => mIdx w .gath
  | 3 => mIdx w .scat
  | 4 => mTensor w .ldt
  | 5 => mTensor w .stt
  | 6 => judge (zeroMem w true true && bitsAt w 0 11 == 0)
      (do let _ ← noQual (fQM w); some (.btld (← evenNum 32 (fD w)) (← hA w) (← colB w) (← polReg w)))
  | 7 => judge (zeroMem w false true)
      (do let _ ← noQual (fQM w); some (.segst (← evenNum 32 (fD w)) (← srcA w) (← polReg w) (fDisp11 w)))
  | 8 => judge (zeroMem w true true && bitsAt w 0 8 == 0)
      (do some (.catom (← cD w) (← srcA w) (← colB w) (← polReg w) (← width32 (fQM w)) (← regNum 8 (bitsAt w 8 3))))
  | _ => .error .illegal

def dec19 (w : Nat) : Except BadWord Instr :=
  match fFn w with
  | 0 => judge (zeroTarget w true .value) (do some (.calloc (← target w) (← srcA w) (← Fmt.ofCode (fM w))))
  | 1 => judge (zeroTarget w false .unused) (do some (.cfree (← target w)))
  | 2 => judge (zeroT w true false false false .value false) (do some (.cfmt (← cD w) (← Fmt.ofCode (fM w))))
  | 3 => judge (zeroT w true true false false .unused false) (do some (.len (← sD w) (← colA w)))
  | 4 => judge (zeroTarget w true .unused) (do some (.trunc (← target w) (← srcA w)))
  | 5 => judge (zeroT w false true false false .unused false) (do some (.setvl (← csA w)))
  | 6 => judge (zeroT w true true false false .unused false) (do some (.cdesc (← cD w) (← colA w)))
  | _ => .error .illegal

def dec20 (w : Nat) : Except BadWord Instr :=
  match fFn w with
  | 0 => judge (zeroT w true true true false .value true)
      (do some (.sel (← pD w) (← csA w) (← csB w) (← ColCond.ofCode (fM w)) (qualOf (fQ w))))
  | 1 => judge (zeroT w true true true true .unused true)
      (do some (.selr (← pD w) (← csA w) (← csB w) (← csC w) (qualOf (fQ w))))
  | 2 => judge (zeroT w true true false false .unused true)
      (do some (.selb (← pD w) (← colA w) (qualOf (fQ w))))
  | 3 => tSel2 w .pand
  | 4 => tSel2 w .por
  | 5 => tSel2 w .pdiff
  | 6 => tSel2 w .prjp
  | _ => .error .illegal

def dec21 (w : Nat) : Except BadWord Instr :=
  match fFn w with
  | 0 => tPrj w .prj
  | 1 => tPrj w .plc
  | 2 => judge (zeroT w true true true false .unused true)
      (do let _ ← noQual (fQ w); some (.pcol (← cD w) (← colA w) (← srcB w)))
  | _ => .error .illegal

def dec22 (w : Nat) : Except BadWord Instr :=
  match fFn w with
  | 0 => tJoin w .joinH
  | 1 => tJoin w .joinM
  | 2 => tJoin w .semi
  | 3 => tJoin w .anti
  | _ => .error .illegal

def dec23 (w : Nat) : Except BadWord Instr :=
  match fFn w with
  | 0 => judge (zeroT w true true false false .unused true)
      (do let _ ← noQual (fQ w); some (.grp (← evenNum 32 (fD w)) (← colA w)))
  | 1 => tAgg w .aggSum
  | 2 => tAgg w .aggMin
  | 3 => tAgg w .aggMax
  | 4 => tAgg w .aggCnt
  | _ => .error .illegal

def dec24 (w : Nat) : Except BadWord Instr :=
  match fFn w with
  | 0 => tSort w .sort
  | 1 => tSort w .sortd
  | 2 => judge (zeroT w true true true false .unused true)
      (do let _ ← noQual (fQ w); some (.topk (← pD w) (← colA w) (← srcB w)))
  | 3 => judge (zeroT w true true true false .unused true)
      (do let _ ← noQual (fQ w); some (.srch (← pD w) (← colA w) (← csB w)))
  | 4 => tSort w .uniq
  | _ => .error .illegal

def dec28 (w : Nat) : Except BadWord Instr :=
  match fFn w with
  | 0 => judge (zeroT w true true true true .value false)
      (do some (.strm (← cD w) (← bA w) (← srcB w) (← srcC w) (← Fmt.ofCode (fM w))))
  | 1 => judge (zeroT w true false false false .unused false) (do some (.unstrm (← cD w)))
  | 2 => judge (zeroT w false true false false .value false)
      (do
        let a ← bA w
        if fM w = 0 then some (.bfwait a false) else if fM w = 2 then some (.bfwait a true) else none)
  | 3 => judge (zeroT w true true false false .value false)
      (do some (.bftry (← fDst w) (← bA w) (← regNum 4 (fM w))))
  | 4 => judge (zeroT w false true (decide (fM w ≤ 1)) (decide (fM w ≤ 1)) .value false)
      (do
        let a ← bA w
        match fM w with
        | 0 => some (.bfsetCfg a (← srcB w) (← srcC w))
        | 1 => some (.bfsetCfga a (← srcB w) (← srcC w))
        | 2 => some (.bfsetClaim a)
        | 3 => some (.bfsetFull a)
        | 4 => some (.bfsetRel a)
        | _ => none)
  | 5 => judge (zeroT w true true false false .unused false) (do some (.bfinfo (← sD w) (← bA w)))
  | _ => .error .illegal

def dec29 (w : Nat) : Except BadWord Instr :=
  match fFn w with
  | 0 => mCopy w .cpy
  | 1 => mCopy w .cpyx
  | 2 => mCopy w .cpyc
  | 3 => mTx w .txc
  | 4 => mTx w .txe
  | _ => .error .illegal

def dec2A (k : DecodeCtx) (w : Nat) : Except BadWord Instr :=
  match fFn w with
  | 0 => tA w .matt
  | 1 => tNone w .mdet
  | 2 => judge (zeroT w false true true ((fB w).2 != 0) .value false)
      (do
        let a ← csA w
        let mode ← litParse (fB w)
        let fmt ← Fmt.ofCode (fM w)
        if mode = 0 then some (.mldw a mode none fmt) else some (.mldw a mode (some (← colC w)) fmt))
  | 3 => tNone w .mflip
  | 4 => judge (zeroT w true true true false .unused false)
      (do some (.mmul (← aDest k (fD w)) (← colA w) (← srcB w)))
  | 5 => judge (zeroT w true true true true .unused false)
      (do some (.mmuls (← aDest k (fD w)) (← colA w) (← colB w) (← srcC w)))
  | 6 => judge (zeroT w true false false false .unused false) (do some (.macswp (← aDest k (fD w))))
  | 7 => judge (zeroT w true true true true .value false)
      (do some (.macrd (← cD w) (← aNum k (fA w)) (← srcB w) (← srcC w) (← Fmt.ofCode (fM w))))
  | 8 => judge (zeroT w true false false false .value false)
      (do some (.macclr (← aDest k (fD w)) (← Fmt.ofCode (fM w))))
  | _ => .error .illegal

def dec2B (w : Nat) : Except BadWord Instr :=
  match fFn w with
  | 0 => judge (zeroT w false true true false .arith false) (do some (.xred (← srcA w) (← colB w) (← ftzOf (fM w))))
  | 1 => judge (zeroT w true true true false .arith false) (do some (.xfin (← cD w) (← srcA w) (← srcB w) (ar w)))
  | 2 => tAB w .xclr
  | _ => .error .illegal

def dec30 (w : Nat) : Except BadWord Instr :=
  match fFn w with
  | 0 => judge (zeroT w true true true true .value false)
      (do some (.hmk (← hD w) (← srcA w) (← srcB w) (← srcC w) (← Fmt.ofCode (fM w))))
  | 1 => judge (zeroT w true true false false .unused false) (do some (.hcpy (← hD w) (← hA w)))
  | 2 => judge (zeroT w false true false false .unused false) (do some (.hdrop (← hA w)))
  | 3 => judge (zeroT w false true true false .unused false) (do some (.hfin (← hA w) (← srcB w)))
  | 4 => judge (zeroT w true true false false .unused false) (do some (.hexcl (← fDst w) (← hA w)))
  | 5 => judge (zeroT w true true false false .unused false) (do some (.hld (← hD w) (← srcA w)))
  | 6 => judge (zeroT w false true true false .unused false) (do some (.hst (← srcA w) (← classNum 16 2 (fB w))))
  | 7 => judge (zeroT w true true true false .unused false)
      (do some (.hinfo (← sD w) (← hA w) (← litParse (fB w))))
  | 8 => judge (zeroT w true true false true .value false)
      (do some (.hsp (← hD w) (← srcA w) (← srcC w) (← Fmt.ofCode (fM w))))
  | _ => .error .illegal

def dec31 (w : Nat) : Except BadWord Instr :=
  match fFn w with
  | 0 => judge (zeroT w false true true false .unused false)
      (do some (.kvapp (← hA w) (← classNum 32 0 (fB w))))
  | 1 => judge (zeroT w true true true false .unused false)
      (do some (.kvdem (← fDst w) (← hA w) (← srcB w)))
  | 2 => judge (zeroT w false true true false .unused false) (do some (.kvpro (← hA w) (← srcB w)))
  | 3 => judge (zeroT w true true true false .unused false)
      (do some (.kvinfo (← sD w) (← hA w) (← srcB w)))
  | _ => .error .illegal

def dec38 (w : Nat) : Except BadWord Instr :=
  match fFn w with
  | 0 => tAB w .barInit
  | 1 => tAB w .barPost
  | 2 => tSA w .barArr
  | 3 => judge (zeroT w true true true false .unused false)
      (do some (.barWait (← fDst w) (← srcA w) (← srcB w)))
  | 4 => tSAB w .barTry
  | _ => .error .illegal

def dec39 (w : Nat) : Except BadWord Instr :=
  match fFn w with
  | 0 => tSA w .qmk
  | 1 => judge (zeroT w true true true true .unused false)
      (do some (.qenq (← sD w) (← srcA w) (← if (fB w).1 = 1 then evenNum 64 ((fB w).2 % 64) else none)
            (← classNum 16 5 (fC w))))
  | 2 => judge (zeroT w true true false true .unused false)
      (do some (.qdeq (← evenNum 64 (fD w)) (← srcA w) (← classNum 16 5 (fC w))))
  | 3 => tSAB w .qrm
  | 4 => tSA w .qinfo
  | _ => .error .illegal

def dec3A (w : Nat) : Except BadWord Instr :=
  match fFn w with
  | 0 => tAB w .tsub
  | 1 => tSAB w .tdep
  | 2 => tNone w .tend
  | 3 => tNone w .tyld
  | 4 => tAB w .lcap
  | 5 => judge (zeroT w true true false false .unused false) (do some (.coord (← sD w) (← litParse (fA w))))
  | _ => .error .illegal

def dec40 (k : DecodeCtx) (w : Nat) : Except BadWord Instr :=
  if fFn w > 5 then .error .illegal
  else if !k.handler then .error .illegal
  else
    match fFn w with
    | 0 => judge (zeroT w true true true false .unused false)
        (do some (.frzRd (← sD w) (← capA w) (← srcB w)))
    | 1 => judge (zeroT w false true true true .unused false)
        (do some (.frzWr (← capA w) (← srcB w) (← srcC w)))
    | 2 => judge (zeroT w false true (fM w == 2) false .value false)
        (do
          let a ← capA w
          match fM w with
          | 0 => some (.frzResRetry a)
          | 1 => some (.frzResSkip a)
          | 2 => some (.frzResPc a (← srcB w))
          | _ => none)
    | 3 => judge (zeroT w false true false false .unused false) (do some (.frzKill (← capA w)))
    | 4 => judge (zeroT w true true false false .unused false) (do some (.frzInfo (← sD w) (← capA w)))
    | _ => tNone w .hret

/-- `mfs`, `mts`: step 9 of R121 under R120. -/
def srOf (k : DecodeCtx) (w : Nat) : Option (BitVec 12) :=
  if srNamed k.handler (fSr w) then some (BitVec.ofNat 12 (fSr w)) else none

/-- R370: the mode field decides the role of a before the checks are judged. -/
def decTlbi (w : Nat) : Except BadWord Instr :=
  let mode := bitsAt w 0 2
  let count := bitsAt w 2 19
  judge (zeroS w false (mode != 1) false true)
    (match mode with
     | 0 => do
       let a ← srcA w
       if count = 0 then some (.tlbiPage a) else none
     | 1 => if count = 0 then some .tlbiAll else none
     | 2 => do
       let a ← srcA w
       if count = 0 then none else some (.tlbiRange a (BitVec.ofNat 19 count))
     | _ => none)

def dec41 (k : DecodeCtx) (w : Nat) : Except BadWord Instr :=
  match fFn w with
  | 0 => judge (zeroS w true false true false) (do some (.mfs (← sD w) (← srOf k w)))
  | 1 => judge (zeroS w false true true false) (do some (.mts (← srOf k w) (← srcA w)))
  | 2 => judge (zeroS w false false false true) (some (.trap (fImm21 w)))
  | 3 => judge (zeroS w false false false true) (some (.brk (fImm21 w)))
  | 4 => decTlbi w
  | 5 => judge (zeroS w true true true true && bitsAt w 24 9 == 0)
      (do some (.pin (← fDst w) (← srcA w) (← regNum 8 (bitsAt w 21 3)) (fImm21 w)))
  | 6 => judge (zeroS w false false true false && bitsAt w 24 9 == 0) (do some (.unpin (← regNum 8 (bitsAt w 21 3))))
  | 7 => judge (zeroS w false false false false) (some .nop)
  | 8 => judge (zeroS w false false false true) (some (.halt (fImm21 w)))
  | 9 => judge (zeroS w true false false false) (do some (.cyc (← sD w)))
  | _ => .error .illegal

/-- R121: the checks on a word, in order, for a context of the kind given. -/
def decodeNat (k : DecodeCtx) (w : Nat) : Except BadWord Instr :=
  match fOp w with
  | 0x01 => dec01 w
  | 0x02 => dec02 w
  | 0x03 => dec03 w
  | 0x04 => dec04 w
  | 0x05 => dec05 w
  | 0x06 => dec06 w
  | 0x07 => dec07 w
  | 0x08 => dec08 w
  | 0x09 => dec09 w
  | 0x10 => dec10 w
  | 0x11 => dec11 w
  | 0x12 => dec12 w
  | 0x13 => dec13 w
  | 0x14 => dec14 w
  | 0x18 => dec18 w
  | 0x19 => dec19 w
  | 0x20 => dec20 w
  | 0x21 => dec21 w
  | 0x22 => dec22 w
  | 0x23 => dec23 w
  | 0x24 => dec24 w
  | 0x28 => dec28 w
  | 0x29 => dec29 w
  | 0x2A => dec2A k w
  | 0x2B => dec2B w
  | 0x30 => dec30 w
  | 0x31 => dec31 w
  | 0x38 => dec38 w
  | 0x39 => dec39 w
  | 0x3A => dec3A w
  | 0x40 => dec40 k w
  | 0x41 => dec41 k w
  | _ => .error .illegal

def decode (k : DecodeCtx) (w : Word) : Except BadWord Instr := decodeNat k w.toNat

/-- The instruction that a word is, for an attached handler context, to which no check of R121 is refused for what it is. The
bits above `nbits` are zero. -/
def decodeTableWord (nbits w : Nat) : Option Instr :=
  match decode { handler := true, attached := true } (BitVec.ofNat 64 (w % 2 ^ nbits)) with
  | .ok i => some i
  | .error _ => none

/-- Whether the word's major op is one of the column classes, 0x10 to 0x2B (R116). -/
def columnOp (w : Word) : Bool := 0x10 ≤ fOp w.toNat && fOp w.toNat ≤ 0x2B

/-! ## The encoder -/

def packT (op fn d : Nat) (a b c : SrcBits) (m q : Nat) : Nat :=
  op * 2 ^ 57 + fn * 2 ^ 51 + d * 2 ^ 45 + a.1 * 2 ^ 43 + a.2 * 2 ^ 33 + b.1 * 2 ^ 31 + b.2 * 2 ^ 21 + c.1 * 2 ^ 19
    + c.2 * 2 ^ 9 + m * 2 ^ 4 + q

def packW (op fn d : Nat) (a : SrcBits) (imm : Nat) : Nat :=
  op * 2 ^ 57 + fn * 2 ^ 51 + d * 2 ^ 45 + a.1 * 2 ^ 43 + a.2 * 2 ^ 33 + imm

def packM (op fn d : Nat) (a b : SrcBits) (pol q disp : Nat) : Nat :=
  op * 2 ^ 57 + fn * 2 ^ 51 + d * 2 ^ 45 + a.1 * 2 ^ 43 + a.2 * 2 ^ 33 + b.1 * 2 ^ 31 + b.2 * 2 ^ 21 + pol * 2 ^ 15
    + q * 2 ^ 11 + disp

def packB (op fn neg f disp : Nat) : Nat := op * 2 ^ 57 + fn * 2 ^ 51 + neg * 2 ^ 50 + f * 2 ^ 46 + disp

def packS (op fn d : Nat) (a : SrcBits) (sr imm : Nat) : Nat :=
  op * 2 ^ 57 + fn * 2 ^ 51 + d * 2 ^ 45 + a.1 * 2 ^ 43 + a.2 * 2 ^ 33 + sr * 2 ^ 21 + imm

/-- An unused source field. -/
def noSrc : SrcBits := (0, 0)

def classBits (cls n : Nat) : SrcBits := (0, cls * 128 + n)

def Src.bits : Src → SrcBits
  | .s n => (1, n.val)
  | .k n => (2, n.val)
  | .lit v => (3, v.toNat)

def Col.bits : Col → SrcBits
  | .c n => classBits 0 n.val
  | .p n => classBits 1 n.val

def ColSrc.bits : ColSrc → SrcBits
  | .col r => r.bits
  | .sc x => x.bits

def litBits (v : BitVec 10) : SrcBits := (3, v.toNat)

/-- Codes of R52, R60, R114, R130, R278: a name's place in its table. -/
def Fmt.code : Fmt → Nat
  | .n8 => 0 | .n16 => 1 | .n32 => 2 | .n64 => 3 | .i8 => 4 | .i16 => 5 | .i32 => 6 | .i64 => 7 | .f16 => 8 | .bf16 => 9
  | .f32 => 10 | .f64 => 11 | .e4m3 => 12 | .e5m2 => 13 | .e2m1 => 14 | .ue8m0 => 15 | .tern5 => 16 | .pos32 => 17
  | .v256 => 18 | .bool1 => 19 | .xacc => 20

def Rnd.code : Rnd → Nat
  | .rne => 0 | .rtz => 1 | .rdn => 2 | .rup => 3

def Cond.code : Cond → Nat
  | .eq => 0 | .ne => 1 | .lt => 2 | .le => 3 | .gt => 4 | .ge => 5 | .ltn => 6 | .len => 7 | .gtn => 8 | .gen => 9

def ColCond.code : ColCond → Nat
  | .eq => 0 | .ne => 1 | .lt => 2 | .le => 3 | .gt => 4 | .ge => 5

def Logic.code : Logic → Nat
  | .and => 0 | .or => 1 | .xor => 2 | .andn => 3 | .not => 4

def Scope.code : Scope → Nat
  | .context => 0 | .core => 1 | .cluster => 2 | .module => 3 | .system => 4

def Arith.bits (m : Arith) : Nat := m.rnd.code * 8 + m.sat.toNat * 4 + m.ftz.toNat * 2

def satBits (sat : Bool) : Nat := sat.toNat * 4

def qualBits (q : Option (Fin 15)) : Nat :=
  match q with
  | some n => n.val
  | none => 15

def encMem (op fn : Nat) (d : SReg) (m : MemRef) (q : Nat) : Nat :=
  packM op fn d.val m.base.bits m.idx.bits m.pol.val q m.disp.toNat

def encTarget (fn : Nat) (d : Col) (a : SrcBits) (m : Nat) : Nat :=
  match d with
  | .c n => packT 0x19 fn n.val a noSrc noSrc m 0
  | .p n => packT 0x19 fn 0 a (classBits 1 n.val) noSrc m 0

def encCopy (fn : Nat) (d : SReg) (a b : Src) (pol : SReg) (q : Binding) (buf : BufSide) : Nat :=
  packM 0x29 fn d.val a.bits b.bits pol.val (qualBits q) (buf.mode.toNat * 2 ^ 9 + buf.handle.val * 2 ^ 4)

/-- The word of an instruction as a number; a step of another agent has none, and reads 0. -/
def encodeNat : Instr → Nat
  | .add d a b => packT 0x01 0 d.val a.bits b.bits noSrc 0 0
  | .sub d a b => packT 0x01 1 d.val a.bits b.bits noSrc 0 0
  | .mul d a b => packT 0x01 2 d.val a.bits b.bits noSrc 0 0
  | .mulh d a b => packT 0x01 3 d.val a.bits b.bits noSrc 0 0
  | .mulhn d a b => packT 0x01 4 d.val a.bits b.bits noSrc 0 0
  | .div d a b => packT 0x01 5 d.val a.bits b.bits noSrc 0 0
  | .divn d a b => packT 0x01 6 d.val a.bits b.bits noSrc 0 0
  | .rem d a b => packT 0x01 7 d.val a.bits b.bits noSrc 0 0
  | .remn d a b => packT 0x01 8 d.val a.bits b.bits noSrc 0 0
  | .and d a b => packT 0x01 9 d.val a.bits b.bits noSrc 0 0
  | .or d a b => packT 0x01 10 d.val a.bits b.bits noSrc 0 0
  | .xor d a b => packT 0x01 11 d.val a.bits b.bits noSrc 0 0
  | .andn d a b => packT 0x01 12 d.val a.bits b.bits noSrc 0 0
  | .shl d a b => packT 0x01 13 d.val a.bits b.bits noSrc 0 0
  | .shr d a b => packT 0x01 14 d.val a.bits b.bits noSrc 0 0
  | .sra d a b => packT 0x01 15 d.val a.bits b.bits noSrc 0 0
  | .rotl d a b => packT 0x01 16 d.val a.bits b.bits noSrc 0 0
  | .min d a b => packT 0x01 17 d.val a.bits b.bits noSrc 0 0
  | .max d a b => packT 0x01 18 d.val a.bits b.bits noSrc 0 0
  | .minn d a b => packT 0x01 19 d.val a.bits b.bits noSrc 0 0
  | .maxn d a b => packT 0x01 20 d.val a.bits b.bits noSrc 0 0
  | .popc d a => packT 0x01 21 d.val a.bits noSrc noSrc 0 0
  | .clz d a => packT 0x01 22 d.val a.bits noSrc noSrc 0 0
  | .ctz d a => packT 0x01 23 d.val a.bits noSrc noSrc 0 0
  | .bfx d a b c => packT 0x01 24 d.val a.bits b.bits c.bits 0 0
  | .bfxn d a b c => packT 0x01 25 d.val a.bits b.bits c.bits 0 0
  | .bfi d a b c => packT 0x01 26 d.val a.bits b.bits c.bits 0 0
  | .csel d a b f => packT 0x01 27 d.val a.bits b.bits noSrc 0 f.val
  | .addsh d a b m => packT 0x01 28 d.val a.bits b.bits noSrc m.toNat 0
  | .addi d a imm => packW 0x02 0 d.val a.bits imm.toNat
  | .andi d a imm => packW 0x02 1 d.val a.bits imm.toNat
  | .ori d a imm => packW 0x02 2 d.val a.bits imm.toNat
  | .xori d a imm => packW 0x02 3 d.val a.bits imm.toNat
  | .shli d a imm => packW 0x02 4 d.val a.bits imm.toNat
  | .shri d a imm => packW 0x02 5 d.val a.bits imm.toNat
  | .srai d a imm => packW 0x02 6 d.val a.bits imm.toNat
  | .muli d a imm => packW 0x02 7 d.val a.bits imm.toNat
  | .ldi d imm => packW 0x02 8 d.val noSrc imm.toNat
  | .ldhi d imm => packW 0x02 9 d.val noSrc imm.toNat
  | .scmp d a b cc => packT 0x03 0 d.val a.bits b.bits noSrc cc.code 0
  | .flog d a b op =>
    packT 0x03 1 d.val (classBits 5 a.val) (if op = .not then noSrc else classBits 5 b.val) noSrc op.code 0
  | .fset d a => packT 0x03 2 d.val a.bits noSrc noSrc 0 0
  | .ftos d a => packT 0x03 3 d.val (classBits 5 a.val) noSrc noSrc 0 0
  | .br neg f disp => packB 0x04 0 neg.toNat f.val disp.toNat
  | .bra disp => packB 0x04 1 0 0 disp.toNat
  | .call disp => packB 0x04 2 0 0 disp.toNat
  | .bryl neg disp => packB 0x04 3 neg.toNat 0 disp.toNat
  | .jr a => packT 0x05 0 0 a.bits noSrc noSrc 0 0
  | .callr a => packT 0x05 1 0 a.bits noSrc noSrc 0 0
  | .ret => packT 0x05 2 0 noSrc noSrc noSrc 0 0
  | .ldb d m => encMem 0x06 0 d m 0
  | .ldbn d m => encMem 0x06 1 d m 0
  | .ldh d m => encMem 0x06 2 d m 0
  | .ldhn d m => encMem 0x06 3 d m 0
  | .ldw d m => encMem 0x06 4 d m 0
  | .ldwn d m => encMem 0x06 5 d m 0
  | .ldd d m => encMem 0x06 6 d m 0
  | .stb d m => encMem 0x07 0 d m 0
  | .sth d m => encMem 0x07 1 d m 0
  | .stw d m => encMem 0x07 2 d m 0
  | .std d m => encMem 0x07 3 d m 0
  | .aadd d m w => encMem 0x08 0 d m w.toNat
  | .aand d m w => encMem 0x08 1 d m w.toNat
  | .aor d m w => encMem 0x08 2 d m w.toNat
  | .axor d m w => encMem 0x08 3 d m w.toNat
  | .amin d m w => encMem 0x08 4 d m w.toNat
  | .amax d m w => encMem 0x08 5 d m w.toNat
  | .aminn d m w => encMem 0x08 6 d m w.toNat
  | .amaxn d m w => encMem 0x08 7 d m w.toNat
  | .axchg d m w => encMem 0x08 8 d m w.toNat
  | .acas d m w => encMem 0x08 9 d m w.toNat
  | .fenceFull sc => packS 0x09 0 0 noSrc 0 sc.code
  | .fenceAcq sc => packS 0x09 0 0 noSrc 0 (8 + sc.code)
  | .fenceRel sc => packS 0x09 0 0 noSrc 0 (16 + sc.code)
  | .vadd d a b sat q => packT 0x10 0 d.val a.bits b.bits noSrc (satBits sat) (qualBits q)
  | .vsub d a b sat q => packT 0x10 1 d.val a.bits b.bits noSrc (satBits sat) (qualBits q)
  | .vmul d a b sat q => packT 0x10 2 d.val a.bits b.bits noSrc (satBits sat) (qualBits q)
  | .vmulh d a b q => packT 0x10 3 d.val a.bits b.bits noSrc 0 (qualBits q)
  | .vmin d a b q => packT 0x10 4 d.val a.bits b.bits noSrc 0 (qualBits q)
  | .vmax d a b q => packT 0x10 5 d.val a.bits b.bits noSrc 0 (qualBits q)
  | .vabs d a sat q => packT 0x10 6 d.val a.bits noSrc noSrc (satBits sat) (qualBits q)
  | .vneg d a sat q => packT 0x10 7 d.val a.bits noSrc noSrc (satBits sat) (qualBits q)
  | .vand d a b q => packT 0x10 8 d.val a.bits b.bits noSrc 0 (qualBits q)
  | .vor d a b q => packT 0x10 9 d.val a.bits b.bits noSrc 0 (qualBits q)
  | .vxor d a b q => packT 0x10 10 d.val a.bits b.bits noSrc 0 (qualBits q)
  | .vshl d a b q => packT 0x10 11 d.val a.bits b.bits noSrc 0 (qualBits q)
  | .vshr d a b q => packT 0x10 12 d.val a.bits b.bits noSrc 0 (qualBits q)
  | .vsra d a b q => packT 0x10 13 d.val a.bits b.bits noSrc 0 (qualBits q)
  | .vpopc d a q => packT 0x10 14 d.val a.bits noSrc noSrc 0 (qualBits q)
  | .vclz d a q => packT 0x10 15 d.val a.bits noSrc noSrc 0 (qualBits q)
  | .vmov d a q => packT 0x10 16 d.val a.bits noSrc noSrc 0 (qualBits q)
  | .vbcast d a b => packT 0x10 17 d.val a.bits b.bits noSrc 0 15
  | .viota d a b c sat => packT 0x10 18 d.val a.bits b.bits c.bits (satBits sat) 15
  | .vsel d a b c q => packT 0x10 19 d.val a.bits b.bits c.bits 0 (qualBits q)
  | .vmulw d a b => packT 0x10 20 d.val a.bits b.bits noSrc 0 15
  | .vmad d a b c sat q => packT 0x10 21 d.val a.bits b.bits c.bits (satBits sat) (qualBits q)
  | .fadd d a b m q => packT 0x11 0 d.val a.bits b.bits noSrc m.bits (qualBits q)
  | .fsub d a b m q => packT 0x11 1 d.val a.bits b.bits noSrc m.bits (qualBits q)
  | .fmul d a b m q => packT 0x11 2 d.val a.bits b.bits noSrc m.bits (qualBits q)
  | .ffma d a b c m q => packT 0x11 3 d.val a.bits b.bits c.bits m.bits (qualBits q)
  | .fmin d a b m q => packT 0x11 4 d.val a.bits b.bits noSrc m.bits (qualBits q)
  | .fmax d a b m q => packT 0x11 5 d.val a.bits b.bits noSrc m.bits (qualBits q)
  | .fabs d a m q => packT 0x11 6 d.val a.bits noSrc noSrc m.bits (qualBits q)
  | .fneg d a m q => packT 0x11 7 d.val a.bits noSrc noSrc m.bits (qualBits q)
  | .fdiv d a b m q => packT 0x11 8 d.val a.bits b.bits noSrc m.bits (qualBits q)
  | .fsqrt d a m q => packT 0x11 9 d.val a.bits noSrc noSrc m.bits (qualBits q)
  | .fexp2 d a m q => packT 0x11 10 d.val a.bits noSrc noSrc m.bits (qualBits q)
  | .flog2 d a m q => packT 0x11 11 d.val a.bits noSrc noSrc m.bits (qualBits q)
  | .fscl d a b m q => packT 0x11 12 d.val a.bits b.bits noSrc m.bits (qualBits q)
  | .vcmp d a b cc => packT 0x12 0 d.val a.bits b.bits noSrc cc.code 15
  | .vnz d a => packT 0x12 1 d.val a.bits noSrc noSrc 0 15
  | .vnan d a => packT 0x12 2 d.val a.bits noSrc noSrc 0 15
  | .cvtn d a t m => packT 0x13 0 d.val a.bits (litBits t) noSrc m.bits 15
  | .cvtw d a t m => packT 0x13 1 d.val a.bits (litBits t) noSrc m.bits 15
  | .cvt42 d a m => packT 0x13 2 d.val a.bits noSrc noSrc m.bits 15
  | .cvtif d a t m => packT 0x13 3 d.val a.bits (litBits t) noSrc m.bits 15
  | .cvtfi d a t m => packT 0x13 4 d.val a.bits (litBits t) noSrc m.bits 15
  | .unpk3 d a => packT 0x13 5 d.val a.bits noSrc noSrc 0 15
  | .pk3 d a => packT 0x13 6 d.val a.bits noSrc noSrc 0 15
  | .cvts d a b m => packT 0x13 7 d.val a.bits b.bits noSrc m.bits 15
  | .redSum d a m q => packT 0x14 0 d.val a.bits noSrc noSrc m.bits (qualBits q)
  | .redMin d a m q => packT 0x14 1 d.val a.bits noSrc noSrc m.bits (qualBits q)
  | .redMax d a m q => packT 0x14 2 d.val a.bits noSrc noSrc m.bits (qualBits q)
  | .redCnt d a m q => packT 0x14 3 d.val a.bits noSrc noSrc m.bits (qualBits q)
  | .scanInc d a m => packT 0x14 4 d.val a.bits noSrc noSrc m.bits 15
  | .scanExc d a m => packT 0x14 5 d.val a.bits noSrc noSrc m.bits 15
  | .segred d a b m => packT 0x14 6 d.val a.bits b.bits noSrc m.bits 15
  | .tdot d a b sat => packT 0x14 7 d.val a.bits b.bits noSrc (satBits sat) 15
  | .redDot d a b m q => packT 0x14 8 d.val a.bits b.bits noSrc m.bits (qualBits q)
  | .ldc d a b pol q disp => packM 0x18 0 d.val a.bits b.bits pol.val (qualBits q) disp.toNat
  | .stc d a b pol q disp => packM 0x18 1 d.val a.bits b.bits pol.val (qualBits q) disp.toNat
  | .gath d a b pol q disp => packM 0x18 2 d.val a.bits b.bits pol.val (qualBits q) disp.toNat
  | .scat d a b pol q disp => packM 0x18 3 d.val a.bits b.bits pol.val (qualBits q) disp.toNat
  | .ldt d h b pol => packM 0x18 4 d.val (classBits 2 h.val) b.bits pol.val 15 0
  | .stt d h b pol => packM 0x18 5 d.val (classBits 2 h.val) b.bits pol.val 15 0
  | .btld d h b pol => packM 0x18 6 d.val (classBits 2 h.val) b.bits pol.val 15 0
  | .segst d a pol disp => packM 0x18 7 d.val a.bits noSrc pol.val 15 disp.toNat
  | .catom d a b pol w op => packM 0x18 8 d.val a.bits b.bits pol.val w.toNat (op.val * 2 ^ 8)
  | .calloc d a fmt => encTarget 0 d a.bits fmt.code
  | .cfree d => encTarget 1 d noSrc 0
  | .cfmt d fmt => packT 0x19 2 d.val noSrc noSrc noSrc fmt.code 0
  | .len d a => packT 0x19 3 d.val a.bits noSrc noSrc 0 0
  | .trunc d a => encTarget 4 d a.bits 0
  | .setvl a => packT 0x19 5 0 a.bits noSrc noSrc 0 0
  | .cdesc d a => packT 0x19 6 d.val a.bits noSrc noSrc 0 0
  | .sel d a b cc q => packT 0x20 0 d.val a.bits b.bits noSrc cc.code (qualBits q)
  | .selr d a b c q => packT 0x20 1 d.val a.bits b.bits c.bits 0 (qualBits q)
  | .selb d a q => packT 0x20 2 d.val a.bits noSrc noSrc 0 (qualBits q)
  | .pand d a b => packT 0x20 3 d.val a.bits b.bits noSrc 0 15
  | .por d a b => packT 0x20 4 d.val a.bits b.bits noSrc 0 15
  | .pdiff d a b => packT 0x20 5 d.val a.bits b.bits noSrc 0 15
  | .prjp d a b => packT 0x20 6 d.val a.bits b.bits noSrc 0 15
  | .prj d a b => packT 0x21 0 d.val a.bits b.bits noSrc 0 15
  | .plc d a b => packT 0x21 1 d.val a.bits b.bits noSrc 0 15
  | .pcol d a b => packT 0x21 2 d.val a.bits b.bits noSrc 0 15
  | .joinH d a b => packT 0x22 0 d.val a.bits b.bits noSrc 0 15
  | .joinM d a b => packT 0x22 1 d.val a.bits b.bits noSrc 0 15
  | .semi d a b => packT 0x22 2 d.val a.bits b.bits noSrc 0 15
  | .anti d a b => packT 0x22 3 d.val a.bits b.bits noSrc 0 15
  | .grp d a => packT 0x23 0 d.val a.bits noSrc noSrc 0 15
  | .aggSum d a b c m => packT 0x23 1 d.val a.bits b.bits c.bits m.bits 15
  | .aggMin d a b c m => packT 0x23 2 d.val a.bits b.bits c.bits m.bits 15
  | .aggMax d a b c m => packT 0x23 3 d.val a.bits b.bits c.bits m.bits 15
  | .aggCnt d a b c m => packT 0x23 4 d.val a.bits b.bits c.bits m.bits 15
  | .sort d a => packT 0x24 0 d.val a.bits noSrc noSrc 0 15
  | .sortd d a => packT 0x24 1 d.val a.bits noSrc noSrc 0 15
  | .topk d a b => packT 0x24 2 d.val a.bits b.bits noSrc 0 15
  | .srch d a b => packT 0x24 3 d.val a.bits b.bits noSrc 0 15
  | .uniq d a => packT 0x24 4 d.val a.bits noSrc noSrc 0 15
  | .strm d a b c fmt => packT 0x28 0 d.val (classBits 3 a.val) b.bits c.bits fmt.code 0
  | .unstrm d => packT 0x28 1 d.val noSrc noSrc noSrc 0 0
  | .bfwait a full => packT 0x28 2 0 (classBits 3 a.val) noSrc noSrc (if full then 2 else 0) 0
  | .bftry d a st => packT 0x28 3 d.val (classBits 3 a.val) noSrc noSrc st.val 0
  | .bfsetCfg a b c => packT 0x28 4 0 (classBits 3 a.val) b.bits c.bits 0 0
  | .bfsetCfga a b c => packT 0x28 4 0 (classBits 3 a.val) b.bits c.bits 1 0
  | .bfsetClaim a => packT 0x28 4 0 (classBits 3 a.val) noSrc noSrc 2 0
  | .bfsetFull a => packT 0x28 4 0 (classBits 3 a.val) noSrc noSrc 3 0
  | .bfsetRel a => packT 0x28 4 0 (classBits 3 a.val) noSrc noSrc 4 0
  | .bfinfo d a => packT 0x28 5 d.val (classBits 3 a.val) noSrc noSrc 0 0
  | .cpy d a b pol q buf => encCopy 0 d a b pol q buf
  | .cpyx d a b pol q buf => encCopy 1 d a b pol q buf
  | .cpyc d a b pol q buf => encCopy 2 d a b pol q buf
  | .txc d a pol q => packM 0x29 3 d.val a.bits noSrc pol.val (qualBits q) 0
  | .txe d a pol q => packM 0x29 4 d.val a.bits noSrc pol.val (qualBits q) 0
  | .matt a => packT 0x2A 0 0 a.bits noSrc noSrc 0 0
  | .mdet => packT 0x2A 1 0 noSrc noSrc noSrc 0 0
  | .mldw a mode c fmt => packT 0x2A 2 0 a.bits (litBits mode) (match c with | some c => c.bits | none => noSrc) fmt.code 0
  | .mflip => packT 0x2A 3 0 noSrc noSrc noSrc 0 0
  | .mmul d a b => packT 0x2A 4 d.val a.bits b.bits noSrc 0 0
  | .mmuls d a b c => packT 0x2A 5 d.val a.bits b.bits c.bits 0 0
  | .macswp d => packT 0x2A 6 d.val noSrc noSrc noSrc 0 0
  | .macrd d a b c fmt => packT 0x2A 7 d.val (classBits 4 a.val) b.bits c.bits fmt.code 0
  | .macclr d fmt => packT 0x2A 8 d.val noSrc noSrc noSrc fmt.code 0
  | .xred a b ftz => packT 0x2B 0 0 a.bits b.bits noSrc (ftz.toNat * 2) 0
  | .xfin d a b m => packT 0x2B 1 d.val a.bits b.bits noSrc m.bits 0
  | .xclr a b => packT 0x2B 2 0 a.bits b.bits noSrc 0 0
  | .hmk d a b c fmt => packT 0x30 0 d.val a.bits b.bits c.bits fmt.code 0
  | .hcpy d a => packT 0x30 1 d.val (classBits 2 a.val) noSrc noSrc 0 0
  | .hdrop a => packT 0x30 2 0 (classBits 2 a.val) noSrc noSrc 0 0
  | .hfin a b => packT 0x30 3 0 (classBits 2 a.val) b.bits noSrc 0 0
  | .hexcl d a => packT 0x30 4 d.val (classBits 2 a.val) noSrc noSrc 0 0
  | .hld d a => packT 0x30 5 d.val a.bits noSrc noSrc 0 0
  | .hst a b => packT 0x30 6 0 a.bits (classBits 2 b.val) noSrc 0 0
  | .hinfo d a sel => packT 0x30 7 d.val (classBits 2 a.val) (litBits sel) noSrc 0 0
  | .hsp d a c fmt => packT 0x30 8 d.val a.bits noSrc c.bits fmt.code 0
  | .kvapp a b => packT 0x31 0 0 (classBits 2 a.val) (classBits 0 b.val) noSrc 0 0
  | .kvdem d a b => packT 0x31 1 d.val (classBits 2 a.val) b.bits noSrc 0 0
  | .kvpro a b => packT 0x31 2 0 (classBits 2 a.val) b.bits noSrc 0 0
  | .kvinfo d a b => packT 0x31 3 d.val (classBits 2 a.val) b.bits noSrc 0 0
  | .barInit a b => packT 0x38 0 0 a.bits b.bits noSrc 0 0
  | .barPost a b => packT 0x38 1 0 a.bits b.bits noSrc 0 0
  | .barArr d a => packT 0x38 2 d.val a.bits noSrc noSrc 0 0
  | .barWait d a b => packT 0x38 3 d.val a.bits b.bits noSrc 0 0
  | .barTry d a b => packT 0x38 4 d.val a.bits b.bits noSrc 0 0
  | .qmk d a => packT 0x39 0 d.val a.bits noSrc noSrc 0 0
  | .qenq d a b c => packT 0x39 1 d.val a.bits (1, b.val) (classBits 5 c.val) 0 0
  | .qdeq d a c => packT 0x39 2 d.val a.bits noSrc (classBits 5 c.val) 0 0
  | .qrm d a b => packT 0x39 3 d.val a.bits b.bits noSrc 0 0
  | .qinfo d a => packT 0x39 4 d.val a.bits noSrc noSrc 0 0
  | .tsub a b => packT 0x3A 0 0 a.bits b.bits noSrc 0 0
  | .tdep d a b => packT 0x3A 1 d.val a.bits b.bits noSrc 0 0
  | .tend => packT 0x3A 2 0 noSrc noSrc noSrc 0 0
  | .tyld => packT 0x3A 3 0 noSrc noSrc noSrc 0 0
  | .lcap a b => packT 0x3A 4 0 a.bits b.bits noSrc 0 0
  | .coord d sel => packT 0x3A 5 d.val (litBits sel) noSrc noSrc 0 0
  | .frzRd d a b => packT 0x40 0 d.val (classBits 6 a.val) b.bits noSrc 0 0
  | .frzWr a b c => packT 0x40 1 0 (classBits 6 a.val) b.bits c.bits 0 0
  | .frzResRetry a => packT 0x40 2 0 (classBits 6 a.val) noSrc noSrc 0 0
  | .frzResSkip a => packT 0x40 2 0 (classBits 6 a.val) noSrc noSrc 1 0
  | .frzResPc a b => packT 0x40 2 0 (classBits 6 a.val) b.bits noSrc 2 0
  | .frzKill a => packT 0x40 3 0 (classBits 6 a.val) noSrc noSrc 0 0
  | .frzInfo d a => packT 0x40 4 d.val (classBits 6 a.val) noSrc noSrc 0 0
  | .hret => packT 0x40 5 0 noSrc noSrc noSrc 0 0
  | .mfs d sr => packS 0x41 0 d.val noSrc sr.toNat 0
  | .mts sr a => packS 0x41 1 0 a.bits sr.toNat 0
  | .trap n => packS 0x41 2 0 noSrc 0 n.toNat
  | .brk n => packS 0x41 3 0 noSrc 0 n.toNat
  | .tlbiPage a => packS 0x41 4 0 a.bits 0 0
  | .tlbiAll => packS 0x41 4 0 noSrc 0 1
  | .tlbiRange a count => packS 0x41 4 0 a.bits 0 (count.toNat * 4 + 2)
  | .pin d a slot lines => packS 0x41 5 d.val a.bits slot.val lines.toNat
  | .unpin slot => packS 0x41 6 0 noSrc slot.val 0
  | .nop => packS 0x41 7 0 noSrc 0 0
  | .halt n => packS 0x41 8 0 noSrc 0 n.toNat
  | .cyc d => packS 0x41 9 d.val noSrc 0 0
  | _ => 0

/-- The word that encodes a well-formed instruction. -/
def encode (i : Instr) : Word := BitVec.ofNat 64 (encodeNat i)

end Sys2Proof
end

