-- ==== Sys2Proof/Machine/Numbers.lean ====
section
/-! DEFINITION. Formats, exact values, rounding, exact sums and conversions (spec file 04, R52-R83). An element is a natural
number, its bits read with byte 0 lowest. -/

namespace Sys2Proof.Machine

/-! ## Formats (R52-R54) -/

/-- The width in bits; tern5 packs five elements in a byte and has none of its own (R52). -/
def fmtBits : Fmt → Nat
  | .n8 | .i8 | .e4m3 | .e5m2 | .ue8m0 => 8
  | .n16 | .i16 | .f16 | .bf16 => 16
  | .n32 | .i32 | .f32 | .pos32 => 32
  | .n64 | .i64 | .f64 => 64
  | .e2m1 => 4
  | .tern5 => 0
  | .v256 => 2048
  | .bool1 => 1
  | .xacc => 384

/-- Elements in one byte, for the packed formats of R53; 1 for the others. -/
def perByte : Fmt → Nat
  | .e2m1 => 2
  | .bool1 => 8
  | .tern5 => 5
  | _ => 1

/-- Bytes of one element, for a format of whole bytes. -/
def elemBytes (f : Fmt) : Nat := fmtBits f / 8

/-- A packed format: several elements in a byte (R53). -/
def packed (f : Fmt) : Bool := perByte f != 1

/-- The bytes that `n` elements occupy, fractions rounded up (R52). -/
def bytesOf (f : Fmt) (n : Nat) : Nat := if packed f then ceilDiv n (perByte f) else n * elemBytes f

/-- The most elements that `n` bytes hold. -/
def elemsIn (f : Fmt) (n : Nat) : Nat := if packed f then n * perByte f else n / elemBytes f

/-- The first byte of element `i`. -/
def byteAt (f : Fmt) (i : Nat) : Nat := if packed f then i / perByte f else i * elemBytes f

/-- The first element that has a bit in byte `k`. -/
def firstIn (f : Fmt) (k : Nat) : Nat := if packed f then k * perByte f else k / elemBytes f

/-- Formats of equal width, which share a window without moving (R150, R151). -/
def sameWidth (f g : Fmt) : Bool := fmtBits f == fmtBits g && perByte f == perByte g

def isSigned : Fmt → Bool
  | .i8 | .i16 | .i32 | .i64 => true
  | _ => false

def isUnsigned : Fmt → Bool
  | .n8 | .n16 | .n32 | .n64 => true
  | _ => false

/-- An integer format; pos32 counts where a description reads it as n32. -/
def isInteger (f : Fmt) : Bool := isSigned f || isUnsigned f
def isIntOrPos (f : Fmt) : Bool := isInteger f || f == .pos32

def isFloat : Fmt → Bool
  | .f16 | .bf16 | .f32 | .f64 | .e4m3 | .e5m2 | .e2m1 => true
  | _ => false

/-- The formats that a scalar may be broadcast into (R149). -/
def hasBroadcast (f : Fmt) : Bool := isIntOrPos f || isFloat f || f == .bool1

/-- The integer that an element of an integer format, pos32 or bool1 holds (R54). -/
def intOf (f : Fmt) (x : Nat) : Int :=
  let w := fmtBits f
  if isSigned f && x ≥ 2 ^ (w - 1) then (x : Int) - 2 ^ w else x

/-- The bits of an exact integer wrapped to `w` bits. -/
def wrapTo (w : Nat) (v : Int) : Nat := (v % 2 ^ w).toNat

/-- The largest and the smallest integer of a format. -/
def intMax (f : Fmt) : Int := if isSigned f then 2 ^ (fmtBits f - 1) - 1 else 2 ^ fmtBits f - 1
def intMin (f : Fmt) : Int := if isSigned f then -(2 ^ (fmtBits f - 1)) else 0

/-- Narrowing an exact integer: clamped under SAT, else wrapped (R54, R71). -/
def narrowInt (f : Fmt) (sat : Bool) (v : Int) : Nat :=
  wrapTo (fmtBits f) (if sat then max (intMin f) (min (intMax f) v) else v)

/-! ## Exact values -/

/-- A positive magnitude: a quotient n/d, the root of one, 2 to the power ±n/d, or the logarithm to base 2 of n/d > 1. -/
inductive Mag
  | rat (n d : Nat)
  | sqrt (n d : Nat)
  | exp2 (neg : Bool) (n d : Nat)
  | log2 (n d : Nat)
deriving DecidableEq, Repr

/-- An exact value (R61): NaN, an infinity, a signed zero, or a nonzero real number. -/
inductive Val
  | nan
  | inf (neg : Bool)
  | zero (neg : Bool)
  | num (neg : Bool) (m : Mag)
deriving DecidableEq, Repr

/-- A dyadic number n × 2^e. -/
structure Dyadic where
  n : Int
  e : Int
deriving DecidableEq, Repr

def ratOf (n : Nat) (e : Int) : Mag := if e ≥ 0 then .rat (n * 2 ^ e.toNat) 1 else .rat n (2 ^ (-e).toNat)

/-- The value of a dyadic number, a zero being +0. -/
def Dyadic.val (x : Dyadic) : Val :=
  if x.n = 0 then .zero false else .num (x.n < 0) (ratOf x.n.natAbs x.e)

def Dyadic.add (x y : Dyadic) : Dyadic :=
  let e := min x.e y.e
  { n := x.n * 2 ^ (x.e - e).toNat + y.n * 2 ^ (y.e - e).toNat, e := e }

def Dyadic.mul (x y : Dyadic) : Dyadic := { n := x.n * y.n, e := x.e + y.e }

/-! ## Floating-point layouts (R55) -/

/-- Widths of exponent and mantissa, bias, and the code of the largest finite value. -/
structure Layout where
  ebits   : Nat
  mbits   : Nat
  bias    : Nat
  maxCode : Nat
deriving DecidableEq, Repr

def layout : Fmt → Layout
  | .f64 => { ebits := 11, mbits := 52, bias := 1023, maxCode := 0x7FEFFFFFFFFFFFFF }
  | .f32 => { ebits := 8, mbits := 23, bias := 127, maxCode := 0x7F7FFFFF }
  | .f16 => { ebits := 5, mbits := 10, bias := 15, maxCode := 0x7BFF }
  | .bf16 => { ebits := 8, mbits := 7, bias := 127, maxCode := 0x7F7F }
  | .e5m2 => { ebits := 5, mbits := 2, bias := 15, maxCode := 0x7B }
  | .e4m3 => { ebits := 4, mbits := 3, bias := 7, maxCode := 0x7E }
  | .e2m1 => { ebits := 2, mbits := 1, bias := 1, maxCode := 0x7 }
  | _ => { ebits := 0, mbits := 0, bias := 0, maxCode := 0 }

def signWeight (f : Fmt) : Nat := 2 ^ ((layout f).ebits + (layout f).mbits)

def signOf (f : Fmt) (x : Nat) : Bool := x / signWeight f % 2 == 1

/-- The bits below the sign. -/
def magBits (f : Fmt) (x : Nat) : Nat := x % signWeight f

/-- The code of +infinity, for the formats that have one. -/
def infCode (f : Fmt) : Nat := (2 ^ (layout f).ebits - 1) * 2 ^ (layout f).mbits

/-- e4m3 and e2m1 have no infinity (R55). -/
def hasInf (f : Fmt) : Bool := isFloat f && f != .e4m3 && f != .e2m1

def isNaN (f : Fmt) (x : Nat) : Bool :=
  match f with
  | .e2m1 => false
  | .e4m3 => magBits f x == 0x7F
  | _ => isFloat f && magBits f x > infCode f

def isInfinite (f : Fmt) (x : Nat) : Bool := hasInf f && magBits f x == infCode f

/-- NaNOf (R66). -/
def nanOf : Fmt → Nat
  | .f64 => 0x7FF8000000000000
  | .f32 => 0x7FC00000
  | .f16 => 0x7E00
  | .bf16 => 0x7FC0
  | .e5m2 => 0x7E
  | .e4m3 => 0x7F
  | .ue8m0 => 0xFF
  | _ => 0

/-- The magnitude of a finite floating-point element as a dyadic number. -/
def magDyadic (f : Fmt) (x : Nat) : Dyadic :=
  let l := layout f
  let m := magBits f x
  let e := m / 2 ^ l.mbits
  if e = 0 then { n := m, e := 1 - (l.bias : Int) - l.mbits }
  else { n := (m % 2 ^ l.mbits + 2 ^ l.mbits : Nat), e := (e : Int) - l.bias - l.mbits }

/-- R64: the formats that FTZ applies to. -/
def flushes : Fmt → Bool
  | .f16 | .bf16 | .f32 | .f64 => true
  | _ => false

/-- A subnormal encoding: exponent zero, mantissa not. -/
def subnormal (f : Fmt) (x : Nat) : Bool := magBits f x != 0 && magBits f x / 2 ^ (layout f).mbits == 0

/-- A source element as FTZ reads it (R64). -/
def ftzSource (f : Fmt) (ftz : Bool) (x : Nat) : Nat :=
  if ftz && flushes f && subnormal f x then x - magBits f x else x

/-- The value of a floating-point element (R55). -/
def floatVal (f : Fmt) (x : Nat) : Val :=
  if isNaN f x then .nan
  else if isInfinite f x then .inf (signOf f x)
  else if magBits f x = 0 then .zero (signOf f x)
  else
    let d := magDyadic f x
    .num (signOf f x) (ratOf d.n.natAbs d.e)

def intVal (n : Int) : Val := if n = 0 then .zero false else .num (n < 0) (.rat n.natAbs 1)

/-- The value of an element of any numeric format. -/
def elemVal (f : Fmt) (x : Nat) : Val := if isFloat f then floatVal f x else intVal (intOf f x)

/-- The factor 2^(u − 127) of a ue8m0 byte, none for its NaN (R56). -/
def scaleOf (u : Nat) : Option Dyadic := if u = 0xFF then none else some { n := 1, e := (u : Int) - 127 }

/-! ## floor(v / 2^e) of a magnitude -/

/-- The largest r with r² ≤ n, found bit by bit from bit `k`. -/
def sqrtFrom (n : Nat) : Nat → Nat → Nat
  | 0, r => if (r + 1) * (r + 1) ≤ n then r + 1 else r
  | k + 1, r => sqrtFrom n k (if (r + 2 ^ (k + 1)) * (r + 2 ^ (k + 1)) ≤ n then r + 2 ^ (k + 1) else r)

def sqrtFloor (n : Nat) : Nat := sqrtFrom n (Nat.log2 n / 2 + 1) 0

/-- Fraction bits of the interval arithmetic below; more than any decision of R160 needs in practice. -/
def guardBits : Nat := 400

/-- Bounds of 2^(n/2^k) × 2^guardBits, for n < 2^k: the product of the roots 2^(2^−i) whose bits of n are set. -/
def exp2Loop (n k : Nat) : Nat → Nat → (Nat × Nat) → (Nat × Nat) → (Nat × Nat)
  | 0, _, _, acc => acc
  | j + 1, i, root, acc =>
    let r := (sqrtFloor (root.1 * 2 ^ guardBits), sqrtFloor (root.2 * 2 ^ guardBits) + 1)
    let acc := if n / 2 ^ (k - i) % 2 = 1 then
        (acc.1 * r.1 / 2 ^ guardBits, acc.2 * r.2 / 2 ^ guardBits + 1) else acc
    exp2Loop n k j (i + 1) r acc

/-- The largest q below 2^(b + 1) with q^(2^k) ≤ 2^(y × 2^k + n). -/
def exp2Search (n k y : Nat) : Nat → Nat → Nat
  | 0, q => if (q + 1) ^ 2 ^ k ≤ 2 ^ (y * 2 ^ k + n) then q + 1 else q
  | b + 1, q => exp2Search n k y b (if (q + 2 ^ (b + 1)) ^ 2 ^ k ≤ 2 ^ (y * 2 ^ k + n) then q + 2 ^ (b + 1) else q)

/-- floor(2^y × 2^(n/2^k)), 0 < n < 2^k: at once where n/2^k is so near to 0 or 1 that simple bounds of 2^x
decide (1 < 2^x < 1 + x, and 2 − 2(1 − x) < 2^x < 2), else by intervals, else by integer powers. -/
def exp2Floor (n k y : Nat) : Nat :=
  if n * 2 ^ y < 2 ^ k then 2 ^ y
  else if 2 * (2 ^ k - n) * 2 ^ y ≤ 2 ^ k then 2 ^ (y + 1) - 1
  else
    let b := exp2Loop n k k 1 (2 * 2 ^ guardBits, 2 * 2 ^ guardBits) (2 ^ guardBits, 2 ^ guardBits)
    let lo := b.1 * 2 ^ y / 2 ^ guardBits
    let hi := b.2 * 2 ^ y / 2 ^ guardBits
    if lo = hi then lo else exp2Search n k y y 0

/-- The first `j` fraction bits of log2 of a number in [1, 2) given by bounds, appended to `q`; none where they do not decide. -/
def log2Loop : Nat → Nat → Nat → Nat → Option Nat
  | 0, _, _, q => some q
  | j + 1, lo, hi, q =>
    let lo2 := lo * lo / 2 ^ guardBits
    let hi2 := hi * hi / 2 ^ guardBits + 1
    if lo2 ≥ 2 * 2 ^ guardBits then log2Loop j (lo2 / 2) (hi2 / 2 + 1) (2 * q + 1)
    else if hi2 < 2 * 2 ^ guardBits then log2Loop j lo2 hi2 (2 * q)
    else none

/-- floor(log2(n/d) × 2^k), n/d ≥ 1. -/
def log2Floor (n d k : Nat) : Nat :=
  let e := Nat.log2 (n / d)
  let lo := n * 2 ^ guardBits / (d * 2 ^ e)
  match log2Loop k lo (lo + 1) e with
  | some q => q
  | none => Nat.log2 (n ^ 2 ^ k / d ^ 2 ^ k)

/-- floor(v / 2^e), and whether v / 2^e is not an integer. -/
def Mag.floorAt (m : Mag) (e : Int) : Nat × Bool :=
  match m with
  | .rat n d =>
    let num := if e ≥ 0 then n else n * 2 ^ (-e).toNat
    let den := if e ≥ 0 then d * 2 ^ e.toNat else d
    (num / den, num % den != 0)
  | .sqrt n d =>
    let num := if e ≥ 0 then n else n * 2 ^ (2 * (-e).toNat)
    let den := if e ≥ 0 then d * 2 ^ (2 * e.toNat) else d
    let r := sqrtFloor (num / den)
    (r, r * r * den != num)
  | .exp2 neg n d =>
    let x : Int := if neg then -n else n
    let ip := x / d
    let frac := (x % d).toNat
    let y := ip - e
    if y < 0 then (0, true)
    else if frac = 0 then (2 ^ y.toNat, false)
    else (exp2Floor frac (Nat.log2 d) y.toNat, true)
  | .log2 n d =>
    let k := Nat.log2 (n / d)
    if n = d * 2 ^ k then
      if e ≥ 0 then (k / 2 ^ e.toNat, k % 2 ^ e.toNat != 0) else (k * 2 ^ (-e).toNat, false)
    else if e ≥ 0 then (k / 2 ^ e.toNat, true)
    else (log2Floor n d (-e).toNat, true)

/-- floor(log2(n/d)) for a positive quotient. -/
def ratLog2 (n d : Nat) : Int :=
  if n ≥ d then (Nat.log2 (n / d) : Int)
  else
    -- ceil(d/n) has the exponent of the next power of two
    let k := Nat.log2 (d / n)
    if n * 2 ^ k ≥ d then -(k : Int) else -(k : Int) - 1

/-- The exponent of a logarithm below 1, searched downwards. -/
def log2Exp (n d : Nat) : Nat → Nat → Int
  | 0, k => -(k : Int)
  | j + 1, k => if log2Floor n d k ≥ 1 then -(k : Int) else log2Exp n d j (k + 1)

/-- floor(log2 v). -/
def Mag.exponent (m : Mag) : Int :=
  match m with
  | .rat n d => ratLog2 n d
  | .sqrt n d => ratLog2 n d / 2
  | .exp2 neg n d => (if neg then -(n : Int) else n) / d
  | .log2 n d =>
    let k := Nat.log2 (n / d)
    if k ≥ 1 then (Nat.log2 k : Int) else log2Exp n d 1100 1

/-! ## RoundTo (R61, R62) -/

/-- The rounded quotient, given floor(v / 2^(e−1)) and whether v lies above it. -/
def roundHalf (r : Rnd) (neg : Bool) (q2 : Nat) (sticky : Bool) : Nat :=
  let q := q2 / 2
  let half := q2 % 2 == 1
  match r with
  | .rne => if half && (sticky || q % 2 == 1) then q + 1 else q
  | .rtz => q
  | .rdn => if neg && (half || sticky) then q + 1 else q
  | .rup => if !neg && (half || sticky) then q + 1 else q

def withSign (f : Fmt) (neg : Bool) (code : Nat) : Nat := if neg then signWeight f + code else code

/-- OverflowOf (R62). -/
def overflowOf (f : Fmt) (neg : Bool) (r : Rnd) (sat : Bool) : Nat :=
  let largest := withSign f neg (layout f).maxCode
  let away : Bool := match r with | .rne => true | .rtz => false | .rdn => neg | .rup => !neg
  if sat || !away then largest
  else
    match f with
    | .e4m3 => nanOf f
    | .e2m1 => largest
    | _ => withSign f neg (infCode f)

/-- RoundTo for a floating-point format (R61); a NaN of e2m1 is +0 (R66). -/
def roundTo (f : Fmt) (r : Rnd) (sat : Bool) (v : Val) : Nat :=
  match v with
  | .nan => nanOf f
  | .inf neg => overflowOf f neg r sat
  | .zero neg => withSign f neg 0
  | .num neg m =>
    let l := layout f
    let emin : Int := 1 - (l.bias : Int)
    let ex := m.exponent
    if ex > (2 ^ l.ebits : Nat) then overflowOf f neg r sat
    else
      let top := max ex emin
      let q2 := m.floorAt (top - l.mbits - 1)
      let code := (top - emin).toNat * 2 ^ l.mbits + roundHalf r neg q2.1 q2.2
      if code > l.maxCode then overflowOf f neg r sat else withSign f neg code

/-- A result as FTZ writes it (R64). -/
def ftzResult (f : Fmt) (ftz : Bool) (x : Nat) : Nat :=
  if ftz && flushes f && subnormal f x then x - magBits f x else x

/-- RoundTo under an arithmetic modifier. -/
def roundArith (f : Fmt) (m : Arith) (v : Val) : Nat := ftzResult f m.ftz (roundTo f m.rnd m.sat v)

/-- RoundTo for an integer format (R61). -/
def roundInt (f : Fmt) (r : Rnd) (sat : Bool) (v : Val) : Nat :=
  match v with
  | .nan => 0
  | .inf neg => wrapTo (fmtBits f) (if neg then intMin f else intMax f)
  | .zero _ => 0
  | .num neg m =>
    let q2 := m.floorAt (-1)
    let q := roundHalf r neg q2.1 q2.2
    narrowInt f sat (if neg then -(q : Int) else q)

/-! ## Arithmetic on exact values -/

def Val.neg : Val → Val
  | .nan => .nan
  | .inf s => .inf (!s)
  | .zero s => .zero (!s)
  | .num s m => .num (!s) m

def Val.sign : Val → Bool
  | .nan => false
  | .inf s | .zero s | .num s _ => s

/-- The signed quotient of a real value that is one: numerator and denominator; roots and powers never meet addition. -/
def Val.frac : Val → Int × Nat
  | .num s (.rat n d) => (if s then -(n : Int) else n, d)
  | _ => (0, 1)

def ofFrac (n : Int) (d : Nat) (zeroNeg : Bool) : Val :=
  if n = 0 then .zero zeroNeg else .num (n < 0) (.rat n.natAbs d)

/-- The IEEE 754 sum (R159): a zero sum of unlike signs is −0 under RDN alone. -/
def Val.add (r : Rnd) (x y : Val) : Val :=
  match x, y with
  | .nan, _ | _, .nan => .nan
  | .inf s, .inf t => if s == t then .inf s else .nan
  | .inf s, _ | _, .inf s => .inf s
  | .zero s, .zero t => if s == t then .zero s else .zero (r == .rdn)
  | .zero _, v | v, .zero _ => v
  | a, b =>
    let p := a.frac
    let q := b.frac
    ofFrac (p.1 * q.2 + q.1 * p.2) (p.2 * q.2) (r == .rdn)

def Val.mul (x y : Val) : Val :=
  match x, y with
  | .nan, _ | _, .nan => .nan
  | .inf _, .zero _ | .zero _, .inf _ => .nan
  | .inf _, _ | _, .inf _ => .inf (x.sign != y.sign)
  | .zero _, _ | _, .zero _ => .zero (x.sign != y.sign)
  | a, b =>
    let p := a.frac
    let q := b.frac
    ofFrac (p.1 * q.1) (p.2 * q.2) false

def Val.div (x y : Val) : Val :=
  match x, y with
  | .nan, _ | _, .nan => .nan
  | .inf _, .inf _ | .zero _, .zero _ => .nan
  | .inf _, _ | _, .zero _ => .inf (x.sign != y.sign)
  | .zero _, _ | _, .inf _ => .zero (x.sign != y.sign)
  | a, b =>
    let p := a.frac
    let q := b.frac
    .num (x.sign != y.sign) (.rat (p.1.natAbs * q.2) (p.2 * q.1.natAbs))

/-- √x (R159). -/
def Val.root : Val → Val
  | .zero s => .zero s
  | .inf false => .inf false
  | .num false (.rat n d) => .num false (.sqrt n d)
  | _ => .nan

/-- 2^x (R159); x is a float's value, so its denominator is a power of two. -/
def Val.pow2 : Val → Val
  | .nan => .nan
  | .inf false => .inf false
  | .inf true => .zero false
  | .zero _ => .num false (.rat 1 1)
  | .num s (.rat n d) => .num false (.exp2 s n d)
  | _ => .nan

/-- log2 x (R159). -/
def Val.lg : Val → Val
  | .zero _ => .inf true
  | .inf false => .inf false
  | .num false (.rat n d) =>
    if n = d then .zero false else if n > d then .num false (.log2 n d) else .num true (.log2 d n)
  | _ => .nan

/-- x × 2^k for an integer k. -/
def Val.scale (x : Val) (k : Int) : Val :=
  match x with
  | .num s (.rat n d) => if k ≥ 0 then .num s (.rat (n * 2 ^ k.toNat) d) else .num s (.rat n (d * 2 ^ (-k).toNat))
  | v => v

/-- x < y as real numbers with infinities; −0 is below +0 only in `fmin` and `fmax`, which ask `zeroOrder`. -/
def Val.lt (x y : Val) (zeroOrder : Bool) : Bool :=
  match x, y with
  | .nan, _ | _, .nan => false
  | .inf s, .inf t => s && !t
  | .inf s, _ => s
  | _, .inf t => !t
  | .zero s, .zero t => zeroOrder && s && !t
  | a, b =>
    let p := a.frac
    let q := b.frac
    p.1 * q.2 < q.1 * p.2

/-! ## Exact sums (R69-R72) -/

/-- Dyadic sums with a common power of two, so that long sums stay small. -/
def dyadicFrac (v : Val) : Dyadic :=
  match v with
  | .num s (.rat n d) => { n := if s then -(n : Int) else n, e := -(Nat.log2 d : Int) }
  | _ => { n := 0, e := 0 }

/-- ExactSum of values whose denominators are powers of two (R69): every element value and every product of two is one. -/
def exactSum (r : Rnd) (vs : List Val) : Val :=
  if vs.any (· == .nan) then .nan
  else
    let pos := vs.any (· == .inf false)
    let neg := vs.any (· == .inf true)
    if pos && neg then .nan
    else if pos then .inf false
    else if neg then .inf true
    else
      let t := (vs.map dyadicFrac).foldl Dyadic.add { n := 0, e := 0 }
      if t.n = 0 then .zero (!vs.isEmpty && (r == .rdn || vs.all (· == .zero true)))
      else t.val

/-- The integer sum, exact (R71). -/
def intSum (f : Fmt) (xs : List Nat) : Int := (xs.map (intOf f)).foldl (· + ·) 0

/-! ## The exact accumulator (R58, R59) -/

/-- The value of an xacc element. -/
def xaccVal (x : Nat) : Val :=
  let top := x / 2 ^ 382
  if top = 0 then (Dyadic.val { n := x, e := -180 })
  else if top = 3 then (Dyadic.val { n := (x : Int) - 2 ^ 384, e := -180 })
  else if top = 1 then
    if x = 2 ^ 382 + 1 then .inf false else if x = 2 ^ 382 + 2 then .inf true else .nan
  else .nan

/-- The special values that the device writes (R58). -/
def xaccInf (neg : Bool) : Nat := 2 ^ 382 + (if neg then 2 else 1)
def xaccNaN : Nat := 2 ^ 382 + 3

/-- R59: adding an exact value to an xacc. -/
def xaccAdd (x : Nat) (v : Val) : Nat :=
  match xaccVal x, v with
  | .nan, _ | _, .nan => xaccNaN
  | .inf s, .inf t => if s == t then xaccInf s else xaccNaN
  | .inf s, _ | _, .inf s => xaccInf s
  | a, b =>
    let t := Dyadic.add { n := 0, e := -180 } (Dyadic.add (dyadicFrac a) (dyadicFrac b))
    -- the sum in units of 2^−180
    let num := t.n * 2 ^ (t.e + 180).toNat
    let den : Int := 2 ^ (-(t.e + 180)).toNat
    if num % den ≠ 0 then xaccNaN
    else
      let q := num / den
      if q.natAbs ≥ 2 ^ 382 then xaccNaN else wrapTo 384 q

/-- An xacc rounded by `xfin` (R70, R268): to a floating-point format under the modifier, a zero sum being −0 under RDN
(R69, log entry 21); to an integer format, a special value giving 0. -/
def xaccRound (f : Fmt) (m : Arith) (x : Nat) : Nat :=
  let v := xaccVal x
  if isFloat f then roundArith f m (if v = .zero false then .zero (m.rnd == .rdn) else v)
  else
    match v with
    | .nan | .inf _ => 0
    | v => roundInt f m.rnd m.sat v

/-! ## Conversions (R76-R80) -/

/-- The pairs of R76, wider first. -/
def lattice : List (Fmt × Fmt) :=
  [(.f64, .f32), (.f32, .f16), (.f32, .bf16), (.f16, .e4m3), (.f16, .e5m2), (.bf16, .e4m3), (.bf16, .e5m2), (.e4m3, .e2m1),
   (.i64, .i32), (.i32, .i16), (.i16, .i8), (.n64, .n32), (.n32, .n16), (.n16, .n8)]

def widens (narrow wide : Fmt) : Bool := lattice.contains (wide, narrow)

/-- Whether steps of R76 lead from one format up to the other (R174), and not in none. -/
def widensSteps (narrow wide : Fmt) : Bool :=
  let up (f : Fmt) : List Fmt := (lattice.filter (fun p => p.2 == f)).map (·.1)
  let one := up narrow
  let two := one.flatMap up
  let three := two.flatMap up
  let four := three.flatMap up
  (one ++ two ++ three ++ four).contains wide

/-- One element converted between two numeric formats (R77): exact where it widens, an infinity then giving an infinity
whatever the modifier holds. -/
def convert (f t : Fmt) (m : Arith) (x : Nat) : Nat :=
  if isFloat f then
    if widens f t && isInfinite f x then withSign t (signOf f x) (infCode t)
    else roundArith t m (floatVal f (ftzSource f m.ftz x))
  else narrowInt t m.sat (intOf f x)

/-- Exact widening, with no modifier (R77, R174). -/
def widen (f t : Fmt) (x : Nat) : Nat := convert f t { rnd := .rne, sat := false, ftz := false } x

/-- One step wider in the integer lattice (R157, `vmulw`). -/
def widerInt : Fmt → Fmt
  | .i8 => .i16
  | .i16 => .i32
  | .i32 => .i64
  | .n8 => .n16
  | .n16 => .n32
  | .n32 => .n64
  | f => f

/-- An element under a block scale: RoundTo(x × 2^(u − 127), t, mode), a NaN scale giving NaN (R80, R174, R179). -/
def scaleElem (f t : Fmt) (m : Arith) (u x : Nat) : Nat :=
  match scaleOf u with
  | none => nanOf t
  | some k => roundArith t { m with ftz := false } ((floatVal f x).scale k.e) |> ftzResult t m.ftz

/-- The greatest magnitude of a block of finite values as a fraction, (0, 1) for zeros. -/
def amaxOf (vs : List Val) : Nat × Nat :=
  vs.foldl (fun m v => match v with
    | .num _ (.rat n d) => if n * m.2 > m.1 * d then (n, d) else m
    | _ => m) (0, 1)

/-- R79's table for one block: the scale byte and the e2m1 codes. -/
def quantBlock (rnd : Rnd) (sat : Bool) (vs : List Val) : Nat × List Nat :=
  if vs.any (fun v => match v with | .nan | .inf _ => true | _ => false) then (0xFF, vs.map fun _ => 0)
  else
    let a := amaxOf vs
    if a.1 = 0 then (0, vs.map fun _ => 0)
    else
      let x := ratLog2 a.1 a.2 - 2
      if x + 127 < 0 then (0, vs.map fun v => roundTo .e2m1 rnd sat (v.scale 127))
      else ((x + 127).toNat, vs.map fun v => roundTo .e2m1 rnd sat (v.scale (-x)))

/-! ## Tests and orders (R68, R161) -/

/-- The nonzero test of R68 on the encoding; tern5 elements are trit digits here, 1 being the trit value 0. -/
def nonzero (f : Fmt) (x : Nat) : Bool :=
  match f with
  | .tern5 => x != 1
  | .ue8m0 => true
  | f => if isFloat f then magBits f x != 0 else x != 0

/-- x < y in the order of R161; every comparison with NaN is false. -/
def elemLt (f : Fmt) (x y : Nat) : Bool :=
  if isFloat f then (floatVal f x).lt (floatVal f y) false else intOf f x < intOf f y

/-- x = y in the order of R161: by value for floating point, by bits for the others. -/
def elemEq (f : Fmt) (x y : Nat) : Bool :=
  if isFloat f then
    !isNaN f x && !isNaN f y && !(floatVal f x).lt (floatVal f y) false && !(floatVal f y).lt (floatVal f x) false
  else x == y

/-- Condition codes 0 to 5 on elements (R114, R161): with a NaN only `ne` holds. -/
def elemCond (cc : ColCond) (f : Fmt) (x y : Nat) : Bool :=
  match cc with
  | .eq => elemEq f x y
  | .ne => !elemEq f x y
  | .lt => elemLt f x y
  | .le => elemLt f x y || elemEq f x y
  | .gt => elemLt f y x
  | .ge => elemLt f y x || elemEq f x y

/-- Bytes of an element, lowest first. -/
def leBytes : Nat → Nat → List Byte
  | 0, _ => []
  | n + 1, x => BitVec.ofNat 8 x :: leBytes n (x / 256)

/-- The number that bytes hold, lowest first (R4). -/
def ofLe : List Byte → Nat
  | [] => 0
  | b :: bs => b.toNat + 256 * ofLe bs

/-- The order of v256 keys: byte by byte from byte 0 (R190). -/
def rowLt : List Byte → List Byte → Bool
  | a :: as, b :: bs => if a = b then rowLt as bs else a.toNat < b.toNat
  | _, _ => false

/-- KeyLess (R190): NaNs above +infinity and equal to one another. -/
def keyLess (f : Fmt) (x y : Nat) : Bool :=
  match f with
  | .v256 => rowLt (leBytes 256 x) (leBytes 256 y)
  | f =>
    if isFloat f then
      if isNaN f x then false else if isNaN f y then true else elemLt f x y
    else intOf f x < intOf f y

def keyEq (f : Fmt) (x y : Nat) : Bool := !keyLess f x y && !keyLess f y x

/-- Match (R190): a NaN matches nothing. -/
def keyMatch (f : Fmt) (x y : Nat) : Bool := !isNaN f x && !isNaN f y && keyEq f x y

/-! ## tern5 (R81-R83) -/

/-- A byte above 242 holds no five digits (R81). -/
def ternLegal (v : Nat) : Bool := v ≤ 242

/-- Digit i of a tern5 byte by the multipliers of R82. -/
def ternDigit (v i : Nat) : Nat :=
  let q (k : Nat) : Nat := match k with
    | 0 => v * 65536 / 65536
    | 1 => v * 21846 / 65536
    | 2 => v * 7282 / 65536
    | 3 => v * 2428 / 65536
    | 4 => v * 810 / 65536
    | _ => 0
  q i - 3 * q (i + 1)

/-- The trit value of a digit. -/
def tritOf (d : Nat) : Int := (d : Int) - 1

/-- pk3 of up to five digits, the unused ones being 1 (R83). -/
def ternPack (ds : List Nat) : Nat :=
  let d (i : Nat) : Nat := ds[i]?.getD 1
  d 0 + 3 * d 1 + 9 * d 2 + 27 * d 3 + 81 * d 4

end Sys2Proof.Machine
end

