-- ==== Sys2Proof/Config.lean ====
section
/-! DEFINITION. The free values: what the spec leaves open, as constants without a body. Nothing can evaluate them, so a
claim holds for every value they may have. Each is applied to the counter `fresh` of State (log entry 4) or to the operands
it depends on. -/

namespace Sys2Proof

/-- Which agent moves next: one context issues, or one step of another agent (log entry 3). -/
inductive Action
  | run (c : CtxId)
  | event (i : Instr)
deriving DecidableEq, Repr, Inhabited

namespace Config

/-- The agent that moves when the agenda is empty (log entry 3). -/
opaque arbiter : Nat → Action
/-- The cycles one step of the machine takes (log entry 6). -/
opaque stepCycles : Nat → Nat
/-- Where `calloc` tries to place a window, in 256-byte units (R184, log entry 8). -/
opaque windowBase : Nat → Nat
/-- The arena offset, in 4 KiB extents, of an extent the device allocates (R26, log entry 17). -/
opaque arenaExtent : Nat → Nat
/-- An index chosen by the device among candidates: a queue identifier, a den record, a save area (R308, R381, R359, log entry 17). -/
opaque pick : Nat → Nat
/-- The winner among the element stores of one instruction to the same bytes: the order in which they reach memory (R177, R181, log entry 18). -/
opaque storeOrder : Nat → Nat
/-- Whether a translation holder still holds an entry it was given (R369, log entry 14). -/
opaque tlbKeep : Nat → Bool
/-- The stored length of a compressed tile in 32-byte units, for a tile that is not all zero (R233, log entry 23). -/
opaque tileUnits : List (BitVec 8) → Nat
/-- Whether the device predicts that a deadline row completes late (R376, log entry 24). -/
opaque predictsLate : Nat → Bool
/-- Bytes of pool parts whose content is undefined after a partition change (R219, log entry 26). -/
opaque poolByte : Nat → BitVec 8
/-- The device key drawn at a module reset (R359, log entry 16). -/
opaque deviceKey : Nat → BitVec 256
/-- Bytes 0-7 of HMAC-SHA-256 under a key (R359, log entry 16). -/
opaque hmac64 : BitVec 256 → List (BitVec 8) → BitVec 64
/-- The device's own bytes of a save area (R359, log entry 16). -/
opaque areaBytes : Nat → List (BitVec 8)
/-- Whether a signature of a firmware or configuration image verifies (R409, log entry 16). -/
opaque signatureOk : List (BitVec 8) → List (BitVec 8) → Bool
/-- The bytes of an attestation quote over a nonce (R411, log entry 16). -/
opaque quoteBytes : Nat → List (BitVec 8) → List (BitVec 8)
/-- Whether the attestation leaf index can be written and is not exhausted (R411, log entry 16). -/
opaque leafIndexOk : Nat → Bool
/-- A word of device state named by the firmware's readback catalogue (R413, log entry 27). -/
opaque catalogueWord : Nat → BitVec 64
/-- Which word of a core's slot table, eight entries, the readback catalogue puts at a word of class 4; none for another word of the
block (R328, R413, log entry 27). -/
opaque catalogueSlots : Nat → Option Nat
/-- Whether some allowed supply offset satisfies a cluster (R415, log entry 28). -/
opaque offsetOk : Nat → Bool
/-- Choices of firmware policy about migrations (R373, R418, log entry 29). -/
opaque policy : Nat → Bool
/-- Where the save-area pool of a partition begins (R359, log entry 17). -/
opaque areaBase : Nat → Nat
/-- The address that `coord` gives for a node in a finaliser area, by slot (R314, R383, log entry 38). -/
opaque finaliserAddr : Nat → BitVec 64
/-- A byte of a queue's memory image, whose layout is the device's own (R307, log entry 65). -/
opaque imageByte : Nat → BitVec 8
/-- The fault address of a fault whose rule names none (R333, log entry 34). -/
opaque openAddr : Nat → BitVec 64

end Config
end Sys2Proof
end

