-- ==== Sys2Proof/Machine/State.lean ====
section
/-! DEFINITION. The state of the CXR-800 as plain data: everything the spec gives the module, its partitions, clusters,
cores and contexts, with `State.reset`. Inventory lines name the rule of each field. -/

namespace Sys2Proof.Machine

/-- Bytes by address in one canonical form: addresses strictly rising, and no entry equal to the 0 that an unlisted
address reads as (log entry 1). -/
abbrev Memory := List Host.Cell

/-- A finite map as a list of pairs; a key that is not listed has the default of its reader. -/
abbrev Map (κ α : Type) := List (κ × α)

/-- Vector clocks of R286, member index to phase; an unlisted member has phase 0. -/
abbrev Clock := Map Nat Nat

/-- Why the machine as a whole stops. No rule of the spec stops the machine: every fault freezes one context (R45), so
this is raised only where a state no run reaches is met. -/
inductive Fault
  /-- The instruction of a step belongs to a context number that does not exist (R10: contexts 5-7 and clusters above
  95 do not occur). Raised by `step` and the context events. Safe. -/
  | noSuchContext
deriving DecidableEq, Repr

/-- Why an instruction has no meaning in the model. -/
inductive Refusal
  /-- Not modelled yet: raised by `exec` only. Safe. -/
  | notModelled (mnemonic : String)
deriving DecidableEq, Repr

/-! ## Contexts -/

/-- Column register or position list: its descriptor (R24), the arena extents it holds, in element order (R26), and its
spilled bytes. -/
structure Column where
  len     : Nat
  fmt     : Fmt
  strm    : Bool
  buf     : BReg
  base    : Nat
  cap     : Nat
  extents : List Nat
  spill   : Memory
deriving DecidableEq, Repr

/-- A 256-bit handle as its four words (R378); KIND 0 is an empty register. -/
structure Handle where
  w0 : Word
  w1 : Word
  w2 : Word
  w3 : Word
deriving DecidableEq, Repr

/-- The phase of a relational instruction (R192). -/
inductive Phase | absorb | stream | emit
deriving DecidableEq, Repr

/-- One strip of a stream that an instruction popped (R246): the column it stands for, the pattern element at which it
begins, its length and, once it is admitted, its bytes. -/
structure Strip where
  reg   : CReg
  start : Nat
  len   : Nat
  bytes : Option (List Byte)
deriving DecidableEq, Repr

/-- Which engine runs a window entry (R35, R47). -/
inductive Engine | lanes | relational | slice | stream | matrix | exact
deriving DecidableEq, Repr

/-- A column source as captured at issue (R150): register, format, length, whether a strip stands for it, and whether the length
is final; while its producer has not yielded, `len` is the largest a result may have (R33, R41). -/
structure ColOperand where
  reg    : Col
  fmt    : Fmt
  len    : Nat
  stream : Bool
  known  : Bool
deriving DecidableEq, Repr

/-- A column destination: register, the format written at issue, its final length where issue fixes it, and its old
length. -/
structure Dest where
  reg    : Col
  fmt    : Fmt
  len    : Option Nat
  oldLen : Nat
deriving DecidableEq, Repr

/-- A fault that a lane group or engine (number 4) holds (R45): its element as FREEZE names it, cause and fault address. -/
structure Held where
  lane  : Nat
  elem  : Nat
  cause : Nat
  addr  : Word
deriving DecidableEq, Repr

/-- An entry of the in-flight window (R43): the instruction, its captured operands and its progress. -/
structure Entry where
  seq      : Nat
  pc       : Word
  word     : Word
  instr    : Instr
  engine   : Engine
  /-- captured operands a, b, c (R42): scalar values, 0 for a column -/
  opA      : Word
  opB      : Word
  opC      : Word
  srcA     : Option ColOperand
  srcB     : Option ColOperand
  srcC     : Option ColOperand
  dests    : List Dest
  /-- scalar destination (R171) -/
  sdest    : Option SReg
  /-- the captured policy word (R135) -/
  pol      : BitVec 32
  /-- phase, clock and binding as captured at issue (R288, R305) -/
  ph       : Nat
  clock    : Clock
  bind     : Option Word
  /-- the captured listed positions of the qualifier, none for no qualifier (R154) -/
  qual     : Option (List Nat)
  /-- operation format F (R152), memory element format that fixes the size (R172; none until it is fixed), working length,
  cycle of issue -/
  fmt      : Fmt
  mfmt     : Option Fmt
  len      : Nat
  issueAt  : Word
  /-- next element of each lane group (R44); of `anti`, the first counts the outputs of its second list (R210) -/
  next     : List Nat
  /-- outputs committed (R41), restart field of the engine (R47), phase (R192) -/
  oc       : Nat
  vs       : Nat
  phase    : Phase
  /-- elements of the absorbed sources (R191) -/
  absA     : List Nat
  absB     : List Nat
  /-- working-state extents held (R193) -/
  work     : List Nat
  /-- performed elements of the batch at vs (R181, R270) -/
  mask     : List Nat
  /-- buffer admission and consumption (R239) -/
  admitted : Bool
  consumed : Bool
  /-- strips popped (R246) -/
  strips   : List Strip
  /-- block-table entries or a sparse descriptor read once at issue (R377, R389); rows taken from the shadow (R376), build
  positions that no probe has matched (R210), segments done, or elements made zero by `frz.res.skip` (R344) -/
  table    : List Word
  late     : List Nat
  /-- a realigning instruction (R37) -/
  realign  : Bool
  /-- every unit performed and every result written; acknowledged by the memory system (R273) -/
  fin      : Bool
  acked    : Bool
  held     : List Held
deriving DecidableEq, Repr

/-- An entry of the interlock table (R273): up to two byte ranges [lo, hi), each read or write. -/
structure Interlock where
  seq    : Nat
  ranges : List (Nat × Nat × Bool)
deriving DecidableEq, Repr

/-- A scalar store that has left the context and is not yet performed (R138, R294): the number of the next column-class
instruction when it issued, its PC and word, and whether a later release has left. -/
structure PendingStore where
  seq      : Nat
  pc       : Word
  word     : Word
  released : Bool
  va    : Word
  pa    : Nat
  bytes : List Byte
deriving DecidableEq, Repr

/-- A release that has retired, and that its home holds back until every earlier access is performed (R279, R297): the number of
the next column-class instruction when it issued, the words and the clock it captured. -/
structure Posted where
  seq   : Nat
  instr : Instr
  ops   : List Word
  clock : Clock
deriving DecidableEq, Repr

/-- What a resumed context completes before it faults again (R48): a lane group, or 4 for an engine, the entry's number, and the
progress it must pass. -/
structure Promise where
  lane : Nat
  seq  : Nat
  mark : Nat
deriving DecidableEq, Repr

/-- Where an instruction found that it waits for an operand, an interlock entry or a window slot (R329): its PC, what had issued
and completed, and what stood in its way; the context is not runnable while all this is as it was. -/
structure Stalled where
  pc      : Word
  retired : Word
  seq     : Nat
  window  : List Entry
  locks   : List Interlock
  pendS   : List SReg
  pendF   : List FReg
deriving DecidableEq, Repr

/-- What a context that is not ready waits for (R329). -/
inductive Parked
  | barrier (pa : Nat) (pad : Bool) (addr : Word) (gen : BitVec 32) (f : FReg)
  | buffer (b : BReg) (full : Bool)
  | admission (b : BReg) (since : Word)
deriving DecidableEq, Repr

/-- The state of a context position (R9, R329, R336, R147). -/
inductive Run | idle | running | frozen | halted
deriving DecidableEq, Repr

/-- What names a frozen context: its CTXID at the freeze and its FTIME (R339). Capability registers and reports hold it. -/
structure Capability where
  ctx   : CtxId
  ftime : Word
deriving DecidableEq, Repr

/-- Where a task node lies: in its partition's memory, or in a cluster's finaliser area (R315, R383). -/
inductive NodeRef
  | mem (part : PartId) (addr : Word)
  | fin (cl : ClusterId) (slot : Nat)
deriving DecidableEq, Repr

/-- Weight tile: format, scaling mode, rows and scales (R258, R259). -/
structure Plane where
  fmt    : Fmt
  mode   : Nat
  rows   : List (List Byte)
  scales : List Word
deriving DecidableEq, Repr

/-- A bank of an accumulator: its tag and its cells, unlisted cells being zero (R261). -/
structure Bank where
  tag   : Fmt
  cells : Map (Nat × Nat) (BitVec 32)
deriving DecidableEq, Repr

/-- An accumulator: working and visible bank (R261). -/
structure Accumulator where
  working : Bank
  visible : Bank
deriving DecidableEq, Repr

/-- A lease range of the running task: base, length, RW (R318). -/
structure Lease where
  base : Nat
  len  : Nat
  rd   : Bool
  wr   : Bool
deriving DecidableEq, Repr

/-- A queue operation on its way to the owning core, or its reply (R308). -/
structure QueueOp where
  ctx    : CtxId
  handle : Word
  lo     : Word
  hi     : Word
  bad    : Bool
  d      : SReg
  f      : FReg
  /-- false once the context was killed: the reply is lost -/
  reply  : Bool
  reason : Nat
deriving DecidableEq, Repr

/-- A `kvapp` that is not done (R391, R392): the first row not appended; the table while its appends hold it (the bits of the
handle that name the record); the free-queue index it has taken; the block dequeued for the row; the new block's record, its
index and generation, once made. -/
structure Append where
  row   : Nat
  table : Option Nat
  claim : Option Word
  block : Option Word
  made  : Option (Nat × BitVec 17)
deriving DecidableEq, Repr

/-- A context (R9, R13, R16, R43). -/
structure Ctx where
  run      : Run
  stopping : Bool
  parked   : Option Parked
  stalled  : Option Stalled
  node     : Option NodeRef
  part     : PartId
  stage    : BitVec 4
  pc       : Word
  s        : Vector Word 64
  f        : Vector Bool 16
  c        : Vector Column 32
  p        : Vector Column 16
  h        : Vector Handle 16
  cap      : Vector (Option Capability) 4
  bank     : Map Nat Word
  vl       : BitVec 32
  yl       : BitVec 32
  slip     : BitVec 3
  lcnt     : BitVec 32
  sc       : BitVec 32
  spb      : Word
  spq      : Word
  pold     : BitVec 32
  dln      : BitVec 32
  bb       : Vector Word 15
  retired  : Word
  chk      : Bool
  sat      : Bool
  member   : Nat
  vc       : Clock
  /-- a release fence whose write has not come yet; the clock lines of the lines read since the last acquire fence (R288) -/
  fenced   : Bool
  seen     : Clock
  gmask    : BitVec 8
  acc      : Vector Accumulator 4
  shadow   : Option Plane
  active   : Option Plane
  window   : List Entry
  seq      : Nat
  locks    : List Interlock
  stores   : List PendingStore
  posted   : List Posted
  promise  : List Promise
  /-- the instruction at the PC has found an operand still being written by an instruction in flight (R37, `viota`) -/
  awaited  : Bool
  /-- a store that met poison (R294, R417) -/
  failed   : Option PendingStore
  body     : List Word
  bodyAt   : Word
  bodyPos  : Option Nat
  members  : List Word
  leases   : Option (List Lease)
  script   : List Instr
  pendS    : List SReg
  pendF    : List FReg
  replies  : List QueueOp
  halt     : BitVec 21
  record   : List Word
  /-- frozen copies of VS, OC and LG0 to LG3 as `frz.wr` left them, by number (R343); none once the context is resumed -/
  written  : Map Nat Word
  reported : Bool
  isHandler : Bool
  kv       : Option Append
deriving DecidableEq, Repr

/-! ## Cores -/

/-- States of a buffer-table entry (R237). -/
inductive BufState | free | filling | full | draining
deriving DecidableEq, Repr

/-- A stream bound to a buffer entry: the context, the pattern and the next strip (R245, R246). -/
structure Stream where
  ctx    : CtxId
  /-- number and phase of the `strm`, its default policy word without an order -/
  seq    : Nat
  ph     : Nat
  pol    : BitVec 32
  base   : Word
  stride : Word
  fmt    : Fmt
  mfmt   : Option Fmt
  total  : Nat
  strip  : Nat
  /-- pattern element at which the strip in the entry, or the next one filled, begins; at which the next pop begins -/
  start  : Nat
  next   : Nat
  fault  : Option (Nat × Nat × Word)
deriving DecidableEq, Repr

/-- A buffer-table entry (R237). -/
structure BufEntry where
  st     : BufState
  auto   : Bool
  strm   : Bool
  part   : PartId
  uses   : Nat
  size   : Nat
  base   : Nat
  clm    : Bool
  creg   : CReg
  /-- the context whose filler holds the entry (R238: freed when it is killed) -/
  filler : Option CtxId
  stream : Option Stream
deriving DecidableEq, Repr

/-- State of a queue identifier (R306). -/
inductive QState | free | resident | swapped
deriving DecidableEq, Repr

/-- A queue identifier (R306): entries are oldest first; the Bool marks a poisoned entry (R294). -/
structure HwQueue where
  gen     : BitVec 20
  st      : QState
  image   : Word
  entries : List (Word × Word × Bool)
deriving DecidableEq, Repr

/-- An entry of a ready queue (R325): the launched node with the fields the queue controller reads. -/
structure Ready where
  node    : NodeRef
  part    : PartId
  pool    : BitVec 15
  clAny   : Bool
  coreAny : Bool
deriving DecidableEq, Repr

/-- A scalar L1 line: its number, its 128 bytes and the sectors it holds: all four, of a peer's line those read (R221). -/
structure L1Line where
  line  : Nat
  bytes : List Byte
  valid : BitVec 4
deriving DecidableEq, Repr

/-- Whom a core asks for a task (R326): a core of its cluster, or the walker of another cluster. -/
inductive Ask | core (k : CoreId) | walker (cl : ClusterId)
deriving DecidableEq, Repr

/-- A core: its SRAM pool, buffer table, queues and issue logic (R217, R237, R306, R325-R330). -/
structure Core where
  poolw    : BitVec 15
  srf      : Memory
  spd      : Memory
  rawTiles : List Nat
  l1       : List L1Line
  bufs     : Vector BufEntry 32
  queues   : Map (BitVec 8) HwQueue
  qin      : List QueueOp
  slots    : Map Nat (BitVec 8)
  slotPend : Map Nat (BitVec 8)
  ready    : List Ready
  /-- idle cycles counted, and the requests left of a round (R326) -/
  idle     : Nat
  asks     : List Ask
  admitted : List (CtxId × Nat × Bool)
  waiting  : List CtxId
  lastIss  : Map PartId Nat
  /-- contexts that retired `tyld`, each with the contexts that must issue before it (R312) -/
  yields   : List (CtxId × List CtxId)
  bodies   : List CtxId
deriving DecidableEq, Repr

/-! ## Clusters and partitions -/

/-- A den record (R379). -/
structure DenRecord where
  live   : Bool
  part   : PartId
  kind   : Nat
  prx    : Bool
  ret    : Nat
  fin    : Word
  gen    : BitVec 17
  held   : Option Handle
  poison : Bool
  clock  : Clock
deriving DecidableEq, Repr

/-- A drop on its way to a den (R383), or an `hfin` with its template (R387), which arrives in order with the drops. -/
structure Drop where
  handle : Handle
  part   : PartId
  bad    : Bool
  clock  : Clock
  fin    : Option Word
deriving DecidableEq, Repr

/-- A death that waits for a finaliser slot (R383). -/
structure Death where
  part   : PartId
  tmpl   : Word
  base   : Word
  len    : Word
  kindFmt : Word
  poison : Bool
  clock  : Clock
deriving DecidableEq, Repr

/-- A slot of a cluster's finaliser area: the partition it is counted to, the copied node's 32 words and the values of s1 to s3
that take precedence, whether a drop that brought it about was poisoned, and the clock it starts from (R383, R295, R296). -/
structure FinSlot where
  part   : PartId
  words  : List Word
  poison : Bool
  clock  : Clock
deriving DecidableEq, Repr

/-- A cluster (R350, R379, R383, R255, R320). -/
structure Cluster where
  faults   : List Capability
  ovf      : Bool
  count    : Nat
  level1   : List Capability
  dens     : Map Nat DenRecord
  drops    : List Drop
  deaths   : List Death
  finArea  : Map Nat FinSlot
  groups   : Vector (Option CtxId) 8
  /-- nodes sent here before the walker came up (R416); armed nodes, leasing nodes, decrements on their way (R320-R323) -/
  toArm    : List NodeRef
  armed    : List NodeRef
  leasing  : List NodeRef
  decs     : List NodeRef
deriving DecidableEq, Repr

/-- A checked launch group (R286, R331). -/
structure Group where
  members : Map Nat CtxId
  finals  : Map Nat Clock
deriving DecidableEq, Repr

/-- A tenant partition (R228, R335, R363, R401). -/
structure Partition where
  pgroot  : Word
  hent    : Word
  hbank   : Word
  cam     : Word
  pins    : Vector (Option (Nat × Nat)) 8
  overCnt : Word
  nodeErr : Word
  malform : Word
  hndErr  : Word
  retries : Word
  group   : Option Group
  frozen  : Bool
deriving DecidableEq, Repr

/-! ## The module -/

/-- Eviction classes of R226 and R228. -/
inductive EvClass | evictFirst | normal | retain | pinned
deriving DecidableEq, Repr

/-- An L2 line (R223, R224, R227, R229); lists run from the most to the least recently used. -/
structure L2Line where
  line     : Nat
  cls      : EvClass
  owner    : Option (PartId × Fin 8)
  overflow : Bool
  present  : Bool
  sectors  : BitVec 4
deriving DecidableEq, Repr

/-- The holders of cached translations (R369). -/
inductive Holder
  | user (k : CoreId) | handler (k : CoreId) | streamCtl (k : CoreId)
  | cluster (cl : ClusterId) | slice (n : Nat) | unit (cl : ClusterId)
deriving DecidableEq, Repr

/-- A cached translation: the leaf entry that the walk read, and where it stands (R369, R371). -/
structure TlbEntry where
  holder : Holder
  part   : PartId
  vbase  : Nat
  bits   : Nat
  w0     : Word
  w1     : Word
  pte    : Nat
deriving DecidableEq, Repr

/-- A migration of a granule (R372, R418): its direction, whether the copy is in flight, and who asked. -/
structure Migration where
  granule : Nat
  toHbm   : Bool
  copying : Bool
  byKvdem : Bool
  byKvpro : Bool
deriving DecidableEq, Repr

/-- A shadow tag (R289): the writer and the two most recent distinct readers. -/
structure ShadowTag where
  w : Option (Nat × Nat)
  a : Option (Nat × Nat)
  b : Option (Nat × Nat)
deriving DecidableEq, Repr

/-- What an outstanding request to a peer asks (R403). -/
inductive RequestKind | read | write | atomic | xaccAdd | drop | segWrite | segRead | den
deriving DecidableEq, Repr

/-- What has come back for a request. -/
inductive RequestState
  | waiting
  | answered (a : PeerAnswer)
  | failed
deriving DecidableEq, Repr

/-- An outstanding request to a peer (R403, R407): who asked, for which unit of which instruction, with which virtual address
and through which page-table entry (R370, R371). -/
structure Request where
  tag    : Word
  ctx    : CtxId
  va     : Word
  pte    : Nat
  key    : Nat × Nat × Nat
  kind   : RequestKind
  flit   : Flit
  resent : Nat
  st     : RequestState
deriving DecidableEq, Repr

/-- A peer window (R406). -/
structure PeerWindow where
  base : BitVec 40
  val  : Word
deriving DecidableEq, Repr

/-- State recorded in a save area (R359). -/
inductive SaveState | stopped | frozen | halted | resumable
deriving DecidableEq, Repr

/-- A save area (R359, R361): where it lies, what its header says beside its tag, and the context part. Its bytes, the tag among
them, are in memory. -/
structure SaveArea where
  base  : Nat
  part  : PartId
  ctx   : CtxId
  st    : SaveState
  ret   : Bool
  halt  : BitVec 21
  saved : Ctx
  /-- stores and atomics whose replies the stop abandoned, to be sent again (R357) -/
  reqs  : List Request
  /-- queue operations whose replies the stop abandoned, to be sent again -/
  qops  : List QueueOp
  /-- buffer entries the context was filling, and its streams, put back when it is restored to its core -/
  claims  : List BReg
  streams : List (BReg × Stream)
  /-- saved because its partition froze (R352) -/
  byFreeze : Bool
  pool  : BitVec 15
  /-- columns' and banks' bytes carried in the extension once reclaimed -/
  srf   : Memory
deriving DecidableEq, Repr

/-- A stop in progress (R354-R358): the contexts it affects. -/
structure StopReq where
  targets : List CtxId
  byCmd   : Bool
  freezes : Option PartId
  since   : Word
deriving DecidableEq, Repr

/-- The words that a held snapshot keeps for readback class 0x80 (R412, R413). -/
structure Snapshot where
  ctxs : Map CtxId Ctx
  srfs : Map CoreId Memory
  slots : Map CoreId (Map Nat (BitVec 8))
deriving DecidableEq, Repr

/-- What the host received for its latest CXL.mem request (R395, R396). -/
inductive HostReply
  | data (bytes : List Byte)
  | poison
  | done
  | unsupported
deriving DecidableEq, Repr

/-- The state of the module. -/
structure State where
  /-- MODEL: the steps to be taken next, in order (log entry 3) -/
  agenda  : List Action
  /-- MODEL: the context whose instruction is executing (log entry 3) -/
  cur     : CtxId
  /-- MODEL: the word that `cur` is executing, as the window and the record keep it (log entry 3) -/
  ir      : Word
  /-- MODEL: counter of free values (log entry 4) -/
  fresh   : Nat
  ctxs    : Map CtxId Ctx
  cores   : Map CoreId Core
  clusters : Map ClusterId Cluster
  parts   : Map PartId Partition
  mem     : Memory
  hostMem : Memory
  lsz     : Nat
  poison  : List Nat
  syncBad : List Nat
  /-- instruction words overwritten since the launch of a running task: by context and word number, the word as it stood at
  launch and whether a narrower store made part of it (R108) -/
  stale   : Map (CtxId × Nat) (Word × Bool)
  cycle   : Word
  l2      : List L2Line
  tlb     : List TlbEntry
  inHbm   : List Nat
  migs    : List Migration
  shadows : Map Nat Fmt
  tags    : Map (PartId × Nat) ShadowTag
  clocks  : Map (PartId × Nat) Clock
  barClocks : Map (PartId × Word) Clock
  nodeClocks : Map NodeRef Clock
  phase   : BitVec 4
  up      : List ClusterId
  health  : List ClusterId
  garma   : Word
  /-- the latest write of GARMA set a reserved bit (R399), which reads as zero (R2) -/
  garmaBad : Bool
  garmb   : Word
  mcmd    : Word
  marg    : Word
  mval    : Word
  mstat   : Word
  miss    : BitVec 16
  ebrk    : Bool
  epin    : Bool
  sntime  : Word
  snap    : Option Snapshot
  msix    : List (Fin 32)
  windows : Vector PeerWindow 16
  image   : Option ImageData
  firmware : List FirmwareSlot
  running : Option Nat
  devKey  : BitVec 256
  boots   : Nat
  leaf    : Nat
  areas   : List SaveArea
  stops   : List StopReq
  reqs    : List Request
  outbox  : List Flit
  served  : Map (BitVec 10 × Word) PeerAnswer
  meter   : Nat
  hostReply : Option HostReply
deriving DecidableEq, Repr

/-! ## Values at reset -/

/-- An unallocated column register (R25). -/
def Column.empty (fmt : Fmt) : Column :=
  { len := 0, fmt := fmt, strm := false, buf := 0, base := 0, cap := 0, extents := [], spill := [] }

/-- An empty handle register (R378). -/
def Handle.empty : Handle := { w0 := 0, w1 := 0, w2 := 0, w3 := 0 }

/-- A cleared bank, tagged f32 (R256). -/
def Bank.clear (tag : Fmt) : Bank := { tag := tag, cells := [] }

/-- A cleared accumulator (R256). -/
def Accumulator.clear : Accumulator := { working := Bank.clear .f32, visible := Bank.clear .f32 }

/-- A context position that holds no task, every register zero or empty (R13; log entry 2). -/
def Ctx.reset : Ctx :=
  { run := .idle, stopping := false, parked := none, stalled := none, node := none, part := 0, stage := 0, pc := 0
    s := Vector.replicate 64 0, f := Vector.replicate 16 false
    c := Vector.replicate 32 (Column.empty .n8), p := Vector.replicate 16 (Column.empty .pos32)
    h := Vector.replicate 16 Handle.empty, cap := Vector.replicate 4 none, bank := []
    vl := 0, yl := 0, slip := 0, lcnt := 0, sc := 0, spb := 0, spq := 0, pold := 0x000FFF00, dln := 0
    bb := Vector.replicate 15 0, retired := 0, chk := false, sat := false, member := 0, vc := [], fenced := false, seen := []
    gmask := 0, acc := Vector.replicate 4 Accumulator.clear, shadow := none, active := none
    window := [], seq := 0, locks := [], stores := [], posted := [], promise := [], awaited := false, failed := none
    body := [], bodyAt := 0, bodyPos := none, members := [], leases := none, script := []
    pendS := [], pendF := [], replies := [], halt := 0, record := [], written := [], reported := true, isHandler := false
    kv := none }

/-- A buffer-table entry at reset (R237). -/
def BufEntry.reset : BufEntry :=
  { st := .free, auto := false, strm := false, part := 0, uses := 0, size := 0, base := 0, clm := false, creg := 0
    filler := none, stream := none }

/-- A queue identifier at reset: free, at its first generation (R306: GEN is never 0; log entry 2). -/
def HwQueue.reset : HwQueue := { gen := 1, st := .free, image := 0, entries := [] }

/-- A core at reset: the default partition word 20, 0, 4 (R218), every slot-table entry 0x00 (R328). -/
def Core.reset : Core :=
  { poolw := 0x5004, srf := [], spd := [], rawTiles := [], l1 := [], bufs := Vector.replicate 32 BufEntry.reset
    queues := [], qin := [], slots := [], slotPend := [], ready := [], idle := 0, asks := [], admitted := [], waiting := []
    lastIss := [], yields := [], bodies := [] }

/-- A den record that is free (R379; log entry 2). -/
def DenRecord.reset : DenRecord :=
  { live := false, part := 0, kind := 0, prx := false, ret := 0, fin := 0, gen := 0, held := none, poison := false, clock := [] }

/-- A cluster at reset. -/
def Cluster.reset : Cluster :=
  { faults := [], ovf := false, count := 0, level1 := [], dens := [], drops := [], deaths := [], finArea := []
    groups := Vector.replicate 8 none, toArm := [], armed := [], leasing := [], decs := [] }

/-- A partition at reset: no page root, no handler, CAM bit 3 only (R335, R363), no retention register (R228). -/
def Partition.reset : Partition :=
  { pgroot := 0, hent := 0, hbank := 0, cam := 8, pins := Vector.replicate 8 none, overCnt := 0, nodeErr := 0, malform := 0
    hndErr := 0, retries := 0, group := none, frozen := false }

/-- An unrecorded shadow tag (R289). -/
def ShadowTag.reset : ShadowTag := { w := none, a := none, b := none }

/-- The module right after reset, in bring-up phase 0 (R416), before firmware and configuration (log entries 1 and 2). -/
def State.reset : State :=
  { agenda := [], cur := 0, ir := 0, fresh := 0, ctxs := [], cores := [], clusters := [], parts := [], mem := [], hostMem := []
    lsz := 0, poison := [], syncBad := [], stale := [], cycle := 0, l2 := [], tlb := [], inHbm := [], migs := [], shadows := [], tags := []
    clocks := [], barClocks := [], nodeClocks := [], phase := 0, up := [], health := [], garma := 0, garmaBad := false, garmb := 0, mcmd := 0
    marg := 0, mval := 0, mstat := 0, miss := 0, ebrk := false, epin := false, sntime := 0, snap := none, msix := []
    windows := Vector.replicate 16 { base := 0, val := 0 }, image := none, firmware := [], running := none
    devKey := Config.deviceKey 0, boots := 0, leaf := 0, areas := [], stops := [], reqs := [], outbox := [], served := []
    meter := 0, hostReply := none }

end Sys2Proof.Machine
end

