-- ==== Sys2Proof/Machine/Memory.lean ====
section
/-! DEFINITION. Maps, memory bytes, caches, translation, leases, race tags and the accesses built from them (spec files 16,
20, 24 and 28). -/

namespace Sys2Proof.Machine

/-! ## Maps -/

def mget {κ α : Type} [DecidableEq κ] (m : Map κ α) (k : κ) (d : α) : α :=
  match m with
  | [] => d
  | (a, v) :: t => if a = k then v else mget t k d

def mset {κ α : Type} [DecidableEq κ] (m : Map κ α) (k : κ) (v : α) : Map κ α :=
  match m with
  | [] => [(k, v)]
  | (a, w) :: t => if a = k then (k, v) :: t else (a, w) :: mset t k v

def mdel {κ α : Type} [DecidableEq κ] (m : Map κ α) (k : κ) : Map κ α := m.filter (fun p => p.1 ≠ k)

def mhas {κ α : Type} [DecidableEq κ] (m : Map κ α) (k : κ) : Bool := m.any (fun p => p.1 = k)

/-! ## Memory in its canonical form -/

/-- A byte; an unlisted address reads 0 (log entry 1). -/
def Memory.read : Memory → Nat → Byte
  | [], _ => 0
  | (x, b) :: t, a => if x = a then b else Memory.read t a

/-- A byte written, the list kept sorted and without zeros. -/
def Memory.write : Memory → Nat → Byte → Memory
  | [], a, b => if b = 0 then [] else [(a, b)]
  | (x, c) :: t, a, b =>
    if a < x then (if b = 0 then (x, c) :: t else (a, b) :: (x, c) :: t)
    else if a = x then (if b = 0 then t else (a, b) :: t)
    else (x, c) :: Memory.write t a b

/-- The canonical form: addresses strictly rising, no entry equal to the 0 an unlisted address reads as. -/
def Memory.wf : Memory → Bool
  | [] => true
  | [(_, b)] => b != 0
  | (x, b) :: (y, c) :: t => b != 0 && x < y && Memory.wf ((y, c) :: t)

/-- `n` bytes from address `a`, lowest first. -/
def Memory.bytes (m : Memory) (a : Nat) : Nat → List Byte
  | 0 => []
  | n + 1 => m.read a :: Memory.bytes m (a + 1) n

/-- Bytes stored from address `a` upward. -/
def Memory.put (m : Memory) (a : Nat) : List Byte → Memory
  | [] => m
  | b :: bs => Memory.put (m.write a b) (a + 1) bs

/-! ## Contexts, cores, clusters and partitions by name -/

/-- CTXID fields (R10). -/
def clusterOf (c : CtxId) : ClusterId := BitVec.ofNat 7 (c.toNat / 32)
def coreOf (c : CtxId) : CoreId := BitVec.ofNat 9 (c.toNat / 8)
def ctxNo (c : CtxId) : Nat := c.toNat % 8
def ctxOn (k : CoreId) (n : Nat) : CtxId := BitVec.ofNat 12 (k.toNat * 8 + n)
def coreCluster (k : CoreId) : ClusterId := BitVec.ofNat 7 (k.toNat / 4)
def coreNo (k : CoreId) : Nat := k.toNat % 4
def coreAt (cl : ClusterId) (n : Nat) : CoreId := BitVec.ofNat 9 (cl.toNat * 4 + n)

/-- Clusters 0-95, contexts 0-4 (R10). -/
def validCtx (c : CtxId) : Bool := (clusterOf c).toNat < 96 && ctxNo c ≤ 4
def validCore (k : CoreId) : Bool := (coreCluster k).toNat < 96

/-- A handler context (R9). -/
def isHandlerCtx (c : CtxId) : Bool := ctxNo c == 4

/-- The level-1 sett: context 4 of core 3 in clusters 47 and 95 (R9). -/
def isLevel1 (c : CtxId) : Bool :=
  isHandlerCtx c && coreNo (coreOf c) == 3 && (clusterOf c == 47 || clusterOf c == 95)

def State.ctx (s : State) (c : CtxId) : Ctx := mget s.ctxs c Ctx.reset
def State.setCtx (s : State) (c : CtxId) (x : Ctx) : State := { s with ctxs := mset s.ctxs c x }
def State.modCtx (s : State) (c : CtxId) (g : Ctx → Ctx) : State := s.setCtx c (g (s.ctx c))
def State.core (s : State) (k : CoreId) : Core := mget s.cores k Core.reset
def State.setCore (s : State) (k : CoreId) (x : Core) : State := { s with cores := mset s.cores k x }
def State.modCore (s : State) (k : CoreId) (g : Core → Core) : State := s.setCore k (g (s.core k))
def State.cluster (s : State) (k : ClusterId) : Cluster := mget s.clusters k Cluster.reset
def State.setCluster (s : State) (k : ClusterId) (x : Cluster) : State := { s with clusters := mset s.clusters k x }
def State.modCluster (s : State) (k : ClusterId) (g : Cluster → Cluster) : State := s.setCluster k (g (s.cluster k))
def State.part (s : State) (p : PartId) : Partition := mget s.parts p Partition.reset
def State.setPart (s : State) (p : PartId) (x : Partition) : State := { s with parts := mset s.parts p x }
def State.modPart (s : State) (p : PartId) (g : Partition → Partition) : State := s.setPart p (g (s.part p))

/-- The executing context. -/
abbrev State.me (s : State) : Ctx := s.ctx s.cur
abbrev State.setMe (s : State) (x : Ctx) : State := s.setCtx s.cur x

/-- A free value is drawn, and the counter advances (log entry 4). -/
def State.draw (s : State) : State := { s with fresh := s.fresh + 1 }

/-- A saturating 64-bit counter (R229, R401). -/
def satInc (w : Word) : Word := if w = BitVec.ofNat 64 (2 ^ 64 - 1) then w else w + 1

/-! ## Outcomes of an access or an element -/

/-- Done with a result; a fault with its cause and fault address; or nothing yet, to be tried again. -/
inductive Acc (α : Type) where
  | ok (a : α) (s : State)
  | fault (cause : Nat) (addr : Word) (s : State)
  | wait (s : State)

def Acc.bind {α β : Type} (x : Acc α) (g : α → State → Acc β) : Acc β :=
  match x with
  | .ok a s => g a s
  | .fault c w s => .fault c w s
  | .wait s => .wait s

/-- A fault whose rule gives no fault address (R333, log entry 34). -/
def openFault {α : Type} (s : State) (cause : Nat) : Acc α := .fault cause (Config.openAddr s.fresh) s.draw

/-- The state an access leaves. -/
def Acc.state {α : Type} : Acc α → State
  | .ok _ s | .fault _ _ s | .wait s => s

/-! ## Physical memory (R362, R417) -/

/-- PA[51] names host memory. -/
def isHost (pa : Nat) : Bool := pa / 2 ^ 51 % 2 == 1

def State.bytesPA (s : State) (pa n : Nat) : List Byte :=
  if isHost pa then s.hostMem.bytes (pa % 2 ^ 51) n else s.mem.bytes pa n

def State.wordPA (s : State) (pa : Nat) : Word := BitVec.ofNat 64 (ofLe (s.bytesPA pa 8))

/-- The sectors (R276) that `n` bytes at `pa` touch. -/
def sectorsOf (pa n : Nat) : List Nat :=
  if n = 0 then [] else (List.range ((pa + n - 1) / 32 - pa / 32 + 1)).map (· + pa / 32)

/-- Whether some sector that the bytes touch is poisoned (R417). -/
def State.poisoned (s : State) (pa n : Nat) : Bool := (sectorsOf pa n).any s.poison.contains

/-- Whether a write of the bytes meets poison: it covers a poisoned sector only in part (R417). -/
def State.writeMeets (s : State) (pa n : Nat) : Bool :=
  (sectorsOf pa n).any (fun x => s.poison.contains x && !(pa ≤ 32 * x && 32 * x + 32 ≤ pa + n))

/-- What a write or an atomic does to the migrations of a granule (R372, R418). -/
def abortMigration (s : State) (g : Nat) : State :=
  let shadowed := mhas s.shadows g
  let next (m : Migration) : List Migration :=
    if m.granule ≠ g then [m]
    else if m.byKvdem && shadowed then []
    else if !m.copying then [m]
    else if m.byKvpro then [{ m with copying := false }]
    else if m.byKvdem then []
    else if Config.policy s.fresh then [{ m with copying := false }] else []
  { (if s.migs.any (fun m => m.granule = g) then s.draw else s) with
      migs := s.migs.flatMap next, shadows := mdel s.shadows g }

/-- What a running task may still fetch where a store overwrites its words (R108): the word as it stood at launch and the latest
one, none between, and byte by byte once a narrower store has made part of it (log entry 81). -/
def noteStale (s : State) (pa n : Nat) : Map (CtxId × Nat) (Word × Bool) :=
  let words := if n = 0 then [] else (List.range ((pa + n - 1) / 8 - pa / 8 + 1)).map (· + pa / 8)
  let whole (w : Nat) : Bool := pa ≤ 8 * w && 8 * w + 8 ≤ pa + n
  (s.ctxs.filter (fun p => p.2.run != .idle)).foldl (fun m p =>
    words.foldl (fun m w =>
      let old := mget m (p.1, w) (s.wordPA (8 * w), false)
      mset m (p.1, w) (old.1, old.2 || !whole w)) m) s.stale

/-- Bytes of memory written: marks cleared, a shadow discarded, migrations aborted (R295, R372, R375, R417). -/
def storePA (s : State) (pa : Nat) (bs : List Byte) : State :=
  let secs := sectorsOf pa bs.length
  let whole (x : Nat) : Bool := pa ≤ 32 * x && 32 * x + 32 ≤ pa + bs.length
  let stale := noteStale s pa bs.length
  let s := if isHost pa then { s with hostMem := s.hostMem.put (pa % 2 ^ 51) bs } else
    (if bs = [] then s else abortMigration { s with mem := s.mem.put pa bs } (pa / 4096))
  { s with
      poison := s.poison.filter (fun x => !(secs.contains x && whole x))
      syncBad := s.syncBad.filter (fun x => !secs.contains x)
      stale := stale }

/-! ## The policy word and L2 classes (R225-R229) -/

def polT1 (p : BitVec 32) : Nat := bitsAt p.toNat 20 12
def polT2 (p : BitVec 32) : Nat := bitsAt p.toNat 8 12
def polScope (p : BitVec 32) : Nat := bitsAt p.toNat 5 3
def polOrder (p : BitVec 32) : Nat := bitsAt p.toNat 3 2
def polNl1 (p : BitVec 32) : Bool := bitsAt p.toNat 2 1 == 1
def polTier (p : BitVec 32) : Nat := bitsAt p.toNat 0 2

/-- Step 1 of R135, R173 and R249. -/
def polBad (p : BitVec 32) : Bool := polScope p ≥ 5 || polT1 p > polT2 p

/-- An acquire: order acquire or acq_rel. -/
def polAcq (p : BitVec 32) : Bool := polOrder p == 1 || polOrder p == 3
/-- A release: order release or acq_rel. -/
def polRel (p : BitVec 32) : Bool := polOrder p == 2 || polOrder p == 3

/-- The hash of R226 on L = VA[56:7]. -/
def lineHash (va : Nat) : Nat :=
  let l := bitsAt va 7 50
  (((bitsAt l 0 12).xor (bitsAt l 12 12)).xor (bitsAt l 24 12)).xor ((bitsAt l 36 12).xor (bitsAt l 48 2))

def hashClass (p : BitVec 32) (va : Nat) : EvClass :=
  let h := lineHash va
  if h < polT1 p then .evictFirst else if h ≤ polT2 p then .normal else .retain

/-- The lowest-numbered valid retention register of the partition that holds the line (R228). -/
def pinOf (s : State) (part : PartId) (va : Nat) : Option (Fin 8) :=
  (List.finRange 8).find? (fun i => match (s.part part).pins[i] with
    | some (base, lines) => base ≤ va / 128 * 128 && va / 128 * 128 < base + 128 * lines
    | none => false)

/-- Slice and set of a line (R223). -/
def sliceOf (pa : Nat) : Nat :=
  ((((bitsAt pa 7 6).xor (bitsAt pa 13 6)).xor ((bitsAt pa 19 6).xor (bitsAt pa 25 6))).xor
    ((bitsAt pa 31 6).xor (bitsAt pa 37 6))).xor ((bitsAt pa 43 6).xor (bitsAt pa 49 3))
def setOf (pa : Nat) : Nat := bitsAt pa 13 10
def sameSet (a b : Nat) : Bool := sliceOf (128 * a) == sliceOf (128 * b) && setOf (128 * a) == setOf (128 * b)

/-- The last element that satisfies a test is the least recently used one of its kind. -/
def lastSome {α : Type} (p : α → Bool) (l : List α) : Option α := l.reverse.find? p

/-- The victim of R227 among the lines of a full set. -/
def victim (set : List L2Line) : Option L2Line :=
  match lastSome (·.cls == .evictFirst) set with
  | some x => some x
  | none =>
    match lastSome (·.cls == .normal) set with
    | some x => some x
    | none => lastSome (·.cls == .retain) set

/-- A line as a pinned-class access marks it: pinned within 12 ways, with the partition and register of the latest such access
(R228), else an overflow line that is counted once (R229). -/
def pinLine (set : List L2Line) (part : PartId) (r : Fin 8) (l : L2Line) : L2Line × Bool :=
  if l.overflow then (l, false)
  else if l.cls == .pinned then ({ l with owner := some (part, r) }, false)
  else if (set.filter (fun x => x.cls == .pinned && x.line != l.line)).length < 12 then
    ({ l with cls := .pinned, owner := some (part, r) }, false)
  else ({ l with cls := .retain, owner := none, overflow := true }, true)

/-- An access of a line at the L2 (R227-R229). -/
def l2Touch (s : State) (part : PartId) (pol : BitVec 32) (va pa : Nat) : State :=
  let n := pa / 128
  let set := s.l2.filter (fun l => sameSet l.line n)
  let pin := pinOf s part va
  let mark (l : L2Line) : L2Line × Bool :=
    match pin with
    | some r => pinLine set part r l
    | none => (if l.cls == .pinned then l else { l with cls := hashClass pol va, overflow := false }, false)
  let old := s.l2.find? (fun l => l.line = n)
  let sector := BitVec.ofNat 4 (2 ^ (pa / 32 % 4))
  let base : L2Line := match old with
    | some l => { l with sectors := l.sectors ||| sector }
    | none => { line := n, cls := .normal, owner := none, overflow := false, present := false, sectors := sector }
  let m := mark base
  let rest := s.l2.filter (fun l => l.line ≠ n)
  let s := if m.2 then s.modPart part (fun p => { p with overCnt := satInc p.overCnt }) else s
  match old with
  | some _ => { s with l2 := m.1 :: rest }
  | none =>
    if set.length < 16 then { s with l2 := m.1 :: rest }
    else
      match victim set with
      | some v => { s with l2 := m.1 :: rest.filter (fun l => l.line ≠ v.line) }
      | none => s

/-! ## The scalar L1 (R221, R222, R224)

Lines are numbered by the physical address, a peer's by `placeKey`. -/

/-- The line of an address where it holds the sectors of `n` bytes there. -/
def l1Find (s : State) (k : CoreId) (pa n : Nat) : Option L1Line :=
  (s.core k).l1.find? (fun l => l.line = pa / 128 && (sectorsOf pa n).all (fun x => l.valid.getLsbD (x % 4)))

/-- A line put first into its set of 4 ways; the set is the line number modulo 128 (log entry 12). -/
def l1Keep (l : L1Line) (ls : List L1Line) : List L1Line :=
  let mine := (ls.filter (fun x => x.line % 128 = l.line % 128 && x.line ≠ l.line)).take 3
  l :: ls.filter (fun x => x.line ≠ l.line && (x.line % 128 ≠ l.line % 128 || mine.contains x))

/-- Allocation of a line of this module's memory. The L2 line's scalar-presence bit is set (R224). -/
def l1Fill (s : State) (k : CoreId) (pa : Nat) : State :=
  let n := pa / 128
  let l : L1Line := { line := n, bytes := s.bytesPA (128 * n) 128, valid := 15 }
  let s := s.modCore k (fun c => { c with l1 := l1Keep l c.l1 })
  { s with l2 := s.l2.map (fun x => if x.line = n then { x with present := true } else x) }

/-- A sector read from a peer put into its line. -/
def l1FillSector (s : State) (k : CoreId) (key : Nat) (bs : List Byte) : State :=
  let at_ := key % 128 / 32 * 32
  let old := ((s.core k).l1.find? (fun l => l.line = key / 128)).getD { line := key / 128, bytes := List.replicate 128 0, valid := 0 }
  let l : L1Line := { old with
    bytes := old.bytes.take at_ ++ bs.take 32 ++ old.bytes.drop (at_ + 32)
    valid := old.valid ||| BitVec.ofNat 4 (2 ^ (at_ / 32)) }
  s.modCore k (fun c => { c with l1 := l1Keep l c.l1 })

def l1DropAll (s : State) (k : CoreId) : State := s.modCore k (fun c => { c with l1 := [] })

/-- One core's copies of the lines that bytes touch. -/
def l1Drop (s : State) (k : CoreId) (pa n : Nat) : State :=
  s.modCore k (fun c => { c with l1 := c.l1.filter (fun l => !(pa / 128 ≤ l.line && l.line ≤ (pa + n - 1) / 128)) })

/-- A write to lines whose scalar-presence bit is set drops every core's copies first and clears the bit (R224). -/
def l1Snoop (s : State) (pa n : Nat) : State :=
  let hit (l : Nat) : Bool := pa / 128 ≤ l && l ≤ (pa + n - 1) / 128
  let lines := (s.l2.filter (fun x => x.present && hit x.line)).map (·.line)
  { s with
      cores := s.cores.map (fun p => (p.1, { p.2 with l1 := p.2.l1.filter (fun l => !lines.contains l.line) }))
      l2 := s.l2.map (fun x => if hit x.line then { x with present := false } else x) }

/-- The core's own copy after a scalar store's write-through (R221): the sectors written, as memory now holds them, so that no
byte of them is older than the write (R276). -/
def l1Update (s : State) (k : CoreId) (pa n : Nat) : State :=
  let new (l : L1Line) (i : Nat) : Byte :=
    if (sectorsOf pa n).contains ((128 * l.line + i) / 32) then (s.bytesPA (128 * l.line + i) 1).headD 0 else l.bytes[i]?.getD 0
  s.modCore k (fun c => { c with l1 := c.l1.map (fun l =>
    if l.line = pa / 128 then { l with bytes := (List.range l.bytes.length).map (new l) } else l) })

/-! ## Translation (R363-R371) -/

/-- A leaf entry's fields (R364). -/
def pteV (w0 : Word) : Bool := w0.toNat % 2 == 1
def pteLeaf (w0 : Word) : Bool := w0.toNat / 2 % 2 == 1
def pteRd (w0 : Word) : Bool := bitsAt w0.toNat 3 1 == 1
def pteWr (w0 : Word) : Bool := bitsAt w0.toNat 4 1 == 1
def pteEx (w0 : Word) : Bool := bitsAt w0.toNat 5 1 == 1
def pteD (w0 : Word) : Bool := bitsAt w0.toNat 7 1 == 1
def pteSize (w0 : Word) : Nat := bitsAt w0.toNat 8 4
def pteFrame (w0 : Word) : Nat := bitsAt w0.toNat 12 40 * 4096
def pteComp (w1 : Word) : Bool := bitsAt w1.toNat 28 1 == 1
def pteChk (w1 : Word) : Bool := bitsAt w1.toNat 29 1 == 1
def pteFmtv (w1 : Word) : Bool := bitsAt w1.toNat 30 1 == 1
def pteFmt (w1 : Word) : Nat := bitsAt w1.toNat 31 5
def pteGeom (w1 : Word) : Nat := bitsAt w1.toNat 36 4
def pteShd (w1 : Word) : Bool := bitsAt w1.toNat 40 1 == 1
def pteTier (w1 : Word) : Nat := bitsAt w1.toNat 41 2
def pteTgt (w1 : Word) : BitVec 10 := BitVec.ofNat 10 (bitsAt w1.toNat 43 10)
def ptePeer (w1 : Word) : Bool := bitsAt w1.toNat 53 1 == 1

/-- What a walk finds. -/
inductive Walk
  | leaf (pte : Nat) (w0 w1 : Word)
  | invalid
  | malformed
  | poison
deriving DecidableEq, Repr

/-- R366 for a leaf at level `l`. -/
def leafMalformed (lsz l : Nat) (w0 w1 : Word) : Bool :=
  let n := pteSize w0
  let span := 2 ^ (12 + 2 * n)
  bitsAt w0.toNat 52 12 != 0 || bitsAt w0.toNat 2 1 != 0 || bitsAt w1.toNat 54 10 != 0 || bitsAt w1.toNat 0 28 != 0
    || l ≥ 4 || n / 4 != l || pteFrame w0 % span != 0
    || pteGeom w1 ≥ 5 || (pteGeom w1 != 0 && !pteFmtv w1) || pteTier w1 == 3 || (pteFmtv w1 && pteFmt w1 ≥ 21)
    || (!ptePeer w1 && !isHost (pteFrame w0) && pteFrame w0 + span > lsz)
    || (isHost (pteFrame w0) && ptePeer w1)

/-- The index of a level and the address of the entry it selects (R363). -/
def walkIndex (va l : Nat) : Nat := if l = 5 then bitsAt va 52 5 else bitsAt va (12 + 8 * l) 8

/-- A walk from level `l` down (R363-R366). -/
def walkFrom (s : State) (va : Nat) : Nat → Nat → Walk
  | l, table =>
    let e := table + 16 * walkIndex va l
    let w0 := s.wordPA e
    let w1 := s.wordPA (e + 8)
    if s.poisoned e 16 then .poison
    else if !pteV w0 then .invalid
    else if pteLeaf w0 then (if leafMalformed s.lsz l w0 w1 then .malformed else .leaf e w0 w1)
    else if bitsAt w0.toNat 52 12 != 0 || bitsAt w0.toNat 2 10 != 0 || w1 != 0
        || (!isHost (pteFrame w0) && pteFrame w0 + 4096 > s.lsz) then .malformed
    else
      match l with
      | 0 => .malformed
      | l + 1 => walkFrom s va l (pteFrame w0)

/-- A walk of a partition's tables. -/
def walk (s : State) (part : PartId) (va : Nat) : Walk :=
  let root := (s.part part).pgroot
  if root.toNat % 2 = 0 then .invalid else walkFrom s va 5 (bitsAt root.toNat 9 43 * 512)

/-- A translation in hand: where the page begins, its size in bits, its entry and the entry's place. -/
structure Page where
  vbase : Nat
  bits  : Nat
  w0    : Word
  w1    : Word
  pte   : Nat
deriving DecidableEq, Repr

def Page.pa (p : Page) (va : Nat) : Nat := pteFrame p.w0 + va % 2 ^ p.bits

/-- The holder of a context's scalar accesses and fetches (R369). -/
def l1Holder (c : CtxId) : Holder := if isHandlerCtx c then .handler (coreOf c) else .user (coreOf c)

/-- The cluster TLB behind a core's holders. -/
def behind : Holder → Option Holder
  | .user k | .handler k | .streamCtl k => some (.cluster (coreCluster k))
  | _ => none

/-- Entries of a holder (R369); of the task walker and handle unit the number is the device's own (log entry 14). -/
def tlbSize : Holder → Nat
  | .user _ | .handler _ => 64
  | .streamCtl _ => 32
  | .cluster _ => 4096
  | .slice _ => 256
  | .unit _ => 64

/-- An entry put first among its holder's, which keeps no more than it has room for. -/
def tlbPut (l : List TlbEntry) (e : TlbEntry) : List TlbEntry :=
  e :: (l.filter (fun x => x.holder = e.holder)).take (tlbSize e.holder - 1) ++ l.filter (fun x => x.holder ≠ e.holder)

def tlbCovers (e : TlbEntry) (h : Holder) (part : PartId) (va : Nat) : Bool :=
  e.holder == h && e.part == part && va / 2 ^ e.bits * 2 ^ e.bits == e.vbase

/-- R366: the partition's count of malformed entries. -/
def countMalformed (s : State) (part : PartId) : State :=
  s.modPart part (fun p => { p with malform := satInc p.malform })

/-- A bit of a page-table entry set by an atomic OR (R371). -/
def orPte (s : State) (pte bit : Nat) : State :=
  let w := s.wordPA pte ||| BitVec.ofNat 64 (2 ^ bit)
  if s.wordPA pte = w then s else storePA s pte (leBytes 8 w.toNat)

/-- Translation of an address below 2^57 through a holder (R363, R367 step 1, R369): an entry that the holder still has, or a
walk, which sets A before the entry is cached. Without a valid root every translation faults. -/
def translate (s : State) (h : Holder) (part : PartId) (va : Nat) : Acc Page :=
  let keep := Config.tlbKeep s.fresh
  let s := { s with fresh := s.fresh + 1, tlb := s.tlb.filter (fun e => !tlbCovers e h part va || keep) }
  let hit (h : Holder) : Option TlbEntry := s.tlb.find? (fun e => tlbCovers e h part va)
  let found := match hit h with
    | some e => some e
    | none => (behind h).bind hit
  let valid := (s.part part).pgroot.toNat % 2 = 1
  match (if valid then found else none) with
  | some e => .ok { vbase := e.vbase, bits := e.bits, w0 := e.w0, w1 := e.w1, pte := e.pte } s
  | none =>
    match walk s part va with
    | .invalid => .fault 0x01 (BitVec.ofNat 64 va) s
    | .malformed => .fault 0x01 (BitVec.ofNat 64 va) (countMalformed s part)
    | .poison => .fault 0x0C (BitVec.ofNat 64 va) s
    | .leaf pte w0 w1 =>
      let bits := 12 + 2 * pteSize w0
      let s := orPte s pte 6
      let w0 := w0 ||| 0x40
      let vbase := va / 2 ^ bits * 2 ^ bits
      let entry (h : Holder) : TlbEntry := { holder := h, part := part, vbase := vbase, bits := bits, w0 := w0, w1 := w1, pte := pte }
      let tlb := match behind h with | some b => tlbPut s.tlb (entry b) | none => s.tlb
      .ok { vbase := vbase, bits := bits, w0 := w0, w1 := w1, pte := pte } { s with tlb := tlbPut tlb (entry h) }

/-- The holder that translates an address: of the slices' engines, the one whose slice holds the line (R232). -/
def holderFor (s : State) (h : Holder) (part : PartId) (va : Nat) : Holder :=
  match h with
  | .slice _ => match walk s part va with
    | .leaf _ w0 _ => .slice (sliceOf (pteFrame w0 + va % 2 ^ (12 + 2 * pteSize w0)))
    | _ => h
  | h => h

/-- D set in an entry that was clean; the cached copies record it (R371). -/
def setDirtyPte (s : State) (part : PartId) (pte : Nat) : State :=
  let s := orPte s pte 7
  { s with tlb := s.tlb.map (fun e => if e.part = part && e.pte = pte then { e with w0 := e.w0 ||| 0x80 } else e) }

/-- D set before a write through an entry that was clean (R371); the cached copies record it. -/
def setDirty (s : State) (part : PartId) (p : Page) : State := if pteD p.w0 then s else setDirtyPte s part p.pte

/-! ## Permission, lease, window (R220, R324, R367) -/

/-- What an access does: read, write, atomic or fetch. -/
inductive Kind | read | write | atomic | fetch
deriving DecidableEq, Repr

def permits (k : Kind) (w0 : Word) : Bool :=
  match k with
  | .read => pteRd w0
  | .write => pteWr w0
  | .atomic => pteRd w0 && pteWr w0
  | .fetch => pteEx w0

/-- Whether an access writes. -/
def Kind.writes : Kind → Bool
  | .write | .atomic => true
  | .read | .fetch => false

/-- Setting D would be an atomic on a poisoned sector of the page table (R371, R417). -/
def dirtyBad (s : State) (k : Kind) (p : Page) : Bool := k.writes && !pteD p.w0 && s.poisoned p.pte 8

/-- Every byte of the access lies in a lease range of the right mark (R324). -/
def leased (ls : Option (List Lease)) (k : Kind) (va n : Nat) : Bool :=
  match ls, k with
  | none, _ => true
  | _, .fetch => true
  | some ls, k =>
    let ok (l : Lease) : Bool := match k with
      | .read => l.rd
      | .write => l.wr
      | .atomic => l.rd && l.wr
      | .fetch => true
    (List.range n).all (fun i => ls.any (fun l => ok l && l.base ≤ va + i && va + i < l.base + l.len))

/-- The local window [2^57 − 2^32, 2^57) (R220). -/
def windowBase : Nat := 2 ^ 57 - 2 ^ 32
def inWindow (va : Nat) : Bool := windowBase ≤ va && va < 2 ^ 57

/-- POOLW's fields (R218). -/
def poolSrf (w : BitVec 15) : Nat := bitsAt w.toNat 10 5
def poolSpd (w : BitVec 15) : Nat := bitsAt w.toNat 5 5
def poolAcs (w : BitVec 15) : Nat := bitsAt w.toNat 0 5
def granuleBytes : Nat := 65536

/-- The granules [lo, hi) of the SRF, the scratchpad and accumulator storage (R217). -/
def srfGranules (w : BitVec 15) : Nat × Nat := (0, poolSrf w)
def spdGranules (w : BitVec 15) : Nat × Nat := (poolSrf w, poolSrf w + poolSpd w)
def acsGranules (w : BitVec 15) : Nat × Nat := (poolSrf w + poolSpd w, 24)

/-- Which pool part bytes at a window offset lie in, with their offset there; none beyond the present size. -/
inductive PoolPart | spd | srf
deriving DecidableEq, Repr

def poolAt (c : Core) (off n : Nat) : Option (PoolPart × Nat) :=
  if off + n ≤ poolSpd c.poolw * granuleBytes then some (.spd, off)
  else if 0x1000000 ≤ off && off + n ≤ 0x1000000 + poolSrf c.poolw * granuleBytes then some (.srf, off - 0x1000000)
  else none

/-- Where bytes of an access lie. -/
inductive Place
  | pool (p : PoolPart) (off : Nat)
  | mem (pa : Nat) (page : Page)
  | peer (pa : Nat) (page : Page)
deriving DecidableEq, Repr

/-- A piece of an access within one sector: its first byte's index, its length, its place. -/
structure Piece where
  at_  : Nat
  len  : Nat
  va   : Nat
  place : Place
deriving DecidableEq, Repr

/-- A byte's place as one number: its physical address, or one of a range of its own for a peer's module and for each pool part
of a core. Tags, clock lines, marks and scalar copies are kept by it. -/
def placeKey (k : CoreId) (p : Place) : Nat :=
  match p with
  | .mem pa _ => pa
  | .peer pa page => pa + 2 ^ 52 * (1 + (pteTgt page.w1).toNat)
  | .pool .spd off => 2 ^ 63 + k.toNat * 2 ^ 33 + off
  | .pool .srf off => 2 ^ 63 + k.toNat * 2 ^ 33 + 2 ^ 32 + off

/-- Who makes an access: the context, the holder that translates for it, and its captured policy word; for an instruction of the
window its number, by which it follows older scalar stores (R272) and drops the core's own scalar copies (R222). -/
structure Who where
  ctx    : CtxId
  holder : Holder
  pol    : BitVec 32
  seq    : Option Nat := none
deriving DecidableEq, Repr

/-- One piece: the window, or translation, permission and lease in the order of R367. A fetch at an address of the window takes
the pool's bytes as instructions (log entry 82). -/
def placePiece (s : State) (w : Who) (k : Kind) (va n : Nat) (ea : Word) : Acc Place :=
  let c := s.ctx w.ctx
  if inWindow va then
    match poolAt (s.core (coreOf w.ctx)) (va - windowBase) n with
    | some (p, off) => .ok (.pool p off) s
    | none => .fault 0x02 ea s
  else
    match translate s (holderFor s w.holder c.part va) c.part va with
    | .fault cause _ s => .fault cause ea s
    | .wait s => .wait s
    | .ok page s =>
      if !permits k page.w0 then .fault 0x02 ea s
      else if !leased c.leases k va n then .fault 0x03 ea s
      else if dirtyBad s k page then .fault 0x0C ea s
      else if ptePeer page.w1 then .ok (.peer (page.pa va) page) s
      else .ok (.mem (page.pa va) page) s

/-- The pieces of `n` bytes from `va`, cut at sector boundaries; `fuel` is at least n. -/
def placePieces (w : Who) (k : Kind) (ea : Word) : Nat → State → Nat → Nat → Nat → Acc (List Piece)
  | 0, s, _, _, _ => .ok [] s
  | fuel + 1, s, i, va, n =>
    if n = 0 then .ok [] s
    else
      let m := min n (32 - va % 32)
      (placePiece s w k va m ea).bind fun p s =>
        (placePieces w k ea fuel s (i + m) (va + m) (n - m)).bind fun ps s =>
          .ok ({ at_ := i, len := m, va := va, place := p } :: ps) s

/-- Pieces of a peer's memory that follow one another go as one request (R293, R404). -/
def mergePeers : List Piece → List Piece
  | p :: ps =>
    match p.place, mergePeers ps with
    | .peer pa g, q :: qs =>
      match q.place with
      | .peer pa' g' =>
        if pa' = pa + p.len && pteTgt g'.w1 = pteTgt g.w1 then { p with len := p.len + q.len } :: qs else p :: q :: qs
      | _ => p :: q :: qs
    | _, r => p :: r
  | [] => []

/-- Steps 4 and 5 of R135 and R173, up to but not with the data: `n` bytes at `ea`. An element of up to 48 bytes is one unit
(R293). -/
def resolve (s : State) (w : Who) (k : Kind) (ea : Word) (n : Nat) : Acc (List Piece) :=
  if ea.toNat ≥ 2 ^ 57 then .fault 0x01 ea s
  else (placePieces w k ea n s 0 ea.toNat n).bind fun ps s => .ok (if n ≤ 48 then mergePeers ps else ps) s

/-! ## Race tags (R289, R290) -/

def Covered (c : Ctx) (m ph : Nat) : Bool := m == c.member || ph ≤ mget c.vc m 0

def slotCovered (c : Ctx) (x : Option (Nat × Nat)) : Bool :=
  match x with
  | none => true
  | some (m, ph) => Covered c m ph

/-- A member's read or write of one sector: the new tag, or a conflict. -/
def raceTag (c : Ctx) (ph : Nat) (write : Bool) (t : ShadowTag) : Option ShadowTag :=
  if !write then
    if !slotCovered c t.w then none
    else
      let mine (x : Option (Nat × Nat)) : Bool := match x with | some (m, _) => m == c.member | none => false
      if mine t.a then some { t with a := some (c.member, ph) }
      else if mine t.b then some { t with a := some (c.member, ph), b := t.a }
      else some { t with a := some (c.member, ph), b := t.a }
  else if !slotCovered c t.w || !slotCovered c t.a || !slotCovered c t.b then none
  else some { w := some (c.member, ph), a := none, b := none }

/-- The sectors of one piece, one after another. -/
def raceSectors (c : Ctx) (ph : Nat) (write : Bool) (tags : Map (PartId × Nat) ShadowTag) :
    List Nat → Option (Map (PartId × Nat) ShadowTag)
  | [] => some tags
  | x :: xs =>
    match raceTag c ph write (mget tags (c.part, x) ShadowTag.reset) with
    | none => none
    | some t => raceSectors c ph write (mset tags (c.part, x) t) xs

/-- The checks of one access's pieces on checked pages; none on a conflict. -/
def raceCheck (s : State) (ctx : CtxId) (ph : Nat) (write : Bool) : List Piece → Option State
  | [] => some s
  | p :: ps =>
    match p.place with
    | .mem _ page | .peer _ page =>
      if pteChk page.w1 && (s.ctx ctx).chk then
        match raceSectors (s.ctx ctx) ph write s.tags (sectorsOf (placeKey (coreOf ctx) p.place) p.len) with
        | none => none
        | some tags => raceCheck { s with tags := tags } ctx ph write ps
      else raceCheck s ctx ph write ps
    | .pool _ _ => raceCheck s ctx ph write ps

/-! ## Requests to peers (R403-R407) -/

/-- CRC-64 with the ECMA-182 polynomial, one bit at a time from the top of each byte (log entry 31). -/
def crcBit (c : Word) (b : Bool) : Word :=
  let top := c.toNat / 2 ^ 63 == 1
  let c := c <<< 1
  if top != b then c ^^^ 0x42F0E1EBA9EA3693 else c

def crc64 (bs : List Byte) : Word :=
  bs.foldl (fun c b => (List.range 8).foldl (fun c i => crcBit c (b.getLsbD (7 - i))) c) 0

/-- Bytes 0 to 119 of a command flit (R403). The data of a segment write follow in data flits of their own: in the model they
stand in `inline`, which the command flit itself does not hold (log entry 15). -/
def flitBytes (f : Flit) : List Byte :=
  leBytes 1 f.type.toNat ++ [0] ++ leBytes 2 f.dest.toNat ++ leBytes 2 f.src.toNat ++ leBytes 2 f.part.toNat
    ++ leBytes 8 f.tag.toNat ++ leBytes 8 f.addr.toNat ++ leBytes 4 f.len.toNat ++ leBytes 4 f.opc.toNat
    ++ (if f.type = 7 then List.replicate 88 0 else f.inline.take 88 ++ List.replicate (88 - f.inline.length) 0)

def flitSeal (f : Flit) : Flit := { f with check := crc64 (flitBytes f) }
def flitOk (f : Flit) : Bool := f.check == crc64 (flitBytes f)

/-- This module's number (R402). -/
def moduleNo (s : State) : BitVec 10 := match s.image with | some i => i.moduleNo | none => 0

/-- Whether the route table names a route (R402, R384). -/
def hasRoute (s : State) (m : BitVec 10) : Bool :=
  match s.image with
  | some i => i.routes.any (·.1 = m)
  | none => false

/-- A request on its way: sent once, then awaited; its data stand until the unit that asked is done (`clearReqs`). `key` names
the instruction (0 for a non-column one), the element and the piece. -/
def peerAsk (s : State) (ctx : CtxId) (key : Nat × Nat × Nat) (kind : RequestKind) (mk : Word → Flit) (ea va : Word) (pte : Nat) :
    Acc (List Byte) :=
  match s.reqs.find? (fun r => r.ctx = ctx && r.key = key) with
  | none =>
    let tag := BitVec.ofNat 64 s.fresh
    let f := flitSeal (mk tag)
    let r : Request := { tag := tag, ctx := ctx, va := va, pte := pte, key := key, kind := kind, flit := f, resent := 0, st := .waiting }
    .wait { s.draw with reqs := s.reqs ++ [r], outbox := s.outbox ++ [f] }
  | some r =>
    let done := { s with reqs := s.reqs.filter (fun q => q.tag ≠ r.tag) }
    match r.st with
    | .waiting => .wait s
    | .failed => .fault 0x0D ea done
    | .answered .protection => .fault 0x02 ea done
    | .answered .poison => .fault 0x0C ea done
    | .answered (.data bs) => .ok bs s

/-- The answered requests of a unit that is done: elements [lo, hi) of an instruction's keys. -/
def clearReqs (s : State) (ctx : CtxId) (unit lo hi : Nat) : State :=
  { s with reqs := s.reqs.filter (fun r =>
      r.ctx ≠ ctx || r.key.1 ≠ unit || r.key.2.1 < lo || hi ≤ r.key.2.1 || r.kind = .drop || r.st = .waiting) }

/-- A request that writes at the peer. -/
def RequestKind.writes : RequestKind → Bool
  | .write | .atomic | .xaccAdd | .segWrite => true
  | .read | .drop | .segRead | .den => false

/-- A unit that cannot be finished yet leaves the machine as it stood before it (R47), but for the requests it has sent, with the
dirty bits that go before them (R371), and the free values it has drawn. -/
def keepRequests (old new : State) : State :=
  let sent := new.reqs.filter (fun r => r.kind.writes && !old.reqs.any (fun q => q.tag = r.tag))
  sent.foldl (fun s r => setDirtyPte s (s.ctx r.ctx).part r.pte)
    { old with reqs := new.reqs, outbox := new.outbox, fresh := new.fresh }

/-- OPC of a request (R403): code in [3:0], 32-bit width in [4], policy order in [6:5], scope in [9:7], and a release over a
failed store (R294) in [10] (log entry 15). -/
def opcOf (code : Nat) (w32 : Bool) (pol : BitVec 32) (failed : Bool := false) : Nat :=
  code + w32.toNat * 16 + polOrder pol * 32 + polScope pol * 128 + failed.toNat * 1024

/-- What OPC says of the order of a request: an acquire, or a release over a failed store (R295, R294). -/
def opcAcq (f : Flit) : Bool := bitsAt f.opc.toNat 5 1 == 1
def opcFailed (f : Flit) : Bool := bitsAt f.opc.toNat 10 1 == 1

/-- A flit from this module on behalf of a context. -/
def flitFor (s : State) (ctx : CtxId) (type : Nat) (dest : BitVec 10) (pa len opc : Nat) (inline : List Byte) (tag : Word) :
    Flit :=
  { type := BitVec.ofNat 8 type, dest := dest, src := moduleNo s, part := (s.ctx ctx).part, tag := tag
    addr := BitVec.ofNat 52 pa, len := BitVec.ofNat 32 len, opc := BitVec.ofNat 32 opc, inline := inline, check := 0 }

/-! ## Clocks of checked groups (R288) -/

def clockMax (a b : Clock) : Clock := b.foldl (fun m p => mset m p.1 (max p.2 (mget m p.1 0))) a

/-- The member's own phase. -/
def ownPhase (c : Ctx) : Nat := mget c.vc c.member 0

/-- PH + 1, saturating with SAT. -/
def bumpPhase (c : Ctx) : Ctx :=
  if !c.chk then c
  else if ownPhase c ≥ 0xFFFFFF then { c with sat := true }
  else { c with vc := mset c.vc c.member (ownPhase c + 1) }

/-- A member joins a clock it meets. -/
def joinClock (c : Ctx) (k : Clock) : Ctx := if c.chk then { c with vc := clockMax c.vc k } else c

/-- A release write's clock line (R288): set for a store, joined for an atomic; then PH advances. It is also the write that
follows a release fence. -/
def releaseClock (s : State) (ctx : CtxId) (pa : Nat) (atomic : Bool) : State :=
  let c := s.ctx ctx
  if !c.chk then s
  else
    let key := (c.part, pa / 128)
    let line := if atomic then clockMax (mget s.clocks key []) c.vc else c.vc
    ({ s with clocks := mset s.clocks key line }).setCtx ctx { bumpPhase c with fenced := false }

def acquireClock (s : State) (ctx : CtxId) (pa : Nat) : State :=
  s.modCtx ctx (fun c => joinClock c (mget s.clocks (c.part, pa / 128) []))

/-- A read of a line: what an acquire fence after it joins (R288). -/
def noteRead (s : State) (ctx : CtxId) (pa : Nat) : State :=
  let c := s.ctx ctx
  if c.chk then s.setCtx ctx { c with seen := clockMax c.seen (mget s.clocks (c.part, pa / 128) []) } else s

/-- The write that follows a release fence carries the clock (R282, R288). -/
def fenceWrite (s : State) (ctx : CtxId) (pa : Nat) : State :=
  if (s.ctx ctx).fenced then releaseClock s ctx pa false else s

/-! ## The data of an access -/

/-- Bytes of a pool part. -/
def poolBytes (s : State) (k : CoreId) (p : PoolPart) (off n : Nat) : List Byte :=
  match p with
  | .spd => (s.core k).spd.bytes off n
  | .srf => (s.core k).srf.bytes off n

/-- A write to a pool part, which clears a mark of R295 there; a write to a scratchpad tile re-encodes it, so that it is raw no
more (R233). -/
def poolPut (s : State) (k : CoreId) (p : PoolPart) (off : Nat) (bs : List Byte) : State :=
  let secs := sectorsOf (placeKey k (.pool p off)) bs.length
  let s := { s with syncBad := s.syncBad.filter (fun x => !secs.contains x) }
  match p with
  | .spd => s.modCore k (fun c => { c with spd := c.spd.put off bs, rawTiles := c.rawTiles.filter (· ≠ off / 4096) })
  | .srf => s.modCore k (fun c => { c with srf := c.srf.put off bs })

/-- R373: an access with hint 0 or 1 counts toward, or requests, the promotion of its granule, at firmware's policy. -/
def promoteHint (s : State) (pol : BitVec 32) (pa : Nat) : State :=
  let g := pa / 4096
  let may : Bool := !isHost pa && !s.inHbm.contains g && !s.migs.any (fun m => m.granule = g) && polTier pol != 2
  { s with fresh := s.fresh + 1, migs := s.migs ++ (if may && Config.policy s.fresh then
      [{ granule := g, toHbm := true, copying := false, byKvdem := false, byKvpro := false }] else []) }

/-- Whether bytes at `pa` are written by an older scalar store of the context that memory does not show yet, under whatever
virtual address (R272). -/
def olderStore (s : State) (w : Who) (pa n : Nat) : Bool :=
  match w.seq with
  | some k => (s.ctx w.ctx).stores.any (fun st => st.seq ≤ k && pa < st.pa + st.bytes.length && st.pa < pa + n)
  | none => false

/-- A column path drops the core's own scalar copies of the lines it reads (R222). -/
def dropRead (s : State) (w : Who) (key n : Nat) : State := if w.seq.isSome then l1Drop s (coreOf w.ctx) key n else s

/-- Bytes read at the L2, by any path but the scalar L1. -/
def readPieces (w : Who) (key : Nat × Nat) (ea : Word) : List Piece → State → Acc (List Byte)
  | [], s => .ok [] s
  | p :: ps, s =>
    let k := placeKey (coreOf w.ctx) p.place
    let one : Acc (List Byte) :=
      match p.place with
      | .pool q off => .ok (poolBytes s (coreOf w.ctx) q off p.len) (noteRead s w.ctx k)
      | .mem pa _ =>
        if olderStore s w pa p.len then .wait s
        else
          let s := promoteHint (l2Touch s (s.ctx w.ctx).part w.pol p.va pa) w.pol pa
          if s.poisoned pa p.len then .fault 0x0C ea s
          else .ok (s.bytesPA pa p.len) (dropRead (noteRead s w.ctx pa) w pa p.len)
      | .peer pa page =>
        (peerAsk s w.ctx (key.1, key.2, p.at_) .read (flitFor s w.ctx 1 (pteTgt page.w1) pa p.len (opcOf 0 false w.pol) []) ea
          (BitVec.ofNat 64 p.va) page.pte).bind fun bs s => .ok bs (dropRead (noteRead s w.ctx k) w k p.len)
    one.bind fun bs s => (readPieces w key ea ps s).bind fun rest s => .ok (bs ++ rest) s

/-- The bytes of one piece out of the bytes of an access. -/
def pieceBytes (p : Piece) (bs : List Byte) : List Byte := (bs.drop p.at_).take p.len

/-- Whether a write of the pieces meets poison anywhere: nothing of it is then performed (R417). -/
def writePoison (s : State) (ps : List Piece) : Bool :=
  ps.any (fun p => match p.place with | .mem pa _ => s.writeMeets pa p.len | _ => false)

/-- Whether an access of the context is a release over a store that failed (R294). -/
def failedRelease (s : State) (w : Who) : Bool := polRel w.pol && (s.ctx w.ctx).failed.isSome

/-- Bytes written at the L2 by a column path: dirty bits, scalar copies dropped first, the issuing core's own always (R272),
then the bytes (R182, R224). -/
def writePieces (w : Who) (key : Nat × Nat) (ea : Word) (bs : List Byte) : List Piece → State → Acc Unit
  | [], s => .ok () s
  | p :: ps, s =>
    let d := pieceBytes p bs
    let k := placeKey (coreOf w.ctx) p.place
    let one : Acc Unit :=
      match p.place with
      | .pool q off => .ok () (poolPut (fenceWrite s w.ctx k) (coreOf w.ctx) q off d)
      | .mem pa page =>
        if olderStore s w pa p.len then .wait s
        else
          let s := setDirty s (s.ctx w.ctx).part page
          let s := promoteHint (l2Touch s (s.ctx w.ctx).part w.pol p.va pa) w.pol pa
          let s := fenceWrite s w.ctx pa
          .ok () (storePA (l1Drop (l1Snoop s pa p.len) (coreOf w.ctx) pa p.len) pa d)
      | .peer pa page =>
        (peerAsk (setDirty s (s.ctx w.ctx).part page) w.ctx (key.1, key.2, p.at_) .write
            (flitFor s w.ctx 2 (pteTgt page.w1) pa p.len (opcOf 0 false w.pol (failedRelease s w)) d) ea (BitVec.ofNat 64 p.va)
            page.pte).bind
          fun _ s => .ok () (l1Drop (fenceWrite s w.ctx k) (coreOf w.ctx) k p.len)
    one.bind fun _ s => writePieces w key ea bs ps s

/-- A checked access without race checking: all bytes at `ea` read. `key` names the unit for peer requests. -/
def readAt (s : State) (w : Who) (k : Kind) (key : Nat × Nat) (ea : Word) (n : Nat) : Acc (List Byte) :=
  (resolve s w k ea n).bind fun ps s => readPieces w key ea ps s

/-- A word of 8 bytes read with kind read. -/
def readWord (s : State) (w : Who) (key : Nat × Nat) (ea : Word) : Acc Word :=
  (readAt s w .read key ea 8).bind fun bs s => .ok (BitVec.ofNat 64 (ofLe bs)) s

/-! ## Fetch (R107, R108) -/

/-- The word at a place in memory as a running task fetches it: as written, or as it stood at launch where it has been
overwritten since; byte by byte where a narrower store made part of it. -/
def fetchBytes (s : State) (ctx : CtxId) (pa : Nat) (new : List Byte) : List Byte × State :=
  match (s.stale.find? (fun p => p.1 = (ctx, pa / 8))).map (·.2) with
  | none => (new, s)
  | some (old, narrow) =>
    let old := leBytes 8 old.toNat
    if !narrow then (if Config.policy s.fresh then old else new, s.draw)
    else
      ((List.range 8).map (fun i => if Config.policy (s.fresh + i) then old[i]?.getD 0 else new[i]?.getD 0),
       { s with fresh := s.fresh + 8 })

/-- The instruction word at `va`, which a fault names as its address. A fetch from a peer page asks the peer, and may fault 0x0D
(log entry 82). -/
def fetchWord (s : State) (ctx : CtxId) (va : Word) : Acc Word :=
  let w : Who := { ctx := ctx, holder := l1Holder ctx, pol := (s.ctx ctx).pold &&& 0xFFFFFFE7 }
  (resolve s w .fetch va 8).bind fun ps s =>
    (readPieces w (0, 2 ^ 32 + va.toNat) va ps s).bind fun bs s =>
      match ps with
      | { place := .mem pa _, .. } :: _ =>
        let r := fetchBytes s ctx pa bs
        .ok (BitVec.ofNat 64 (ofLe r.1)) r.2
      | _ => .ok (BitVec.ofNat 64 (ofLe bs)) s

/-- The words from `va` on, in order. -/
def fetchWords (ctx : CtxId) : Nat → Word → State → Acc (List Word)
  | 0, _, s => .ok [] s
  | n + 1, va, s => (fetchWord s ctx va).bind fun w s => (fetchWords ctx n (va + 8) s).bind fun ws s => .ok (w :: ws) s

end Sys2Proof.Machine
end

