-- ==== Sys2Proof/Machine/Columns.lean ====
section
/-! DEFINITION. Column descriptors, windows in the SRF, the spill arena, and elements read and written (R24-R33, R53, R149). -/

namespace Sys2Proof.Machine

def getCol (c : Ctx) (r : Col) : Column :=
  match r with
  | .c n => c.c[n]
  | .p n => c.p[n]

def setCol (c : Ctx) (r : Col) (x : Column) : Ctx :=
  match r with
  | .c n => { c with c := c.c.set n x }
  | .p n => { c with p := c.p.set n x }

/-- The format an unallocated register has (R25). -/
def emptyFmt : Col → Fmt
  | .c _ => .n8
  | .p _ => .pos32

/-- The size of a window, a multiple of 256 bytes (R25). -/
def windowSize (f : Fmt) (cap : Nat) : Nat := roundUp (bytesOf f cap) 256

/-- CAP after the window takes elements of another width (R150). -/
def recap (f g : Fmt) (cap : Nat) : Nat :=
  if sameWidth f g then cap else min (elemsIn g (windowSize f cap)) (2 ^ 24 - 1)

/-- The extents that a column of `len` elements holds (R26). -/
def extentsFor (f : Fmt) (cap len : Nat) : Nat :=
  if len ≤ cap then 0
  else if f = .bool1 then ceilDiv (ceilDiv (len - cap) 8) 4096
  else if f = .e2m1 then ceilDiv (ceilDiv (len - cap) 2) 4096
  else if f = .tern5 then ceilDiv (ceilDiv (len - cap) 5) 4096
  else ceilDiv ((len - cap) * elemBytes f) 4096

/-- Extents held by a context: its columns' and its instructions' working state (R26, R193). -/
def heldExtents (c : Ctx) : List Nat :=
  c.c.toList.flatMap (·.extents) ++ c.p.toList.flatMap (·.extents) ++ c.window.flatMap (·.work)

/-- SPL in bytes (R26). -/
def splOf (c : Ctx) : Nat := 4096 * (heldExtents c).length

/-- An arena extent that is not held: the one proposed, or the lowest free one (R26, log entry 17). -/
def freeExtent (c : Ctx) (want : Nat) : Nat :=
  let h := heldExtents c
  if want < c.spq.toNat / 4096 && !h.contains want then want
  else ((List.range (h.length + 1)).find? (fun i => !h.contains i)).getD h.length

/-- An instruction's working extents belong to its first destination (R193). -/
def workOf (c : Ctx) (r : Col) : List Nat :=
  c.window.flatMap (fun e => match e.dests with | d :: _ => if d.reg = r then e.work else [] | [] => [])

/-- The arena address at which the next extent would begin, as a refused acquisition names it (R194). -/
def nextExtentAddr (c : Ctx) : Word := BitVec.ofNat 64 (c.spb.toNat + splOf c)

/-- One more extent, if SPL + 4,096 stays within SPQ (R28). -/
def takeExtent (s : State) (ctx : CtxId) : Option (Nat × State) :=
  let c := s.ctx ctx
  if splOf c + 4096 > c.spq.toNat then none else some (freeExtent c (Config.arenaExtent s.fresh), s.draw)

/-- Extents of a register raised to `need`. -/
def growColumn (ctx : CtxId) (r : Col) (need : Nat) : Nat → State → Acc Unit
  | 0, s => .ok () s
  | fuel + 1, s =>
    let x := getCol (s.ctx ctx) r
    if x.extents.length ≥ need then .ok () s
    else
      match takeExtent s ctx with
      | none => .fault 0x07 (nextExtentAddr (s.ctx ctx)) s
      | some (e, s) => growColumn ctx r need fuel (s.modCtx ctx (fun c => setCol c r { x with extents := x.extents ++ [e] }))

/-- Room for the elements below `n` of a destination (R27, R28). -/
def acquire (s : State) (ctx : CtxId) (r : Col) (f : Fmt) (n : Nat) : Acc Unit :=
  let need := extentsFor f (getCol (s.ctx ctx) r).cap n
  growColumn ctx r need (need + 1) s

/-- The byte of the arena, counted over a register's extents in order, at which element `i` begins: the first element beyond the
window begins the first extent. -/
def arenaByte (x : Column) (f : Fmt) (i : Nat) : Nat := byteAt f (i - x.cap)

/-- The arena's virtual address of byte `o` of a register's extents (R26). -/
def arenaVa (c : Ctx) (x : Column) (o : Nat) : Nat := c.spb.toNat + 4096 * (x.extents[o / 4096]?.getD 0) + o % 4096

/-- One run of arena bytes within a sector, accessed with the context's own translation and partition, and never checked against
leases (R29, R324). A write of the whole sector clears its poison, one of a part meets it (R417). -/
def arenaRun (s : State) (ctx : CtxId) (va n : Nat) (write : Bool) : Acc Unit :=
  let ea := BitVec.ofNat 64 va
  if va ≥ 2 ^ 57 then .fault 0x01 ea s
  else
    match translate s (.streamCtl (coreOf ctx)) (s.ctx ctx).part va with
    | .fault cause _ s => .fault cause ea s
    | .wait s => .wait s
    | .ok page s =>
      let bad := !ptePeer page.w1 && (if write then s.writeMeets (page.pa va) n else s.poisoned (page.pa va) n)
      if !permits (if write then .write else .read) page.w0 then .fault 0x02 ea s
      else if bad || dirtyBad s (if write then .write else .read) page then .fault 0x0C ea s
      else if write then
        let s := setDirty s (s.ctx ctx).part page
        .ok () { s with poison := s.poison.filter (fun x => ptePeer page.w1 || !(page.pa va ≤ 32 * x && 32 * x + 32 ≤ page.pa va + n)) }
      else .ok () s

/-- The `n` bytes from byte `o` of a register's extents, run by run. -/
def arenaRuns (ctx : CtxId) (x : Column) (write : Bool) : Nat → Nat → Nat → State → Acc Unit
  | 0, _, _, s => .ok () s
  | fuel + 1, o, n, s =>
    if n = 0 then .ok () s
    else
      let m := min n (32 - o % 32)
      (arenaRun s ctx (arenaVa (s.ctx ctx) x o) m write).bind fun _ s => arenaRuns ctx x write fuel (o + m) (n - m) s

/-- The elements of a packed byte `k` that lie beyond the window: such a byte may be split between window and arena (R25). -/
def byteSpills (x : Column) (f : Fmt) (k : Nat) : Bool := x.cap < firstIn f k + perByte f

/-- A byte whose first `c` elements lie in the window, in byte `w`, and the others in the arena, in byte `v`. -/
def joinByte (f : Fmt) (c : Nat) (w v : Byte) : Byte :=
  let low (m : Nat) : Byte := BitVec.ofNat 8 (w.toNat % m + v.toNat / m * m)
  match f with
  | .e2m1 => low (16 ^ c)
  | .bool1 => low (2 ^ c)
  | _ =>
    if !ternLegal w.toNat then w
    else if !ternLegal v.toNat then v
    else BitVec.ofNat 8 (ternPack ((List.range 5).map (fun i => ternDigit (if i < c then w.toNat else v.toNat) i)))

/-- Byte `k` of a register's packed elements: in its window, in the arena, or split between them. -/
def colByte (s : State) (ctx : CtxId) (x : Column) (f : Fmt) (k : Nat) : Byte :=
  let w := (s.core (coreOf ctx)).srf.read (256 * x.base + k)
  if firstIn f k ≥ x.cap then x.spill.read k
  else if packed f && byteSpills x f k then joinByte f (x.cap - firstIn f k) w (x.spill.read k)
  else w

/-- Byte `k` of a register written, in the window, in the arena, or for a split byte in both. -/
def setColByte (s : State) (ctx : CtxId) (r : Col) (f : Fmt) (k : Nat) (b : Byte) : State :=
  let x := getCol (s.ctx ctx) r
  let s := if firstIn f k < x.cap then s.modCore (coreOf ctx) (fun c => { c with srf := c.srf.write (256 * x.base + k) b }) else s
  if firstIn f k ≥ x.cap || (packed f && byteSpills x f k) then s.modCtx ctx (fun c => setCol c r { x with spill := x.spill.write k b }) else s

/-- The bytes that hold element `i`. -/
def elemSpan (f : Fmt) : Nat := if packed f then 1 else elemBytes f

/-- An access of the arena bytes of element `i`, `n` elements being taken together (R29). -/
def arenaCheck (s : State) (ctx : CtxId) (x : Column) (f : Fmt) (i n : Nat) (write : Bool) : Acc Unit :=
  if i + n ≤ x.cap then .ok () s
  else
    let i := max i x.cap
    let size := if packed f then byteAt f (i + n - 1 - x.cap) + 1 - arenaByte x f i else elemBytes f
    arenaRuns ctx x write size (arenaByte x f i) size s

/-- The bits of element `i` out of the bytes that hold it (R53); a tern5 element is its digit (R82). -/
def elemFrom (f : Fmt) (i : Nat) (bs : List Byte) : Nat :=
  let v := ofLe bs
  match f with
  | .e2m1 => v / 16 ^ (i % 2) % 16
  | .bool1 => v / 2 ^ (i % 8) % 2
  | .tern5 => ternDigit v (i % 5)
  | _ => v

/-- The bytes with element `i` replaced; the rest of a packed byte stands. -/
def elemInto (f : Fmt) (i x : Nat) (bs : List Byte) : List Byte :=
  let v := ofLe bs
  match f with
  | .e2m1 => [BitVec.ofNat 8 (v - v / 16 ^ (i % 2) % 16 * 16 ^ (i % 2) + x % 16 * 16 ^ (i % 2))]
  | .bool1 => [BitVec.ofNat 8 (v - v / 2 ^ (i % 8) % 2 * 2 ^ (i % 8) + x % 2 * 2 ^ (i % 8))]
  | .tern5 =>
    let d (j : Nat) : Nat := if j = i % 5 then x else ternDigit v j
    [BitVec.ofNat 8 (ternPack [d 0, d 1, d 2, d 3, d 4])]
  | f => leBytes (elemBytes f) x

/-- The bytes of one element of a register, without any check. -/
def colElemBytes (s : State) (ctx : CtxId) (x : Column) (f : Fmt) (i : Nat) : List Byte :=
  (List.range (elemSpan f)).map (fun j => colByte s ctx x f (byteAt f i + j))

/-- Element `i` of a register read as format `f`, without any check. -/
def colElem (s : State) (ctx : CtxId) (r : Col) (f : Fmt) (i : Nat) : Nat :=
  elemFrom f i (colElemBytes s ctx (getCol (s.ctx ctx) r) f i)

/-- The bytes of element `i` of a register read, an arena access being checked (R29). -/
def readBytes (s : State) (ctx : CtxId) (r : Col) (f : Fmt) (i : Nat) : Acc (List Byte) :=
  let x := getCol (s.ctx ctx) r
  (arenaCheck s ctx x f i 1 false).bind fun _ s => .ok (colElemBytes s ctx x f i) s

/-- Element `i` of a register read, a tern5 byte being legal (R81). -/
def readElem (s : State) (ctx : CtxId) (r : Col) (f : Fmt) (i : Nat) : Acc Nat :=
  (readBytes s ctx r f i).bind fun bs s =>
    if f = .tern5 && !ternLegal (ofLe bs) then openFault s 0x06 else .ok (elemFrom f i bs) s

/-- As `readElem`, the digits of an illegal tern5 byte passing through unread (R154). -/
def readRaw (s : State) (ctx : CtxId) (r : Col) (f : Fmt) (i : Nat) : Acc Nat :=
  (readBytes s ctx r f i).bind fun bs s => .ok (elemFrom f i bs) s

/-- Bytes `bs` written at byte `k` of a register. -/
def putColBytes (s : State) (ctx : CtxId) (r : Col) (f : Fmt) (k : Nat) : List Byte → State
  | [] => s
  | b :: bs => putColBytes (setColByte s ctx r f k b) ctx r f (k + 1) bs

/-- Element `i` of a destination written: extents first (R27, R28), then the arena check, then the bytes. A byte of a packed
format that the element begins is written with its other bits zero, or digits 1 (R53). -/
def writeElem (s : State) (ctx : CtxId) (r : Col) (f : Fmt) (i v : Nat) : Acc Unit :=
  (acquire s ctx r f (i + 1)).bind fun _ s =>
    let x := getCol (s.ctx ctx) r
    (arenaCheck s ctx x f i 1 true).bind fun _ s =>
      let old := if i % perByte f = 0 then (if f = .tern5 then [BitVec.ofNat 8 121] else [0]) else colElemBytes s ctx x f i
      .ok () (putColBytes s ctx r f (byteAt f i) (elemInto f i v old))

/-- As `writeElem`, but the other elements of a packed byte keep their bits (loads under a qualifier). -/
def patchElem (s : State) (ctx : CtxId) (r : Col) (f : Fmt) (i v : Nat) : Acc Unit :=
  (acquire s ctx r f (i + 1)).bind fun _ s =>
    let x := getCol (s.ctx ctx) r
    (arenaCheck s ctx x f i 1 true).bind fun _ s => .ok () (putColBytes s ctx r f (byteAt f i) (elemInto f i v (colElemBytes s ctx x f i)))

/-- A run of elements written from element `i` upward. -/
def writeElems (ctx : CtxId) (r : Col) (f : Fmt) : Nat → List Nat → State → Acc Unit
  | _, [], s => .ok () s
  | i, v :: vs, s => (writeElem s ctx r f i v).bind fun _ s => writeElems ctx r f (i + 1) vs s

/-- The unused part of the byte that holds the last of `n` elements is zero, or digits 1 (R53). -/
def clearTail (s : State) (ctx : CtxId) (r : Col) (f : Fmt) (n : Nat) : State :=
  if !packed f || n % perByte f = 0 then s
  else
    let i := n - 1
    let v := ofLe (colElemBytes s ctx (getCol (s.ctx ctx) r) f i)
    let b := match f with
      | .e2m1 => v % 16 ^ (i % 2 + 1)
      | .tern5 => ternPack ((List.range (i % 5 + 1)).map (ternDigit v))
      | _ => v % 2 ^ (i % 8 + 1)
    putColBytes s ctx r f (byteAt f i) [BitVec.ofNat 8 b]

/-- A register's length set, with the extents and spilled bytes wholly beyond it released (R27, R31). -/
def setLen (s : State) (ctx : CtxId) (r : Col) (n : Nat) : State :=
  s.modCtx ctx (fun c =>
    let x := getCol c r
    setCol c r { x with
      len := n
      extents := x.extents.take (extentsFor x.fmt x.cap n)
      spill := x.spill.filter (fun p => p.1 < bytesOf x.fmt n) })

/-- Yield (R31). -/
def yieldTo (s : State) (ctx : CtxId) (r : Col) (n : Nat) : State :=
  (setLen s ctx r n).modCtx ctx (fun c => { c with yl := BitVec.ofNat 32 n })

/-- A destination's format written at issue; the window neither moves nor changes size (R150). -/
def setFmt (c : Ctx) (r : Col) (f : Fmt) : Ctx :=
  let x := getCol c r
  setCol c r { x with fmt := f, cap := recap x.fmt f x.cap }

/-! ## Placement of windows (R184, R361) -/

/-- The occupied ranges of one context's windows, in bytes of the SRF. -/
def windowsOf (c : Ctx) : List (Nat × Nat) :=
  (c.c.toList ++ c.p.toList).filterMap (fun x =>
    if x.cap = 0 then none else some (256 * x.base, 256 * x.base + windowSize x.fmt x.cap))

/-- The ranges taken on a core: windows of its contexts and of retained save areas (R361). -/
def takenOn (s : State) (k : CoreId) : List (Nat × Nat) :=
  (List.range 5).flatMap (fun n => windowsOf (s.ctx (ctxOn k n)))
    ++ s.areas.flatMap (fun a => if a.ret && coreOf a.ctx = k then windowsOf a.saved else [])

def rangeFree (taken : List (Nat × Nat)) (lo hi : Nat) : Bool := taken.all (fun r => hi ≤ r.1 || r.2 ≤ lo)

/-- A free place for `bytes` in 256-byte units: the one proposed, or the lowest (log entry 8). -/
def placeWindow (s : State) (k : CoreId) (bytes : Nat) : Option Nat :=
  let top := poolSrf (s.core k).poolw * granuleBytes
  let taken := takenOn s k
  let fits (u : Nat) : Bool := 256 * u + bytes ≤ top && rangeFree taken (256 * u) (256 * u + bytes)
  let want := Config.windowBase s.fresh
  if fits want then some want
  else (0 :: taken.map (fun r => r.2 / 256)).foldl (fun best u =>
    if fits u then (match best with | some b => some (min b u) | none => some u) else best) none

/-- The register released: no window, no extents (R184, R185). -/
def releaseCol (c : Ctx) (r : Col) (fmt : Fmt) : Ctx := setCol c r (Column.empty fmt)

/-- The descriptor words of R24, `work` being the working extents that the register holds beside its own (R193). -/
def descWord0 (x : Column) (work : List Nat) : Word :=
  BitVec.ofNat 64 (x.len * 2 ^ 32 + x.fmt.code * 2 ^ 27 + x.strm.toNat * 2 ^ 26
    + (if x.extents = [] && work = [] then 0 else 2 ^ 25) + (if x.strm then x.buf.val * 2 ^ 20 else 0))
def descWord1 (x : Column) : Word := BitVec.ofNat 64 (x.base * 2 ^ 51 + x.cap)

/-- A register as a kind-00 field (R111, R333). -/
def colField (r : Col) : Nat := r.bits.2

end Sys2Proof.Machine
end

