-- ==== Sys2Proof/Machine/Barrier.lean ====
section
/-! DEFINITION. Barrier objects at their homes, the waiters they wake, and the scalar stores a release drains (R294,
R299-R305). -/

namespace Sys2Proof.Machine

/-! ## Progress of an entry (R34, R35, R40) -/

/-- The next element of lane group `g` (R34). -/
def laneNext (e : Entry) (g : Nat) : Nat := e.next[g]?.getD e.len

/-- Lane group `g` has no element group of the entry left; entries of other engines hold no lane (R35). -/
def laneDone (e : Entry) (g : Nat) : Bool := e.engine != .lanes || laneNext e g ≥ e.len

def lanesDone (e : Entry) : Bool := (List.range 4).all (laneDone e)

/-- The instructions whose result is formed once every lane group has read its elements. -/
def needsFin (i : Instr) : Bool :=
  match i with
  | .redSum .. | .redMin .. | .redMax .. | .redCnt .. | .redDot .. | .tdot .. | .segred .. => true
  | _ => false

/-- Every unit is performed and every result written; only the acknowledgement or older entries hold it in the window. -/
def worked (e : Entry) : Bool := if e.engine = .lanes then lanesDone e && (!needsFin e.instr || e.fin) else e.fin

/-- An instruction of major op 0x18. -/
def isColMem (i : Instr) : Bool :=
  match i with
  | .ldc .. | .stc .. | .segst .. | .gath .. | .scat .. | .catom .. | .ldt .. | .stt .. | .btld .. => true
  | _ => false

/-- A copy of major op 0x29. -/
def isCopy (i : Instr) : Bool :=
  match i with
  | .cpy .. | .cpyx .. | .cpyc .. => true
  | _ => false

/-- An instruction of the window that accesses memory (R271). -/
def accessesMemory (i : Instr) : Bool :=
  match i with
  | .txc .. | .txe .. | .mldw (.sc _) _ _ _ | .xred .. | .xfin .. | .xclr .. => true
  | i => isColMem i || isCopy i

/-- Of those, the ones that read data for the context (R277). -/
def readsMemory (i : Instr) : Bool :=
  match i with
  | .ldc .. | .gath .. | .ldt .. | .btld .. | .mldw (.sc _) _ _ _ | .xfin .. | .cpy .. | .cpyx .. | .cpyc .. => true
  | _ => false

/-- An acquire in flight: no later access is performed before it has returned (R280). -/
def acquiring (e : Entry) : Bool := polAcq e.pol && (isColMem e.instr || isCopy e.instr)

/-! ## Scalar stores and releases on their way (R138, R277, R279, R294) -/

/-- Every access of an entry has been performed. -/
def accessDone (e : Entry) : Bool := !accessesMemory e.instr || e.len = 0 || worked e

/-- Whether every column-class and engine access before number `seq` has been performed and acknowledged (R273, R279). -/
def quietBefore (c : Ctx) (seq : Nat) : Bool :=
  c.locks.all (fun l => seq ≤ l.seq) && c.window.all (fun e => seq ≤ e.seq || accessDone e)

/-- The same for every access of the context in flight, no earlier release being held back. -/
def enginesQuiet (s : State) (ctx : CtxId) : Bool :=
  (s.ctx ctx).locks.isEmpty && (s.ctx ctx).window.all accessDone && (s.ctx ctx).posted.isEmpty

/-- Every load of the context in flight has returned its data, so that a store may become visible (R277); a copy counts from its
admission on. -/
def loadsReturned (es : List Entry) : Bool :=
  es.all (fun e => !readsMemory e.instr || e.len = 0 || worked e || (isCopy e.instr && !e.admitted))

/-- A later release has left the core (R294). -/
def markReleased (s : State) (ctx : CtxId) : State :=
  s.modCtx ctx (fun c => { c with stores := c.stores.map (fun st => { st with released := true }) })

/-- The oldest scalar store reaches memory; one that meets poison is not performed, and its context will freeze (R294, R417). -/
def performStore (s : State) (ctx : CtxId) : State :=
  let c := s.ctx ctx
  match c.stores with
  | [] => s
  | st :: rest =>
    let s := s.setCtx ctx { c with stores := rest }
    if s.writeMeets st.pa st.bytes.length then s.modCtx ctx (fun c => { c with failed := some (c.failed.getD st) })
    else l1Update (storePA s st.pa st.bytes) (coreOf ctx) st.pa st.bytes.length

def drainFuel (ctx : CtxId) : Nat → State → State
  | 0, s => s
  | n + 1, s => drainFuel ctx n (performStore s ctx)

/-- Every scalar store of the context performed, in order. -/
def drainStores (s : State) (ctx : CtxId) : State := drainFuel ctx (s.ctx ctx).stores.length s

/-- A scalar store may become visible: every load before it has returned (R277). -/
def storeMayGo (c : Ctx) (st : PendingStore) : Bool := loadsReturned (c.window.filter (·.seq < st.seq))

/-- The oldest scalar stores of the context performed, in order, as long as each may go and satisfies `p`. -/
def drainWhile (p : PendingStore → Bool) (ctx : CtxId) : Nat → State → State
  | 0, s => s
  | n + 1, s =>
    match (s.ctx ctx).stores with
    | st :: _ => if storeMayGo (s.ctx ctx) st && p st then drainWhile p ctx n (performStore s ctx) else s
    | [] => s

/-- The scalar stores of the context that may go are performed, up to the first that a load still holds back (log entry 93). -/
def drainReady (s : State) (ctx : CtxId) : State := drainWhile (fun _ => true) ctx (s.ctx ctx).stores.length s

/-- What a release performed now does first: it has left, and every earlier scalar store reaches memory. -/
def drainReleased (s : State) (ctx : CtxId) : State := drainStores (markReleased s ctx) ctx

/-- Whether a release performed now covers a store that failed (R294). -/
def storeFailed (s : State) (ctx : CtxId) : Bool := (s.ctx ctx).failed.isSome

/-- The synchronisation location of a release over a failed store, by its place (R294). -/
def markSync (s : State) (failed : Bool) (key : Nat) : State :=
  if failed && !s.syncBad.contains (key / 32) then { s with syncBad := s.syncBad ++ [key / 32] } else s

/-! ## Objects (R299) -/

/-- The home of an object: a scratchpad byte offset of a core, or a physical address (R300). -/
inductive BarHome
  | pad (k : CoreId) (off : Nat)
  | mem (pa : Nat)
deriving DecidableEq, Repr

/-- A barrier object's fields. -/
structure Bar where
  broken : Bool
  psn    : Bool
  pend   : Nat
  gen    : BitVec 32
  exp    : Nat
  arr    : Nat
  rest   : Nat
deriving DecidableEq, Repr

def Bar.ofNat (v : Nat) : Bar :=
  { broken := bitsAt v 127 1 == 1, psn := bitsAt v 126 1 == 1, pend := bitsAt v 64 56, gen := BitVec.ofNat 32 (bitsAt v 32 32)
    exp := bitsAt v 16 16, arr := bitsAt v 0 16, rest := bitsAt v 120 6 + bitsAt v 128 128 * 64 }

def Bar.toNat (b : Bar) : Nat :=
  b.arr % 2 ^ 16 + b.exp % 2 ^ 16 * 2 ^ 16 + b.gen.toNat * 2 ^ 32 + b.pend % 2 ^ 56 * 2 ^ 64 + b.rest % 64 * 2 ^ 120
    + b.psn.toNat * 2 ^ 126 + b.broken.toNat * 2 ^ 127 + b.rest / 64 % 2 ^ 128 * 2 ^ 128

def barRead (s : State) (h : BarHome) : Bar :=
  match h with
  | .pad k off => Bar.ofNat (ofLe ((s.core k).spd.bytes off 32))
  | .mem pa => Bar.ofNat (ofLe (s.bytesPA pa 32))

/-- A core's own scalar copy of an object goes where a context of it has read or written the object (R276). -/
def barSeen (s : State) (k : CoreId) (h : BarHome) : State :=
  match h with
  | .pad _ _ => s
  | .mem pa => l1Drop s k pa 32

/-- An object written on behalf of a core. -/
def barWrite (s : State) (k : CoreId) (h : BarHome) (b : Bar) : State :=
  match h with
  | .pad home off => poolPut s home .spd off (leBytes 32 b.toNat)
  | .mem pa => barSeen (storePA s pa (leBytes 32 b.toNat)) k h

/-- The checks of R302 in order, before poison. -/
def barPlace (s : State) (ctx : CtxId) (k : Kind) (addr : Word) : Acc BarHome :=
  let va := addr.toNat
  if va % 32 ≠ 0 then .fault 0x0B addr s
  else if inWindow va && 0x1000000 ≤ va - windowBase && va - windowBase < 0x2000000 then .fault 0x02 addr s
  else if va ≥ 2 ^ 57 then .fault 0x01 addr s
  else
    (placePiece s { ctx := ctx, holder := l1Holder ctx, pol := (s.ctx ctx).pold } k va 32 addr).bind fun p s =>
      match p with
      | .pool _ off => .ok (.pad (coreOf ctx) off) s
      | .peer _ _ => .fault 0x02 addr s
      | .mem pa page => if isHost pa then .fault 0x02 addr s
          else .ok (.mem pa) (if k == .read then s else setDirty s (s.ctx ctx).part page)

/-- R302 whole: `init` covers its sector and clears poison (R417, log entry 33). -/
def barResolve (s : State) (ctx : CtxId) (k : Kind) (init : Bool) (addr : Word) : Acc BarHome :=
  (barPlace s ctx k addr).bind fun h s =>
    match h with
    | .mem pa => if !init && s.poisoned pa 32 then .fault 0x0C addr s else .ok h s
    | .pad _ _ => .ok h s

/-- Whether a parked context waits on the object. -/
def waitsOn (h : BarHome) (ctx : CtxId) (c : Ctx) : Bool :=
  match c.parked, h with
  | some (.barrier pa true _ _ _), .pad k off => pa == off && coreOf ctx == k
  | some (.barrier pa false _ _ _), .mem q => pa == q
  | _, _ => false

/-- The generation a parked context waits to leave. -/
def parkedGen (c : Ctx) : Option (BitVec 32) :=
  match c.parked with
  | some (.barrier _ _ _ g _) => some g
  | _ => none

/-- `bar.wait` returns in a parked context: f[d] := BROKEN, and unless broken an acquire (R303). A poisoned object sends the
context back to the instruction, which faults (R295). -/
def wakeOne (s : State) (ctx : CtxId) (h : BarHome) (broken psn : Bool) : State :=
  let c := s.ctx ctx
  match c.parked with
  | some (.barrier _ _ addr _ f) =>
    if psn && !broken then s.setCtx ctx { c with parked := none }
    else
      let c := { c with parked := none, f := c.f.set f broken, pc := c.pc + 8, retired := c.retired + 1 }
      let c := if broken then c else joinClock c (mget s.barClocks (c.part, addr) [])
      let s := s.setCtx ctx c
      if broken then barSeen s (coreOf ctx) h else l1DropAll s (coreOf ctx)
  | _ => s

/-- Every context parked on the object, of the generation given or of any. -/
def wakeAll (s : State) (h : BarHome) (gen : Option (BitVec 32)) (broken psn : Bool) : State :=
  (s.ctxs.map (·.1)).foldl (fun s x =>
    let c := s.ctx x
    if waitsOn h x c && (gen.isNone || parkedGen c == gen) then wakeOne s x h broken psn else s) s

/-- R301: completion when ARR = EXP and PEND = 0, in the same step as what caused it. -/
def barSettle (s : State) (k : CoreId) (h : BarHome) : State :=
  let b := barRead s h
  if b.arr = b.exp && b.pend = 0 && !b.broken then
    wakeAll (barWrite s k h { b with gen := b.gen + 1, arr := 0 }) h (some b.gen) false b.psn
  else s

/-- A barrier breaks: BROKEN, and every waiter returns with f[d] = 1 (R304). -/
def barBreak (s : State) (k : CoreId) (h : BarHome) : State :=
  wakeAll (barWrite s k h { barRead s h with broken := true }) h none true false

/-- A bound copy's decrement (R250, R301, R304, R305), which sets PSN over a store that failed (R303): the barrier's clock joins
the captured one. -/
def barDecrement (s : State) (ctx : CtxId) (bind : Word) (n : Nat) (clock : Clock) : Acc Unit :=
  let addr := BitVec.ofNat 64 (bitsAt bind.toNat 5 52 * 32)
  let k := coreOf ctx
  (barResolve s ctx .atomic false addr).bind fun h s =>
    let b := barRead s h
    let c := s.ctx ctx
    let psn := b.psn || storeFailed s ctx
    if b.broken then .ok () s
    else if n > b.pend then .ok () (barBreak (barWrite s k h { b with pend := 0, psn := psn }) k h)
    else
      let s := if c.chk then
          { s with barClocks := mset s.barClocks (c.part, addr) (clockMax (mget s.barClocks (c.part, addr) []) clock) } else s
      .ok () (barSettle (barWrite s k h { b with pend := b.pend - n, psn := psn }) k h)

/-- The membership list: most recently named last, at most 4 (R304). -/
def enterMember (c : Ctx) (addr : Word) : Ctx :=
  let l := c.members.filter (· ≠ addr) ++ [addr]
  { c with members := l.drop (l.length - 4) }

/-- The barriers that a killed context breaks: those of its list and those its in-flight copies are bound to (R304). -/
def ownBarriers (c : Ctx) : List Word :=
  c.members ++ c.window.filterMap (fun e => e.bind.map (fun b => BitVec.ofNat 64 (bitsAt b.toNat 5 52 * 32)))

/-- The home of an object named by a context, whatever access the context may have to it; none where no object can be. -/
def barHome (s : State) (ctx : CtxId) (addr : Word) : Option BarHome :=
  let va := addr.toNat
  if inWindow va then
    match poolAt (s.core (coreOf ctx)) (va - windowBase) 32 with
    | some (.spd, off) => some (.pad (coreOf ctx) off)
    | _ => none
  else
    match walk s (s.ctx ctx).part va with
    | .leaf _ w0 w1 =>
      let pa := pteFrame w0 + va % 2 ^ (12 + 2 * pteSize w0)
      if ptePeer w1 || isHost pa then none else some (.mem pa)
    | _ => none

/-- Barriers broken by a kill (R304). -/
def breakBarriers (s : State) (ctx : CtxId) (addrs : List Word) : State :=
  addrs.foldl (fun s a => match barHome s ctx a with | some h => barBreak s (coreOf ctx) h | none => s) s

end Sys2Proof.Machine
end

