-- ==== Sys2Proof/Machine/Nodes.lean ====
section
/-! DEFINITION. Task nodes in memory and in finaliser areas (R315-R319), drops on their way to dens (R383, R384, R405), and
lengths and progress of the in-flight window (R34-R44). -/

namespace Sys2Proof.Machine

/-! ## Task nodes -/

/-- A walker's or handle unit's access of `n` bytes within one page, with a partition's translation (R321): where they lie. -/
def unitPlace (s : State) (cl : ClusterId) (part : PartId) (k : Kind) (va n : Nat) : Acc Nat :=
  let ea := BitVec.ofNat 64 va
  if va + n > 2 ^ 57 || inWindow va then .fault 0x01 ea s
  else
    (translate s (.unit cl) part va).bind fun page s =>
      if !permits k page.w0 || ptePeer page.w1 then .fault 0x02 ea s
      else if (s.poisoned (page.pa va) n && k != .write) || dirtyBad s k page then .fault 0x0C ea s
      else .ok (page.pa va) (if k.writes then setDirty s part page else s)

/-- One word of a node, or of anything a walker reads. -/
def unitWord (s : State) (cl : ClusterId) (part : PartId) (va : Nat) : Acc Word :=
  (unitPlace s cl part .read va 8).bind fun pa s => .ok (s.wordPA pa) s

/-- `n` words from `va`, in order. -/
def unitWords (cl : ClusterId) (part : PartId) : Nat → Nat → State → Acc (List Word)
  | 0, _, s => .ok [] s
  | n + 1, va, s => (unitWord s cl part va).bind fun w s => (unitWords cl part n (va + 8) s).bind fun ws s => .ok (w :: ws) s

def unitPut (s : State) (cl : ClusterId) (part : PartId) (va : Nat) (w : Word) : Acc Unit :=
  (unitPlace s cl part .atomic va 8).bind fun pa s => .ok () (storePA s pa (leBytes 8 w.toNat))

/-- Word `i` of a node. -/
def nodeWord (s : State) (cl : ClusterId) (ref : NodeRef) (i : Nat) : Acc Word :=
  match ref with
  | .mem part a => unitWord s cl part (a.toNat + 8 * i)
  | .fin c slot =>
    match mget ((s.cluster c).finArea.map (fun p => (p.1, some p.2))) slot none with
    | some x => .ok (x.words[i]?.getD 0) s
    | none => .fault 0x01 0 s

def nodePut (s : State) (cl : ClusterId) (ref : NodeRef) (i : Nat) (w : Word) : Acc Unit :=
  match ref with
  | .mem part a => unitPut s cl part (a.toNat + 8 * i) w
  | .fin c slot =>
    .ok () (s.modCluster c (fun x => { x with finArea := x.finArea.map (fun p =>
      if p.1 = slot then (p.1, { p.2 with words := p.2.words.set i w }) else p) }))

/-- Fields of word 0 and of the status word (R315). -/
def nKind (w : Word) : Nat := bitsAt w.toNat 62 2
def nPart (w : Word) : PartId := BitVec.ofNat 4 (bitsAt w.toNat 58 4)
def nStage (w : Word) : BitVec 4 := BitVec.ofNat 4 (bitsAt w.toNat 54 4)
def nPool (w : Word) : BitVec 15 := BitVec.ofNat 15 (bitsAt w.toNat 39 15)
def nChk (w : Word) : Bool := bitsAt w.toNat 38 1 == 1
def nLeases (w : Word) : Nat := bitsAt w.toNat 34 4
def nPred (w : Word) : Nat := bitsAt w.toNat 16 16
def nCluster (w : Word) : Nat := bitsAt w.toNat 9 7
def nClAny (w : Word) : Bool := bitsAt w.toNat 8 1 == 1
def nCore (w : Word) : Nat := bitsAt w.toNat 6 2
def nCoreAny (w : Word) : Bool := bitsAt w.toNat 5 1 == 1
def stNsucc (w : Word) : Nat := bitsAt w.toNat 60 4
def stState (w : Word) : Nat := bitsAt w.toNat 57 3

/-- A word with the `n` bits from `lo` replaced. -/
def withBits (w : Word) (lo n v : Nat) : Word :=
  BitVec.ofNat 64 (w.toNat - bitsAt w.toNat lo n * 2 ^ lo + v % 2 ^ n * 2 ^ lo)

def withState (w : Word) (st fail : Nat) : Word := withBits (withBits w 57 3 st) 49 8 fail

/-- R321, R401: the partition's node failures. -/
def countNode (s : State) (part : PartId) : State := s.modPart part (fun p => { p with nodeErr := satInc p.nodeErr })

/-- The partition whose translation reaches a node. -/
def refPart (s : State) (ref : NodeRef) : PartId :=
  match ref with
  | .mem part _ => part
  | .fin c slot => match (s.cluster c).finArea.find? (·.1 = slot) with | some x => x.2.part | none => 0

/-- A node that will not launch leaves the walkers and the ready queues (R321, R322). -/
def withdrawNode (s : State) (ref : NodeRef) : State :=
  { s with
      clusters := s.clusters.map (fun p => (p.1, { p.2 with
        armed := p.2.armed.filter (· ≠ ref), leasing := p.2.leasing.filter (· ≠ ref) }))
      cores := s.cores.map (fun p => (p.1, { p.2 with ready := p.2.ready.filter (·.node ≠ ref) })) }

/-- A node fails: STATE 5 with a code, counted, and it never launches (R321). A node whose status word cannot be written is only
counted. -/
def failNode (s : State) (cl : ClusterId) (ref : NodeRef) (code : Nat) : State :=
  let s := withdrawNode (countNode s (refPart s ref)) ref
  match (nodeWord s cl ref 4).bind (fun w s => nodePut s cl ref 4 (withState w 5 code)) with
  | .ok _ s | .fault _ _ s | .wait s => s

/-! ## Drops (R383, R384, R405) -/

def hKind (h : Handle) : Nat := bitsAt h.w0.toNat 60 4
def hPrx (h : Handle) : Bool := bitsAt h.w0.toNat 59 1 == 1
def hExp (h : Handle) : Nat := bitsAt h.w0.toNat 54 5
def hMod (h : Handle) : BitVec 10 := BitVec.ofNat 10 (bitsAt h.w0.toNat 44 10)
def hDen (h : Handle) : ClusterId := BitVec.ofNat 7 (bitsAt h.w0.toNat 37 7)
def hRec (h : Handle) : Nat := bitsAt h.w0.toNat 17 20
def hGen (h : Handle) : BitVec 17 := BitVec.ofNat 17 (bitsAt h.w0.toNat 0 17)
def hBase (h : Handle) : Nat := bitsAt h.w1.toNat 0 57
def hLen (h : Handle) : Nat := bitsAt h.w2.toNat 16 48
def hFmtCode (h : Handle) : Nat := bitsAt h.w2.toNat 0 5

/-- Word 0 of a handle (R378). -/
def handleWord0 (kind : Nat) (prx : Bool) (e : Nat) (mod : BitVec 10) (den : ClusterId) (rec_ : Nat) (gen : BitVec 17) : Word :=
  BitVec.ofNat 64 (kind % 16 * 2 ^ 60 + prx.toNat * 2 ^ 59 + e % 32 * 2 ^ 54 + mod.toNat * 2 ^ 44 + den.toNat * 2 ^ 37
    + rec_ % 2 ^ 20 * 2 ^ 17 + gen.toNat)

def handleOf (kind : Nat) (prx : Bool) (e : Nat) (mod : BitVec 10) (den : ClusterId) (rec_ : Nat) (gen : BitVec 17)
    (base len fmt : Nat) : Handle :=
  { w0 := handleWord0 kind prx e mod den rec_ gen, w1 := BitVec.ofNat 64 (base % 2 ^ 57)
    w2 := BitVec.ofNat 64 (len % 2 ^ 48 * 2 ^ 16 + fmt % 32), w3 := 0 }

def handleBytes (h : Handle) : List Byte :=
  leBytes 8 h.w0.toNat ++ leBytes 8 h.w1.toNat ++ leBytes 8 h.w2.toNat ++ leBytes 8 h.w3.toNat

def handleOfBytes (bs : List Byte) : Handle :=
  { w0 := BitVec.ofNat 64 (ofLe (bs.take 8)), w1 := BitVec.ofNat 64 (ofLe ((bs.drop 8).take 8))
    w2 := BitVec.ofNat 64 (ofLe ((bs.drop 16).take 8)), w3 := BitVec.ofNat 64 (ofLe ((bs.drop 24).take 8)) }

/-- R384, R401: the partition's handle errors. -/
def countHandle (s : State) (part : PartId) : State := s.modPart part (fun p => { p with hndErr := satInc p.hndErr })

/-- A drop sent for a partition: to a den of this module, to a peer by TYPE 5, or discarded and counted where no route leads. -/
def sendDrop (s : State) (h : Handle) (part : PartId) (bad : Bool) (clock : Clock) : State :=
  if hMod h = moduleNo s then
    s.modCluster (hDen h) (fun c => { c with drops := c.drops ++ [{ handle := h, part := part, bad := bad, clock := clock, fin := none }] })
  else if hasRoute s (hMod h) then
    let tag := BitVec.ofNat 64 s.fresh
    let f := flitSeal { type := 5, dest := hMod h, src := moduleNo s, part := part, tag := tag, addr := 0, len := 32
                        opc := BitVec.ofNat 32 (opcOf 0 false 0 bad)
                        inline := handleBytes h, check := 0 }
    let r : Request := { tag := tag, ctx := 0, va := 0, pte := 0, key := (0, 0, 0), kind := .drop, flit := f, resent := 0, st := .waiting }
    { s.draw with reqs := s.reqs ++ [r], outbox := s.outbox ++ [f] }
  else countHandle s part

/-- A context drops a handle: a release, the poison of a failed store going with it (R294, R383). -/
def ctxDrop (s : State) (ctx : CtxId) (h : Handle) : State :=
  if hKind h = 0 then s
  else
    let s := drainReleased s ctx
    let c := s.ctx ctx
    sendDrop s h c.part (storeFailed s ctx) (if c.chk then c.vc else [])

/-- The handle that a release's words name. -/
def handleOfWords (ws : List Word) : Handle :=
  { w0 := ws[0]?.getD 0, w1 := ws[1]?.getD 0, w2 := ws[2]?.getD 0, w3 := ws[3]?.getD 0 }

/-- Handles that an `hdrop` has given up and whose drops are still held back. -/
def postedDrops (c : Ctx) : List Handle :=
  c.posted.filterMap (fun p => match p.instr with | .hdrop _ => some (handleOfWords p.ops) | _ => none)

/-- Every handle register dropped, h0 first (R311, R345), after the drops on their way. -/
def dropAll (s : State) (ctx : CtxId) : State :=
  let s := (postedDrops (s.ctx ctx) ++ (s.ctx ctx).h.toList).foldl (fun s h => ctxDrop s ctx h) s
  s.modCtx ctx (fun c => { c with h := Vector.replicate 16 Handle.empty, posted := [] })

/-! ## The window's progress -/

/-- LGg.DONE: the leading entries complete in lane group `g` (R44). -/
def doneCount (w : List Entry) (g : Nat) : Nat := (w.takeWhile (fun e => laneDone e g)).length

/-- LGg as R16 lays it out. -/
def lgWord (w : List Entry) (g : Nat) : Word :=
  let d := doneCount w g
  BitVec.ofNat 64 (d * 2 ^ 32 + (match w[d]? with | some e => laneNext e g | none => 0))

/-- VS: the restart element of entry 0 (R44, R47). -/
def vsOf (w : List Entry) : Nat :=
  match w with
  | [] => 0
  | e :: _ =>
    if e.engine = .lanes then
      let ns := (List.range 4).filterMap (fun g => if laneDone e g then none else some (laneNext e g))
      ns.foldl min (ns.headD e.len)
    else e.vs

/-- OC: outputs committed by the oldest relational entry (R41). -/
def ocOf (w : List Entry) : Nat :=
  match w.find? (fun e => e.engine = .relational) with
  | some e => e.oc
  | none => 0

/-- The progress index of an entry's destination in lane group `g` (R40, R41). -/
def progIndex (e : Entry) (g : Nat) : Nat :=
  match e.engine with
  | .lanes => laneNext e g
  | .slice => e.vs
  | _ => e.oc

/-- Whether an entry writes, or reads, a register; the data register of a store is one of its captured sources. -/
def entryWrites (e : Entry) (r : Col) : Bool := e.dests.any (·.reg = r)
def operandIs (o : Option ColOperand) (r : Col) : Bool :=
  match o with
  | some x => !x.stream && x.reg = r
  | none => false
def entryReads (e : Entry) (r : Col) : Bool :=
  operandIs e.srcA r || operandIs e.srcB r || operandIs e.srcC r

/-- A register in use by some in-flight instruction (R183). -/
def inFlight (c : Ctx) (r : Col) : Bool := c.window.any (fun e => entryWrites e r || entryReads e r)

/-- An s register whose writer has not completed (R171, R308); s0 never is. -/
def busyS (c : Ctx) (r : SReg) : Bool := r ≠ 0 && (c.pendS.contains r || c.window.any (fun e => e.sdest == some r))

/-- A predicate whose writer has not completed (R132). -/
def busyF (c : Ctx) (f : FReg) : Bool := c.pendF.contains f

end Sys2Proof.Machine
end

