-- ==== Sys2Proof/Machine/Ops.lean ====
section
/-! DEFINITION. The named operations over registers and contexts; taking an exception (Freeze, R45, R122, R332-R337), killing
(R345), starting a handler (R338), and the returns from one (R344, R346). -/

namespace Sys2Proof.Machine

/-! ## Registers and the end of an instruction -/

/-- s0 reads zero (R13). -/
def getS (c : Ctx) (r : SReg) : Word := if r = 0 then 0 else c.s[r]

/-- A write to s0 is discarded (R13, R124). -/
def setS (c : Ctx) (r : SReg) (v : Word) : Ctx := if r = 0 then c else { c with s := c.s.set r v }

def setF (c : Ctx) (f : FReg) (v : Bool) : Ctx := { c with f := c.f.set f v }

/-- The register after an even destination (R112). -/
def nextS (r : SReg) : SReg := if h : r.val + 1 < 64 then ⟨r.val + 1, h⟩ else r
def nextC (r : CReg) : CReg := if h : r.val + 1 < 32 then ⟨r.val + 1, h⟩ else r
def nextP (r : PReg) : PReg := if h : r.val + 1 < 16 then ⟨r.val + 1, h⟩ else r

/-- A non-column instruction retires: the PC moves on, and RETIRED counts it (R105, R146). -/
def retireTo (c : Ctx) (pc : Word) : Ctx :=
  { c with pc := pc, retired := c.retired + 1, script := c.script.drop 1 }

def retire (c : Ctx) : Ctx := retireTo c (c.pc + 8)

/-- The PC after a word issued into the window: in a replay the next body word, and the trip's end after the last (R20). -/
def pastWord (c : Ctx) : Ctx :=
  match c.bodyPos with
  | none => { c with pc := c.pc + 8, script := c.script.drop 1 }
  | some i =>
    if i + 1 < c.body.length then { c with pc := c.pc + 8, bodyPos := some (i + 1) }
    else
      let left := c.lcnt - 1
      if left = 0 then
        { c with lcnt := left, sc := c.sc + 1, bodyPos := none, pc := c.bodyAt + BitVec.ofNat 64 (8 * c.body.length) }
      else { c with lcnt := left, sc := c.sc + 1, bodyPos := some 0, pc := c.bodyAt }

/-- A column-class instruction that takes no place in the window retires: it counts, and takes its number (R36, R146). -/
def retireWord (c : Ctx) : Ctx := { pastWord c with retired := c.retired + 1, seq := c.seq + 1 }

/-- What a meaning answers: always a next state, for every fault of the spec freezes one context (R45). -/
abbrev Out := Host.Outcome State Fault Refusal

/-! ## The buffer table (R238) -/

def getBuf (s : State) (k : CoreId) (b : BReg) : BufEntry := (s.core k).bufs[b]

def bufMatches (full : Bool) (st : BufState) : Bool :=
  match st with
  | .full => full
  | .free => !full
  | _ => false

/-- A new state of an entry, which wakes every context of the core that waits for it (R238, R242, R50). The wake is an
acquire at scope core (R241). -/
def setBuf (s : State) (k : CoreId) (b : BReg) (e : BufEntry) : State :=
  let s := s.modCore k (fun c => { c with bufs := c.bufs.set b e })
  (List.range 5).foldl (fun s n =>
    let x := ctxOn k n
    let c := s.ctx x
    match c.parked with
    | some (.buffer b' full) =>
      if b' = b && bufMatches full e.st then l1DropAll (s.setCtx x (retireWord { c with parked := none })) k else s
    | _ => s) s

/-- A reader's operands-consumed event (R238, R239). -/
def giveBack (s : State) (k : CoreId) (b : BReg) : State :=
  let e := getBuf s k b
  let u := e.uses - 1
  let st : BufState := if u = 0 && (e.st == .draining || (e.st == .full && e.auto)) then .free else e.st
  setBuf s k b { e with uses := u, st := st }

/-- An entry is freed: reconfigured, its stream ended, or its filler killed (R238). -/
def freeBuf (s : State) (k : CoreId) (b : BReg) : State :=
  setBuf s k b { getBuf s k b with st := .free, uses := 0, clm := false, filler := none }

/-- Entries that the context is filling by `bfset.claim`, and its streams. -/
def claimsOf (s : State) (x : CtxId) : List BReg := (List.finRange 32).filter (fun b => (getBuf s (coreOf x) b).filler = some x)
def streamsOf (s : State) (x : CtxId) : List (BReg × Stream) :=
  (List.finRange 32).filterMap (fun b => match (getBuf s (coreOf x) b).stream with
    | some st => if st.ctx = x then some (b, st) else none
    | none => none)

def putBuf (s : State) (k : CoreId) (b : BReg) (e : BufEntry) : State := s.modCore k (fun c => { c with bufs := c.bufs.set b e })

/-- The entries forget the context, keeping their state. -/
def detachBufs (s : State) (x : CtxId) : State :=
  let k := coreOf x
  let s := (claimsOf s x).foldl (fun s b => putBuf s k b { getBuf s k b with filler := none }) s
  (streamsOf s x).foldl (fun s p => putBuf s k p.1 { getBuf s k p.1 with stream := none }) s

def attachBufs (s : State) (x : CtxId) (claims : List BReg) (streams : List (BReg × Stream)) : State :=
  let k := coreOf x
  let s := claims.foldl (fun s b => putBuf s k b { getBuf s k b with filler := some x }) s
  streams.foldl (fun s p => putBuf s k p.1 { getBuf s k p.1 with stream := some { p.2 with ctx := x } }) s

/-- The buffer a copy names, with its side: fill, drain or none (R248). -/
def copyBuf (i : Instr) : Option (BReg × Bool) :=
  match i with
  | .cpy _ _ _ _ _ b | .cpyx _ _ _ _ _ b | .cpyc _ _ _ _ _ b =>
    if b.mode = 1 then some (b.handle, true) else if b.mode = 2 then some (b.handle, false) else none
  | _ => none

/-! ## Discarding a window (R344) -/

/-- Strips that a discarded entry popped and never received are the stream's next ones again. -/
def unpop (s : State) (ctx : CtxId) (e : Entry) : State :=
  let k := coreOf ctx
  (e.strips.filter (fun x => x.bytes.isNone)).foldl (fun s x =>
    let b := (getCol (s.ctx ctx) (.c x.reg)).buf
    let y := getBuf s k b
    match y.stream with
    | some st => s.modCore k (fun c => { c with bufs := c.bufs.set b { y with stream := some { st with next := min st.next x.start } } })
    | none => s) s

/-- One discarded entry gives back its buffer use, or frees the entry it was filling. -/
def dropEntry (s : State) (ctx : CtxId) (e : Entry) : State :=
  let s := unpop s ctx e
  match copyBuf e.instr with
  | some (b, true) => if e.admitted && !e.fin then freeBuf s (coreOf ctx) b else s
  | some (b, false) => if e.admitted && !e.consumed then giveBack s (coreOf ctx) b else s
  | none => s

/-- Every register's extents beyond its LEN released. -/
def trimColumns (s : State) (ctx : CtxId) : State :=
  let regs := (List.finRange 32).map Col.c ++ (List.finRange 16).map Col.p
  regs.foldl (fun s r => setLen s ctx r (getCol (s.ctx ctx) r).len) s

/-- A window discarded: interlock ranges, buffer uses, working state and extents beyond LEN go (R344). -/
def dropWindow (s : State) (ctx : CtxId) : State :=
  let s := (s.ctx ctx).window.foldl (fun s e => dropEntry s ctx e) s
  let s := s.modCtx ctx (fun c => { c with
    window := [], locks := c.locks.filter (fun l => c.window.all (·.seq ≠ l.seq)), promise := [] })
  trimColumns { s with reqs := s.reqs.filter (fun r => r.ctx ≠ ctx || r.kind = .drop) } ctx

/-! ## Capabilities and holders -/

/-- Words of a record; FTIME is word 13 (R333). -/
def recWord (c : Ctx) (i : Nat) : Word := c.record[i]?.getD 0
def ftimeOf (c : Ctx) : Word := recWord c 13

/-- What names a frozen context: IDENT's CTXID and FTIME (R339). -/
def capOf (c : Ctx) : Capability := { ctx := BitVec.ofNat 12 (recWord c 12).toNat, ftime := ftimeOf c }

/-- Where a named context is: at a context position, or in a save area. -/
inductive Named
  | resident (x : CtxId)
  | saved (i : Nat)
deriving DecidableEq, Repr

/-- The frozen context that a capability names, unless it has been resumed or killed (R339). -/
def findNamed (s : State) (k : Capability) : Option Named :=
  match s.ctxs.find? (fun p => p.2.run == .frozen && capOf p.2 == k) with
  | some p => some (.resident p.1)
  | none =>
    ((List.range s.areas.length).find? (fun i => match s.areas[i]? with
      | some a => a.st == .frozen && capOf a.saved == k
      | none => false)).map .saved

def namedCtx (s : State) (n : Named) : Ctx :=
  match n with
  | .resident x => s.ctx x
  | .saved i => match s.areas[i]? with | some a => a.saved | none => Ctx.reset

/-- Where the current task's node lies (R314): 0 in a handler context. -/
def nodeAddr (c : Ctx) : Word :=
  match c.node with
  | some (.mem _ a) => a
  | some (.fin _ n) => Config.finaliserAddr n
  | none => 0

/-- The bytes of a save area (R359). -/
def areaSize : Nat := 163840

/-- STATE of a save area's header. -/
def saveCode (st : SaveState) : Nat :=
  match st with
  | .stopped => 1
  | .frozen => 2
  | .halted => 3
  | .resumable => 4

/-- Word 1 of the header. -/
def areaWord1 (a : SaveArea) : Word :=
  BitVec.ofNat 64 (a.halt.toNat * 2 ^ 32 + a.ret.toNat * 2 ^ 19 + saveCode a.st * 2 ^ 16 + a.part.toNat * 2 ^ 12 + a.ctx.toNat)

/-- Bytes 8 to the end of an area: words 1 and 2 of the header, then the device's own bytes (log entry 16). -/
def areaRest (s : State) (a : SaveArea) : List Byte :=
  let n := areaSize - 24
  let own := Config.areaBytes s.fresh
  leBytes 8 (areaWord1 a).toNat ++ leBytes 8 (nodeAddr a.saved).toNat ++ (own.take n ++ List.replicate (n - own.length) 0)

/-- An area written to memory as it stands, its tag first. -/
def sealArea (s : State) (a : SaveArea) : State :=
  let rest := areaRest s a
  storePA s.draw a.base (leBytes 8 (Config.hmac64 s.devKey rest).toNat ++ rest)

/-- Whether an area verifies as memory holds it: no poison in it, and its tag (R359, R360). -/
def areaGood (s : State) (a : SaveArea) : Bool :=
  !s.poisoned a.base areaSize && Config.hmac64 s.devKey (s.bytesPA (a.base + 8) (areaSize - 8)) == s.wordPA a.base

/-- The device changes what a save area holds, and writes it anew; an area that no longer verifies stays so. -/
def modArea (s : State) (i : Nat) (g : SaveArea → SaveArea) : State :=
  match s.areas[i]? with
  | none => s
  | some a =>
    if g a = a then s
    else
      let t := { s with areas := s.areas.modify i g }
      if areaGood s a then sealArea t (g a) else t

def setNamed (s : State) (n : Named) (c : Ctx) : State :=
  match n with
  | .resident x => s.setCtx x c
  | .saved i => modArea s i (fun a => { a with saved := c })

/-- Every capability naming a context becomes empty (R339). -/
def clearCaps (s : State) (k : Capability) : State :=
  let clear (c : Ctx) : Ctx := { c with cap := c.cap.map (fun x => if x = some k then none else x) }
  { s with ctxs := s.ctxs.map (fun p => (p.1, clear p.2))
           areas := s.areas.map (fun a => { a with saved := clear a.saved }) }

/-- The row groups of a context's cluster given back (R257). -/
def detach (s : State) (ctx : CtxId) : State :=
  let s := s.modCluster (clusterOf ctx) (fun k => { k with groups := k.groups.map (fun o => if o = some ctx then none else o) })
  s.modCtx ctx (fun c => { c with
    gmask := 0, acc := Vector.replicate 4 Accumulator.clear, shadow := none, active := none })

/-- The checked-group index of a task given up, its final clock kept; a group without members dissolves (R331). -/
def leaveGroup (s : State) (ctx : CtxId) : State :=
  let c := s.ctx ctx
  if !c.chk then s
  else
    let left := match (s.part c.part).group with | some g => mdel g.members c.member | none => []
    if left = [] then
      -- the group dissolves, and its final clocks are discarded
      let s := s.modPart c.part (fun p => { p with group := none })
      { s with nodeClocks := s.nodeClocks.filter (fun p => refPart s p.1 ≠ c.part) }
    else
      s.modPart c.part (fun p => { p with group := p.group.map (fun g =>
        { members := left, finals := mset g.finals c.member c.vc }) })

/-- Streams and claims of a context: each such entry is freed (R238). -/
def freeBuffersOf (s : State) (ctx : CtxId) : State :=
  let k := coreOf ctx
  (List.finRange 32).foldl (fun s b =>
    let e := getBuf s k b
    let mine : Bool := match e.stream with | some st => st.ctx == ctx | none => false
    if mine then
      setBuf s k b { e with st := .free, auto := false, strm := false, uses := 0, clm := false, filler := none, stream := none }
    else if e.filler = some ctx then freeBuf s k b
    else s) s

/-- The context position is idle again: no task, and no place among the core's admitted and waiting contexts. Words overwritten
since the task's launch are forgotten, so that a saved task fetches the new ones once it is restored (R108, log entry 81). -/
def idleCtx (s : State) (ctx : CtxId) : State :=
  let s := { s.setCtx ctx Ctx.reset with stale := s.stale.filter (fun p => p.1.1 ≠ ctx) }
  s.modCore (coreOf ctx) (fun k => { k with
    admitted := k.admitted.filter (fun a => a.1 ≠ ctx), waiting := k.waiting.filter (· ≠ ctx), bodies := k.bodies.filter (· ≠ ctx)
    yields := k.yields.filter (·.1 ≠ ctx) })

/-- A report about a context leaves the buffers (R348, R351). -/
def dropReports (s : State) (k : Capability) : State :=
  { s with clusters := s.clusters.map (fun p => (p.1, { p.2 with
      faults := p.2.faults.filter (· ≠ k), level1 := p.2.level1.filter (· ≠ k) })) }

/-- Replies still owed to a killed context are lost (R345). -/
def loseReplies (s : State) (ctx : CtxId) : State :=
  { s with cores := s.cores.map (fun p => (p.1, { p.2 with
      qin := p.2.qin.map (fun q => if q.ctx = ctx then { q with reply := false } else q) })) }

/-! ## Reporting (R336, R337, R348-R352) -/

/-- The cluster whose core 3 holds the level-1 handler of a half (R9). -/
def level1Cluster (cl : ClusterId) : ClusterId := if cl.toNat < 48 then 47 else 95

/-- A report enters its cluster's fault buffer, or is marked unreported (R348-R350). -/
def bufferReport (s : State) (cl : ClusterId) (n : Named) : State :=
  let k := s.cluster cl
  let c := namedCtx s n
  if k.faults.length < 64 then
    setNamed (s.setCluster cl { k with faults := k.faults ++ [capOf c] }) n
      { c with reported := true, record := c.record.set 0 (recWord c 0 &&& ~~~(0x10000 : Word)) }
  else
    setNamed (s.setCluster cl { k with ovf := true, count := min (k.count + 1) (2 ^ 32 - 1) }) n
      { c with reported := false, record := c.record.set 0 (recWord c 0 ||| (0x10000 : Word)) }

/-- A cluster's frozen contexts, resident or saved, whose reports are held unreported. -/
def unreported (s : State) (cl : ClusterId) : List Named :=
  let mine (c : Ctx) : Bool := c.run == .frozen && !c.reported && clusterOf (capOf c).ctx == cl
  (s.ctxs.filter (fun p => mine p.2)).map (fun p => Named.resident p.1)
    ++ ((List.range s.areas.length).filter (fun i => match s.areas[i]? with
        | some a => a.st == .frozen && mine a.saved
        | none => false)).map .saved

/-- UNREPORTED_PLACEMENT: an entry that is free takes the oldest unreported fault, by FTIME and then CTXID (R349). -/
def placeUnreported (s : State) (cl : ClusterId) : State :=
  let age (n : Named) : Nat := (capOf (namedCtx s n)).ftime.toNat * 2 ^ 12 + (capOf (namedCtx s n)).ctx.toNat
  match unreported s cl with
  | [] => s
  | n :: ns =>
    if (s.cluster cl).faults.length ≥ 64 then s
    else bufferReport s cl (ns.foldl (fun m x => if age x < age m then x else m) n)

/-- The fault that a killed level-0 handler served is reported again, unless its context was resumed or killed (R345). -/
def reportAgain (s : State) (k : Option Capability) : State :=
  match k with
  | some k => match findNamed s k with
    | some n => bufferReport s (clusterOf k.ctx) n
    | none => s
  | none => s

/-- What a kill releases, in the order of R345: the window, handles, matrix share, barriers, node, lease, group, extents and
windows. -/
def killParts (s : State) (ctx : CtxId) : State :=
  let c := s.ctx ctx
  let s := dropWindow s ctx
  let s := dropAll s ctx
  let s := detach s ctx
  let s := breakBarriers s ctx (ownBarriers c)
  let s := match c.node with | some n => failNode s (clusterOf ctx) n 10 | none => s
  let s := leaveGroup s ctx
  let s := freeBuffersOf s ctx
  let s := if c.run = .frozen then dropReports (clearCaps s (capOf c)) (capOf c) else s
  placeUnreported (idleCtx s ctx) (clusterOf (capOf c).ctx)

/-- Kill of a resident context (R345). -/
def killCtx (s : State) (ctx : CtxId) : State :=
  let c := s.ctx ctx
  let s := killParts (loseReplies s ctx) ctx
  let s := { s with reqs := s.reqs.filter (fun r => r.ctx ≠ ctx || r.kind = .drop) }
  if isHandlerCtx ctx && !isLevel1 ctx then reportAgain s c.cap[0] else s

/-- A position of the core that no context has (R10): a saved context stands there while the device acts on it, so that what now
occupies its old position is not touched. -/
def ghostOf (x : CtxId) : CtxId := ctxOn (coreOf x) 7

/-- The core that owns a queue (R306). -/
def qCluster (h : Word) : Nat := bitsAt h.toNat 33 7
def qCore (h : Word) : CoreId := BitVec.ofNat 9 (qCluster h * 4 + bitsAt h.toNat 31 2)

/-- Queue operations on their way to their owners. -/
def sendQueueOps (s : State) (qs : List QueueOp) : State :=
  qs.foldl (fun s q => s.modCore (qCore q.handle) (fun k => { k with qin := k.qin ++ [q] })) s

/-- A saved context stands at its core, with its streams, claims and requests, for the device to act on. -/
def standIn (s : State) (a : SaveArea) : State :=
  let g := ghostOf a.ctx
  let s := attachBufs (s.setCtx g a.saved) g a.claims a.streams
  { s with reqs := s.reqs ++ a.reqs.map (fun r => { r with ctx := g }) }

/-- It goes back to its save area as it is then. -/
def standOut (s : State) (i : Nat) (x : CtxId) : State :=
  let g := ghostOf x
  let saved := s.ctx g
  let claims := claimsOf s g
  let streams := streamsOf s g
  let reqs := (s.reqs.filter (·.ctx = g)).map (fun r => { r with ctx := x })
  let s := detachBufs s g
  modArea { s with ctxs := mdel s.ctxs g, reqs := s.reqs.filter (·.ctx ≠ g) } i (fun b =>
    { b with saved := saved, reqs := reqs, claims := claims, streams := streams.map (fun p => (p.1, { p.2 with ctx := x })) })

/-- Kill of a saved context: what it held at its core goes as for a resident one, with the entries it was filling and its streams
(R238), and its save area is free. -/
def killSaved (s : State) (i : Nat) : State :=
  match s.areas[i]? with
  | none => s
  | some a =>
    let g := ghostOf a.ctx
    let s := { s with areas := s.areas.eraseIdx i }
    -- queue operations of it are accepted, and their replies lost (R308)
    let s := sendQueueOps s (a.qops.map (fun q => { q with reply := false }))
    let s := killParts (standIn s a) g
    let s := { s with ctxs := mdel s.ctxs g }
    if isHandlerCtx a.ctx && !isLevel1 a.ctx then reportAgain s a.saved.cap[0] else s

def killNamed (s : State) (n : Named) : State :=
  match n with
  | .resident x => killCtx s x
  | .saved i => killSaved s i

/-- Save areas that are free for a partition (R354, R359). -/
def areasFree (s : State) (part : PartId) : Nat :=
  let size := match s.image with | some i => mget i.savePools part 0 | none => 0
  size - (s.areas.filter (fun a => a.part = part)).length
    - ((s.stops.flatMap (·.targets)).filter (fun x => (s.ctx x).part = part)).length

/-- Contexts that a stop affects: those that hold a task and are not saved (R354). -/
def holdsTask (c : Ctx) : Bool := c.run != .idle

/-- A stop request accepted if every partition concerned has areas enough (R354). -/
def acceptStop (s : State) (targets : List CtxId) (byCmd : Bool) (freezes : Option PartId) : Option State :=
  let parts := (List.range 16).map (BitVec.ofNat 4)
  let enough := parts.all (fun p => (targets.filter (fun x => (s.ctx x).part = p)).length ≤ areasFree s p || targets.all (fun x => (s.ctx x).part ≠ p))
  if enough then
    let s := targets.foldl (fun s x => s.modCtx x (fun c => { c with stopping := true })) s
    some { s with stops := s.stops ++ [{ targets := targets, byCmd := byCmd, freezes := freezes, since := s.cycle }] }
  else none

/-- The partition freezes (R352): its contexts are stopped and saved as they stand, its walkers launch nothing. -/
def freezePartition (s : State) (part : PartId) : State :=
  let s := s.modPart part (fun p => { p with frozen := true })
  let ts := (s.ctxs.filter (fun p => holdsTask p.2 && !p.2.stopping && p.2.part = part)).map (·.1)
  let s := if s.msix.contains 1 then s else { s with msix := s.msix ++ [1] }
  (acceptStop s ts false (some part)).getD s

/-- The report of a freeze: level 1 freezes the partition, level 0 escalates, a user context is killed under CAM or an
invalid HENT, else its report enters the buffer; so does every corrupt area's (R336). -/
def report (s : State) (ctx : CtxId) (cl : ClusterId) (cause : Nat) : State :=
  let c := s.ctx ctx
  let p := s.part c.part
  if isLevel1 ctx && cause ≠ 0x0F then freezePartition s c.part
  else if isHandlerCtx ctx && cause ≠ 0x0F then s.modCluster (level1Cluster cl) (fun k => { k with level1 := k.level1 ++ [capOf c] })
  else if p.hent.toNat % 2 = 0 || bitsAt p.cam.toNat cause 1 = 1 then killCtx s ctx
  else bufferReport s cl (.resident ctx)

/-! ## Freeze -/

/-- What a freeze names: cause, element, fault address, PC and word, whether the point is a non-column instruction, whether it
is cause 0x12. -/
structure FreezeInfo where
  /-- the lane group that held a column-class fault, 4 for an engine -/
  lane  : Nat := 4
  /-- the restart point of a non-column instruction that has one (R392) -/
  vs    : Option Nat := none
  cause : Nat
  elem  : Nat
  addr  : Word
  pc    : Word
  word  : Word
  nc    : Bool
  async : Bool
deriving DecidableEq, Repr

/-- Bits of a performed-element mask from element `lo` (R333). -/
def maskWord (m : List Nat) (lo : Nat) : Word :=
  BitVec.ofNat 64 (((List.range 64).map (fun b => if m.contains (lo + b) then 2 ^ b else 0)).foldl (· + ·) 0)

/-- The fault record (R333). -/
def makeRecord (c : Ctx) (ctx : CtxId) (cycle : Word) (i : FreezeInfo) : List Word :=
  let inner := isHandlerCtx ctx && !isLevel1 ctx && i.cause ≠ 0x0F
  let mask := if i.nc then [] else match c.window with | e :: _ => (if e.engine = .lanes then [] else e.mask) | [] => []
  let status := (if inner then 0x13 + i.cause * 2 ^ 8 else i.cause) + i.async.toNat * 2 ^ 17 + i.nc.toNat * 2 ^ 18
    + (if mask = [] then 0 else 2 ^ 19) + c.window.length * 2 ^ 20
  let ident := ctx.toNat + c.part.toNat * 2 ^ 12 + c.stage.toNat * 2 ^ 16 + (isHandlerCtx ctx).toNat * 2 ^ 20
  let w := c.window
  -- R45: where an engine held the fault, the lane group of its element is set to the entry; a lane group stands where it stopped
  let lg (g : Nat) : Word := match w with
    | e :: _ => if !i.nc && i.lane = 4 && laneDone e g && i.elem / 16 % 4 = g then BitVec.ofNat 64 (i.elem % 2 ^ 32) else lgWord w g
    | [] => 0
  let prog (k g : Nat) : Word := match w[k]? with
    | some e => BitVec.ofNat 64 ((match e.dests with | d :: _ => colField d.reg | [] => 0) * 2 ^ 32 + progIndex e g % 2 ^ 32)
    | none => 0
  [BitVec.ofNat 64 status, i.pc, i.word, i.addr, BitVec.ofNat 64 (i.vs.getD (vsOf w)), lg 0, lg 1, lg 2, lg 3,
   BitVec.ofNat 64 (ocOf w), BitVec.ofNat 64 c.lcnt.toNat, BitVec.ofNat 64 c.sc.toNat, BitVec.ofNat 64 ident, cycle,
   maskWord mask 0, BitVec.ofNat 64 (i.elem % 2 ^ 32 * 2 ^ 32)]
    ++ (List.range 32).map (fun n => prog (n / 4) (n % 4))
    ++ (List.range 8).map (fun n => maskWord mask (64 + 64 * n))
    ++ List.replicate 8 0

/-- FREEZE: the record is written, the context is frozen in place with all it holds, and the fault is reported (R45, R122,
R333, R336, R351). -/
def freeze (s : State) (ctx : CtxId) (i : FreezeInfo) : State :=
  let c := s.ctx ctx
  let s := s.setCtx ctx { c with
    run := .frozen, parked := none, stalled := none, written := [], record := makeRecord c ctx s.cycle i
    failed := if i.async then none else c.failed
    kv := c.kv.map (fun k => { k with table := none })
    -- a copy's segments from VS upward are transferred again (R250)
    window := c.window.map (fun e => { e with held := [], late := if e.engine = .stream then [] else e.late }) }
  report s ctx (clusterOf ctx) i.cause

/-- A lane group or engine of a resumed context that owes an element or unit, and can still do it, holds a freeze back (R48). -/
def laneMark (e : Entry) (lane : Nat) : Nat :=
  if lane = 4 then e.vs + e.oc + e.absA.length + e.absB.length else laneNext e lane

def owed (c : Ctx) (p : Promise) : Bool :=
  match c.window.find? (·.seq = p.seq) with
  | some e => !worked e && !e.held.any (·.lane = p.lane) && laneMark e p.lane = p.mark && (p.lane = 4 || !laneDone e p.lane)
  | none => false

/-- What a context owes when it is resumed: the element at each NEXT, and the unit at VS of an engine. -/
def promises (c : Ctx) : List Promise :=
  (List.range 4).filterMap (fun g => (c.window[doneCount c.window g]?).map (fun e => { lane := g, seq := e.seq, mark := laneNext e g }))
    ++ (match c.window with
        | e :: _ => if e.engine = .lanes then [] else [{ lane := 4, seq := e.seq, mark := laneMark e 4 }]
        | [] => [])

/-- A lane group that awaits a peer within an element group has not reached its boundary (R47). -/
def midGroup (s : State) (x : CtxId) : Bool :=
  s.reqs.any (fun r => r.ctx = x && r.kind != .drop && r.st != .failed && (s.ctx x).window.any (fun e =>
    let g := r.key.2.1 / 65536 % 4
    e.engine = .lanes && r.key.1 = e.seq + 1 && laneNext e g % 16 ≠ 0 && !laneDone e g && !e.held.any (·.lane = g)))

/-- Whether a freeze must still wait: for an element group to end, or for what a resumed context owes. -/
def freezeWaits (s : State) (x : CtxId) : Bool := midGroup s x || (s.ctx x).promise.any (owed (s.ctx x))

/-- A fault of a non-column instruction (R45, R122): at the executing instruction, with the window as it stands. While a
column-class fault is held, that one is reported instead: the instruction is tried again and the held fault is taken first. It is
tried again also until every lane group is at a boundary and has done what R48 promises. -/
def freezeHere (s : State) (cause elem : Nat) (addr : Word) : State :=
  let c := s.me
  if c.window.any (fun e => e.held != []) || freezeWaits s s.cur then s
  else freeze s s.cur { cause := cause, elem := elem, addr := addr, pc := c.pc, word := s.ir, nc := true, async := false }

/-- An issue check refused (R122, R153): the fault address is the PC. -/
def refuse (s : State) (cause : Nat) : State := freezeHere s cause 0 s.me.pc

/-- A fault whose rule gives no fault address: FADDR is a free value (R333, log entry 34). -/
def openFreeze (s : State) (cause elem : Nat) : State := freezeHere s.draw cause elem (Config.openAddr s.fresh)

/-- The end of an instruction that made accesses: done, faulted at itself, or to be tried again. -/
def finish {α : Type} (x : Acc α) (k : α → State → State) : Out :=
  match x with
  | .ok a s => .next (k a (clearReqs s s.cur 0 0 (2 ^ 64)))
  | .fault cause addr s => .next (freezeHere (clearReqs s s.cur 0 0 (2 ^ 64)) cause 0 addr)
  | .wait s => .next s

/-- A store that met poison freezes its context (R294, R417): after a later release has left, with cause 0x12 at the next
instruction boundary, the record naming the instruction there; else with cause 0x0C at the store. -/
def freezeFailed (s : State) (ctx : CtxId) : State :=
  let c := s.ctx ctx
  match c.failed with
  | none => s
  | some st =>
    if st.released then
      freeze s ctx { cause := 0x12, elem := 0, addr := st.va, pc := c.pc, word := s.ir, nc := true, async := true }
    else
      freeze (s.setCtx ctx { c with failed := none }) ctx
        { cause := 0x0C, elem := 0, addr := st.va, pc := st.pc, word := st.word, nc := true, async := false }

/-! ## Handlers (R335-R339, R346) -/

/-- The constant bank of 1,024 words at an address; 0 gives all zero words (R315, R335). -/
def loadBank (s : State) (cl : ClusterId) (part : PartId) (addr : Nat) : Acc (Map Nat Word) :=
  if addr = 0 then .ok [] s
  else (unitWords cl part 1024 addr s).bind fun ws s =>
    .ok (((List.range 1024).zip ws).filter (fun p => p.2 ≠ 0)) s

/-- The freeze synchronises with the handler's start (R282): the frozen context's stores reach memory, but for those behind a load
that has not returned (R277), and the handler's core keeps no older scalar copies. -/
def syncFrozen (s : State) (c : Ctx) (h : CtxId) : State :=
  let s := match findNamed s (capOf c) with
    | some (.resident x) => drainReady s x
    | _ => s
  l1DropAll s (coreOf h)

/-- A handler context starts on a frozen context (R338, R351), every register zero or empty but those the rule sets. -/
def startHandler (s : State) (h : CtxId) (c : Ctx) (second : Option Capability) (bank : Map Nat Word) : State :=
  let s := syncFrozen s c h
  let p := s.part c.part
  s.setCtx h { Ctx.reset with
    run := .running, isHandler := true, part := c.part, pc := BitVec.ofNat 64 (bitsAt p.hent.toNat 3 54 * 8)
    bank := bank, cap := ((Vector.replicate 4 none).set 0 (some (capOf c))).set 1 second }

/-- `hret`: the handler context goes back to its sett, if every capability register is empty (R346). -/
def handlerReturn (s : State) (h : CtxId) : State := idleCtx s h

/-- A frozen context becomes runnable again and every capability naming it becomes empty (R344); a saved one becomes
resumable. It owes what R48 promises, and the resume synchronises with its next instruction (R282). -/
def unfreeze (s : State) (n : Named) (c : Ctx) : State :=
  let k := capOf c
  let c : Ctx := { c with run := .running, record := [], written := [], reported := true, promise := promises c }
  let s := setNamed s n c
  let s := match n with
    | .saved i => modArea s i (fun a => { a with st := .resumable })
    | .resident x => l1DropAll s (coreOf x)
  placeUnreported (clearCaps (dropReports s k) k) (clusterOf k.ctx)

end Sys2Proof.Machine
end

