-- ==== Sys2Proof/Machine/Operands.lean ====
section
/-! DEFINITION. Scalar sources, the policy word, effective addresses, and column sources with their broadcasts (R110, R111,
R123, R135, R149). -/

namespace Sys2Proof.Machine

/-! ## Scalar sources -/

/-- The 64-bit value a kind 01, 10 or 11 source delivers (R111, R123). -/
def readSrc (c : Ctx) : Src → Word
  | .s n => getS c n
  | .k n => mget c.bank n.val 0
  | .lit v => v.signExtend 64

/-- A source whose writer has not completed (R171, R308). -/
def srcBusy (c : Ctx) : Src → Bool
  | .s n => busyS c n
  | _ => false

/-- An instruction waits while a source or a destination of it is still being written (R39, R171, R297). -/
def hazard (c : Ctx) (srcs : List Src) (regs : List SReg) : Bool := srcs.any (srcBusy c) || regs.any (busyS c)

/-- The operand waits of an instruction: it is tried again while one holds. -/
def onReady (s : State) (srcs : List Src) (regs : List SReg) (k : Out) : Out :=
  if hazard s.me srcs regs then .next s else k

/-- One scalar result written, and the instruction retired. -/
def writeBack (s : State) (d : SReg) (v : Word) : Out := .next (s.setMe (retire (setS s.me d v)))

/-! ## Policy words and addresses -/

/-- The policy word (R135): s[pol][31:0], or POLD for pol 0. -/
def policyOf (c : Ctx) (pol : SReg) : BitVec 32 := if pol = 0 then c.pold else BitVec.ofNat 32 c.s[pol].toNat

/-- The effective address of R110 and R134. -/
def eaOf (a b : Word) (disp : BitVec 11) (size : Nat) : Word := a + b + disp.signExtend 64 * BitVec.ofNat 64 size

def memEa (c : Ctx) (m : MemRef) (size : Nat) : Word := eaOf (readSrc c m.base) (readSrc c m.idx) m.disp size

/-! ## The interlock table (R273, R274) -/

/-- Whether bytes [lo, hi) overlap a range that an instruction older than `seq` holds, either side writing. -/
def lockHitBefore (c : Ctx) (seq lo hi : Nat) (write : Bool) : Bool :=
  c.locks.any (fun l => l.seq < seq && l.ranges.any (fun r => lo < r.2.1 && r.1 < hi && (write || r.2.2)))

/-- Whether bytes [lo, hi) overlap a scalar store that is not yet acknowledged (R274). -/
def storeHit (c : Ctx) (lo hi : Nat) : Bool :=
  c.stores.any (fun st => lo < st.va.toNat + st.bytes.length && st.va.toNat < hi)

/-- An access whose range is not entered yet stalls every younger one (R182, R273). -/
def unranged (e : Entry) : Bool :=
  match e.instr with
  | .ldc .. | .stc .. | .segst .. | .gath .. | .scat .. | .catom .. | .ldt .. | .stt .. | .btld .. => e.len != 0 && !e.admitted
  | _ => false

/-- Whether an access of bytes [lo, hi) must wait for the instructions in flight among `older` (R273, R274, R280). -/
def accessWaits (c : Ctx) (older : List Entry) (seq lo hi : Nat) (write : Bool) : Bool :=
  older.any unranged || older.any acquiring || lockHitBefore c seq lo hi write

/-- The same for an access of a scalar instruction, which follows everything in flight; a write also waits for the loads (R277). -/
def scalarWaits (c : Ctx) (ea : Word) (size : Nat) (write : Bool) : Bool :=
  accessWaits c c.window c.seq ea.toNat (ea.toNat + size) write || (write && !loadsReturned c.window)

/-- Every earlier producer of a column has yielded (R32). -/
def allYielded (c : Ctx) : Bool := c.window.all (fun e => e.dests = [])

/-! ## Column sources -/

/-- What a pattern delivered by a scalar source is as an element of format `f` (R149): an integer takes its low bits, bool1
bit 0; a literal for a floating-point format is the integer it holds, rounded; other kinds are the bits themselves. -/
def castScalar (f : Fmt) (lit : Bool) (v : Word) : Nat :=
  if isFloat f && lit then roundTo f .rne false (intVal v.toInt)
  else if f = .bool1 then v.toNat % 2
  else v.toNat % 2 ^ fmtBits f

def isLit : Src → Bool
  | .lit _ => true
  | _ => false

/-- The descriptor format of a column source as an operation reads it: a bound stream's column keeps its own. -/
def colFmt (c : Ctx) (r : Col) : Fmt := (getCol c r).fmt

end Sys2Proof.Machine
end

