-- ==== Sys2Proof/Machine/Flags.lean ====
section
/-! DEFINITION. Conditions, predicates and their writers (R114, R130, R132). -/

namespace Sys2Proof.Machine

/-- Condition codes 0 to 9 between 64-bit values (R114, R130). -/
def condHolds (cc : Cond) (a b : Word) : Bool :=
  match cc with
  | .eq => a == b
  | .ne => a != b
  | .lt => decide (a.toInt < b.toInt)
  | .le => decide (a.toInt ≤ b.toInt)
  | .gt => decide (a.toInt > b.toInt)
  | .ge => decide (a.toInt ≥ b.toInt)
  | .ltn => decide (a.toNat < b.toNat)
  | .len => decide (a.toNat ≤ b.toNat)
  | .gtn => decide (a.toNat > b.toNat)
  | .gen => decide (a.toNat ≥ b.toNat)

/-- The logic operations of `flog` (R130). -/
def logicOf (op : Logic) (a b : Bool) : Bool :=
  match op with
  | .and => a && b
  | .or => a || b
  | .xor => a != b
  | .andn => a && !b
  | .not => !a

/-- A reader or writer of a predicate waits until every earlier writer of it has written it (R132). -/
def onFlags (s : State) (fs : List FReg) (k : Out) : Out := if fs.any (busyF s.me) then .next s else k

/-- One predicate written, and the instruction retired. -/
def writeFlag (s : State) (d : FReg) (v : Bool) : Out := .next (s.setMe (retire (setF s.me d v)))

end Sys2Proof.Machine
end

