-- ==== Sys2Proof/Machine/ScalarMem.lean ====
section
/-! DEFINITION. Scalar loads and stores, atomics and the fence: major ops 0x06 to 0x09 (R134-R141, R278-R281, R298). -/

namespace Sys2Proof.Machine

/-- The context as the maker of a scalar access. -/
def meWho (s : State) (pol : BitVec 32) : Who := { ctx := s.cur, holder := l1Holder s.cur, pol := pol }

/-- Steps 1 to 3 of R135: the policy word, the order a load or store may have, the alignment. -/
def scalarBad (k : Kind) (p : BitVec 32) (ea : Word) (size : Nat) : Option Nat :=
  if polBad p then some 0x05
  else if (k == .read && polRel p) || (k == .write && polAcq p) then some 0x05
  else if ea.toNat % size ≠ 0 then some 0x0B
  else none

/-- Whether an acquire reads a location that R294 marked: it faults (R295); a peer knows the marks of its own locations. -/
def acquireMeets (s : State) (k : CoreId) (p : BitVec 32) (ps : List Piece) : Bool :=
  polAcq p && ps.any (fun x => (sectorsOf (placeKey k x.place) x.len).any s.syncBad.contains)

/-- The race check of an access that is no synchronisation access (R135 step 6, R283, R290). -/
def raceStep (s : State) (p : BitVec 32) (write : Bool) (ps : List Piece) : Option State :=
  if polOrder p = 0 then raceCheck s s.cur (ownPhase s.me) write ps else some s

/-- The context's own scalar stores that memory does not show yet, laid over bytes read at `pa` (R272). -/
def overlay (ss : List PendingStore) (pa : Nat) (bs : List Byte) : List Byte :=
  (List.range bs.length).map (fun i =>
    ss.foldl (fun b st => if st.pa ≤ pa + i && pa + i < st.pa + st.bytes.length then st.bytes[pa + i - st.pa]?.getD b else b)
      (bs[i]?.getD 0))

/-- A hit makes its line the most recently used one. -/
def l1Touch (s : State) (k : CoreId) (l : L1Line) : State :=
  s.modCore k (fun c => { c with l1 := l :: c.l1.filter (fun x => x.line ≠ l.line) })

/-- Bytes [at, at + n) of a line. -/
def l1Bytes (l : L1Line) (key n : Nat) : List Byte := (l.bytes.drop (key % 128)).take n

/-- The bytes of a scalar load of one piece: from the scalar L1 on a hit, else from the L2 or, by whole sectors, from the peer, with
a line allocated unless nl1 is set (R136, R221). -/
def loadPiece (s : State) (p : BitVec 32) (ea : Word) (x : Piece) : Acc (List Byte) :=
  let k := coreOf s.cur
  let key := placeKey k x.place
  match x.place with
  | .mem pa _ =>
    match l1Find s k pa x.len with
    | some l => .ok (l1Bytes l pa x.len) (noteRead (l1Touch s k l) s.cur pa)
    | none =>
      (readPieces (meWho s p) (0, 0) ea [x] s).bind fun bs s => .ok bs (if polNl1 p then s else l1Fill s k pa)
  | .peer pa page =>
    match l1Find s k key x.len with
    | some l => .ok (l1Bytes l key x.len) (noteRead (l1Touch s k l) s.cur key)
    | none =>
      if polNl1 p then readPieces (meWho s p) (0, 0) ea [x] s
      else
        let sector : Piece := { at_ := 0, len := 32, va := x.va / 32 * 32, place := .peer (pa / 32 * 32) page }
        (readPieces (meWho s p) (0, 0) ea [sector] s).bind fun bs s => .ok ((bs.drop (pa % 32)).take x.len) (l1FillSector s k key bs)
  | .pool _ _ => readPieces (meWho s p) (0, 0) ea [x] s

/-- What an acquire does after its access (R280, R222, R288). -/
def acquired (s : State) (p : BitVec 32) (ps : List Piece) : State :=
  if !polAcq p then s
  else
    let s := ps.foldl (fun s x => acquireClock s s.cur (placeKey (coreOf s.cur) x.place)) s
    if polScope p ≥ 1 then l1DropAll s (coreOf s.cur) else s

/-- Poison at a piece, where this module's memory holds it. -/
def pieceBad (s : State) (x : Piece) : Bool :=
  match x.place with
  | .mem pa _ => s.poisoned pa x.len
  | _ => false

/-- The data of a load whose checks have passed, with the context's own stores laid over them. -/
def loadData (s : State) (p : BitVec 32) (ea : Word) (x : Piece) : Acc (List Byte) :=
  (loadPiece s p ea x).bind fun bs s => .ok (match x.place with | .mem pa _ => overlay s.me.stores pa bs | _ => bs) s

/-- A scalar load of `size` bytes at an aligned address: one piece. Poison, mark and race are judged before the access is made
(R135); of a peer's location the peer's answer tells poison first. -/
def loadBytes (s : State) (p : BitVec 32) (ea : Word) (size : Nat) : Acc (List Byte) :=
  (resolve s (meWho s p) .read ea size).bind fun ps s =>
    match ps with
    | [x] =>
      if pieceBad s x || acquireMeets s (coreOf s.cur) p ps then .fault 0x0C ea s
      else
        match x.place with
        | .peer _ _ =>
          (loadData s p ea x).bind fun bs s =>
            match raceStep s p false ps with
            | none => .fault 0x08 ea s
            | some s => .ok bs (acquired s p ps)
        | _ =>
          match raceStep s p false ps with
          | none => .fault 0x08 ea s
          | some s => (loadData s p ea x).bind fun bs s => .ok bs (acquired s p ps)
    | _ => .wait s

/-- A scalar load (R134-R138): `ext` extends the bytes. -/
def load (d : SReg) (m : MemRef) (size : Nat) (ext : Nat → Word) (s : State) : Out :=
  onReady s [m.base, m.idx] [d, m.pol]
    (let p := policyOf s.me m.pol
     let ea := memEa s.me m size
     match scalarBad .read p ea size with
     | some cause => .next (freezeHere s cause 0 ea)
     | none =>
       if scalarWaits s.me ea size false then .next s
       else finish (loadBytes s p ea size) fun bs s => s.setMe (retire (setS s.me d (ext (ofLe bs)))))

/-- A release performed now waits for the engines' accesses (R279). -/
def releaseWaits (s : State) (p : BitVec 32) : Bool := polRel p && !enginesQuiet s s.cur

/-- The mark over a store that failed, at a place that a release has written; a peer marks its own (R294). -/
def markPlace (s : State) (ctx : CtxId) (pl : Place) : State :=
  match pl with
  | .peer _ _ => s
  | _ => markSync s (storeFailed s ctx) (placeKey (coreOf ctx) pl)

/-- A release's end: the written line's clock, and the mark (R288, R294). -/
def released (s : State) (pl : Place) (atomic : Bool) : State :=
  markPlace (releaseClock s s.cur (placeKey (coreOf s.cur) pl) atomic) s.cur pl

/-- A scalar store of bytes at an aligned address: it leaves the context and is performed later, or, as a release, after
every earlier access. -/
def storeBytes (s : State) (p : BitVec 32) (ea : Word) (bs : List Byte) : Acc Unit :=
  (resolve s (meWho s p) .write ea bs.length).bind fun ps s =>
    if writePoison s ps then .fault 0x0C ea s
    else
      match raceStep s p true ps with
      | none => .fault 0x08 ea s
      | some s =>
        let c := s.me
        match ps with
        | [{ place := .mem pa page, va := va, .. }] =>
          let s := setDirty s c.part page
          let s := promoteHint (l2Touch s c.part p va pa) p pa
          let put (s : State) : State := l1Update (storePA s pa bs) (coreOf s.cur) pa bs.length
          if polRel p then .ok () (released (put (drainReleased s s.cur)) (.mem pa page) false)
          else if c.fenced then .ok () (fenceWrite (put (drainReleased s s.cur)) s.cur pa)
          else
            .ok () (s.modCtx s.cur (fun c => { c with stores := c.stores ++
              [{ seq := c.seq, pc := c.pc, word := s.ir, released := false, va := ea, pa := pa, bytes := bs }] }))
        | ps =>
          let s := if polRel p then (drainReleased s s.cur).modCtx s.cur (fun c => { c with fenced := false }) else s
          (writePieces (meWho s p) (0, 0) ea bs ps s).bind fun _ s =>
            .ok () (if polRel p then ps.foldl (fun s x => released s x.place false) s else s)

/-- A scalar store (R134-R138). -/
def store (d : SReg) (m : MemRef) (size : Nat) (s : State) : Out :=
  onReady s [m.base, m.idx] [d, m.pol]
    (let p := policyOf s.me m.pol
     let ea := memEa s.me m size
     match scalarBad .write p ea size with
     | some cause => .next (freezeHere s cause 0 ea)
     | none =>
       if scalarWaits s.me ea size true || releaseWaits s p then .next s
       else finish (storeBytes s p ea (leBytes size (getS s.me d).toNat)) fun _ s => s.setMe (retire s.me))

/-! ## Extensions of loaded bytes -/

def signExt (size v : Nat) : Word := signedWord (8 * size) v
where signedWord (w v : Nat) : Word := if v / 2 ^ (w - 1) % 2 = 1 then BitVec.ofInt 64 ((v : Int) - 2 ^ w) else BitVec.ofNat 64 v

def zeroExt (v : Nat) : Word := BitVec.ofNat 64 v

/-- `ldb` (R134). -/
def execLdb (d : SReg) (m : MemRef) (s : State) : Out := load d m 1 (signExt 1) s
/-- `ldbn` (R134). -/
def execLdbn (d : SReg) (m : MemRef) (s : State) : Out := load d m 1 zeroExt s
/-- `ldh` (R134). -/
def execLdh (d : SReg) (m : MemRef) (s : State) : Out := load d m 2 (signExt 2) s
/-- `ldhn` (R134). -/
def execLdhn (d : SReg) (m : MemRef) (s : State) : Out := load d m 2 zeroExt s
/-- `ldw` (R134). -/
def execLdw (d : SReg) (m : MemRef) (s : State) : Out := load d m 4 (signExt 4) s
/-- `ldwn` (R134). -/
def execLdwn (d : SReg) (m : MemRef) (s : State) : Out := load d m 4 zeroExt s
/-- `ldd` (R134). -/
def execLdd (d : SReg) (m : MemRef) (s : State) : Out := load d m 8 zeroExt s
/-- `stb` (R134). -/
def execStb (d : SReg) (m : MemRef) (s : State) : Out := store d m 1 s
/-- `sth` (R134). -/
def execSth (d : SReg) (m : MemRef) (s : State) : Out := store d m 2 s
/-- `stw` (R134). -/
def execStw (d : SReg) (m : MemRef) (s : State) : Out := store d m 4 s
/-- `std` (R134). -/
def execStd (d : SReg) (m : MemRef) (s : State) : Out := store d m 8 s

/-! ## Atomics (R139-R141) -/

/-- The ten operations in the order of their fn codes. -/
inductive AtomOp | add | and | or | xor | min | max | minn | maxn | xchg | cas
deriving DecidableEq, Repr

def AtomOp.code : AtomOp → Nat
  | .add => 0 | .and => 1 | .or => 2 | .xor => 3 | .min => 4 | .max => 5 | .minn => 6 | .maxn => 7 | .xchg => 8 | .cas => 9

def AtomOp.ofCode (n : Nat) : Option AtomOp := [AtomOp.add, .and, .or, .xor, .min, .max, .minn, .maxn, .xchg, .cas][n]?

def signedAt (w v : Nat) : Int := if v / 2 ^ (w - 1) % 2 = 1 then (v : Int) - 2 ^ w else v

/-- The new value of R139 at `w` bits. -/
def atomNew (op : AtomOp) (w old v new : Nat) : Nat :=
  match op with
  | .add => (old + v) % 2 ^ w
  | .and => old.land v
  | .or => old.lor v
  | .xor => old.xor v
  | .min => if signedAt w old ≤ signedAt w v then old else v
  | .max => if signedAt w old ≥ signedAt w v then old else v
  | .minn => min old v
  | .maxn => max old v
  | .xchg => v
  | .cas => if old = v then new else old

/-- What s[d] receives: sign-extended for `amin` and `amax` at 32 bits (R139). -/
def atomOld (op : AtomOp) (size old : Nat) : Word :=
  match op with
  | .min | .max => signExt size old
  | _ => zeroExt old

/-- An indivisible update of `size` bytes in one piece at its home; the answer is the old value. Of the column path's updates every
core's scalar copies go first (R224). -/
def atomPiece (w : Who) (key : Nat × Nat) (ea : Word) (op : AtomOp) (size v new : Nat) (x : Piece) (s : State) : Acc Nat :=
  let k := placeKey (coreOf w.ctx) x.place
  match x.place with
  | .pool q off =>
    let old := ofLe (poolBytes s (coreOf w.ctx) q off size)
    .ok old (poolPut (fenceWrite (noteRead s w.ctx k) w.ctx k) (coreOf w.ctx) q off (leBytes size (atomNew op (8 * size) old v new)))
  | .mem pa page =>
    if s.poisoned pa size then .fault 0x0C ea s
    else if olderStore s w pa size then .wait s
    else
      let s := setDirty s (s.ctx w.ctx).part page
      let s := promoteHint (l2Touch s (s.ctx w.ctx).part w.pol x.va pa) w.pol pa
      let old := ofLe (s.bytesPA pa size)
      let s := fenceWrite (noteRead s w.ctx pa) w.ctx pa
      let s := if w.seq.isSome then l1Snoop s pa size else s
      .ok old (storePA (l1Drop s (coreOf w.ctx) pa size) pa (leBytes size (atomNew op (8 * size) old v new)))
  | .peer pa page =>
    (peerAsk (setDirty s (s.ctx w.ctx).part page) w.ctx (key.1, key.2, 0) .atomic
      (flitFor s w.ctx 3 (pteTgt page.w1) pa size (opcOf op.code (size == 4) w.pol (failedRelease s w)) (leBytes 8 v ++ leBytes 8 new))
      ea (BitVec.ofNat 64 x.va) page.pte).bind
      fun bs s => .ok (ofLe (bs.take size)) (l1Drop (fenceWrite (noteRead s w.ctx k) w.ctx k) (coreOf w.ctx) k size)

/-- A scalar atomic at an aligned address: the earlier scalar stores reach memory first. -/
def atomBytes (s : State) (p : BitVec 32) (ea : Word) (op : AtomOp) (size v new : Nat) : Acc Nat :=
  (resolve s (meWho s p) .atomic ea size).bind fun ps s =>
    if acquireMeets s (coreOf s.cur) p ps then .fault 0x0C ea s
    else
      match ps with
      | [x] =>
        let s := if polRel p then (drainReleased s s.cur).modCtx s.cur (fun c => { c with fenced := false }) else drainStores s s.cur
        (atomPiece (meWho s p) (0, 0) ea op size v new x s).bind fun old s =>
          let s := acquired s p ps
          .ok old (if polRel p then released s x.place true else s)
      | _ => .wait s

/-- An atomic of major op 0x08. -/
def atomic (d : SReg) (m : MemRef) (w32 : Bool) (op : AtomOp) (s : State) : Out :=
  let size := if w32 then 4 else 8
  let regs := if op = .cas then [d, nextS d, m.pol] else [d, m.pol]
  onReady s [m.base, m.idx] regs
    (let p := policyOf s.me m.pol
     let ea := memEa s.me m size
     match scalarBad .atomic p ea size with
     | some cause => .next (freezeHere s cause 0 ea)
     | none =>
       if scalarWaits s.me ea size true || releaseWaits s p then .next s
       else
         let v := (getS s.me d).toNat % 2 ^ (8 * size)
         let new := (getS s.me (nextS d)).toNat % 2 ^ (8 * size)
         finish (atomBytes s p ea op size v new) fun old s => s.setMe (retire (setS s.me d (atomOld op size old))))

/-- `aadd` (R139). -/
def execAadd (d : SReg) (m : MemRef) (w32 : Bool) (s : State) : Out := atomic d m w32 .add s
/-- `aand` (R139). -/
def execAand (d : SReg) (m : MemRef) (w32 : Bool) (s : State) : Out := atomic d m w32 .and s
/-- `aor` (R139). -/
def execAor (d : SReg) (m : MemRef) (w32 : Bool) (s : State) : Out := atomic d m w32 .or s
/-- `axor` (R139). -/
def execAxor (d : SReg) (m : MemRef) (w32 : Bool) (s : State) : Out := atomic d m w32 .xor s
/-- `amin` (R139). -/
def execAmin (d : SReg) (m : MemRef) (w32 : Bool) (s : State) : Out := atomic d m w32 .min s
/-- `amax` (R139). -/
def execAmax (d : SReg) (m : MemRef) (w32 : Bool) (s : State) : Out := atomic d m w32 .max s
/-- `aminn` (R139). -/
def execAminn (d : SReg) (m : MemRef) (w32 : Bool) (s : State) : Out := atomic d m w32 .minn s
/-- `amaxn` (R139). -/
def execAmaxn (d : SReg) (m : MemRef) (w32 : Bool) (s : State) : Out := atomic d m w32 .maxn s
/-- `axchg` (R139). -/
def execAxchg (d : SReg) (m : MemRef) (w32 : Bool) (s : State) : Out := atomic d m w32 .xchg s
/-- `acas` (R139, R140): the expected value is s[d], the new one s[d+1]. -/
def execAcas (d : SReg) (m : MemRef) (w32 : Bool) (s : State) : Out := atomic d m w32 .cas s

/-! ## The fence (R281, R298) -/

def scopeCode : Scope → Nat
  | .context => 0 | .core => 1 | .cluster => 2 | .module => 3 | .system => 4

/-- An acquire fence: no later access is performed until every earlier read has returned; the scalar L1 follows R222. -/
def fenceAcquire (sc : Scope) (s : State) : Out :=
  if !enginesQuiet s s.cur then .next s
  else
    let c := joinClock s.me s.me.seen
    .next ((if scopeCode sc ≥ 1 then l1DropAll s (coreOf s.cur) else s).setMe (retire { c with seen := [] }))

/-- A release fence: every earlier access is performed before it retires. -/
def fenceRelease (s : State) : Out :=
  if !enginesQuiet s s.cur then .next s
  else
    let s := drainReleased s s.cur
    .next (s.setMe (retire { s.me with fenced := s.me.chk }))

/-- `fence.full` (R281). -/
def execFenceFull (sc : Scope) (s : State) : Out :=
  if !enginesQuiet s s.cur then .next s
  else
    let s := drainReleased s s.cur
    fenceAcquire sc (s.setMe { s.me with fenced := s.me.chk })

/-- `fence.acq` (R281). -/
def execFenceAcq (sc : Scope) (s : State) : Out := fenceAcquire sc s

/-- `fence.rel` (R281). -/
def execFenceRel (_ : Scope) (s : State) : Out := fenceRelease s

end Sys2Proof.Machine
end

