-- ==== Sys2Proof/Machine/Issue.lean ====
section
/-! DEFINITION. Issue of column-class instructions into the in-flight window, the progress of its entries, Yield, retirement
and the freeze for a held fault (R30-R45, R149-R155, R171). -/

namespace Sys2Proof.Machine

/-! ## Operands captured at issue -/

/-- The final length that the youngest in-flight producer of a register gives it: none without a producer, some none where
it is not known yet. -/
def pendingLen (w : List Entry) (r : Col) : Option (Option Nat) :=
  w.foldl (fun acc e => match e.dests.find? (·.reg = r) with | some d => some d.len | none => acc) none

/-- The stream bound to a column of the executing context (R245). -/
def streamOf (s : State) (ctx : CtxId) (x : Column) : Option Stream := (getBuf s (coreOf ctx) x.buf).stream

/-- The length of the next strip of a stream column; 0 once the last is consumed (R246). -/
def stripLen (s : State) (ctx : CtxId) (x : Column) : Nat :=
  match streamOf s ctx x with
  | some st => min st.strip (st.total - st.next)
  | none => 0

/-- The length a result may have at most (R33), which stands for one that is not known yet. -/
def mostLen : Nat := 2 ^ 32 - 1

/-- A column source as an instruction issued now reads it (R150). Its length may not be known yet: its elements are then read as
its producer commits them (R41, log entry 10). -/
def capture (s : State) (ctx : CtxId) (r : Col) : ColOperand :=
  let c := s.ctx ctx
  let x := getCol c r
  if x.strm then { reg := r, fmt := x.fmt, len := stripLen s ctx x, stream := true, known := true }
  else
    match pendingLen c.window r with
    | some (some n) => { reg := r, fmt := x.fmt, len := n, stream := false, known := true }
    | some none => { reg := r, fmt := x.fmt, len := mostLen, stream := false, known := false }
    | none => { reg := r, fmt := x.fmt, len := x.len, stream := false, known := true }

/-- A captured operand: a column, or the 64 bits of a scalar source and whether it is a literal. -/
structure Operand where
  col : Option ColOperand
  val : Word
deriving DecidableEq, Repr

def Operand.none : Operand := { col := Option.none, val := 0 }

def scalarOperand (c : Ctx) (x : Src) : Operand := { col := Option.none, val := readSrc c x }

def colOperand (s : State) (r : Col) : Operand := { col := some (capture s s.cur r), val := 0 }

def operandOf (s : State) (x : ColSrc) : Operand :=
  match x with
  | .col r => colOperand s r
  | .sc y => scalarOperand s.me y

/-- The columns and the scalar sources among sources. -/
def colsOf (xs : List ColSrc) : List Col := xs.filterMap (fun x => match x with | .col r => some r | .sc _ => Option.none)
def scsOf (xs : List ColSrc) : List Src := xs.filterMap (fun x => match x with | .sc y => some y | .col _ => Option.none)

/-- The smallest of the column operands' lengths, or VL (R30). -/
def commonLen (c : Ctx) (os : List Operand) : Nat :=
  match os.filterMap (fun o => o.col.map (·.len)) with
  | [] => c.vl.toNat
  | n :: ns => ns.foldl min n

/-! ## Issue -/

/-- What an instruction puts into the window. -/
structure Plan where
  instr  : Instr
  engine : Engine
  fmt    : Fmt
  mfmt   : Option Fmt
  len    : Nat
  dests  : List (Col × Fmt × Option Nat)
  sdest  : Option SReg
  a      : Operand
  b      : Operand
  c      : Operand
  pol    : BitVec 32
  /-- byte ranges entered in the interlock table at issue, each read or write (R254, R273) -/
  ranges : List (Nat × Nat × Bool) := []
deriving DecidableEq, Repr

/-- A plan of an instruction on the lane groups. -/
def lanePlan (i : Instr) (f : Fmt) (len : Nat) (dests : List (Col × Fmt)) (a b c : Operand) : Plan :=
  { instr := i, engine := .lanes, fmt := f, mfmt := Option.none, len := len, dests := dests.map (fun d => (d.1, d.2, some len))
    sdest := Option.none, a := a, b := b, c := c, pol := 0 }

/-- The stream columns among the operands, each once (R246). -/
def poppedOf (p : Plan) : List ColOperand :=
  ([p.a, p.b, p.c].filterMap (·.col)).foldl
    (fun acc o => if o.stream && !acc.any (·.reg = o.reg) then acc ++ [o] else acc) []

/-- Popping a strip: the stream's next strip moves on. -/
def popStrip (ctx : CtxId) (s : State) (o : ColOperand) : State :=
  let x := getCol (s.ctx ctx) o.reg
  let e := getBuf s (coreOf ctx) x.buf
  match e.stream with
  | some st => s.modCore (coreOf ctx) (fun k => { k with bufs := k.bufs.set x.buf { e with stream := some { st with next := st.next + o.len } } })
  | none => s

def stripFor (s : State) (ctx : CtxId) (o : ColOperand) : Option Strip :=
  match o.reg, streamOf s ctx (getCol (s.ctx ctx) o.reg) with
  | .c n, some st => some { reg := n, start := st.next, len := o.len, bytes := if o.len = 0 then some [] else Option.none }
  | _, _ => Option.none

/-- The realigning instructions (R37). -/
def realigns (i : Instr) : Bool :=
  match i with
  | .prj .. | .plc .. | .joinH .. | .joinM .. | .semi .. | .anti .. | .grp .. | .aggSum .. | .aggMin .. | .aggMax .. | .aggCnt ..
  | .sort .. | .sortd .. | .topk .. | .srch .. | .uniq .. | .scanInc .. | .scanExc .. | .segred .. | .tdot .. | .redDot ..
  | .redSum .. | .redMin .. | .redMax .. | .redCnt .. | .vbcast .. => true
  | _ => false

def isIota (i : Instr) : Bool :=
  match i with
  | .viota .. => true
  | _ => false

/-- Whether every column operand's length is known. -/
def lensKnown (os : List (Option ColOperand)) : Bool := os.all (fun o => o.all (·.known))

/-- The entry of an instruction issued now by the executing context. -/
def makeEntry (s : State) (p : Plan) (qual : Option (List Nat)) : Entry :=
  let c := s.me
  let known := lensKnown [p.a.col, p.b.col, p.c.col]
  { seq := c.seq, pc := c.pc, word := s.ir, instr := p.instr, engine := p.engine, opA := p.a.val, opB := p.b.val, opC := p.c.val
    srcA := p.a.col, srcB := p.b.col, srcC := p.c.col
    dests := p.dests.map (fun d =>
      { reg := d.1, fmt := d.2.1, len := if known then d.2.2 else Option.none, oldLen := (capture s s.cur d.1).len })
    sdest := p.sdest, pol := p.pol, ph := ownPhase c, clock := c.vc, bind := Option.none, qual := qual, fmt := p.fmt
    mfmt := p.mfmt, len := p.len, issueAt := s.cycle, next := [0, 16, 32, 48], oc := 0, vs := 0, phase := .absorb
    absA := [], absB := [], work := [], mask := [], admitted := false, consumed := false
    strips := (poppedOf p).filterMap (stripFor s s.cur), table := [], late := []
    realign := realigns p.instr || (isIota p.instr && c.awaited)
    fin := p.engine != .lanes && p.len = 0, acked := false, held := [] }

/-- An entry put into the window: destinations take their formats, strips are popped, a column release advances the phase
(R288), and issue moves on (R42, R43, R150). -/
def push (s : State) (p : Plan) (e : Entry) : State :=
  let s := (poppedOf p).foldl (popStrip s.cur) s
  let c := p.dests.foldl (fun c d => setFmt c d.1 d.2.1) s.me
  let c := if (polRel e.pol && (isColMem e.instr || isCopy e.instr)) || e.bind.isSome then bumpPhase c else c
  let lock : List Interlock := if p.ranges = [] then [] else [{ seq := e.seq, ranges := p.ranges }]
  s.setMe (pastWord { c with window := c.window ++ [e], seq := c.seq + 1, locks := c.locks ++ lock, awaited := false })

/-- A destination whose elements change width waits for the instructions in flight that use the register (log entry 10). -/
def widthMoves (c : Ctx) (d : Col × Fmt × Option Nat) : Bool := !sameWidth (getCol c d.1).fmt d.2.1 && inFlight c d.1

/-- A qualifier's list has no writer in flight. -/
def qualReady (c : Ctx) (q : Qual) : Bool :=
  match q with
  | none => true
  | some n => !c.window.any (fun e => entryWrites e (.p ⟨n.val, by omega⟩))

/-! ## Progress of lanes -/

/-- What one unit of work does: done, a fault at an element, or nothing yet. -/
inductive UnitRes where
  | ok (s : State)
  | fault (elem cause : Nat) (addr : Word) (s : State)
  | wait (s : State)

def UnitRes.of {α : Type} (elem : Nat) (x : Acc α) (k : α → State → UnitRes) : UnitRes :=
  match x with
  | .ok a s => k a s
  | .fault cause addr s => .fault elem cause addr s
  | .wait s => .wait s

/-- An entry of a context's window replaced. -/
def setEntry (s : State) (ctx : CtxId) (e : Entry) : State :=
  s.modCtx ctx (fun c => { c with window := c.window.map (fun x => if x.seq = e.seq then e else x) })

def hold (s : State) (ctx : CtxId) (e : Entry) (lane elem cause : Nat) (addr : Word) : State :=
  setEntry s ctx { e with held := e.held ++ [{ lane := lane, elem := elem, cause := cause, addr := addr }] }

/-- Element `i` of a column source: out of an admitted strip, or of the register. -/
def sourceElem (s : State) (ctx : CtxId) (e : Entry) (o : ColOperand) (i : Nat) : Acc Nat :=
  if o.stream then
    match e.strips.find? (fun x => Col.c x.reg = o.reg) with
    | some { bytes := some bs, .. } => .ok (elemFrom o.fmt 0 ((bs.drop (i * elemBytes o.fmt)).take (elemBytes o.fmt))) s
    | _ => .wait s
  else readElem s ctx o.reg o.fmt i

/-- The same for a position that is not computed: no datum is judged (R154). -/
def sourceRaw (s : State) (ctx : CtxId) (e : Entry) (o : ColOperand) (i : Nat) : Acc Nat :=
  if o.stream then sourceElem s ctx e o i else readRaw s ctx o.reg o.fmt i

/-- Element `i` of a source under R149: a column's, or the broadcast scalar. -/
def operandElem (s : State) (ctx : CtxId) (e : Entry) (o : Option ColOperand) (x : ColSrc) (v : Word) (f : Fmt) (i : Nat) :
    Acc Nat :=
  match o, x with
  | some o, _ => sourceElem s ctx e o i
  | none, .sc y => .ok (castScalar f (isLit y) v) s
  | none, .col _ => .wait s

/-- Whether position `i` is computed (R154). -/
def isListed (e : Entry) (i : Nat) : Bool :=
  match e.qual with
  | none => true
  | some l => l.contains i

/-- Element `i` of a destination of `n` elements written by a lane; the unused part of the last byte is zero (R53). -/
def writeLane (s : State) (ctx : CtxId) (r : Col) (f : Fmt) (i v n : Nat) : Acc Unit :=
  (patchElem s ctx r f i v).bind fun _ s => .ok () (if i + 1 = n then clearTail s ctx r f n else s)

/-- Values of consecutive elements from `i`, a fault naming its own element, that of an illegal tern5 byte the first one read
(R81, log entry 83). -/
def collect (val : Nat → State → Acc Nat) : Nat → Nat → State → (List Nat → State → UnitRes) → UnitRes
  | 0, _, s, k => k [] s
  | n + 1, i, s, k =>
    match val i s with
    | .ok v s => collect val n (i + 1) s (fun vs s => k (v :: vs) s)
    | .fault cause addr s => .fault i cause addr s
    | .wait s => .wait s

/-- The listed positions of a qualifier, read at issue (R115, R154); a spilled one meets the faults of R29 at its place in the
list (log entry 55). -/
def listed (s : State) (q : Qual) (k : Option (List Nat) → State → UnitRes) : UnitRes :=
  match q with
  | Option.none => k Option.none s
  | some n =>
    let r : Col := .p ⟨n.val, by omega⟩
    collect (fun i s => readRaw s s.cur r .pos32 i) (capture s s.cur r).len 0 s fun l s => k (some l) s

/-- A tern5 byte of a destination written whole (R419). -/
def writeTern (s : State) (ctx : CtxId) (r : Col) (i : Nat) (ds : List Nat) : Acc Unit :=
  (acquire s ctx r .tern5 (i + ds.length)).bind fun _ s =>
    (arenaCheck s ctx (getCol (s.ctx ctx) r) .tern5 i ds.length true).bind fun _ s =>
      .ok () (putColBytes s ctx r .tern5 (i / 5) [BitVec.ofNat 8 (ternPack ds)])

/-! ## Completion (R31, R146, R171) -/

/-- Yield of one destination; extents that a younger writer in flight may hold stay until it yields. -/
def yieldDest (ctx : CtxId) (younger : List Entry) (s : State) (d : Dest) : State :=
  let n := d.len.getD 0
  if younger.any (fun e => entryWrites e d.reg) then
    s.modCtx ctx (fun c => { setCol c d.reg { getCol c d.reg with len := n } with yl := BitVec.ofNat 32 n })
  else yieldTo s ctx d.reg n

/-- The oldest entry leaves the window: its destinations yield in turn, its interlock entry is released, and it counts. -/
def retireHead (s : State) (ctx : CtxId) : State :=
  match (s.ctx ctx).window with
  | [] => s
  | e :: rest =>
    let s := e.dests.foldl (yieldDest ctx rest) s
    -- an acquire's scalar copies go when it has returned (R222)
    let s := if acquiring e && polScope e.pol ≥ 1 then l1DropAll s (coreOf ctx) else s
    s.modCtx ctx (fun c => { c with
      window := rest, locks := c.locks.filter (fun l => l.seq ≠ e.seq), retired := c.retired + 1 })

/-- Every unit of the entry is performed, its results stand, the strips it popped have come (R246), and its writes are
acknowledged. -/
def complete (c : Ctx) (e : Entry) : Bool :=
  e.held = [] && worked e && e.strips.all (·.bytes.isSome) && (e.acked || !c.locks.any (fun l => l.seq = e.seq && l.ranges.any (·.2.2)))

/-- A prefix sum: its elements are formed in ascending order, so that a held fault stops every lane group (R169). -/
def isScan (i : Instr) : Bool :=
  match i with
  | .scanInc .. | .scanExc .. => true
  | _ => false

/-- Whether every lane group has completed the entry or holds a fault in it (R45). -/
def allStopped (e : Entry) : Bool :=
  e.engine != .lanes || isScan e.instr || (List.range 4).all (fun g => laneDone e g || e.held.any (·.lane = g)) || e.held.any (·.lane = 4)

/-- The held fault of the lowest element. -/
def lowest (hs : List Held) : Option Held :=
  hs.foldl (fun acc h => match acc with | none => some h | some x => if h.elem < x.elem then some h else some x) none

/-- Freeze for a column-class fault: once the oldest entry holds one, every lane group has stopped, at a boundary where it holds
no fault, and what a resumed context owes is done (R45, R47, R48). -/
def freezeColumn (s : State) (ctx : CtxId) : State :=
  match (s.ctx ctx).window with
  | e :: _ =>
    match lowest e.held with
    | some h =>
      if allStopped e && !freezeWaits s ctx then
        freeze s ctx { lane := h.lane, cause := h.cause, elem := h.elem, addr := h.addr, pc := e.pc, word := e.word, nc := false
                       async := false }
      else s
    | none => s
  | [] => s

/-! ## Chaining (R39-R41, R419) -/

/-- Element `i` of a register that an older entry writes has been written (R40, R41): by its lane group, the one that holds the
byte's first trit for tern5; of `cvt42`'s scales by the lane group of the block; by an engine that has committed it. -/
def avail (p : Entry) (r : Col) (i : Nat) : Bool :=
  worked p ||
    match p.engine with
    | .lanes =>
      !needsFin p.instr &&
        (match p.instr, p.dests with
         | .cvt42 .., [_, d] => if d.reg = r then decide (laneNext p (i % 4) > 16 * i + 15) else decide (laneNext p (i / 16 % 4) > i)
         | _, ds =>
           let k := if ds.any (fun d => d.reg = r && d.fmt = .tern5) then i / 5 * 5 else i
           decide (laneNext p (k / 16 % 4) > k))
    | .relational =>
      match p.instr with
      | .sel .. | .selr .. | .selb .. | .pand .. | .por .. | .pdiff .. | .prjp .. | .pcol .. => p.oc > i
      | _ => false
    | .slice => p.vs > i
    | .matrix | .exact => p.oc > i
    | .stream => false

/-- Whether a relational entry has read element `i` of a source (R192): absorbed and kept, or streamed past; one that is read at
positions never before the end. -/
def relationalRead (p : Entry) (second : Bool) (i : Nat) : Bool :=
  let streamed := p.phase = .emit || (p.phase = .stream && p.vs > i)
  match p.instr with
  | .pand .. | .por .. | .pdiff .. | .aggSum .. | .aggMin .. | .aggMax .. | .aggCnt .. =>
    (if second then p.absB.length else p.absA.length) > i
  | .joinH .. | .joinM .. | .semi .. | .anti .. => if second then p.absB.length > i else streamed
  | .pcol .. | .sort .. | .sortd .. | .topk .. | .srch .. => if second then streamed else p.absA.length > i
  | .prj .. | .prjp .. => second && streamed
  | _ => streamed

/-- Element `i` of a register has been read by an older entry that reads it (R40). -/
def freed (p : Entry) (r : Col) (i : Nat) : Bool :=
  worked p ||
    match p.engine with
    | .lanes =>
      let k := if p.dests.any (·.fmt = .tern5) then i / 5 * 5 else i
      let blockwise : Bool := match p.instr with | .cvts .. | .segst .. => operandIs p.srcB r | _ => false
      !needsFin p.instr && (if isScan p.instr then decide (p.absA.length > i) else decide (laneNext p (k / 16 % 4) > k))
        && (!blockwise || laneNext p (i % 4) > 16 * i + 15)
    | .relational => (!operandIs p.srcA r || relationalRead p false i) && (!operandIs p.srcB r || relationalRead p true i)
        && (!operandIs p.srcC r || relationalRead p false i)
    | .slice => p.vs > i
    | _ => false

/-- Elements [lo, hi) of a source stand: no older entry has still to write one. -/
def sourceReady (older : List Entry) (r : Col) (lo hi : Nat) : Bool :=
  older.all (fun p => !entryWrites p r || (List.range (hi - lo)).all (fun k => avail p r (lo + k)))

/-- Elements [lo, hi) of a destination may be written: no older entry has still to read or write one. -/
def destReady (older : List Entry) (r : Col) (lo hi : Nat) : Bool :=
  older.all (fun p => (!entryWrites p r || (List.range (hi - lo)).all (fun k => avail p r (lo + k)))
    && (!entryReads p r || (List.range (hi - lo)).all (fun k => freed p r (lo + k))))

/-- An operand's elements [lo, hi) are there: its strip, or what older entries write. -/
def operandReady (older : List Entry) (e : Entry) (o : Option ColOperand) (lo hi : Nat) : Bool :=
  match o with
  | none => true
  | some o => if o.stream then e.strips.all (fun x => Col.c x.reg ≠ o.reg || x.bytes.isSome) else sourceReady older o.reg lo hi

/-! ## Lengths that become known (R31, R41) -/

/-- An operand's length, once the producer among the older entries has one. -/
def resolveOp (c : Ctx) (older : List Entry) (o : ColOperand) : ColOperand :=
  if o.known then o
  else
    match pendingLen older o.reg with
    | some (some n) => { o with len := n, known := true }
    | some none => o
    | none => { o with len := (getCol c o.reg).len, known := true }

def lenOf (o : Option ColOperand) : Nat := o.elim 0 (·.len)

/-- The working length of an entry by its operands' lengths, as its issue has it. -/
def workLen (e : Entry) : Nat :=
  match e.instr with
  | .cvts .. => min (lenOf e.srcA) (16 * lenOf e.srcB)
  | .prjp .. | .prj .. => lenOf e.srcB
  | .srch .. => e.srcB.elim 1 (·.len)
  | .pand .. | .por .. | .pdiff .. | .joinH .. | .joinM .. | .semi .. | .anti .. => lenOf e.srcA
  | _ => ([e.srcA, e.srcB, e.srcC].filterMap (fun o => o.map (·.len))).foldl min e.len

/-- An entry whose last unknown length has become known: its working length, and its lane-written destinations' lengths. -/
def resolveEntry (c : Ctx) (older : List Entry) (e : Entry) : Entry :=
  if lensKnown [e.srcA, e.srcB, e.srcC] then e
  else
    let e := { e with srcA := e.srcA.map (resolveOp c older), srcB := e.srcB.map (resolveOp c older), srcC := e.srcC.map (resolveOp c older) }
    if !lensKnown [e.srcA, e.srcB, e.srcC] then e
    else
      let n := workLen e
      let dests := match e.instr, e.dests with
        | .cvt42 .., [d, d'] => [{ d with len := some n }, { d' with len := some (ceilDiv n 16) }]
        | .segred .., ds => ds
        | _, ds => if e.engine = .lanes then ds.map (fun d => { d with len := some n }) else ds
      { e with len := n, dests := dests, late := match e.instr with | .anti .. => List.range (lenOf e.srcB) | _ => e.late }

/-- The window with every length that is known by now. -/
def resolveLens (s : State) (ctx : CtxId) : State :=
  s.modCtx ctx (fun c => { c with window := c.window.foldl (fun w e => w ++ [resolveEntry c w e]) [] })

end Sys2Proof.Machine
end

