-- ==== Sys2Proof/Machine/Lanes.lean ====
section
/-! DEFINITION. Element-wise arithmetic, tests, conversions and reductions as the lane groups compute them: major ops 0x10 to
0x14 (R157-R171). -/

namespace Sys2Proof.Machine

/-! ## Values of one element -/

/-- A shift count: b mod w, read as unsigned (R157). -/
def shiftBy (f : Fmt) (y : Nat) : Nat := y % fmtBits f

/-- Integer operations of two elements of format f. -/
def intOp2 (i : Instr) (f : Fmt) (x y : Nat) : Nat :=
  let a := intOf f x
  let b := intOf f y
  let w := fmtBits f
  match i with
  | .vadd _ _ _ sat _ => narrowInt f sat (a + b)
  | .vsub _ _ _ sat _ => narrowInt f sat (a - b)
  | .vmul _ _ _ sat _ => narrowInt f sat (a * b)
  | .vmulh .. => wrapTo w (a * b / 2 ^ w)
  | .vmin .. => if a ≤ b then x else y
  | .vmax .. => if a ≥ b then x else y
  | .vand .. => x.land y
  | .vor .. => x.lor y
  | .vxor .. => x.xor y
  | .vshl .. => x * 2 ^ shiftBy f y % 2 ^ w
  | .vshr .. => x / 2 ^ shiftBy f y
  | .vsra .. => wrapTo w (signedAt w x / 2 ^ shiftBy f y)
  | .vmulw .. => wrapTo (fmtBits (widerInt f)) (a * b)
  | _ => x

/-- Integer operations of one element. -/
def intOp1 (i : Instr) (f : Fmt) (x : Nat) : Nat :=
  let a := intOf f x
  match i with
  | .vabs _ _ sat _ => narrowInt f sat a.natAbs
  | .vneg _ _ sat _ => narrowInt f sat (-a)
  | .vpopc .. => ((List.range (fmtBits f)).filter (fun k => x / 2 ^ k % 2 = 1)).length
  | .vclz .. => if x = 0 then fmtBits f else fmtBits f - 1 - Nat.log2 x
  | _ => x

/-- The value of a source element of a floating-point instruction, flushed under FTZ (R64). -/
def srcVal (f : Fmt) (m : Arith) (x : Nat) : Val := floatVal f (ftzSource f m.ftz x)

/-- Floating-point operations of two elements (R159). -/
def floatOp2 (i : Instr) (f : Fmt) (x y : Nat) : Nat :=
  match i with
  | .fadd _ _ _ m _ => roundArith f m ((srcVal f m x).add m.rnd (srcVal f m y))
  | .fsub _ _ _ m _ => roundArith f m ((srcVal f m x).add m.rnd (srcVal f m y).neg)
  | .fmul _ _ _ m _ => roundArith f m ((srcVal f m x).mul (srcVal f m y))
  | .fdiv _ _ _ m _ => roundArith f m ((srcVal f m x).div (srcVal f m y))
  | .fmin _ _ _ m _ =>
    if isNaN f x || isNaN f y then nanOf f
    else if (srcVal f m y).lt (srcVal f m x) true then ftzSource f m.ftz y else ftzSource f m.ftz x
  | .fmax _ _ _ m _ =>
    if isNaN f x || isNaN f y then nanOf f
    else if (srcVal f m x).lt (srcVal f m y) true then ftzSource f m.ftz y else ftzSource f m.ftz x
  | _ => x

/-- Floating-point operations of one element (R159, R160). -/
def floatOp1 (i : Instr) (f : Fmt) (x : Nat) : Nat :=
  match i with
  | .fabs .. => magBits f x
  | .fneg .. => if signOf f x then magBits f x else signWeight f + magBits f x
  | .fsqrt _ _ m _ => roundArith f m (srcVal f m x).root
  | .fexp2 _ _ m _ => roundArith f m (srcVal f m x).pow2
  | .flog2 _ _ m _ => roundArith f m (srcVal f m x).lg
  | _ => x

/-- `ffma`: one rounding of the exact a × b + c. -/
def floatFma (f : Fmt) (m : Arith) (x y z : Nat) : Nat :=
  roundArith f m (((srcVal f m x).mul (srcVal f m y)).add m.rnd (srcVal f m z))

/-- `fscl`: a × 2^b. An exponent beyond every format's range acts as one that is. -/
def floatScale (f : Fmt) (m : Arith) (x : Nat) (b : Int) : Nat :=
  roundArith f m ((srcVal f m x).scale (max (-100000) (min 100000 b)))

/-- `viota`: a + i × b, the operands read by the signedness of F (R158). -/
def iotaElem (f : Fmt) (sat : Bool) (a b : Word) (i : Nat) : Nat :=
  if isSigned f then narrowInt f sat (a.toInt + i * b.toInt) else narrowInt f sat (a.toNat + i * b.toNat)

/-! ## Sources of an entry at an element -/

def elemA (s : State) (ctx : CtxId) (e : Entry) (x : ColSrc) (i : Nat) : Acc Nat := operandElem s ctx e e.srcA x e.opA e.fmt i
def elemB (s : State) (ctx : CtxId) (e : Entry) (x : ColSrc) (i : Nat) : Acc Nat := operandElem s ctx e e.srcB x e.opB e.fmt i
def elemC (s : State) (ctx : CtxId) (e : Entry) (x : ColSrc) (i : Nat) : Acc Nat := operandElem s ctx e e.srcC x e.opC e.fmt i

/-- One, two or three sources and a function of them; at a position that is not listed, source a's element (R154). -/
def with1 (s : State) (ctx : CtxId) (e : Entry) (a : ColSrc) (i : Nat) (g : Nat → Nat) : Acc Nat :=
  if isListed e i then (elemA s ctx e a i).bind fun x s => .ok (g x) s
  else match e.srcA with
    | some o => sourceRaw s ctx e o i
    | none => elemA s ctx e a i

def with2 (s : State) (ctx : CtxId) (e : Entry) (a b : ColSrc) (i : Nat) (g : Nat → Nat → Nat) : Acc Nat :=
  if isListed e i then (elemA s ctx e a i).bind fun x s => (elemB s ctx e b i).bind fun y s => .ok (g x y) s
  else with1 s ctx e a i id

def with3 (s : State) (ctx : CtxId) (e : Entry) (a b c : ColSrc) (i : Nat) (g : Nat → Nat → Nat → Nat) : Acc Nat :=
  if isListed e i then
    (elemA s ctx e a i).bind fun x s => (elemB s ctx e b i).bind fun y s => (elemC s ctx e c i).bind fun z s => .ok (g x y z) s
  else with1 s ctx e a i id

/-- A column-only first source at element `i`. -/
def only (s : State) (ctx : CtxId) (e : Entry) (a : Col) (i : Nat) (g : Nat → Nat) : Acc Nat :=
  (elemA s ctx e (.col a) i).bind fun x s => .ok (g x) s

/-- The format a conversion's literal names. -/
def litFmt (t : BitVec 10) : Fmt := (Fmt.ofCode t.toNat).getD .n8

/-- The value of element `i` of the destination, in the destination's format. -/
def arithElem (s : State) (ctx : CtxId) (e : Entry) (i : Nat) : Acc Nat :=
  let f := e.fmt
  match e.instr with
  | .vadd _ a b _ _ | .vsub _ a b _ _ | .vmul _ a b _ _ => with2 s ctx e a b i (intOp2 e.instr f)
  | .vmulh _ a b _ | .vmin _ a b _ | .vmax _ a b _ | .vand _ a b _ | .vor _ a b _ | .vxor _ a b _ | .vshl _ a b _
  | .vshr _ a b _ | .vsra _ a b _ => with2 s ctx e a b i (intOp2 e.instr f)
  | .vmulw _ a b => with2 s ctx e a b i (intOp2 e.instr f)
  | .vabs _ a _ _ | .vneg _ a _ _ | .vpopc _ a _ | .vclz _ a _ | .vmov _ a _ => with1 s ctx e a i (intOp1 e.instr f)
  | .vbcast _ a _ => .ok (castScalar f (isLit a) e.opA) s
  | .viota _ _ _ _ sat => .ok (iotaElem f sat e.opA e.opB i) s
  | .cdesc .. => .ok (if i = 0 then e.opA.toNat else e.opB.toNat) s
  | .vsel _ a b c _ => with3 s ctx e a b (.col c) i (fun x y z => if z = 1 then x else y)
  | .vmad _ a b c sat _ => with3 s ctx e a b c i (fun x y z => narrowInt f sat (intOf f x * intOf f y + intOf f z))
  | .fadd _ a b _ _ | .fsub _ a b _ _ | .fmul _ a b _ _ | .fmin _ a b _ _ | .fmax _ a b _ _ | .fdiv _ a b _ _ =>
    with2 s ctx e a b i (floatOp2 e.instr f)
  | .ffma _ a b c m _ => with3 s ctx e a b c i (floatFma f m)
  | .fabs _ a _ _ | .fneg _ a _ _ | .fsqrt _ a _ _ | .fexp2 _ a _ _ | .flog2 _ a _ _ => with1 s ctx e a i (floatOp1 e.instr f)
  | .fscl _ a b m _ =>
    with2 s ctx e a b i (fun x y =>
      floatScale f m x (match e.srcB with | some o => intOf o.fmt y | none => e.opB.toInt))
  | .vcmp _ a b cc => with2 s ctx e a b i (fun x y => (elemCond cc f x y).toNat)
  | .vnz _ a => only s ctx e a i (fun x => (nonzero f x).toNat)
  | .vnan _ a => only s ctx e a i (fun x => (isNaN f x).toNat)
  | .cvtn _ a t m | .cvtw _ a t m => only s ctx e a i (convert f (litFmt t) m)
  | .cvtif _ a t m => only s ctx e a i (fun x => roundArith (litFmt t) m (intVal (intOf f x)))
  | .cvtfi _ a t m => only s ctx e a i (fun x => roundInt (litFmt t) m.rnd true (srcVal f m x))
  | .unpk3 _ a => only s ctx e a i (fun d => wrapTo 8 (tritOf d))
  | .pk3 _ a =>
    (elemA s ctx e (.col a) i).bind fun x s =>
      let v := intOf .i8 x
      if v < -1 || v > 1 then openFault s 0x06 else .ok (v + 1).toNat s
  | .cvts _ a _ m =>
    (elemA s ctx e (.col a) i).bind fun x s =>
      match e.srcB with
      | some o => (sourceElem s ctx e o (i / 16)).bind fun u s => .ok (scaleElem f .f32 m u x) s
      | none => .wait s
  | _ => .wait s

/-! ## Units of the lane groups -/

/-- The destination of an entry that has one column destination. -/
def destOf (e : Entry) : Dest := e.dests.headD { reg := .c 0, fmt := .n8, len := none, oldLen := 0 }

/-- The instructions whose faulting element a handler may skip (R344). -/
def maySkip (e : Entry) : Bool :=
  let op := fOp e.word.toNat
  (0x10 ≤ op && op ≤ 0x13) || (match e.instr with | .ldc .. | .stc .. => true | _ => false)

/-- An element that `frz.res.skip` made zero: it is not computed (R344). -/
def skipped (e : Entry) (i : Nat) : Bool := maySkip e && e.late.contains i

/-- One destination element, or one tern5 byte (R419), from element values; a skipped element is zero. -/
def writeUnit (s : State) (ctx : CtxId) (e : Entry) (i : Nat) (value : Nat → State → Acc Nat) : UnitRes :=
  let d := destOf e
  let val (k : Nat) (s : State) : Acc Nat := if skipped e k then .ok (if d.fmt = .tern5 then 1 else 0) s else value k s
  if d.fmt = .tern5 then
    collect val (min 5 (e.len - i)) i s fun vs s => UnitRes.of i (writeTern s ctx d.reg i vs) fun _ s => .ok s
  else UnitRes.of i (val i s) fun v s => UnitRes.of i (writeLane s ctx d.reg d.fmt i v e.len) fun _ s => .ok s

/-- `cvt42` works block by block (R79, R164): once the block is read and its scale byte has room, the codes in order, and then the
scale byte. -/
def quantUnit (s : State) (ctx : CtxId) (e : Entry) (a : Col) (m : Arith) (i : Nat) : UnitRes :=
  let n := min 16 (e.len - i)
  collect (fun k s => if skipped e k then .ok 0 s else only s ctx e a k id) n i s fun xs s =>
    let q := quantBlock m.rnd m.sat (xs.map (srcVal .f32 m))
    let codes (rest : State → UnitRes) : State → UnitRes :=
      ((List.range n).zip q.2).foldr (fun p k s =>
        UnitRes.of (i + p.1) (writeLane s ctx (destOf e).reg .e2m1 (i + p.1) p.2 e.len) fun _ s => k s) rest
    match e.dests[1]? with
    | some d =>
      let room : Acc Unit := (acquire s ctx d.reg .ue8m0 (i / 16 + 1)).bind fun _ s =>
        arenaCheck s ctx (getCol (s.ctx ctx) d.reg) .ue8m0 (i / 16) 1 true
      UnitRes.of i room fun _ s =>
        codes (fun s => UnitRes.of i (writeLane s ctx d.reg .ue8m0 (i / 16) q.1 (ceilDiv e.len 16)) fun _ s => .ok s) s
    | none => codes .ok s

/-- The sum formats of major op 0x14 (R167). -/
def redFmt (f : Fmt) : Fmt :=
  if f = .f64 then .f64 else if isFloat f then .f32 else if isSigned f then .i64 else .n64

/-- RoundTo of an exact sum, or the integer sum narrowed (R167-R169); of an aggregate too, with FTZ as R212 has it (log entry 87). -/
def sumOf (f : Fmt) (m : Arith) (xs : List Nat) : Nat :=
  if isFloat f then roundArith (redFmt f) m (exactSum m.rnd (xs.map (srcVal f m)))
  else narrowInt (redFmt f) m.sat (intSum f xs)

/-- A prefix sum's element: the sources below it have been read, and are kept (R169). -/
def scanUnit (s : State) (ctx : CtxId) (e : Entry) (a : Col) (m : Arith) (inc : Bool) (i : Nat) : UnitRes :=
  if e.absA.length < i then .wait s
  else
    let d := destOf e
    UnitRes.of i (if e.absA.length = i then only s ctx e a i id else .ok (e.absA[i]?.getD 0) s) fun x s =>
      let kept := if e.absA.length = i then e.absA ++ [x] else e.absA
      let xs := kept.take (if inc then i + 1 else i)
      UnitRes.of i (writeLane s ctx d.reg d.fmt i (sumOf e.fmt m xs) e.len) fun _ s =>
        .ok (setEntry s ctx { e with absA := kept })

/-- A reduction's lanes read their elements, so that every fault is met at its element (R81, R170). -/
def readUnit (s : State) (ctx : CtxId) (e : Entry) (a : Col) (b : Option Col) (i : Nat) : UnitRes :=
  if !isListed e i then .ok s
  else
    UnitRes.of i (elemA s ctx e (.col a) i) fun x s =>
      match b with
      | none => .ok s
      | some b =>
        UnitRes.of i (elemB s ctx e (.col b) i) fun _ s =>
          match e.instr with
          | .tdot .. =>
            let v := intOf .i8 x
            if e.fmt = .i8 && (v < -1 || v > 1) then UnitRes.of i (openFault (α := Unit) s 0x06) fun _ s => .ok s else .ok s
          | _ => .ok s

/-- One unit of an arithmetic instruction at element `i`. -/
def arithUnit (s : State) (ctx : CtxId) (e : Entry) (i : Nat) : UnitRes :=
  match e.instr with
  | .cvt42 _ a m => quantUnit s ctx e a m i
  | .scanInc _ a m => scanUnit s ctx e a m true i
  | .scanExc _ a m => scanUnit s ctx e a m false i
  | .redSum _ a _ _ | .redMin _ a _ _ | .redMax _ a _ _ | .redCnt _ a _ _ => readUnit s ctx e a none i
  | .redDot _ a b _ _ => readUnit s ctx e a (some b) i
  | .tdot _ a b _ => readUnit s ctx e a (some b) i
  | .segred _ a b _ => readUnit s ctx e a (some b) i
  | _ => writeUnit s ctx e i (fun k s => arithElem s ctx e k)

/-! ## Results of reductions (R167-R171) -/

/-- The elements of a source at the positions that count. -/
def chosen (e : Entry) : List Nat := (List.range e.len).filter (isListed e)

/-- Values of a source at positions, in order. -/
def valuesAt (s : State) (ctx : CtxId) (e : Entry) (o : Option ColOperand) : List Nat → State × UnitRes × List Nat
  | [] => (s, .ok s, [])
  | i :: is =>
    match o with
    | none => (s, .wait s, [])
    | some o =>
      match sourceElem s ctx e o i with
      | .ok v s =>
        let r := valuesAt s ctx e (some o) is
        (r.1, r.2.1, v :: r.2.2)
      | .fault cause addr s => (s, .fault i cause addr s, [])
      | .wait s => (s, .wait s, [])

/-- The extreme element of R168; a NaN among floating-point elements gives NaNOf(F). -/
def extreme (f : Fmt) (m : Arith) (big : Bool) (xs : List Nat) : Nat :=
  if isFloat f then
    let ys := xs.map (ftzSource f m.ftz)
    if ys.any (isNaN f) then nanOf f
    else
      match ys with
      | [] => if big then signWeight f + (if hasInf f then infCode f else (layout f).maxCode)
              else (if hasInf f then infCode f else (layout f).maxCode)
      | y :: ys => ys.foldl (fun acc x =>
          let lt (a b : Nat) : Bool := (floatVal f a).lt (floatVal f b) true
          if big then (if lt acc x then x else acc) else (if lt x acc then x else acc)) y
  else
    let v : Int := match xs.map (intOf f) with
      | [] => if big then intMin f else intMax f
      | y :: ys => ys.foldl (fun acc x => if big then max acc x else min acc x) y
    wrapTo 64 v

/-- The exact products' sum of `red.dot`. -/
def dotOf (f : Fmt) (m : Arith) (xs ys : List Nat) : Nat :=
  if isFloat f then roundArith (redFmt f) m (exactSum m.rnd ((xs.zip ys).map (fun p => (srcVal f m p.1).mul (srcVal f m p.2))))
  else narrowInt (redFmt f) m.sat (((xs.zip ys).map (fun p => intOf f p.1 * intOf f p.2)).foldl (· + ·) 0)

/-- `tdot` (R170): the exact sum narrowed to i32 and sign-extended to 64 bits. -/
def tdotOf (f : Fmt) (sat : Bool) (xs ys : List Nat) : Nat :=
  let t (x : Nat) : Int := if f = .tern5 then tritOf x else intOf .i8 x
  wrapTo 64 (intOf .i32 (narrowInt .i32 sat (((xs.zip ys).map (fun p => t p.1 * intOf .i8 p.2)).foldl (· + ·) 0)))

/-- The segments of `segred` (R169): a set bit opens one, and element 0 always does. -/
def segments : List Nat → List Nat → List (List Nat)
  | x :: xs, _ :: bs =>
    match bs.head?, segments xs bs with
    | some 0, y :: ys => (x :: y) :: ys
    | _, r => [x] :: r
  | _, _ => []

/-- A scalar result written (R171). -/
def scalarResult (s : State) (ctx : CtxId) (e : Entry) (v : Nat) : UnitRes :=
  let s := s.modCtx ctx (fun c => match e.sdest with | some d => setS c d (BitVec.ofNat 64 v) | none => c)
  .ok (setEntry s ctx { e with fin := true })

/-- A column of values written from element 0, and the entry done. -/
def columnResult (s : State) (ctx : CtxId) (e : Entry) (vs : List Nat) : UnitRes :=
  let d := destOf e
  let put : List (Nat × Nat) → State → UnitRes :=
    fun ps s => ps.foldr (fun p k s =>
      match writeLane s ctx d.reg d.fmt p.1 p.2 vs.length with
      | .ok _ s => k s
      | .fault cause addr s => .fault p.1 cause addr s
      | .wait s => .wait s)
      (fun s => .ok (setEntry s ctx { e with fin := true, dests := [{ d with len := some vs.length }] })) s
  put ((List.range vs.length).zip vs) s

/-- The elements that a reduction combines, of its two sources; `segred` keeps them, for its result may overwrite them (R151). -/
def reduced (s : State) (ctx : CtxId) (e : Entry) (k : State → Entry → List Nat → List Nat → UnitRes) : UnitRes :=
  let keeps : Bool := match e.instr with | .segred .. => true | _ => false
  if keeps && e.absB ≠ [] then k s e e.absA e.absB
  else
    let ra := valuesAt s ctx e e.srcA (chosen e)
    match ra.2.1 with
    | .ok s =>
      let rb := valuesAt s ctx e e.srcB (if e.srcB.isSome then chosen e else [])
      match rb.2.1 with
      | .ok s =>
        let e := if keeps then { e with absA := ra.2.2, absB := rb.2.2 } else e
        k (setEntry s ctx e) e ra.2.2 rb.2.2
      | r => r
    | r => r

/-- The result of a reduction whose lanes are all done. -/
def finishReduction (s : State) (ctx : CtxId) (e : Entry) : UnitRes :=
  reduced s ctx e fun s e xs ys =>
    match e.instr with
    | .redSum _ _ m _ => scalarResult s ctx e (sumOf e.fmt m xs)
    | .redMin _ _ m _ => scalarResult s ctx e (extreme e.fmt m false xs)
    | .redMax _ _ m _ => scalarResult s ctx e (extreme e.fmt m true xs)
    | .redCnt .. => scalarResult s ctx e ((xs.filter (nonzero e.fmt)).length)
    | .redDot _ _ _ m _ => scalarResult s ctx e (dotOf e.fmt m xs ys)
    | .tdot _ _ _ sat => scalarResult s ctx e (tdotOf e.fmt sat xs ys)
    | .segred _ _ _ m => columnResult s ctx e ((segments xs ys).map (sumOf e.fmt m))
    | _ => .ok s

end Sys2Proof.Machine
end

