-- ==== Sys2Proof/Machine/ColMem.lean ====
section
/-! DEFINITION. Column memory as the lane groups and the slices perform it: major op 0x18 (R172-R182, R368, R374-R377, R389). -/

namespace Sys2Proof.Machine

/-- The maker of an entry's accesses. -/
def entryWho (ctx : CtxId) (e : Entry) : Who :=
  { ctx := ctx, pol := e.pol, seq := some e.seq
    holder := match e.engine with
      | .slice => .slice 0
      | .stream => .streamCtl (coreOf ctx)
      | _ => l1Holder ctx }

/-! ## Page formats (R172, R174, R368) -/

/-- How an element moves between a page and a column: its bits, widened, or under its MX-16 block scale. -/
inductive Move
  | bits
  | widen (p : Fmt)
  | scaled (p : Fmt)
  | refused
deriving DecidableEq, Repr

/-- A page's element format, none for raw storage, and whether its geometry is MX-16. -/
def formatOf (pl : Place) : Option Fmt × Bool :=
  match pl with
  | .pool _ _ => (none, false)
  | .mem _ page | .peer _ page => if pteFmtv page.w1 then (Fmt.ofCode (pteFmt page.w1), pteGeom page.w1 == 1) else (none, false)

def isMini (f : Fmt) : Bool := f == .e2m1 || f == .e4m3 || f == .e5m2
def isWideFloat (f : Fmt) : Bool := f == .f16 || f == .bf16 || f == .f32 || f == .f64

/-- The table of R174; where a page is MX-16 and the column a wide float, the scaled row applies (log entry 35). -/
def moveOf (f : Fmt) (p : Option Fmt × Bool) (load : Bool) : Move :=
  match p.1 with
  | none => .bits
  | some q =>
    if f = .v256 || q = f then .bits
    else if !load then .refused
    else if p.2 && isMini q && isWideFloat f then .scaled q
    else if widensSteps q f then .widen q
    else .refused

/-- The format that elements have in memory, the same for loads and stores (R174); a pair without a size takes the column's width
(log entry 35). -/
def memFmt (f : Fmt) (p : Option Fmt × Bool) : Fmt :=
  match moveOf f p true with
  | .widen q | .scaled q => q
  | _ => f

/-- The scale byte of an element at page offset `o` of an MX-16 page of `size` bytes, and whether `o` lies in the scale region
(R368). -/
def scaleAt (q : Fmt) (size o : Nat) : Nat × Bool :=
  let region := if q = .e2m1 then size / 8 else size / 16
  let block := if q = .e2m1 then o * 2 / 16 else o / 16
  (size - region + block, o ≥ size - region)

/-- The page of a place, with the address's offset in it. -/
def pageOf (pl : Place) (va : Nat) : Option (Page × Nat) :=
  match pl with
  | .pool _ _ => none
  | .mem _ p | .peer _ p => some (p, va - p.vbase)

/-- Step 6 of R173 for a first piece: how the element moves, or none where it is refused; a v256 row moves whatever the page's
format is. An address in the scale region of an MX-16 page is refused (R368). -/
def formatStep (f m : Fmt) (given : Option Fmt) (x : Piece) (load : Bool) : Option Move :=
  let own := formatOf x.place
  let p := match given with | some q => (some q, own.2 && own.1 == some q) | none => own
  let mv := moveOf f p load
  if f ≠ .v256 && (mv = .refused || !sameWidth (memFmt f p) m) then none
  else
    match own, pageOf x.place x.va with
    | (some q, true), some (page, o) => if (scaleAt q (2 ^ page.bits) o).2 then none else some mv
    | _, _ => some mv

/-! ## One element -/

/-- The alignment of R172. -/
def alignOf (m : Fmt) : Nat :=
  match m with
  | .v256 => 32
  | .xacc => 16
  | m => if packed m then 1 else elemBytes m

/-- The clocks that an acquire joins (R288). -/
def afterRead (s : State) (ctx : CtxId) (pol : BitVec 32) (ps : List Piece) : State :=
  if polAcq pol then ps.foldl (fun s x => acquireClock s ctx (placeKey (coreOf ctx) x.place)) s else s

/-- The race check of an entry's access; a stream's fill takes steps 3 to 6 of R173 only (R245). -/
def raceEntry (s : State) (ctx : CtxId) (e : Entry) (write : Bool) (ps : List Piece) : Option State :=
  if polOrder e.pol = 0 && e.engine != .stream then raceCheck s ctx e.ph write ps else some s

/-- The bytes of pieces whose checks have passed: the race check comes first, and after the answer of a peer, which may be poison
(R173). -/
def raceRead (s : State) (ctx : CtxId) (e : Entry) (key : Nat) (ea : Word) (ps : List Piece) : Acc (List Byte) :=
  let remote := ps.any (fun x => match x.place with | .peer _ _ => true | _ => false)
  if remote then
    (readPieces (entryWho ctx e) (e.seq + 1, key) ea ps s).bind fun bs s =>
      match raceEntry s ctx e false ps with
      | none => .fault 0x08 ea s
      | some s => .ok bs s
  else
    match raceEntry s ctx e false ps with
    | none => .fault 0x08 ea s
    | some s => readPieces (entryWho ctx e) (e.seq + 1, key) ea ps s

/-- Steps 3 to 7 of a read, then the bytes. -/
def readElement (s : State) (ctx : CtxId) (e : Entry) (key : Nat) (ea : Word) (f m : Fmt) (given : Option Fmt) :
    Acc (List Byte × Move × Option Piece) :=
  if ea.toNat % alignOf m ≠ 0 then .fault 0x0B ea s
  else
    (resolve s (entryWho ctx e) .read ea (elemSpan m)).bind fun ps s =>
      if ps.any (pieceBad s) || acquireMeets s (coreOf ctx) e.pol ps then .fault 0x0C ea s
      else
        match ps.head? with
        | none => .ok ([], .bits, none) s
        | some x =>
          match formatStep f m given x true with
          | none => .fault 0x05 ea s
          | some mv =>
            (raceRead s ctx e key ea ps).bind fun bs s => .ok (bs, mv, some x) (afterRead s ctx e.pol ps)

/-- The piece of an element's scale byte (R368). -/
def scalePiece (x : Piece) (q : Fmt) (page : Page) (o : Nat) : Piece :=
  let va := page.vbase + (scaleAt q (2 ^ page.bits) o).1
  { at_ := 100, len := 1, va := va, place := match x.place with
    | .peer _ _ => .peer (page.pa va) page
    | _ => .mem (page.pa va) page }

/-- The block scale of an element (R174, R368), every byte of the access lying in the lease (R324). -/
def readScale (s : State) (ctx : CtxId) (e : Entry) (key : Nat) (ea : Word) (q : Fmt) (x : Piece) : Acc Nat :=
  match pageOf x.place x.va with
  | none => .ok 0 s
  | some (page, o) =>
    let y := scalePiece x q page o
    if !leased (s.ctx ctx).leases .read y.va 1 then .fault 0x03 ea s
    else if pieceBad s y then .fault 0x0C ea s
    else (raceRead s ctx e key ea [y]).bind fun bs s => .ok (ofLe bs) s

/-- Element `i` loaded from `ea` into format F (R174). -/
def loadElem (s : State) (ctx : CtxId) (e : Entry) (i : Nat) (ea : Word) (f m : Fmt) (given : Option Fmt) : Acc Nat :=
  (readElement s ctx e (4096 * i) ea f m given).bind fun r s =>
    let x := elemFrom m i r.1
    match r.2.1, r.2.2 with
    | .widen q, _ => .ok (widen q f x) s
    | .scaled q, some p =>
      (readScale s ctx e (4096 * i) ea q p).bind fun u s => .ok (scaleElem q f { rnd := .rne, sat := false, ftz := false } u x) s
    | _, _ => .ok x s

/-- A column store's clocks and marks as a release (R288, R294), per piece written. -/
def releaseAt (s : State) (ctx : CtxId) (e : Entry) (atomic : Bool) (pl : Place) : State :=
  if !polRel e.pol then s
  else
    let c := s.ctx ctx
    let key := (c.part, placeKey (coreOf ctx) pl / 128)
    let line := if atomic then clockMax (mget s.clocks key []) e.clock else e.clock
    markPlace (if c.chk then { s with clocks := mset s.clocks key line } else s) ctx pl

def releasePieces (s : State) (ctx : CtxId) (e : Entry) (ps : List Piece) : State :=
  ps.foldl (fun s x => releaseAt s ctx e false x.place) s

/-- Steps 3 to 7 of a write of `n` bytes in format F at an element: its pieces. -/
def checkWrite (s : State) (ctx : CtxId) (e : Entry) (ea : Word) (f m : Fmt) (given : Option Fmt) : Acc (List Piece) :=
  if ea.toNat % alignOf m ≠ 0 then .fault 0x0B ea s
  else
    (resolve s (entryWho ctx e) .write ea (elemSpan m)).bind fun ps s =>
      if writePoison s ps then .fault 0x0C ea s
      else
        match ps.head? with
        | none => .ok ps s
        | some x =>
          match formatStep f m given x false with
          | none => .fault 0x05 ea s
          | some _ => .ok ps s

def raceWrite (s : State) (ctx : CtxId) (e : Entry) (ea : Word) (ps : List Piece) : Acc Unit :=
  match raceEntry s ctx e true ps with
  | none => .fault 0x08 ea s
  | some s => .ok () s

/-- Which pieces of a store are performed where an earlier element of the instruction wrote the same bytes: one free choice
for an element, or one per sector of a v256 row (R177, log entry 18). -/
def winners (f : Fmt) (again : Bool) : List Piece → State → List Piece × State
  | [], s => ([], s)
  | p :: ps, s =>
    if !again then (p :: ps, s)
    else if f = .v256 then
      let keep := Config.storeOrder s.fresh % 2 = 1
      let r := winners f again ps s.draw
      (if keep then p :: r.1 else r.1, r.2)
    else if Config.storeOrder s.fresh % 2 = 1 then (p :: ps, s.draw) else ([], s.draw)

/-- Element `i` of value `v` stored at `ea`, its pieces checked; a sub-byte element rewrites its byte (R175). -/
def storeElem (s : State) (ctx : CtxId) (e : Entry) (i : Nat) (ea : Word) (f m : Fmt) (again : Bool) (v : Nat)
    (ps : List Piece) : Acc Unit :=
  (raceWrite s ctx e ea ps).bind fun _ s =>
    let w := winners f again ps s
    let put (s : State) (bs : List Byte) : Acc Unit :=
      (writePieces (entryWho ctx e) (e.seq + 1, 4096 * i + 1) ea bs w.1 s).bind fun _ s => .ok () (releasePieces s ctx e ps)
    if packed m then
      (readPieces (entryWho ctx e) (e.seq + 1, 4096 * i) ea ps w.2).bind fun bs s => put s (elemInto m i v bs)
    else put w.2 (leBytes (elemBytes m) v)

/-! ## Addresses -/

def dispInt (d : BitVec 11) : Int := d.toInt

/-- ea_i of `ldc` and `stc` (R172). -/
def linearEa (a : Word) (disp : BitVec 11) (stride : Word) (m : Fmt) (i : Nat) : Word :=
  if packed m then a + disp.signExtend 64 + BitVec.ofNat 64 (byteAt m i)
  else a + BitVec.ofInt 64 ((dispInt disp + i * stride.toInt) * elemBytes m)

/-- ea_i of `gath`, `scat` and `catom` (R172). -/
def indexedEa (a : Word) (disp : BitVec 11) (x : Int) (m : Fmt) : Word := a + BitVec.ofInt 64 ((dispInt disp + x) * elemBytes m)

/-- The smallest byte range that covers elements of `n` bytes at the addresses (R182). -/
def coverOf (n : Nat) (eas : List Nat) : Option (Nat × Nat) :=
  match eas with
  | [] => none
  | a :: as => some (as.foldl min a, as.foldl max a + n)

/-- An entry of the interlock table, which marks the entry's ranges as known. -/
def enterRanges (s : State) (ctx : CtxId) (e : Entry) (rs : List (Nat × Nat × Bool)) : State :=
  setEntry (s.modCtx ctx (fun c => { c with locks := c.locks ++ [{ seq := e.seq, ranges := rs }] })) ctx { e with admitted := true }

/-! ## Fixing the element size (R172) -/

/-- The memory format fixed from the page of byte A. -/
def fixFormat (s : State) (ctx : CtxId) (a : Word) (f : Fmt) : Acc Fmt :=
  if f = .v256 || inWindow a.toNat then .ok f s
  else if a.toNat ≥ 2 ^ 57 then .fault 0x01 a s
  else
    match translate s (l1Holder ctx) (s.ctx ctx).part a.toNat with
    | .fault cause _ s => .fault cause a s
    | .wait s => .wait s
    | .ok page s => .ok (memFmt f (formatOf (.mem 0 page))) s

/-! ## Tensors (R178, R179, R377, R389) -/

/-- Bytes that an entry reads beside its elements: a descriptor, a level's array, a table's slot. They too wait for older accesses
(R274), and are checked (R290). -/
def sideRead (s : State) (ctx : CtxId) (e : Entry) (key : Nat) (ea : Word) (n : Nat) : Acc (List Byte) :=
  if lockHitBefore (s.ctx ctx) e.seq ea.toNat (ea.toNat + n) false then .wait s
  else
    (resolve s (entryWho ctx e) .read ea n).bind fun ps s =>
      if ps.any (pieceBad s) then .fault 0x0C ea s else raceRead s ctx e key ea ps

def sideWord (s : State) (ctx : CtxId) (e : Entry) (key : Nat) (ea : Word) : Acc Word :=
  (sideRead s ctx e key ea 8).bind fun bs s => .ok (BitVec.ofNat 64 (ofLe bs)) s

/-- The 24 words of a sparse descriptor, or the header words of a block table, read once. -/
def readTable (s : State) (ctx : CtxId) (e : Entry) (at_ : Nat) (n : Nat) : Acc (List Word) :=
  let rec go : Nat → Nat → State → Acc (List Word)
    | 0, _, s => .ok [] s
    | n + 1, k, s =>
      (sideWord s ctx e (2048 + k) (BitVec.ofNat 64 (at_ + 8 * k))).bind fun w s =>
        (go n (k + 1) s).bind fun ws s => .ok (w :: ws) s
  go n 0 s

/-- The acquire that reads a block table's header (R377): it meets a mark there, and joins the line's clock. -/
def acquireHeader (s : State) (ctx : CtxId) (e : Entry) (at_ : Nat) : Acc Unit :=
  (resolve s (entryWho ctx e) .read (BitVec.ofNat 64 at_) 8).bind fun ps s =>
    match ps with
    | x :: _ =>
      let key := placeKey (coreOf ctx) x.place
      if s.syncBad.contains (key / 32) then .fault 0x0C (BitVec.ofNat 64 at_) s else .ok () (acquireClock s ctx key)
    | [] => .ok () s

def tableWord (e : Entry) (k : Nat) : Word := e.table[k]?.getD 0

/-- An n32 array element of a sparse tensor's levels. -/
def levelRead (s : State) (ctx : CtxId) (e : Entry) (i n : Nat) (base : Word) (q : Nat) : Acc Nat :=
  let ea := base + BitVec.ofNat 64 (4 * q)
  if ea.toNat % 4 ≠ 0 then .fault 0x0B ea s
  else (sideRead s ctx e (4096 * i + 2 + n) ea 4).bind fun bs s => .ok (ofLe bs) s

/-- The lower bound by halving (R389): the first index in [lo, hi) whose CRD is at least x. -/
def lowerBound (ctx : CtxId) (e : Entry) (i : Nat) (crd : Word) (x : Nat) : Nat → Nat → Nat → Nat → State → Acc Nat
  | 0, _, lo, _, s => .ok lo s
  | fuel + 1, n, lo, hi, s =>
    if lo < hi then
      let mid := (lo + hi) / 2
      (levelRead s ctx e i n crd mid).bind fun v s =>
        if v < x then lowerBound ctx e i crd x fuel (n + 1) (mid + 1) hi s else lowerBound ctx e i crd x fuel (n + 1) lo mid s
    else .ok lo s

/-- SIZE and LTYPE of level l, and its arrays. -/
def levelSize (e : Entry) (l : Nat) : Nat := bitsAt (tableWord e (8 + 4 * l)).toNat 32 32
def levelType (e : Entry) (l : Nat) : Nat := bitsAt (tableWord e (8 + 4 * l)).toNat 0 2

/-- The walk of a sparse position: none where it is absent. -/
def sparseWalk (ctx : CtxId) (e : Entry) (i p nlvl : Nat) : Nat → Nat → Nat → State → Acc (Option Nat)
  | 0, _, q, s => .ok (some q) s
  | fuel + 1, l, q, s =>
    if l ≥ nlvl then .ok (some q) s
    else
      let stride := (((List.range nlvl).drop (l + 1)).map (levelSize e)).foldl (· * ·) 1
      let x := p / stride % levelSize e l
      let pos := tableWord e (9 + 4 * l)
      let crd := tableWord e (10 + 4 * l)
      match levelType e l with
      | 0 => sparseWalk ctx e i p nlvl fuel (l + 1) (q * levelSize e l + x) s
      | 1 =>
        (levelRead s ctx e i (256 * l) pos q).bind fun lo s =>
          (levelRead s ctx e i (256 * l + 1) pos (q + 1)).bind fun hi s =>
            (lowerBound ctx e i crd x 64 (256 * l + 2) lo hi s).bind fun k s =>
              if k = hi then .ok none s
              else
                (levelRead s ctx e i (256 * l + 100) crd k).bind fun v s =>
                  if v = x then sparseWalk ctx e i p nlvl fuel (l + 1) k s else .ok none s
      | _ =>
        (levelRead s ctx e i (256 * l + 101) crd q).bind fun v s =>
          if v = x then sparseWalk ctx e i p nlvl fuel (l + 1) q s else .ok none s

/-- The handle of a tensor instruction, as captured in the entry's table behind the words read. -/
def tensorOf (e : Entry) : Handle :=
  { w0 := tableWord e 24, w1 := tableWord e 25, w2 := tableWord e 26, w3 := tableWord e 27 }

/-- Position `i` of a tensor instruction: an element of b, or VL consecutive ones from a scalar (R178). -/
def positionOf (s : State) (ctx : CtxId) (e : Entry) (i : Nat) : Acc Int :=
  match e.srcB with
  | some o => (sourceElem s ctx e o i).bind fun x s => .ok (intOf o.fmt x) s
  | none => .ok (e.opB.toNat + i) s

/-- The format whose bytes an element of a tensor instruction has in memory: the handle's, or a whole v256 row (R174). -/
def tensorMem (e : Entry) : Fmt :=
  if e.fmt = .v256 || hKind (tensorOf e) = 3 then .v256 else (Fmt.ofCode (hFmtCode (tensorOf e))).getD .n8

/-- The address of a tensor element: none where a sparse position is absent (R178, R389). -/
def tensorEa (s : State) (ctx : CtxId) (e : Entry) (i : Nat) : Acc (Option Word) :=
  (positionOf s ctx e i).bind fun p s =>
    let h := tensorOf e
    let w := elemBytes ((Fmt.ofCode (hFmtCode h)).getD .n8)
    if p < 0 then openFault s 0x0E
    else
      let p := p.toNat
      match hKind h with
      | 1 => if p * w ≥ hLen h then openFault s 0x0E else .ok (some (BitVec.ofNat 64 (hBase h + p * w))) s
      | 3 => if p > 15 then openFault s 0x0E else .ok (some (BitVec.ofNat 64 (hBase h + 256 * p))) s
      | _ =>
        if p ≥ hLen h then openFault s 0x0E
        else
          (sparseWalk ctx e i p (bitsAt (tableWord e 0).toNat 0 3) 5 0 0 s).bind fun r s =>
            match r with
            | none => .ok none s
            | some q => .ok (some (tableWord e 1 + BitVec.ofNat 64 (q * w))) s

/-- The format a tensor's handle gives its elements; a key-value block's rows are v256. -/
def tensorFmt (e : Entry) : Fmt := if hKind (tensorOf e) = 3 then .v256 else (Fmt.ofCode (hFmtCode (tensorOf e))).getD .n8

/-- The address of row `i` of `btld` (R179, R377). -/
def rowEa (s : State) (ctx : CtxId) (e : Entry) (i : Nat) : Acc Word :=
  (positionOf s ctx e i).bind fun p s =>
    let p := p.toNat
    if p ≥ bitsAt (tableWord e 0).toNat 0 32 then openFault s 0x0E
    else
      let slot := hBase (tensorOf e) + 64 + 32 * (p / 16)
      let rd (k : Nat) (s : State) : Acc Word :=
        sideWord s ctx e (4096 * i + 2 + k) (BitVec.ofNat 64 (slot + 8 * k))
      (rd 0 s).bind fun w0 s => (rd 1 s).bind fun w1 s => (rd 3 s).bind fun w3 s =>
        if w3.toNat / 2 ^ 63 = 0 || w0.toNat / 2 ^ 60 ≠ 3 then openFault s 0x0E
        else .ok (BitVec.ofNat 64 (bitsAt w1.toNat 0 57 + 256 * (p % 16))) s

/-! ## Deadline rows (R179, R375, R376) -/

/-- A row's page and granule make it eligible for its shadow. -/
def eligible (s : State) (x : Piece) : Bool :=
  match x.place with
  | .mem pa page =>
    let g := pa / 4096
    (!s.inHbm.contains g || s.migs.any (fun m => m.granule = g && !m.toHbm)) && pteShd page.w1 && mhas s.shadows g
  | _ => false

/-- The bytes a shadow gives back for a row of format P (R375, R179). -/
def shadowRow (p : Fmt) (row : List Byte) : List Byte :=
  let n := 256 / elemBytes p
  let xs := (List.range n).map (fun i => ofLe ((row.drop (i * elemBytes p)).take (elemBytes p)))
  let runs := (List.range (n / 16)).map (fun j => quantBlock .rne false (((xs.drop (16 * j)).take 16).map (floatVal p)))
  runs.flatMap (fun q => q.2.flatMap (fun c =>
    leBytes (elemBytes p) (if q.1 = 0xFF then nanOf p else scaleElem .e2m1 p { rnd := .rne, sat := false, ftz := false } q.1 c)))

/-- Whether the row is taken from its shadow: its deadline has passed, or is predicted to (log entry 24). -/
def takesShadow (s : State) (e : Entry) (i : Nat) (x : Piece) : Bool × State :=
  let dl := (tableWord e 28).toNat
  if polTier e.pol ≠ 3 || !eligible s x then (false, s)
  else if dl = 0 || e.late.contains i then (true, s)
  else (Config.predictsLate s.fresh, s.draw)

/-! ## Units of the lane groups -/

/-- An element of `ldc` or `ldt` that is not loaded keeps the old one, or reads zero at or above the old LEN (R175). -/
def keepElem (s : State) (ctx : CtxId) (e : Entry) (i : Nat) : Acc Nat :=
  let d := destOf e
  if i < d.oldLen then readRaw s ctx d.reg d.fmt i else .ok (if d.fmt = .tern5 then 1 else 0) s

def loadUnit (s : State) (ctx : CtxId) (e : Entry) (disp : BitVec 11) (i : Nat) : UnitRes :=
  match e.mfmt with
  | none => .wait s
  | some m =>
    writeUnit s ctx e i fun k s =>
      if isListed e k then loadElem s ctx e k (linearEa e.opA disp e.opB m k) e.fmt m none else keepElem s ctx e k

def storeUnit (s : State) (ctx : CtxId) (e : Entry) (disp : BitVec 11) (i : Nat) : UnitRes :=
  match e.mfmt, e.srcC with
  | some m, some o =>
    if !isListed e i || skipped e i then .ok s
    else
      let ea := linearEa e.opA disp e.opB m i
      UnitRes.of i (checkWrite s ctx e ea e.fmt m none) fun ps s =>
        UnitRes.of i (sourceElem s ctx e o i) fun v s =>
          UnitRes.of i (storeElem s ctx e i ea e.fmt m (e.opB = 0 && !packed m && e.mask != []) v ps) fun _ s =>
            .ok (setEntry s ctx { e with mask := if e.opB = 0 then [0] else e.mask })
  | _, _ => .wait s

def tensorLoadUnit (s : State) (ctx : CtxId) (e : Entry) (i : Nat) : UnitRes :=
  writeUnit s ctx e i fun k s =>
    (tensorEa s ctx e k).bind fun a s =>
      match a with
      | none => .ok 0 s
      | some ea => loadElem s ctx e k ea e.fmt (tensorMem e) (some (tensorFmt e))

def tensorStoreUnit (s : State) (ctx : CtxId) (e : Entry) (i : Nat) : UnitRes :=
  UnitRes.of i (tensorEa s ctx e i) fun a s =>
    match a, e.srcC with
    | some ea, some o =>
      UnitRes.of i (checkWrite s ctx e ea e.fmt (tensorMem e) (some (tensorFmt e))) fun ps s =>
        UnitRes.of i (sourceElem s ctx e o i) fun v s =>
          UnitRes.of i (storeElem s ctx e i ea e.fmt (tensorMem e) false v ps) fun _ s => .ok s
    | _, _ => UnitRes.of (α := Unit) i (openFault s 0x0E) fun _ s => .ok s

/-- A row's two results, once both have room (R179). -/
def putRow (s : State) (ctx : CtxId) (e : Entry) (i : Nat) (bs : List Byte) (late : Bool) : UnitRes :=
  let room (d : Dest) (s : State) : Acc Unit := (acquire s ctx d.reg d.fmt (i + 1)).bind fun _ s =>
    arenaCheck s ctx (getCol (s.ctx ctx) d.reg) d.fmt i 1 true
  let put (d : Dest) (v : Nat) (s : State) : Acc Unit := writeLane s ctx d.reg d.fmt i v e.len
  match e.dests with
  | [d, d'] =>
    UnitRes.of i (((room d s).bind fun _ s => room d' s).bind fun _ s => (put d (ofLe bs) s).bind fun _ s => put d' late.toNat s)
      fun _ s => .ok s
  | _ => UnitRes.of i (put (destOf e) (ofLe bs) s) fun _ s => .ok s

def rowUnit (s : State) (ctx : CtxId) (e : Entry) (i : Nat) : UnitRes :=
  UnitRes.of i (rowEa s ctx e i) fun ea s =>
    if ea.toNat % 32 ≠ 0 then .fault i 0x0B ea s
    else
      UnitRes.of i (resolve s (entryWho ctx e) .read ea 256) fun ps s =>
        match ps with
        | [] => .wait s
        | x :: _ =>
          let t := takesShadow s e i x
          if t.1 then
            match x.place, raceEntry t.2 ctx e false ps with
            | .mem pa _, some s => putRow s ctx e i (shadowRow ((formatOf x.place).1.getD .f16) (s.bytesPA pa 256)) true
            | _, _ => .fault i 0x08 ea t.2
          else UnitRes.of i (readElement t.2 ctx e (4096 * i) ea .v256 .v256 none) fun r s => putRow s ctx e i r.1 false

/-- A segment and its scale written together (R180, R293): in one step, and at a peer by one request, which carries the data, the
scale byte and the scale's address (log entry 15). -/
def putSegment (s : State) (ctx : CtxId) (e : Entry) (i : Nat) (ea : Word) (data : List Byte) (u : Byte) (ps : List Piece) (y : Piece) :
    Acc Unit :=
  match ps with
  | { place := .peer pa page, .. } :: _ =>
    let spa := match y.place with | .peer q _ => q | _ => 0
    (peerAsk (setDirty s (s.ctx ctx).part page) ctx (e.seq + 1, 4096 * i, 0) .write
      (flitFor s ctx 2 (pteTgt page.w1) pa (data.length + 9) (opcOf 1 false e.pol (failedRelease s (entryWho ctx e)))
        (data ++ [u] ++ leBytes 8 spa)) ea ea page.pte).bind
      fun _ s => .ok () (l1Drop (l1Drop s (coreOf ctx) (placeKey (coreOf ctx) (.peer pa page)) data.length) (coreOf ctx)
        (placeKey (coreOf ctx) y.place) 1)
  | _ =>
    (writePieces (entryWho ctx e) (e.seq + 1, 4096 * i) ea data ps s).bind fun _ s =>
      writePieces (entryWho ctx e) (e.seq + 1, 4096 * i + 1) ea [u] [{ y with at_ := 0 }] s

/-- `segst` writes one segment, data and scale, indivisibly (R180). -/
def segmentUnit (s : State) (ctx : CtxId) (e : Entry) (disp : BitVec 11) (i : Nat) : UnitRes :=
  let j := i / 16
  let n := 2 * fmtBits e.fmt
  let ea := e.opA + BitVec.ofInt 64 ((dispInt disp + j) * n)
  match e.srcA, e.srcB with
  | some od, some os =>
    if ea.toNat % n ≠ 0 then .fault (16 * j) 0x0B ea s
    else
      UnitRes.of (16 * j) (resolve s (entryWho ctx e) .write ea n) fun ps s =>
        if writePoison s ps then .fault (16 * j) 0x0C ea s
        else
          match ps.head? with
          | none => .wait s
          | some x =>
            match formatOf x.place, pageOf x.place x.va with
            | (some q, true), some (page, o) =>
              let y := scalePiece x q page o
              if q ≠ e.fmt || (scaleAt q (2 ^ page.bits) o).2 || os.len ≤ j then .fault (16 * j) 0x05 ea s
              else if !leased (s.ctx ctx).leases .write y.va 1 then .fault (16 * j) 0x03 ea s
              else if writePoison s [y] then .fault (16 * j) 0x0C ea s
              else
                UnitRes.of (16 * j) (raceWrite s ctx e ea (ps ++ [y])) fun _ s =>
                  collect (fun k s => sourceElem s ctx e od k) (min 16 (e.len - 16 * j)) (16 * j) s fun xs s =>
                    UnitRes.of (16 * j) (sourceElem s ctx e os j) fun u s =>
                      let v := (((List.range 16).zip xs).map (fun p => p.2 * 2 ^ (fmtBits e.fmt * p.1))).foldl (· + ·) 0
                      UnitRes.of (16 * j) (putSegment s ctx e i ea (leBytes n v) (BitVec.ofNat 8 u) ps y) fun _ s =>
                        .ok (releasePieces s ctx e (ps ++ [y]))
            | _, _ => .fault (16 * j) 0x05 ea s
  | _, _ => .wait s

/-- One unit of a column memory instruction of the lane groups at element `i`. -/
def memUnit (s : State) (ctx : CtxId) (e : Entry) (i : Nat) : UnitRes :=
  match e.instr with
  | .ldc _ _ _ _ _ disp => loadUnit s ctx e disp i
  | .stc _ _ _ _ _ disp => storeUnit s ctx e disp i
  | .ldt .. => tensorLoadUnit s ctx e i
  | .stt .. => tensorStoreUnit s ctx e i
  | .btld .. => rowUnit s ctx e i
  | .segst _ _ _ disp => segmentUnit s ctx e disp i
  | _ => .wait s

/-! ## Preparing an entry: the size, what is read once, the interlock ranges -/

/-- Addresses of the elements, for the ranges; an element whose address faults has none. -/
def addressesOf (e : Entry) (ea : Nat → Acc (Option Word)) : List Nat :=
  (List.range e.len).filterMap (fun i =>
    if !isListed e i then none
    else match ea i with
      | .ok (some a) _ => some a.toNat
      | _ => none)

/-- The scale bytes' addresses of a `segst`. -/
def scaleAddresses (s : State) (ctx : CtxId) (eas : List Nat) : List Nat :=
  eas.filterMap (fun a =>
    match translate s (l1Holder ctx) (s.ctx ctx).part a with
    | .ok page _ =>
      match formatOf (.mem 0 page) with
      | (some q, true) => if a < 2 ^ 57 then some (page.vbase + (scaleAt q (2 ^ page.bits) (a - page.vbase)).1) else none
      | _ => none
    | _ => none)

/-- The ranges of R273 of a column memory instruction with elements of memory format `m`. -/
def rangesOf (s : State) (ctx : CtxId) (e : Entry) (m : Fmt) : List (Nat × Nat × Bool) :=
  let n := elemSpan m
  let one (w : Bool) (l : List Nat) : List (Nat × Nat × Bool) := match coverOf n l with
    | some (lo, hi) => [(lo, hi, w)]
    | none => []
  match e.instr with
  | .ldc _ _ _ _ _ disp => one false (addressesOf e (fun i => .ok (some (linearEa e.opA disp e.opB m i)) s))
  | .stc _ _ _ _ _ disp => one true (addressesOf e (fun i => .ok (some (linearEa e.opA disp e.opB m i)) s))
  | .gath _ _ _ _ _ disp => one false (addressesOf e (fun i =>
      (positionOf s ctx e i).bind fun x s => .ok (some (indexedEa e.opA disp x m)) s))
  | .scat _ _ _ _ _ disp => one true (addressesOf e (fun i =>
      (positionOf s ctx e i).bind fun x s => .ok (some (indexedEa e.opA disp x m)) s))
  | .catom .. => one true (addressesOf e (fun i =>
      (positionOf s ctx e i).bind fun x s => .ok (some (indexedEa e.opA 0 x m)) s))
  | .ldt .. => one false (addressesOf e (tensorEa s ctx e))
  | .stt .. => one true (addressesOf e (tensorEa s ctx e))
  | .btld .. => one false (addressesOf e (fun i => (rowEa s ctx e i).bind fun a s => .ok (some a) s))
  | .segst _ _ _ disp =>
    let k := 2 * fmtBits e.fmt
    let eas := (List.range (ceilDiv e.len 16)).map (fun (j : Nat) => (e.opA + BitVec.ofInt 64 ((dispInt disp + j) * k)).toNat)
    (match coverOf k eas with | some (lo, hi) => [(lo, hi, true)] | none => [])
      ++ (match coverOf 1 (scaleAddresses s ctx eas) with | some (lo, hi) => [(lo, hi, true)] | none => [])
  | _ => []

/-- Whether the instruction stores. -/
def isColStore (i : Instr) : Bool :=
  match i with
  | .stc .. | .scat .. | .stt .. | .segst .. | .catom .. => true
  | _ => false

/-- Whether the entry writes memory. -/
def storesMemory (i : Instr) : Bool :=
  match i with
  | .xred .. | .xclr .. | .txc .. | .txe .. => true
  | i => isColStore i || isCopy i

/-- What is fixed before the first element: the memory format, or a descriptor or table header (R172, R377, R389), and then
the ranges. A fault there is one at element 0. -/
def prepare (s : State) (ctx : CtxId) (older : List Entry) (e : Entry) : Acc Entry :=
  if !isColMem e.instr || e.admitted || e.len = 0 then .ok e s
  -- the ranges of indexed accesses are known once the index column is written (R182, R273)
  else if !operandReady older e e.srcB 0 (match e.instr with | .segst .. => 0 | _ => e.len) then .wait s
  else
    let c := s.ctx ctx
    let reads (at_ n : Nat) : Bool := accessWaits c older e.seq at_ (at_ + n) false || storeHit c at_ (at_ + n)
    let base : Acc Entry :=
      match e.instr with
      | .ldt .. | .stt .. =>
        if hKind (tensorOf e) ≠ 2 || e.consumed then .ok { e with mfmt := some (tensorMem e) } s
        else if reads (hBase (tensorOf e)) 192 then .wait s
        else (readTable s ctx e (hBase (tensorOf e)) 24).bind fun ws s =>
          .ok { e with mfmt := some (tensorMem e), table := ws ++ e.table.drop 24, consumed := true } s
      | .btld .. =>
        if e.consumed then .ok e s
        else if reads (hBase (tensorOf e)) 64 then .wait s
        else (readTable s ctx e (hBase (tensorOf e)) 8).bind fun ws s =>
          (acquireHeader s ctx e (hBase (tensorOf e))).bind fun _ s =>
            .ok { e with mfmt := some .v256, table := ws ++ e.table.drop 8, consumed := true } (l1DropAll s (coreOf ctx))
      | .segst .. => .ok { e with mfmt := some e.fmt } s
      | _ =>
        match e.mfmt with
        | some _ => .ok e s
        | none => (fixFormat s ctx e.opA e.fmt).bind fun m s => .ok { e with mfmt := some m } s
    base.bind fun e s =>
      let m := e.mfmt.getD e.fmt
      -- R172: a sub-byte memory format only in ldc and stc with stride 1
      let sub := packed m && (match e.instr with | .ldc .. | .stc .. => e.opB ≠ 1 | .segst .. => false | _ => true)
      if sub then openFault s 0x05
      else .ok { e with admitted := true } (enterRanges s ctx e (rangesOf s ctx e m))

/-- Whether the entry's own ranges must wait for older instructions, or for scalar stores not yet performed (R274); a store waits
for the loads before it (R277), and a release for every earlier access (R279). -/
def rangeWaits (s : State) (ctx : CtxId) (older : List Entry) (e : Entry) : Bool :=
  let c := s.ctx ctx
  let mine := c.locks.filter (fun l => l.seq = e.seq)
  mine.any (fun l => l.ranges.any (fun r => accessWaits c older e.seq r.1 r.2.1 r.2.2 || storeHit c r.1 r.2.1))
    || (storesMemory e.instr && !loadsReturned older)
    || (polRel e.pol && (!quietBefore c e.seq || c.posted.any (fun p => p.seq ≤ e.seq)))

/-! ## Batches at the slices (R176, R181, R232) -/

def indexOf (s : State) (ctx : CtxId) (e : Entry) (i : Nat) : Acc Int := positionOf s ctx e i

/-- The displacement of a slice instruction. -/
def sliceDisp (i : Instr) : BitVec 11 :=
  match i with
  | .gath _ _ _ _ _ d | .scat _ _ _ _ _ d => d
  | _ => 0

/-- The listed positions of the batch that begins at `vs`. -/
def batchOf (e : Entry) : List Nat := ((List.range (min 64 (e.len - e.vs))).map (· + e.vs)).filter (isListed e)

/-- A list of units, one after another. -/
def eachUnit (g : Nat → State → UnitRes) : List Nat → State → UnitRes
  | [], s => .ok s
  | i :: is, s =>
    match g i s with
    | .ok s => eachUnit g is s
    | r => r

/-- A batch of `gath`: every check first, then the accesses, then the destination's elements. -/
def gathBatch (s : State) (ctx : CtxId) (e : Entry) (m : Fmt) : UnitRes :=
  let d := destOf e
  let ea (i : Nat) (s : State) : Acc Word := (indexOf s ctx e i).bind fun x s => .ok (indexedEa e.opA (sliceDisp e.instr) x m) s
  let all := (List.range (min 64 (e.len - e.vs))).map (· + e.vs)
  let check (i : Nat) (s : State) : UnitRes :=
    UnitRes.of i (ea i s) fun a s =>
      if a.toNat % alignOf m ≠ 0 then .fault i 0x0B a s
      else UnitRes.of i (resolve s (entryWho ctx e) .read a (elemSpan m)) fun ps s =>
        if ps.any (pieceBad s) then .fault i 0x0C a s
        else match ps.head? with
          | some x => if (formatStep e.fmt m none x true).isNone then .fault i 0x05 a s else .ok s
          | none => .ok s
  let room (i : Nat) (s : State) : UnitRes :=
    UnitRes.of i (acquire s ctx d.reg d.fmt (i + 1)) fun _ s =>
      UnitRes.of i (arenaCheck s ctx (getCol (s.ctx ctx) d.reg) d.fmt i 1 true) fun _ s => .ok s
  let value (i : Nat) (s : State) : Acc Nat :=
    if isListed e i then (ea i s).bind fun a s => loadElem s ctx e i a e.fmt m none else keepElem s ctx e i
  match eachUnit check (batchOf e) s with
  | .ok s =>
    match eachUnit room all s with
    | .ok s =>
      collect value all.length e.vs s fun vs s =>
        match eachUnit (fun i s => UnitRes.of i (writeLane s ctx d.reg d.fmt i (vs[i - e.vs]?.getD 0) e.len) fun _ s => .ok s) all s with
        | .ok s => .ok s
        | r => r
    | r => r
  | r => r

/-- A batch of `scat`. -/
def scatBatch (s : State) (ctx : CtxId) (e : Entry) (m : Fmt) : UnitRes :=
  let ea (i : Nat) (s : State) : Acc Word := (indexOf s ctx e i).bind fun x s => .ok (indexedEa e.opA (sliceDisp e.instr) x m) s
  let check (i : Nat) (s : State) : UnitRes :=
    UnitRes.of i (ea i s) fun a s => UnitRes.of i (checkWrite s ctx e a e.fmt m none) fun _ s => .ok s
  let same (i : Nat) (a : Word) (s : State) : Bool :=
    (List.range i).any (fun k => isListed e k && (match ea k s with | .ok b _ => b == a | _ => false))
  let put (i : Nat) (s : State) : UnitRes :=
    UnitRes.of i (ea i s) fun a s => UnitRes.of i (checkWrite s ctx e a e.fmt m none) fun ps s =>
      match e.srcC with
      | some o => UnitRes.of i (sourceElem s ctx e o i) fun v s =>
          UnitRes.of i (storeElem s ctx e i a e.fmt m (same i a s) v ps) fun _ s => .ok s
      | none => .wait s
  match eachUnit check (batchOf e) s with
  | .ok s => eachUnit put (batchOf e) s
  | r => r

/-- A batch of `catom` (R181): poison is met element by element, and the performed ones are masked. -/
def catomBatch (s : State) (ctx : CtxId) (e : Entry) (op : AtomOp) (m : Fmt) : UnitRes :=
  let ea (i : Nat) (s : State) : Acc Word := (indexOf s ctx e i).bind fun x s => .ok (indexedEa e.opA 0 x m) s
  let check (i : Nat) (s : State) : UnitRes :=
    UnitRes.of i (ea i s) fun a s =>
      if a.toNat % alignOf m ≠ 0 then .fault i 0x0B a s
      else UnitRes.of i (resolve s (entryWho ctx e) .atomic a (elemSpan m)) fun ps s =>
        match ps.head? with
        | some x => if (formatStep e.fmt m none x false).isNone then .fault i 0x05 a s else .ok s
        | none => .ok s
  let one (i : Nat) (s : State) : UnitRes :=
    UnitRes.of i (ea i s) fun a s => UnitRes.of i (resolve s (entryWho ctx e) .atomic a (elemSpan m)) fun ps s =>
      match ps, e.srcC with
      | [x], some o =>
        UnitRes.of i (sourceElem s ctx e o i) fun v s =>
          if acquireMeets s (coreOf ctx) e.pol [x] then .fault i 0x0C a s
          else UnitRes.of i (atomPiece (entryWho ctx e) (e.seq + 1, 4096 * i) a op (elemBytes m) v 0 x s) fun _ s =>
            .ok (releaseAt (afterRead s ctx e.pol [x]) ctx e true x.place)
      | _, _ => .wait s
  let todo := (batchOf e).filter (fun i => !e.mask.contains (i - e.vs))
  match eachUnit check (batchOf e) s with
  | .ok s =>
    -- every element that can be performed is, and the lowest fault stands; where a peer's answer is awaited the batch is made again
    let step (acc : State × List Nat × Option UnitRes × Bool) (i : Nat) : State × List Nat × Option UnitRes × Bool :=
      match one i acc.1 with
      | .ok s => (s, acc.2.1 ++ [i - e.vs], acc.2.2.1, acc.2.2.2)
      | .fault k cause addr s => (s, acc.2.1, some (acc.2.2.1.getD (.fault k cause addr s)), acc.2.2.2)
      | .wait s => (s, acc.2.1, acc.2.2.1, true)
    let r := todo.foldl step (s, [], none, false)
    let s := setEntry r.1 ctx { e with mask := e.mask ++ r.2.1 }
    if r.2.2.2 then .wait r.1
    else match r.2.2.1 with
      | some (.fault k cause addr _) => .fault k cause addr s
      | _ => .ok s
  | r => r

/-- The batch at `vs`. -/
def sliceBatch (s : State) (ctx : CtxId) (e : Entry) : UnitRes :=
  let m := e.mfmt.getD e.fmt
  match e.instr with
  | .gath .. => gathBatch s ctx e m
  | .scat .. => scatBatch s ctx e m
  | .catom _ _ _ _ _ op => catomBatch s ctx e ((AtomOp.ofCode op.val).getD .add) m
  | _ => .wait s

end Sys2Proof.Machine
end

