-- ==== Sys2Proof/Machine/Settle.lean ====
section
/-! DEFINITION. The issue of an instruction, the element groups and index batches that advance it, and what every step of an
engine settles: retirement in order and the freeze of R45 (R34-R45, R419). -/

namespace Sys2Proof.Machine

/-! ## Settling -/

def holdUnit (s : State) (ctx : CtxId) (seq lane : Nat) (elem cause : Nat) (addr : Word) : State :=
  match (s.ctx ctx).window.find? (·.seq = seq) with
  | some e => hold s ctx e lane elem cause addr
  | none => s

/-- Complete entries leave from the head; a reduction at the head forms its result; a held fault freezes. -/
def settleFuel (ctx : CtxId) : Nat → State → State
  | 0, s => s
  | fuel + 1, s =>
    let s := resolveLens s ctx
    let c := s.ctx ctx
    match c.window with
    | [] => s
    | e :: _ =>
      if e.held ≠ [] then freezeColumn s ctx
      else if e.engine = .lanes && lanesDone e && needsFin e.instr && !e.fin then
        match finishReduction s ctx e with
        | .ok s => settleFuel ctx fuel s
        | .fault elem cause addr s => freezeColumn (holdUnit s ctx e.seq 4 elem cause addr) ctx
        | .wait s => s
      else if complete c e then settleFuel ctx fuel (retireHead s ctx)
      else s

def settle (s : State) (ctx : CtxId) : State := if (s.ctx ctx).run = .running then settleFuel ctx 20 s else s

/-! ## What an engine may begin or go on with (R36, R37, R40, R45, R48) -/

/-- Elements [lo, hi) of an entry's operands and destinations: a unit begins once all of them stand (R40, R41, log entry 78). -/
def spanReady (older : List Entry) (e : Entry) (lo hi : Nat) : Bool :=
  operandReady older e e.srcA lo hi && operandReady older e e.srcB lo hi && operandReady older e e.srcC lo hi
    && e.dests.all (fun d => destReady older d.reg lo hi)

/-- The chaining of the element group at `i` of a lane group (R40, R419): scales are read, and written, one for a group. -/
def groupReady (older : List Entry) (e : Entry) (i : Nat) : Bool :=
  let lo := if (match e.instr with | .cvt42 .. | .segst .. => true | _ => false) then i / 16 * 16 else i
  let top := min e.len (i / 16 * 16 + 16)
  let hi := if e.dests.any (·.fmt = .tern5) then min e.len (top + 4) else top
  match e.instr, e.dests with
  | .cvt42 .., [d, d'] => operandReady older e e.srcA lo hi && destReady older d.reg lo hi && destReady older d'.reg (lo / 16) (lo / 16 + 1)
  | .cvts .., ds | .segst .., ds =>
    operandReady older e e.srcA lo hi && operandReady older e e.srcB (lo / 16) (lo / 16 + 1) && ds.all (fun d => destReady older d.reg lo hi)
  | _, _ => spanReady older e lo hi

/-- Whether a lane group may begin, or go on with, an entry (R36, R37). -/
def laneMayRun (c : Ctx) (older : List Entry) (e : Entry) : Bool :=
  older.all (fun p => (p.seq + c.slip.toNat + 1 > e.seq || lanesDone p) && (!p.realign || worked p) && (!e.realign || lanesDone p))

/-- An entry behind a held fault goes no further, but for what a resumed context owes (R45, R48). -/
def behindFault (c : Ctx) (older : List Entry) (e : Entry) (lane : Nat) : Bool :=
  older.any (fun p => p.held ≠ []) && !c.promise.any (fun p => p.lane = lane && p.seq = e.seq && owed c p)

/-- A lane group or engine that a held fault keeps from going on owes nothing. -/
def forgive (s : State) (ctx : CtxId) (lane : Nat) : State :=
  s.modCtx ctx (fun c => if c.window.any (fun e => e.held ≠ []) then { c with promise := c.promise.filter (·.lane ≠ lane) } else c)

/-! ## Element groups (R34, R44, R419) -/

def laneUnit (s : State) (ctx : CtxId) (e : Entry) (i : Nat) : UnitRes :=
  if isColMem e.instr then memUnit s ctx e i else arithUnit s ctx e i

/-- Instructions whose unit is a whole element group. -/
def blockUnit (i : Instr) : Bool :=
  match i with
  | .cvt42 .. | .segst .. => true
  | _ => false

def setNext (e : Entry) (g n : Nat) : Entry := { e with next := e.next.set g n }

/-- A fault met by a lane group: it stops at the element, or before the byte it was to write (R45, R419); a block that faults is
done again from its first element. -/
def holdLane (s : State) (ctx : CtxId) (seq g elem cause : Nat) (addr : Word) : State :=
  match (s.ctx ctx).window.find? (·.seq = seq) with
  | some e => hold s ctx (if blockUnit e.instr then setNext e g elem else e) g elem cause addr
  | none => s

/-- Lane group `g` goes on with an entry up to element `hi`; its index then stands at its next element group. -/
def runLane (ctx : CtxId) (seq g hi : Nat) : Nat → State → State
  | 0, s => s
  | fuel + 1, s =>
    match (s.ctx ctx).window.find? (·.seq = seq) with
    | none => s
    | some e =>
      let i := laneNext e g
      if i ≥ hi then setEntry s ctx (setNext e g (roundUp hi 16 + 48))
      else
        let tern := e.dests.any (·.fmt = .tern5)
        if tern && i % 5 ≠ 0 then runLane ctx seq g hi fuel (setEntry s ctx (setNext e g (i + 1)))
        else
          let i := if blockUnit e.instr then i / 16 * 16 else i
          match laneUnit s ctx e i with
          | .ok s =>
            let n := if blockUnit e.instr then hi else if tern then min (i + 5) hi else i + 1
            let s := clearReqs s ctx (seq + 1) (4096 * i) (4096 * n)
            match (s.ctx ctx).window.find? (·.seq = seq) with
            | none => s
            | some e => runLane ctx seq g hi fuel (setEntry s ctx (setNext e g n))
          | .fault elem cause addr s => holdLane s ctx seq g elem cause addr
          | .wait s' => keepRequests s s'

/-- Lane group `g` of a context does one element group of its oldest entry there. -/
def laneGroup (s : State) (ctx : CtxId) (g : Fin 4) : State :=
  let c := s.ctx ctx
  let k := doneCount c.window g.val
  match c.window[k]? with
  | none => s
  | some e =>
    let older := c.window.take k
    let i := laneNext e g.val
    if e.held.any (·.lane = g.val) then s
    else if (isScan e.instr && e.held ≠ []) || behindFault c older e g.val || !laneMayRun c older e || !groupReady older e i then
      forgive s ctx g.val
    else
      match prepare s ctx older e with
      | .wait s => forgive s ctx g.val
      | .fault cause addr s => hold s ctx e g.val 0 cause addr
      | .ok e s =>
        if rangeWaits s ctx older e then forgive s ctx g.val
        else
          let s := if polRel e.pol && isColMem e.instr then drainReleased s ctx else s
          runLane ctx e.seq g.val (min e.len (i / 16 * 16 + 16)) 40 s

/-- A context whose engines run: it is neither idle, frozen, halted nor stopping (R46, R336, R354). -/
def active (c : Ctx) : Bool := c.run == .running && !c.stopping

/-- The step ELEMENT_GROUP; a stopping context's lane groups still reach their boundary (R47). -/
def elementGroup (s : State) (ctx : CtxId) (g : Fin 4) : State :=
  if active (s.ctx ctx) || ((s.ctx ctx).run == .running && midGroup s ctx) then settle (laneGroup s ctx g) ctx else s

/-! ## Index batches (R47, R176) -/

/-- An entry that moves on by whole units of an engine: done, or a fault held by the engine; a unit that must wait leaves nothing
but its requests (R47). -/
def unitDone (old : State) (ctx : CtxId) (e : Entry) (r : UnitRes) (next : Entry → Entry) : State :=
  match r with
  | .ok s =>
    match (s.ctx ctx).window.find? (·.seq = e.seq) with
    | some e => clearReqs (setEntry s ctx (next e)) ctx (e.seq + 1) 0 (2 ^ 64)
    | none => s
  | .fault elem cause addr s => holdUnit s ctx e.seq 4 elem cause addr
  | .wait s => keepRequests old s

/-- The oldest entry of an engine that is not done, with the entries older than it. -/
def engineHead (c : Ctx) (g : Engine) : Option (Entry × List Entry) :=
  match c.window.find? (fun e => e.engine = g && !e.fin) with
  | some e => some (e, c.window.filter (fun p => p.seq < e.seq))
  | none => none

/-- Whether an engine must leave its head entry alone. -/
def engineStands (c : Ctx) (older : List Entry) (e : Entry) : Bool := e.held ≠ [] || behindFault c older e 4

/-- The step INDEX_BATCH: the oldest slice instruction does its next batch of 64 indices. -/
def indexBatch (s : State) (ctx : CtxId) : State :=
  let c := s.ctx ctx
  if !active c then s
  else
    match engineHead c .slice with
    | none => s
    | some (e, older) =>
      let n := min e.len (e.vs + 64)
      if engineStands c older e || !spanReady older e e.vs n then settle (forgive s ctx 4) ctx
      else
        match prepare s ctx older e with
        | .wait s => settle (forgive s ctx 4) ctx
        | .fault cause addr s => settle (hold s ctx e 4 0 cause addr) ctx
        | .ok e s =>
          if rangeWaits s ctx older e then settle (forgive s ctx 4) ctx
          else
            let s := if polRel e.pol then drainReleased s ctx else s
            settle (unitDone s ctx e (sliceBatch s ctx e) (fun e =>
              { e with vs := if n < e.len then n else e.vs, mask := [], fin := n ≥ e.len })) ctx

/-! ## Issue (R42, R43, R150, R153) -/

/-- A column-class instruction issues: it waits for its operands, for the lengths of `cols` and for a place in the window, is
refused where a check fails, and otherwise enters the window. -/
def issue (s : State) (cols : List Col) (srcs : List Src) (regs : List SReg) (q : Qual) (plan : Except Nat Plan)
    (more : State → Entry → Entry) : Out :=
  let c := s.me
  if c.window.length ≥ 8 || c.locks.length ≥ 16 || hazard c srcs regs || !cols.all (fun r => (capture s s.cur r).known)
      || !qualReady c q then .next s
  else
    match plan with
    | .error cause => .next (refuse s cause)
    | .ok p =>
      if p.dests.any (widthMoves c) then .next s
      else
        match listed s q (fun l s =>
            let e := more s (makeEntry s p l)
            .ok (settle (prepare (push s p e) s.cur c.window e).state s.cur)) with
        | .ok s => .next s
        | .fault elem cause addr s => .next (freezeHere s cause elem addr)
        | .wait s => .next s

/-- What an entry gets beside its plan, for most instructions nothing. -/
def plain (_ : State) (e : Entry) : Entry := e

end Sys2Proof.Machine
end

