-- ==== Sys2Proof/Machine/ColumnOps.lean ====
section
/-! DEFINITION. Issue of column arithmetic, tests, conversions and reductions: major ops 0x10 to 0x14 (R149-R171). -/

namespace Sys2Proof.Machine

/-! ## Issue checks -/

/-- F (R152): the format of the first column source that has no format of its own, else the destination's. -/
def opFmt (c : Ctx) (d : CReg) (xs : List ColSrc) : Fmt :=
  match colsOf xs with
  | r :: _ => colFmt c r
  | [] => colFmt c (.c d)

/-- Every column source has format F, and every scalar source a broadcast in F (R149, R152). -/
def sourcesOk (c : Ctx) (f : Fmt) (xs : List ColSrc) : Bool :=
  (colsOf xs).all (fun r => colFmt c r = f) && ((scsOf xs).isEmpty || hasBroadcast f)

/-- A destination register among the sources keeps their width (R151). -/
def overlapOk (c : Ctx) (ds : List (CReg × Fmt)) (rs : List Col) : Bool :=
  ds.all (fun d => !rs.contains (.c d.1) || sameWidth (colFmt c (.c d.1)) d.2)

/-- No destination is in stream mode (R155). -/
def destsOk (c : Ctx) (ds : List CReg) : Bool := ds.all (fun d => !(getCol c (.c d)).strm)

/-- An element-wise instruction: sources of format F, more sources of formats of their own, one destination of format `out F`. -/
def elementwise (i : Instr) (d : CReg) (out : Fmt → Fmt) (accept : Fmt → Bool) (xs : List ColSrc) (own : List (ColSrc × (Fmt → Bool)))
    (a b c : Operand) (q : Qual) (s : State) : Out :=
  let k := s.me
  let f := opFmt k d xs
  let all := xs ++ own.map (·.1)
  let ok := accept f && sourcesOk k f xs && own.all (fun o => (colsOf [o.1]).all (fun r => o.2 (colFmt k r)))
    && overlapOk k [(d, out f)] (colsOf all) && destsOk k [d]
  issue s [] (scsOf all) [] q
    (if ok then .ok (lanePlan i f (commonLen k [a, b, c]) [(.c d, out f)] a b c) else .error 0x05) plain

/-- Two sources of format F. -/
def vec2 (i : Instr) (d : CReg) (a b : ColSrc) (accept : Fmt → Bool) (out : Fmt → Fmt) (q : Qual) (s : State) : Out :=
  elementwise i d out accept [a, b] [] (operandOf s a) (operandOf s b) Operand.none q s

/-- One source of format F. -/
def vec1 (i : Instr) (d : CReg) (a : ColSrc) (accept : Fmt → Bool) (out : Fmt → Fmt) (q : Qual) (s : State) : Out :=
  elementwise i d out accept [a] [] (operandOf s a) Operand.none Operand.none q s

/-- Three sources of format F. -/
def vec3 (i : Instr) (d : CReg) (a b c : ColSrc) (accept : Fmt → Bool) (q : Qual) (s : State) : Out :=
  elementwise i d id accept [a, b, c] [] (operandOf s a) (operandOf s b) (operandOf s c) q s

/-- An instruction without column sources, whose length is an unsigned scalar (R158). -/
def produce (i : Instr) (d : CReg) (accept : Fmt → Bool) (n : Src) (srcs : List Src) (a b c : Operand) (s : State) : Out :=
  let k := s.me
  let f := colFmt k (.c d)
  let len := (readSrc k n).toNat
  issue s [] srcs [] none
    (if accept f && destsOk k [d] && decide (len < 2 ^ 32) then .ok (lanePlan i f len [(.c d, f)] a b c) else .error 0x05) plain

/-- The format code of a conversion names a format. -/
def convertOk (t : BitVec 10) (ok : Fmt → Bool) : Bool :=
  match Fmt.ofCode t.toNat with
  | some g => ok g
  | none => false

/-- A conversion to the format that a literal names (R162, R163). -/
def conversion (i : Instr) (d : CReg) (a : Col) (t : BitVec 10) (ok : Fmt → Fmt → Bool) (s : State) : Out :=
  vec1 i d (.col a) (fun f => convertOk t (ok f)) (fun _ => litFmt t) none s

/-- The formats of major op 0x14 (R167). -/
def redOk (f : Fmt) : Bool := isIntOrPos f || isFloat f || f == .bool1

/-- A reduction to a scalar (R168, R171). -/
def reduce (i : Instr) (d : SReg) (xs : List Col) (ok : Bool) (q : Qual) (s : State) : Out :=
  let a := xs.head?.elim Operand.none (colOperand s)
  let b := (xs.drop 1).head?.elim Operand.none (colOperand s)
  let f := (xs.head?.map (colFmt s.me)).getD .n8
  issue s [] [] [d] q
    (if ok then .ok { lanePlan i f (commonLen s.me [a, b]) [] a b Operand.none with sdest := some d } else .error 0x05) plain

/-- A reduction to a column of format D (R169): its length, where issue fixes it. -/
def reduceColumn (i : Instr) (d : CReg) (a : Col) (b : Option Col) (fixed : Bool) (s : State) : Out :=
  let k := s.me
  let f := colFmt k a
  let oa := colOperand s a
  let ob := b.elim Operand.none (colOperand s)
  let n := commonLen k [oa, ob]
  let cols := a :: b.toList
  let ok := redOk f && b.all (fun r => colFmt k r = .bool1) && overlapOk k [(d, redFmt f)] cols && destsOk k [d]
  issue s [] [] [] none
    (if ok then
       .ok { lanePlan i f n [] oa ob Operand.none with
             dests := [(.c d, redFmt f, if fixed then some n else if n = 0 then some 0 else none)] }
     else .error 0x05) plain


/-! ## 0x10 column integer (R157, R158) -/

/-- `vadd` (R157). -/
def execVadd (d : CReg) (a b : ColSrc) (sat : Bool) (q : Qual) (s : State) : Out :=
  vec2 (.vadd d a b sat q) d a b isIntOrPos id q s

/-- `vsub` (R157). -/
def execVsub (d : CReg) (a b : ColSrc) (sat : Bool) (q : Qual) (s : State) : Out :=
  vec2 (.vsub d a b sat q) d a b isIntOrPos id q s

/-- `vmul` (R157). -/
def execVmul (d : CReg) (a b : ColSrc) (sat : Bool) (q : Qual) (s : State) : Out :=
  vec2 (.vmul d a b sat q) d a b isIntOrPos id q s

/-- `vmulh` (R157). -/
def execVmulh (d : CReg) (a b : ColSrc) (q : Qual) (s : State) : Out :=
  vec2 (.vmulh d a b q) d a b isIntOrPos id q s

/-- `vmin` (R157). -/
def execVmin (d : CReg) (a b : ColSrc) (q : Qual) (s : State) : Out :=
  vec2 (.vmin d a b q) d a b isIntOrPos id q s

/-- `vmax` (R157). -/
def execVmax (d : CReg) (a b : ColSrc) (q : Qual) (s : State) : Out :=
  vec2 (.vmax d a b q) d a b isIntOrPos id q s

/-- `vand` (R157). -/
def execVand (d : CReg) (a b : ColSrc) (q : Qual) (s : State) : Out :=
  vec2 (.vand d a b q) d a b isIntOrPos id q s

/-- `vor` (R157). -/
def execVor (d : CReg) (a b : ColSrc) (q : Qual) (s : State) : Out :=
  vec2 (.vor d a b q) d a b isIntOrPos id q s

/-- `vxor` (R157). -/
def execVxor (d : CReg) (a b : ColSrc) (q : Qual) (s : State) : Out :=
  vec2 (.vxor d a b q) d a b isIntOrPos id q s

/-- `vshl` (R157). -/
def execVshl (d : CReg) (a b : ColSrc) (q : Qual) (s : State) : Out :=
  vec2 (.vshl d a b q) d a b isIntOrPos id q s

/-- `vshr` (R157). -/
def execVshr (d : CReg) (a b : ColSrc) (q : Qual) (s : State) : Out :=
  vec2 (.vshr d a b q) d a b isIntOrPos id q s

/-- `vsra` (R157). -/
def execVsra (d : CReg) (a b : ColSrc) (q : Qual) (s : State) : Out :=
  vec2 (.vsra d a b q) d a b isIntOrPos id q s

/-- `vabs` (R157). -/
def execVabs (d : CReg) (a : ColSrc) (sat : Bool) (q : Qual) (s : State) : Out :=
  vec1 (.vabs d a sat q) d a isIntOrPos id q s

/-- `vneg` (R157). -/
def execVneg (d : CReg) (a : ColSrc) (sat : Bool) (q : Qual) (s : State) : Out :=
  vec1 (.vneg d a sat q) d a isIntOrPos id q s

/-- `vpopc` (R157). -/
def execVpopc (d : CReg) (a : ColSrc) (q : Qual) (s : State) : Out :=
  vec1 (.vpopc d a q) d a isIntOrPos id q s

/-- `vclz` (R157). -/
def execVclz (d : CReg) (a : ColSrc) (q : Qual) (s : State) : Out :=
  vec1 (.vclz d a q) d a isIntOrPos id q s

/-- `vmov` (R157, R158): every format as a column, those with a broadcast as a scalar. -/
def execVmov (d : CReg) (a : ColSrc) (q : Qual) (s : State) : Out :=
  vec1 (.vmov d a q) d a (fun _ => true) id q s

/-- `vbcast` (R157, R158). -/
def execVbcast (d : CReg) (a b : Src) (s : State) : Out :=
  produce (.vbcast d a b) d hasBroadcast b [a, b] (scalarOperand s.me a) (scalarOperand s.me b) Operand.none s

/-- `viota` (R157, R158); one that finds its a or b operand still being written by an instruction in flight realigns (R37). -/
def execViota (d : CReg) (a b c : Src) (sat : Bool) (s : State) : Out :=
  if hazard s.me [a, b] [] then .next (s.setMe { s.me with awaited := true })
  else produce (.viota d a b c sat) d isIntOrPos c [a, b, c] (scalarOperand s.me a) (scalarOperand s.me b) (scalarOperand s.me c) s

/-- `vsel` (R157): c is bool1. -/
def execVsel (d : CReg) (a b : ColSrc) (c : Col) (q : Qual) (s : State) : Out :=
  elementwise (.vsel d a b c q) d id (fun _ => true) [a, b] [(.col c, fun f => f == .bool1)]
    (operandOf s a) (operandOf s b) (colOperand s c) q s

/-- `vmulw` (R157). -/
def execVmulw (d : CReg) (a b : ColSrc) (s : State) : Out :=
  vec2 (.vmulw d a b) d a b (fun f => [Fmt.i8, .i16, .i32, .n8, .n16, .n32].contains f) widerInt none s

/-- `vmad` (R157). -/
def execVmad (d : CReg) (a b c : ColSrc) (sat : Bool) (q : Qual) (s : State) : Out :=
  vec3 (.vmad d a b c sat q) d a b c isIntOrPos q s

/-! ## 0x11 column floating point (R159, R160) -/

/-- `fadd` (R159). -/
def execFadd (d : CReg) (a b : ColSrc) (m : Arith) (q : Qual) (s : State) : Out :=
  vec2 (.fadd d a b m q) d a b isFloat id q s

/-- `fsub` (R159). -/
def execFsub (d : CReg) (a b : ColSrc) (m : Arith) (q : Qual) (s : State) : Out :=
  vec2 (.fsub d a b m q) d a b isFloat id q s

/-- `fmul` (R159). -/
def execFmul (d : CReg) (a b : ColSrc) (m : Arith) (q : Qual) (s : State) : Out :=
  vec2 (.fmul d a b m q) d a b isFloat id q s

/-- `fmin` (R159). -/
def execFmin (d : CReg) (a b : ColSrc) (m : Arith) (q : Qual) (s : State) : Out :=
  vec2 (.fmin d a b m q) d a b isFloat id q s

/-- `fmax` (R159). -/
def execFmax (d : CReg) (a b : ColSrc) (m : Arith) (q : Qual) (s : State) : Out :=
  vec2 (.fmax d a b m q) d a b isFloat id q s

/-- `fdiv` (R159). -/
def execFdiv (d : CReg) (a b : ColSrc) (m : Arith) (q : Qual) (s : State) : Out :=
  vec2 (.fdiv d a b m q) d a b isFloat id q s

/-- `ffma` (R159). -/
def execFfma (d : CReg) (a b c : ColSrc) (m : Arith) (q : Qual) (s : State) : Out :=
  vec3 (.ffma d a b c m q) d a b c isFloat q s

/-- `fabs` (R159). -/
def execFabs (d : CReg) (a : ColSrc) (m : Arith) (q : Qual) (s : State) : Out :=
  vec1 (.fabs d a m q) d a isFloat id q s

/-- `fneg` (R159). -/
def execFneg (d : CReg) (a : ColSrc) (m : Arith) (q : Qual) (s : State) : Out :=
  vec1 (.fneg d a m q) d a isFloat id q s

/-- `fsqrt` (R159). -/
def execFsqrt (d : CReg) (a : ColSrc) (m : Arith) (q : Qual) (s : State) : Out :=
  vec1 (.fsqrt d a m q) d a isFloat id q s

/-- `fexp2` (R159). -/
def execFexp2 (d : CReg) (a : ColSrc) (m : Arith) (q : Qual) (s : State) : Out :=
  vec1 (.fexp2 d a m q) d a isFloat id q s

/-- `flog2` (R159). -/
def execFlog2 (d : CReg) (a : ColSrc) (m : Arith) (q : Qual) (s : State) : Out :=
  vec1 (.flog2 d a m q) d a isFloat id q s

/-- `fscl` (R159, R160): b keeps its own integer format. -/
def execFscl (d : CReg) (a b : ColSrc) (m : Arith) (q : Qual) (s : State) : Out :=
  elementwise (.fscl d a b m q) d id isFloat [a] [(b, isInteger)] (operandOf s a) (operandOf s b) Operand.none q s

/-! ## 0x12 tests (R161) -/

/-- The formats a comparison accepts: v256 and xacc with `eq` and `ne` only. -/
def testOk (cc : ColCond) (f : Fmt) : Bool :=
  if f = .tern5 || f = .ue8m0 then false else if f = .v256 || f = .xacc then cc == .eq || cc == .ne else true

/-- `vcmp.cc` (R161). -/
def execVcmp (d : CReg) (a b : ColSrc) (cc : ColCond) (s : State) : Out :=
  vec2 (.vcmp d a b cc) d a b (testOk cc) (fun _ => .bool1) none s

/-- `vnz` (R161). -/
def execVnz (d : CReg) (a : Col) (s : State) : Out :=
  vec1 (.vnz d a) d (.col a) (fun _ => true) (fun _ => .bool1) none s

/-- `vnan` (R161). -/
def execVnan (d : CReg) (a : Col) (s : State) : Out :=
  vec1 (.vnan d a) d (.col a) isFloat (fun _ => .bool1) none s

/-! ## 0x13 conversions (R162-R166) -/

/-- A conversion between integers takes no rounding and no flush (R63, R162). -/
def modOk (f : Fmt) (m : Arith) : Bool := isFloat f || (m.rnd == .rne && !m.ftz)

/-- `cvtn` (R162). -/
def execCvtn (d : CReg) (a : Col) (t : BitVec 10) (m : Arith) (s : State) : Out :=
  conversion (.cvtn d a t m) d a t (fun f g => widens g f && modOk f m) s

/-- `cvtw` (R162). -/
def execCvtw (d : CReg) (a : Col) (t : BitVec 10) (m : Arith) (s : State) : Out :=
  conversion (.cvtw d a t m) d a t (fun f g => widens f g && modOk f m) s

/-- `cvtif` (R163). -/
def execCvtif (d : CReg) (a : Col) (t : BitVec 10) (m : Arith) (s : State) : Out :=
  conversion (.cvtif d a t m) d a t (fun f g => isIntOrPos f && isWideFloat g) s

/-- `cvtfi` (R163). -/
def execCvtfi (d : CReg) (a : Col) (t : BitVec 10) (m : Arith) (s : State) : Out :=
  conversion (.cvtfi d a t m) d a t (fun f g => isWideFloat f && isInteger g) s

/-- `cvt42` (R164). -/
def execCvt42 (d : CReg) (a : Col) (m : Arith) (s : State) : Out :=
  let k := s.me
  let o := colOperand s a
  let n := commonLen k [o]
  let ok := colFmt k a = .f32 && overlapOk k [(d, .e2m1), (nextC d, .ue8m0)] [a] && destsOk k [d, nextC d]
  issue s [] [] [] none
    (if ok then
       .ok { lanePlan (.cvt42 d a m) .f32 n [] o Operand.none Operand.none with
             dests := [(.c d, .e2m1, some n), (.c (nextC d), .ue8m0, some (ceilDiv n 16))] }
     else .error 0x05) plain

/-- `cvts` (R165). -/
def execCvts (d : CReg) (a b : Col) (m : Arith) (s : State) : Out :=
  let k := s.me
  let oa := colOperand s a
  let ob := colOperand s b
  let n := min (lenOf oa.col) (16 * lenOf ob.col)
  let ok := isMini (colFmt k a) && colFmt k b = .ue8m0 && overlapOk k [(d, .f32)] [a, b] && destsOk k [d]
  issue s [] [] [] none
    (if ok then .ok (lanePlan (.cvts d a b m) (colFmt k a) n [(.c d, .f32)] oa ob Operand.none) else .error 0x05) plain

/-- `unpk3` (R166). -/
def execUnpk3 (d : CReg) (a : Col) (s : State) : Out :=
  vec1 (.unpk3 d a) d (.col a) (fun f => f == .tern5) (fun _ => .i8) none s

/-- `pk3` (R166). -/
def execPk3 (d : CReg) (a : Col) (s : State) : Out :=
  vec1 (.pk3 d a) d (.col a) (fun f => f == .i8) (fun _ => .tern5) none s

/-! ## 0x14 reductions (R167-R171) -/

/-- `red.sum` (R168). -/
def execRedSum (d : SReg) (a : Col) (m : Arith) (q : Qual) (s : State) : Out :=
  reduce (.redSum d a m q) d [a] (redOk (colFmt s.me a)) q s

/-- `red.min` (R168). -/
def execRedMin (d : SReg) (a : Col) (m : Arith) (q : Qual) (s : State) : Out :=
  reduce (.redMin d a m q) d [a] (redOk (colFmt s.me a)) q s

/-- `red.max` (R168). -/
def execRedMax (d : SReg) (a : Col) (m : Arith) (q : Qual) (s : State) : Out :=
  reduce (.redMax d a m q) d [a] (redOk (colFmt s.me a)) q s

/-- `red.cnt` (R168): every format. -/
def execRedCnt (d : SReg) (a : Col) (m : Arith) (q : Qual) (s : State) : Out :=
  reduce (.redCnt d a m q) d [a] true q s

/-- `red.dot` (R168). -/
def execRedDot (d : SReg) (a b : Col) (m : Arith) (q : Qual) (s : State) : Out :=
  let f := colFmt s.me a
  reduce (.redDot d a b m q) d [a, b] (redOk f && f != .bool1 && colFmt s.me b == f) q s

/-- `tdot` (R170). -/
def execTdot (d : SReg) (a b : Col) (sat : Bool) (s : State) : Out :=
  reduce (.tdot d a b sat) d [a, b] ((colFmt s.me a == .tern5 || colFmt s.me a == .i8) && colFmt s.me b == .i8) none s

/-- `scan.inc` (R169). -/
def execScanInc (d : CReg) (a : Col) (m : Arith) (s : State) : Out :=
  reduceColumn (.scanInc d a m) d a none true s

/-- `scan.exc` (R169). -/
def execScanExc (d : CReg) (a : Col) (m : Arith) (s : State) : Out :=
  reduceColumn (.scanExc d a m) d a none true s

/-- `segred` (R169). -/
def execSegred (d : CReg) (a b : Col) (m : Arith) (s : State) : Out :=
  reduceColumn (.segred d a b m) d a (some b) false s

end Sys2Proof.Machine
end

