-- ==== Sys2Proof/Machine/ColumnMem.lean ====
section
/-! DEFINITION. Issue of column memory and column management: major ops 0x18 and 0x19 (R172-R186). -/

namespace Sys2Proof.Machine

/-! ## 0x18 column memory -/

/-- Steps 1 and 2 of R173: what a column load or store refuses in its policy word. -/
def colPolBad (p : BitVec 32) (load : Bool) : Bool := polBad p || (if load then polRel p else polAcq p)

/-- The index formats of R172. -/
def indexFmt (f : Fmt) : Bool := f == .i32 || f == .i64 || f == .n32 || f == .n64 || f == .pos32

/-- A column memory plan. -/
def memPlan (i : Instr) (g : Engine) (f : Fmt) (n : Nat) (dests : List (Col × Fmt)) (a b c : Operand) (pol : BitVec 32) : Plan :=
  { lanePlan i f n dests a b c with engine := g, pol := pol }

/-- `ldc` (R172-R175). -/
def execLdc (d : CReg) (a b : Src) (pol : SReg) (q : Qual) (disp : BitVec 11) (s : State) : Out :=
  let k := s.me
  let f := colFmt k (.c d)
  let p := policyOf k pol
  let bad := colPolBad p true || !destsOk k [d] || (packed f && readSrc k b ≠ 1)
  issue s (if q.isSome then [.c d] else []) [a, b] [pol] q
    (if bad then .error 0x05
     else .ok (memPlan (.ldc d a b pol q disp) .lanes f k.vl.toNat [(.c d, f)] (scalarOperand k a) (scalarOperand k b) Operand.none p))
    plain

/-- `stc` (R172-R175): the data are c[d]. -/
def execStc (d : CReg) (a b : Src) (pol : SReg) (q : Qual) (disp : BitVec 11) (s : State) : Out :=
  let k := s.me
  let f := colFmt k (.c d)
  let p := policyOf k pol
  let data := colOperand s (.c d)
  let bad := colPolBad p false || (packed f && readSrc k b ≠ 1)
  issue s [.c d] [a, b] [pol] q
    (if bad then .error 0x05
     else .ok (memPlan (.stc d a b pol q disp) .lanes f (commonLen k [data]) [] (scalarOperand k a) (scalarOperand k b) data p))
    plain

/-- `gath` (R172, R176). -/
def execGath (d : CReg) (a : Src) (b : Col) (pol : SReg) (q : Qual) (disp : BitVec 11) (s : State) : Out :=
  let k := s.me
  let f := colFmt k (.c d)
  let p := policyOf k pol
  let idx := colOperand s b
  let bad := colPolBad p true || !destsOk k [d] || packed f || !indexFmt (colFmt k b) || !overlapOk k [(d, f)] [b]
  issue s (if q.isSome then [.c d, b] else [b]) [a] [pol] q
    (if bad then .error 0x05
     else .ok (memPlan (.gath d a b pol q disp) .slice f (commonLen k [idx]) [(.c d, f)] (scalarOperand k a) idx Operand.none p))
    plain

/-- `scat` (R172, R176). -/
def execScat (d : CReg) (a : Src) (b : Col) (pol : SReg) (q : Qual) (disp : BitVec 11) (s : State) : Out :=
  let k := s.me
  let f := colFmt k (.c d)
  let p := policyOf k pol
  let idx := colOperand s b
  let data := colOperand s (.c d)
  let bad := colPolBad p false || packed f || !indexFmt (colFmt k b)
  issue s [.c d, b] [a] [pol] q
    (if bad then .error 0x05
     else .ok (memPlan (.scat d a b pol q disp) .slice f (commonLen k [idx, data]) [] (scalarOperand k a) idx data p))
    plain

/-- The captured handle behind the 24 words that are read later, and DLN, by which `btld` sets its deadline (R179). -/
def withHandle (h : Handle) (s : State) (e : Entry) : Entry :=
  { e with table := List.replicate 24 0 ++ [h.w0, h.w1, h.w2, h.w3, BitVec.ofNat 64 s.me.dln.toNat] }

/-- The checks of a tensor access at issue (R178, R389): the handle's cause, if any, then the formats. -/
def tensorBad (h : Handle) (f : Fmt) : Option Nat :=
  if hKind h = 0 then some 0x0E
  else if hKind h = 3 then (if f = .v256 then none else some 0x05)
  else
    match Fmt.ofCode (hFmtCode h) with
    | some g => if packed g then some 0x05 else none
    | none => some 0x05

/-- `ldt` (R178, R389). A position column holds integers or pos32: the spec names no formats for it (log entry 84). The operand
formats are checked before the handle (log entry 84). -/
def execLdt (d : CReg) (h : HReg) (b : ColSrc) (pol : SReg) (s : State) : Out :=
  let k := s.me
  let f := colFmt k (.c d)
  let p := policyOf k pol
  let idx := operandOf s b
  let bad := colPolBad p true || !destsOk k [d] || packed f || !(colsOf [b]).all (fun r => isIntOrPos (colFmt k r))
    || !overlapOk k [(d, f)] (colsOf [b])
  issue s (colsOf [b]) (scsOf [b]) [pol] none
    (match (if bad then some 0x05 else tensorBad k.h[h] f) with
     | some cause => .error cause
     | none => .ok (memPlan (.ldt d h b pol) .lanes f (commonLen k [idx]) [(.c d, f)] Operand.none idx Operand.none p))
    (withHandle k.h[h])

/-- `stt` (R178, R389): with a scalar position, min(VL, LEN(c[d])) elements (log entry 36); formats as for `ldt` (log entry 84). -/
def execStt (d : CReg) (h : HReg) (b : ColSrc) (pol : SReg) (s : State) : Out :=
  let k := s.me
  let f := colFmt k (.c d)
  let p := policyOf k pol
  let idx := operandOf s b
  let data := colOperand s (.c d)
  let n := min (commonLen k [idx]) (commonLen k [data])
  let bad := colPolBad p false || packed f || !(colsOf [b]).all (fun r => isIntOrPos (colFmt k r))
  issue s (.c d :: colsOf [b]) (scsOf [b]) [pol] none
    (match (if bad then some 0x05 else tensorBad k.h[h] f) with
     | some cause => .error cause
     | none => .ok (memPlan (.stt d h b pol) .lanes f n [] Operand.none idx data p))
    (withHandle k.h[h])

/-- `btld` (R179, R377); its operand formats are checked before the handle (log entry 84). -/
def execBtld (d : CReg) (h : HReg) (b : Col) (pol : SReg) (s : State) : Out :=
  let k := s.me
  let p := policyOf k pol
  let idx := colOperand s b
  let g := colFmt k b
  let ds := [(d, Fmt.v256), (nextC d, Fmt.bool1)]
  let bad := colPolBad p true || !destsOk k [d, nextC d] || !(g == .pos32 || g == .n32 || g == .n64) || !overlapOk k ds [b]
  issue s [b] [] [pol] none
    (if bad then .error 0x05
     else if hKind k.h[h] ≠ 1 then .error 0x0E
     else .ok (memPlan (.btld d h b pol) .lanes .v256 (commonLen k [idx]) [(.c d, .v256), (.c (nextC d), .bool1)]
       Operand.none idx Operand.none p))
    (withHandle k.h[h])

/-- `segst` (R180): c[d] holds the data, c[d+1] the scales. -/
def execSegst (d : CReg) (a : Src) (pol : SReg) (disp : BitVec 11) (s : State) : Out :=
  let k := s.me
  let f := colFmt k (.c d)
  let p := policyOf k pol
  let data := colOperand s (.c d)
  let scales := colOperand s (.c (nextC d))
  let bad := colPolBad p false || !isMini f || colFmt k (.c (nextC d)) ≠ .ue8m0
  issue s [.c d, .c (nextC d)] [a] [pol] none
    (if bad then .error 0x05
     else .ok (memPlan (.segst d a pol disp) .lanes f (commonLen k [data]) [] { data with val := readSrc k a } scales Operand.none p))
    plain

/-- `catom.op.wN` (R181). -/
def execCatom (d : CReg) (a : Src) (b : Col) (pol : SReg) (w32 : Bool) (op : Fin 8) (s : State) : Out :=
  let k := s.me
  let f := colFmt k (.c d)
  let p := policyOf k pol
  let idx := colOperand s b
  let data := colOperand s (.c d)
  let width := if w32 then f == .i32 || f == .n32 else f == .i64 || f == .n64
  let bad := polBad p || !width || !indexFmt (colFmt k b)
  issue s [.c d, b] [a] [pol] none
    (if bad then .error 0x05
     else .ok (memPlan (.catom d a b pol w32 op) .slice f (commonLen k [idx, data]) [] (scalarOperand k a) idx data p))
    plain

/-! ## 0x19 column management (R183-R186) -/

/-- A management instruction completes as it issues, where the window has a place (R43): it counts, takes a number, and issue
moves on. -/
def managed (s : State) (c : Ctx) : Out := .next (s.setMe (retireWord c))

/-- The window holds its most (R43). -/
def windowFull (c : Ctx) : Bool := c.window.length ≥ 8

/-- Every in-flight use of the target has completed (R183). -/
def targetFree (c : Ctx) (r : Col) : Bool := !inFlight c r

/-- `calloc.fmt` (R184). -/
def execCalloc (d : Col) (a : Src) (fmt : Fmt) (s : State) : Out :=
  let c := s.me
  let n := (readSrc c a).toNat
  let list : Bool := match d with | .p _ => true | .c _ => false
  if windowFull c || hazard c [a] [] || !targetFree c d then .next s
  else if n > 2 ^ 24 - 1 || (list && fmt != .pos32) || (getCol c d).strm then .next (refuse s 0x05)
  else
    let s := s.setMe (releaseCol c d fmt)
    let bytes := windowSize fmt n
    match (if n = 0 then none else placeWindow s (coreOf s.cur) bytes) with
    | some u => managed s.draw (setCol s.me d { Column.empty fmt with base := u, cap := n })
    | none => managed s.draw s.me

/-- `cfree` (R185). -/
def execCfree (d : Col) (s : State) : Out :=
  let c := s.me
  if windowFull c || !targetFree c d then .next s
  else if (getCol c d).strm then .next (refuse s 0x05)
  else managed s (releaseCol c d (emptyFmt d))

/-- `cfmt.fmt` (R185). -/
def execCfmt (d : CReg) (fmt : Fmt) (s : State) : Out :=
  let c := s.me
  let x := getCol c (.c d)
  if windowFull c || !targetFree c (.c d) then .next s
  else if x.strm || !(sameWidth x.fmt fmt || x.len = 0) then .next (refuse s 0x05)
  else managed s (setFmt c (.c d) fmt)

/-- The strip that `len` and `cdesc` report is full, or the pattern has ended (R246). -/
def stripReady (s : State) (x : Column) : Bool :=
  match streamOf s s.cur x with
  | some st => (st.start = st.next && bufMatches true (getBuf s (coreOf s.cur) x.buf).st) || st.next ≥ st.total
  | none => true

/-- LEN of a column as a reader of it sees it, once every earlier producer has yielded (R32, R246). -/
def readLen (s : State) (r : Col) : Option Nat :=
  let c := s.me
  let x := getCol c r
  if windowFull c || !allYielded c then none
  else if x.strm then (if stripReady s x then some (stripLen s s.cur x) else none)
  else some x.len

/-- `len` (R186). -/
def execLen (d : SReg) (a : Col) (s : State) : Out :=
  let c := s.me
  match readLen s a with
  | none => .next s
  | some n => if hazard c [] [d] then .next s else managed s (setS c d (BitVec.ofNat 64 n))

/-- `trunc` (R186). -/
def execTrunc (d : Col) (a : Src) (s : State) : Out :=
  let c := s.me
  if windowFull c || hazard c [a] [] || !targetFree c d || !allYielded c then .next s
  else if (getCol c d).strm then .next (refuse s 0x05)
  else
    let s := yieldTo s s.cur d (min (getCol c d).len (readSrc c a).toNat)
    managed s s.me

/-- `setvl` (R186). -/
def execSetvl (a : ColSrc) (s : State) : Out :=
  let c := s.me
  match a with
  | .sc x => if windowFull c || hazard c [x] [] then .next s else managed s { c with vl := BitVec.ofNat 32 (min (readSrc c x).toNat (2 ^ 32 - 1)) }
  | .col r =>
    match readLen s r with
    | none => .next s
    | some n => managed s { c with vl := BitVec.ofNat 32 n }

/-- A descriptor with the length a reader sees. -/
def seenColumn (s : State) (r : Col) : Column := { getCol s.me r with len := (readLen s r).getD 0 }

/-- `cdesc` (R186): an n64 column of the descriptor's two words, which the entry captures. -/
def execCdesc (d : CReg) (a : Col) (s : State) : Out :=
  let c := s.me
  let x := seenColumn s a
  let ok := destsOk c [d] && overlapOk c [(d, .n64)] [a]
  if (readLen s a).isNone then .next s
  else
    issue s [] [] [] none
      (if ok then
         .ok (lanePlan (.cdesc d a) .n64 2 [(.c d, .n64)] { col := none, val := descWord0 x (workOf c a) } { col := none, val := descWord1 x }
           Operand.none)
       else .error 0x05) plain

end Sys2Proof.Machine
end

