-- ==== Sys2Proof/Machine/Relational.lean ====
section
/-! DEFINITION. The relational unit: issue of major ops 0x20 to 0x24, and the step RELATIONAL_GROUP_COMMIT that absorbs,
streams and emits (R187-R216). -/

namespace Sys2Proof.Machine

/-! ## Phases and lengths (R191, R192) -/

/-- Elements of a and of b that are absorbed before any output is committed. -/
def absorbLens (e : Entry) : Nat × Nat :=
  match e.instr with
  | .pand .. | .por .. | .pdiff .. => (lenOf e.srcA, lenOf e.srcB)
  | .joinH .. | .joinM .. | .semi .. | .anti .. => (0, lenOf e.srcB)
  | .aggSum .. | .aggMin .. | .aggMax .. | .aggCnt .. => (e.len, e.len)
  | .pcol .. | .sort .. | .sortd .. | .topk .. | .srch .. => (lenOf e.srcA, 0)
  | _ => (0, 0)

/-- An aggregate absorbs its values and ids together. -/
def absorbsTogether (i : Instr) : Bool :=
  match i with
  | .aggSum .. | .aggMin .. | .aggMax .. | .aggCnt .. => true
  | _ => false

/-- Elements of the streamed source. -/
def streamLen (e : Entry) : Nat :=
  match e.instr with
  | .sel .. | .selr .. | .selb .. | .prjp .. | .prj .. | .plc .. | .joinH .. | .joinM .. | .semi .. | .anti .. | .grp ..
  | .srch .. | .uniq .. => e.len
  | _ => 0

/-! ## Results formed from absorbed sources -/

/-- A value put into an ascending list without repeats. -/
def insertUniq (x : Nat) : List Nat → List Nat
  | [] => [x]
  | y :: ys => if x = y then y :: ys else if x < y then x :: y :: ys else y :: insertUniq x ys

def ascending (xs : List Nat) : List Nat := xs.foldr insertUniq []

/-- Position `i` put before the first position whose key must follow it. -/
def insertKey (before : Nat → Nat → Bool) (i : Nat) : List Nat → List Nat
  | [] => [i]
  | j :: js => if before i j then i :: j :: js else j :: insertKey before i js

/-- The stable order of positions by key (R213). -/
def keyOrder (f : Fmt) (desc : Bool) (keys : List Nat) : List Nat :=
  let key (i : Nat) : Nat := keys[i]?.getD 0
  let before (i j : Nat) : Bool := if desc then keyLess f (key j) (key i) else keyLess f (key i) (key j)
  (List.range keys.length).foldl (fun acc i => insertKey before i acc) []

/-- The values of one group (R212). -/
def groupOf (e : Entry) (k : Nat) : List Nat := ((e.absA.zip e.absB).filter (fun p => p.2 = k)).map (·.1)

/-- How many outputs are emitted after the sources are read in full, and output `k` of them. -/
def emitted (e : Entry) : Nat × (Nat → Nat) :=
  let ofList (l : List Nat) : Nat × (Nat → Nat) := (l.length, fun k => l[k]?.getD 0)
  match e.instr with
  | .pand .. => ofList (ascending (e.absA.filter e.absB.contains))
  | .por .. => ofList (ascending (e.absA ++ e.absB))
  | .pdiff .. => ofList (ascending (e.absA.filter (fun x => !e.absB.contains x)))
  | .pcol .. => (e.opB.toNat, fun k => (e.absA.contains k).toNat)
  | .anti .. => ofList e.late
  | .aggSum _ _ _ _ m => (e.opC.toNat, fun k => sumOf e.fmt m (groupOf e k))
  | .aggMin _ _ _ _ m => (e.opC.toNat, fun k => extreme e.fmt m false (groupOf e k) % 2 ^ fmtBits e.fmt)
  | .aggMax _ _ _ _ m => (e.opC.toNat, fun k => extreme e.fmt m true (groupOf e k) % 2 ^ fmtBits e.fmt)
  | .aggCnt .. => (e.opC.toNat, fun k => ((groupOf e k).filter (nonzero e.fmt)).length)
  | .sort .. => ofList (keyOrder e.fmt false e.absA)
  | .sortd .. => ofList (keyOrder e.fmt true e.absA)
  | .topk .. => ofList ((keyOrder e.fmt true e.absA).take e.opB.toNat)
  | _ => (0, fun _ => 0)

/-! ## Working state (R193, R194) -/

/-- Bytes of working state once `hi` elements of the absorbed source are in; `hi` is its length from then on. -/
def workBytes (e : Entry) (hi : Nat) : Nat :=
  let w := ceilDiv (fmtBits e.fmt) 8
  match e.instr with
  | .joinH .. | .semi .. | .anti .. => (8 + w) * hi
  | .grp .. | .uniq .. => (8 + w) * (e.absB.length + 16)
  | .aggSum .. => (if isFloat e.fmt then 48 else 16) * e.opC.toNat
  | .aggMin .. | .aggMax .. | .aggCnt .. => 16 * e.opC.toNat
  | .sort .. | .sortd .. => (8 + w) * hi
  | .topk .. => (8 + w) * min e.opB.toNat hi
  | .pand .. | .por .. | .pdiff .. => 4 * hi
  | .pcol .. => ceilDiv e.opB.toNat 8
  | _ => 0

/-- Working extents of an entry raised to `need`. -/
def growWork (ctx : CtxId) (seq need : Nat) : Nat → State → Acc Unit
  | 0, s => .ok () s
  | fuel + 1, s =>
    match (s.ctx ctx).window.find? (·.seq = seq) with
    | none => .ok () s
    | some e =>
      if e.work.length ≥ need then .ok () s
      else
        match takeExtent s ctx with
        | none => .fault 0x07 (nextExtentAddr (s.ctx ctx)) s
        | some (x, s) => growWork ctx seq need fuel (setEntry s ctx { e with work := e.work ++ [x] })

/-- Working extents accessed in the arena, each whole (R29, R193, log entry 86). -/
def touchWork (ctx : CtxId) (write : Bool) : List Nat → State → Acc Unit
  | [], s => .ok () s
  | x :: xs, s =>
    (arenaRuns ctx { Column.empty .n8 with extents := [x] } write 4096 0 4096 s).bind fun _ s => touchWork ctx write xs s

/-- Room for working state beyond the 64 KiB of the working store, which a group reads, and writes where it is new. -/
def workRoom (s : State) (ctx : CtxId) (e : Entry) (hi : Nat) : Acc Unit :=
  let need := ceilDiv (workBytes e hi - 65536) 4096
  (touchWork ctx false e.work s).bind fun _ s =>
    (growWork ctx e.seq need (need + 1) s).bind fun _ s =>
      touchWork ctx true ((((s.ctx ctx).window.find? (·.seq = e.seq)).getD e).work.drop e.work.length) s

/-! ## Committing outputs -/

/-- A run of outputs for a destination: its index among the destinations, where it begins, its values. -/
structure Outs where
  dest  : Nat
  start : Nat
  vals  : List Nat
deriving DecidableEq, Repr

/-- Elements of destinations whose arena bytes are to be written, each named as a fault on it names it. -/
abbrev Targets := List (Nat × Dest × Nat)

/-- The lowest fault that the arena writes of a group meet (R29, R195); nothing of the group is written then. -/
def checkTargets (ctx : CtxId) (s0 : State) : Targets → Option (Nat × Nat × Word) → State → UnitRes
  | [], none, s => .ok s
  | [], some (i, cause, addr), _ => .fault i cause addr s0
  | (name, d, i) :: ts, best, s =>
    match arenaCheck s ctx (getCol (s.ctx ctx) d.reg) d.fmt i 1 true with
    | .ok _ s => checkTargets ctx s0 ts best s
    | .wait s => .wait s
    | .fault cause addr s =>
      checkTargets ctx s0 ts (match best with | some b => if name < b.1 then some (name, cause, addr) else best | none => some (name, cause, addr)) s

/-- The destination of a run of outputs. -/
def outDest (e : Entry) (o : Outs) : Dest := (e.dests[o.dest]?).getD (destOf e)

/-- Each of a list in turn, as long as it is done. -/
def eachOk {α : Type} (g : α → State → UnitRes) : List α → State → UnitRes
  | [], s => .ok s
  | x :: xs, s => match g x s with | .ok s => eachOk g xs s | r => r

/-- The outputs of a group committed: extents for every run first, then every fault of their writes, so that nothing of the group
is written if one is met (R194, R195); then the elements. They wait for what older entries still read or write there (R40). -/
def commitOuts (s : State) (ctx : CtxId) (e : Entry) (outs : List Outs) : UnitRes :=
  let older := (s.ctx ctx).window.filter (fun p => p.seq < e.seq)
  if outs.any (fun o => o.start + o.vals.length > 2 ^ 32 - 1) then
    UnitRes.of (α := Unit) (2 ^ 32 - 1) (openFault s 0x07) fun _ s => .ok s
  else if !outs.all (fun o => destReady older (outDest e o).reg o.start (o.start + o.vals.length)) then .wait s
  else
    let room (o : Outs) (s : State) : UnitRes :=
      UnitRes.of e.oc (acquire s ctx (outDest e o).reg (outDest e o).fmt (o.start + o.vals.length)) fun _ s => .ok s
    let put (o : Outs) (s : State) : UnitRes :=
      UnitRes.of o.start (writeElems ctx (outDest e o).reg (outDest e o).fmt o.start o.vals s) fun _ s => .ok s
    let targets : Targets := outs.flatMap (fun o => (List.range o.vals.length).map (fun k => (o.start + k, outDest e o, o.start + k)))
    match eachOk room outs s with
    | .ok s =>
      match checkTargets ctx s targets none s with
      | .ok s => eachOk put outs s
      | r => r
    | r => r

/-- One placement of `plc` (R205): zeros up to a position at or above L, then the element. -/
def placeOne (ctx : CtxId) (d : Dest) (p x : Nat) (s : State) : Acc Nat :=
  let fill := if d.fmt = .tern5 then 1 else 0
  if p < d.oldLen then (patchElem s ctx d.reg d.fmt p x).bind fun _ s => .ok d.oldLen s
  else (writeElems ctx d.reg d.fmt d.oldLen (List.replicate (p - d.oldLen) fill ++ [x]) s).bind fun _ s => .ok (p + 1) s

/-- The placements of a group in order; the unused part of the last byte is zero (R53). -/
def placeAll (ctx : CtxId) : Dest → List (Nat × Nat) → State → Acc Nat
  | d, [], s => .ok d.oldLen (clearTail s ctx d.reg d.fmt d.oldLen)
  | d, (p, x) :: ps, s => (placeOne ctx d p x s).bind fun l s => placeAll ctx { d with oldLen := l } ps s

/-- The arena bytes beyond the window that placements write, each named by its input element from `i`. -/
def placeTargets (cap : Nat) (d : Dest) : Nat → List (Nat × Nat) → Targets
  | _, [] => []
  | i, (p, _) :: ps =>
    let lo := max cap (if p < d.oldLen then p else d.oldLen)
    (List.range (p + 1 - lo)).map (fun k => (i, d, lo + k)) ++ placeTargets cap { d with oldLen := max d.oldLen (p + 1) } (i + 1) ps

/-- Pairs of position and element of `plc`, element by element, up to the first that cannot be placed (R205). -/
def readPairs (ctx : CtxId) (e : Entry) (a b : ColOperand) : Nat → Nat → State → List (Nat × Nat) × UnitRes
  | 0, _, s => ([], .ok s)
  | n + 1, i, s =>
    let one : Acc (Nat × Nat) := (sourceElem s ctx e b i).bind fun p s =>
      if p ≥ 2 ^ 32 - 1 then .ok (p, 0) s else (sourceElem s ctx e a i).bind fun x s => .ok (p, x) s
    match one with
    | .ok q s =>
      if q.1 ≥ 2 ^ 32 - 1 then ([], UnitRes.of (α := Unit) (2 ^ 32 - 1) (openFault s 0x07) fun _ s => .ok s)
      else let r := readPairs ctx e a b n (i + 1) s; (q :: r.1, r.2)
    | .fault cause addr s => ([], .fault i cause addr s)
    | .wait s => ([], .wait s)

/-- One group of `plc`: what its elements below the first fault write is checked first, so that the lowest fault is taken, and a
group with a fault writes nothing (R194, R195). -/
def placeGroup (s : State) (ctx : CtxId) (e : Entry) (a b : ColOperand) (lo hi : Nat) : UnitRes :=
  let d := destOf e
  let older := (s.ctx ctx).window.filter (fun p => p.seq < e.seq)
  if older.any (fun p => (entryWrites p d.reg || entryReads p d.reg) && !worked p) then .wait s
  else
    let r := readPairs ctx e a b (hi - lo) lo s
    let rest (s1 : State) : UnitRes :=
      let top := r.1.foldl (fun m q => max m (q.1 + 1)) d.oldLen
      UnitRes.of e.oc (acquire s1 ctx d.reg d.fmt top) fun _ s =>
        match checkTargets ctx s (placeTargets (getCol (s.ctx ctx) d.reg).cap d lo r.1) none s with
        | .ok s =>
          (match r.2 with
           | .ok _ => UnitRes.of e.oc (placeAll ctx d r.1 s) fun l s =>
               .ok (setEntry s ctx { e with oc := e.oc + (hi - lo), vs := hi, dests := [{ d with oldLen := l }] })
           | r => r)
        | r => r
    match r.2 with
    | .ok s | .fault _ _ _ s => rest s
    | .wait s => .wait s

/-! ## The three phases -/

/-- The entry after its last unit: final lengths of its destinations (R191). -/
def relationalEnd (e : Entry) : Entry :=
  let second := match e.instr with
    | .anti .. => e.late.length
    | .grp .. => e.absB.length
    | _ => e.oc
  let first := match e.instr with
    | .plc .. => (destOf e).oldLen
    | _ => e.oc
  { e with fin := true, dests := match e.dests with
      | [d] => [{ d with len := some first }]
      | [d, d'] => [{ d with len := some first }, { d' with len := some second }]
      | ds => ds }

/-- The phase that an entry stands in once every source it absorbs, or streams, is done. -/
def phaseStep (e : Entry) : Entry :=
  let n := absorbLens e
  let absorbed := e.phase != .absorb || (e.absA.length ≥ n.1 && e.absB.length ≥ n.2)
  if !absorbed then e
  else
    let e := if e.phase = .absorb then { e with phase := .stream, vs := 0 } else e
    let e := if e.phase = .stream && e.vs ≥ streamLen e then
        { e with phase := .emit, vs := if n.2 ≠ 0 then n.2 else n.1 } else e
    if e.phase = .emit then
      let written := match e.instr with | .anti .. => e.next.headD 0 | _ => e.oc
      if written ≥ (emitted e).1 then relationalEnd e else e
    else e

/-- A source element out of its ascending place (R208, R215): the fault address says in which source. `last` holds the source's
elements before the group, or the last of them, for the register may have been overwritten there. -/
def sortedElem (s : State) (ctx : CtxId) (e : Entry) (o : ColOperand) (which : Word) (lo : Nat) (last : List Nat) (i : Nat) : Acc Nat :=
  (sourceElem s ctx e o i).bind fun x s =>
    if i = 0 then .ok x s
    else (if i = lo then .ok (last.getLastD 0) s else sourceElem s ctx e o (i - 1)).bind fun y s =>
      if keyLess o.fmt x y then .fault 0x06 which s else .ok x s

/-- One element of an absorbed source. -/
def absorbElem (s : State) (ctx : CtxId) (e : Entry) (second : Bool) (i : Nat) : Acc Nat :=
  match e.instr, (if second then e.srcB else e.srcA) with
  | .joinM .., some o => sortedElem s ctx e o 1 e.absB.length e.absB i
  | .srch .., some o => sortedElem s ctx e o 0 e.absA.length e.absA i
  | _, some o => sourceElem s ctx e o i
  | _, none => .wait s

/-- One element group absorbed. -/
def absorbUnit (s : State) (ctx : CtxId) (e : Entry) : UnitRes :=
  let n := absorbLens e
  let second := e.absA.length ≥ n.1
  let lo := if second then e.absB.length else e.absA.length
  let hi := min (lo + 16) (if second then n.2 else n.1)
  let held := match e.instr with | .pand .. | .por .. | .pdiff .. => if second then n.1 + hi else hi | _ => hi
  UnitRes.of lo (workRoom s ctx e held) fun _ s =>
    let e := ((s.ctx ctx).window.find? (·.seq = e.seq)).getD e
    if absorbsTogether e.instr then
      collect (fun i s =>
          (absorbElem s ctx e true i).bind fun g s =>
            if g ≥ e.opC.toNat then openFault s 0x06
            else (absorbElem s ctx e false i).bind fun x s => .ok (g * 2 ^ 4096 + x) s)
        (hi - lo) lo s fun xs s =>
        .ok (setEntry s ctx { e with absA := e.absA ++ xs.map (· % 2 ^ 4096), absB := e.absB ++ xs.map (· / 2 ^ 4096), vs := hi })
    else
      collect (fun i s => absorbElem s ctx e second i) (hi - lo) lo s fun xs s =>
        .ok (setEntry s ctx (if second then { e with absB := e.absB ++ xs, vs := hi }
          else { e with absA := e.absA ++ xs, vs := if hi = n.1 && n.2 ≠ 0 then 0 else hi }))

/-- Whether a selection takes position `i` (R198-R201). An illegal byte is named by the listed element (log entry 83). -/
def selects (s : State) (ctx : CtxId) (e : Entry) (i : Nat) : Acc Nat :=
  if !isListed e i then .ok 0 s
  else
    match e.instr with
    | .sel _ a b cc _ =>
      (elemA s ctx e a i).bind fun x s => (elemB s ctx e b i).bind fun y s => .ok (elemCond cc e.fmt x y).toNat s
    | .selr _ a b c _ =>
      (elemA s ctx e a i).bind fun x s => (elemB s ctx e b i).bind fun y s => (elemC s ctx e c i).bind fun z s =>
        .ok (elemCond .le e.fmt y x && elemCond .lt e.fmt x z).toNat s
    | .selb _ a _ => (elemA s ctx e (.col a) i).bind fun x s => .ok (nonzero e.fmt x).toNat s
    | _ => .wait s

/-- An element of a at the position that b lists (R203, R204). An illegal byte of a is named by the output (log entry 83). -/
def projected (s : State) (ctx : CtxId) (e : Entry) (i : Nat) : Acc Nat :=
  match e.srcA, e.srcB with
  | some a, some b =>
    (sourceElem s ctx e b i).bind fun p s => if p ≥ a.len then openFault s 0x06 else sourceElem s ctx e a p
  | _, _ => .wait s

/-- The build positions that a probe key matches, ascending. -/
def matched (e : Entry) (x : Nat) : List Nat :=
  (List.range e.absB.length).filter (fun j => keyMatch e.fmt x (e.absB[j]?.getD 0))

/-- Group ids of keys in order, with the list of first keys as it grows (R211). -/
def groupKeys (f : Fmt) : List Nat → List Nat → List Nat × List Nat
  | firsts, [] => ([], firsts)
  | firsts, x :: xs =>
    match firsts.findIdx? (fun k => keyEq f k x) with
    | some g => let r := groupKeys f firsts xs; (g :: r.1, r.2)
    | none => let r := groupKeys f (firsts ++ [x]) xs; (firsts.length :: r.1, r.2)

/-- One element group streamed, its outputs committed together. -/
def streamUnit (s : State) (ctx : CtxId) (e : Entry) : UnitRes :=
  let lo := e.vs
  let hi := min (lo + 16) e.len
  let n := hi - lo
  UnitRes.of e.oc (workRoom s ctx e (absorbLens e).2) fun _ s =>
    let e := ((s.ctx ctx).window.find? (·.seq = e.seq)).getD e
    let commit (outs : List Outs) (count : Nat) (upd : Entry → Entry) (s : State) : UnitRes :=
      match commitOuts s ctx e outs with
      | .ok s => .ok (setEntry s ctx (upd { e with oc := e.oc + count, vs := hi }))
      | r => r
    let one (vals : List Nat) (s : State) : UnitRes := commit [⟨0, e.oc, vals⟩] vals.length id s
    let two (ps : List (Nat × Nat)) (s : State) : UnitRes :=
      commit [⟨0, e.oc, ps.map (·.1)⟩, ⟨1, e.oc, ps.map (·.2)⟩] ps.length id s
    match e.instr with
    | .sel .. | .selr .. | .selb .. =>
      collect (fun i s => selects s ctx e i) n lo s fun bs s =>
        one (((List.range n).filter (fun k => bs[k]?.getD 0 = 1)).map (· + lo)) s
    | .prjp .. | .prj .. => collect (fun i s => projected s ctx e i) n lo s one
    | .plc .. =>
      match e.srcA, e.srcB with
      | some a, some b =>
        placeGroup s ctx e a b lo hi
      | _, _ => .wait s
    | .joinH .. | .joinM .. | .semi .. | .anti .. =>
      match e.srcA with
      | none => .wait s
      | some a =>
        collect (fun i s => match e.instr with | .joinM .. => sortedElem s ctx e a 0 lo e.absA i | _ => sourceElem s ctx e a i) n lo s
          fun xs s =>
            let rows := (List.range n).map (fun k => (lo + k, matched e (xs[k]?.getD 0)))
            match e.instr with
            | .semi .. => two (rows.filterMap (fun r => r.2.head?.map (fun j => (r.1, j)))) s
            | .anti .. =>
              let hit := rows.flatMap (·.2)
              let vals := (rows.filter (fun r => r.2 = [])).map (·.1)
              commit [⟨0, e.oc, vals⟩] vals.length (fun e => { e with late := e.late.filter (fun j => !hit.contains j) }) s
            | .joinM .. =>
              let ps := rows.flatMap (fun r => r.2.map (fun j => (r.1, j)))
              -- the last key streamed stays, to check the order of the next (R208)
              commit [⟨0, e.oc, ps.map (·.1)⟩, ⟨1, e.oc, ps.map (·.2)⟩] ps.length (fun e => { e with absA := [xs.getLastD 0] }) s
            | _ => two (rows.flatMap (fun r => r.2.map (fun j => (r.1, j)))) s
    | .grp .. =>
      match e.srcA with
      | none => .wait s
      | some a =>
        collect (fun i s => sourceElem s ctx e a i) n lo s fun xs s =>
          let r := groupKeys e.fmt e.absB xs
          commit [⟨0, e.oc, r.1⟩, ⟨1, e.absB.length, r.2.drop e.absB.length⟩] n (fun e => { e with absB := r.2 }) s
    | .uniq .. =>
      match e.srcA with
      | none => .wait s
      | some a =>
        collect (fun i s => sourceElem s ctx e a i) n lo s fun xs s =>
          let r := groupKeys e.fmt e.absB xs
          let new := (List.range n).filter (fun k => r.1[k]?.getD 0 ≥ e.absB.length
            && !(List.range k).any (fun j => r.1[j]? = r.1[k]?))
          commit [⟨0, e.oc, new.map (· + lo)⟩] new.length (fun e => { e with absB := r.2 }) s
    | .srch _ _ b =>
      collect (fun i s => (elemB s ctx e b i).bind fun q s => .ok ((e.absA.filter (fun x => keyLess e.fmt x q)).length) s) n lo s one
    | _ => .wait s

/-- Sixteen outputs emitted. -/
def emitUnit (s : State) (ctx : CtxId) (e : Entry) : UnitRes :=
  let r := emitted e
  match e.instr with
  | .anti .. =>
    let at_ := e.next.headD 0
    let vals := (List.range (min 16 (r.1 - at_))).map (fun k => r.2 (at_ + k))
    match commitOuts s ctx e [⟨1, at_, vals⟩] with
    | .ok s => .ok (setEntry s ctx { e with next := e.next.set 0 (at_ + vals.length) })
    | r => r
  | _ =>
    let vals := (List.range (min 16 (r.1 - e.oc))).map (fun k => r.2 (e.oc + k))
    -- R194 acquires working state before the first unit; an aggregate or `pcol` may have absorbed nothing
    UnitRes.of e.oc (workRoom s ctx e (match e.instr with
        | .pand .. | .por .. | .pdiff .. => (absorbLens e).1 + (absorbLens e).2
        | _ => (absorbLens e).1)) fun _ s =>
      let e := ((s.ctx ctx).window.find? (·.seq = e.seq)).getD e
      match commitOuts s ctx e [⟨0, e.oc, vals⟩] with
      | .ok s => .ok (setEntry s ctx { e with oc := e.oc + vals.length })
      | r => r

/-- One unit of a relational instruction, in its phase. -/
def relationalUnit (s : State) (ctx : CtxId) (e : Entry) : UnitRes :=
  match e.phase with
  | .absorb => absorbUnit s ctx e
  | .stream => streamUnit s ctx e
  | .emit => emitUnit s ctx e

/-- The elements of sources that the next group reads are there (R40, R41); a source read at positions is needed whole. -/
def groupSources (older : List Entry) (e : Entry) : Bool :=
  let n := absorbLens e
  let whole (o : Option ColOperand) : Bool := match o with
    | some o => if o.stream then operandReady older e (some o) 0 0 else older.all (fun p => !entryWrites p o.reg || worked p)
    | none => true
  match e.phase with
  | .absorb =>
    if absorbsTogether e.instr then
      let lo := e.absB.length
      operandReady older e e.srcA lo (min n.1 (lo + 16)) && operandReady older e e.srcB lo (min n.2 (lo + 16))
    else if e.absA.length < n.1 then operandReady older e e.srcA e.absA.length (min n.1 (e.absA.length + 16))
    else operandReady older e e.srcB e.absB.length (min n.2 (e.absB.length + 16))
  | .stream =>
    let hi := min (e.vs + 16) e.len
    match e.instr with
    | .prjp .. | .prj .. => whole e.srcA && operandReady older e e.srcB e.vs hi
    | .joinH .. | .joinM .. | .semi .. | .anti .. => operandReady older e e.srcA e.vs hi
    | .srch .. => operandReady older e e.srcB e.vs hi
    | _ => operandReady older e e.srcA e.vs hi && operandReady older e e.srcB e.vs hi && operandReady older e e.srcC e.vs hi
  | .emit => true

/-- The step RELATIONAL_GROUP_COMMIT: the oldest relational instruction goes on by one group, once what the group reads is there
and, if it realigns, once every lane group has completed the entries before it (R37, R196). -/
def relationalCommit (s : State) (ctx : CtxId) : State :=
  let c := s.ctx ctx
  if !active c then s
  else
    match engineHead c .relational with
    | none => s
    | some (e, older) =>
      if engineStands c older e || !lensKnown [e.srcA, e.srcB, e.srcC] || (e.realign && !older.all lanesDone) then
        settle (forgive s ctx 4) ctx
      else
        let e := phaseStep e
        let s := setEntry s ctx e
        if e.fin then settle s ctx
        else if !groupSources older e then settle (forgive s ctx 4) ctx
        else settle (unitDone s ctx e (relationalUnit s ctx e) phaseStep) ctx

/-- The event RELATIONAL_GROUP_COMMIT. -/
def execRelationalGroupCommit (c : CtxId) (s : State) : Out := .next (relationalCommit s c)

/-! ## Issue -/

/-- The formats a key may have (R188). -/
def keyOk (f : Fmt) : Bool := f != .tern5 && f != .ue8m0 && f != .xacc

/-- A position source (R188): a position list, or a pos32 or n32 column. -/
def positionOk (c : Ctx) (r : Col) : Bool :=
  match r with
  | .p _ => true
  | .c _ => colFmt c r == .pos32 || colFmt c r == .n32

/-- The checks on a destination (R155, R189). -/
def relDestsOk (c : Ctx) (ds : List Col) (cols : List Col) (q : Qual) : Bool :=
  ds.all (fun d => !cols.contains d && !(getCol c d).strm
    && (match q with | some n => d != .p ⟨n.val, by omega⟩ | none => true))

/-- An instruction that has nothing to absorb, stream or emit completes at once (R33, R197). One whose streamed source is empty
still absorbs and checks the other (log entry 85). -/
def relationalStart (_ : State) (e : Entry) : Entry :=
  if lensKnown [e.srcA, e.srcB, e.srcC] then
    phaseStep { e with fin := false, late := match e.instr with | .anti .. => List.range (lenOf e.srcB) | _ => [] }
  else { e with fin := false }

/-- The issue of a relational instruction: it waits for the length of no source, and reads one as its producer commits it (R41). -/
def relIssue (i : Instr) (f : Fmt) (n : Nat) (dests : List (Col × Fmt × Option Nat)) (cols : List Col) (srcs : List Src)
    (a b c : Operand) (q : Qual) (ok : Bool) (s : State) : Out :=
  issue s [] srcs [] q
    (if ok && relDestsOk s.me (dests.map (·.1)) cols q then
       .ok { instr := i, engine := .relational, fmt := f, mfmt := none, len := n, dests := dests, sdest := none
             a := a, b := b, c := c, pol := 0 }
     else .error 0x05) relationalStart

/-- F of a selection (R152): a scalar-only one compares in pos32, its destination's format. -/
def selFmt (c : Ctx) (xs : List ColSrc) : Fmt :=
  match colsOf xs with
  | r :: _ => colFmt c r
  | [] => .pos32

/-- The formats `sel` accepts under a condition (R188, R198). -/
def selOk (cc : ColCond) (f : Fmt) : Bool := keyOk f && (f != .v256 || cc == .eq || cc == .ne)

/-- `sel.cc` (R198). -/
def execSel (d : PReg) (a b : ColSrc) (cc : ColCond) (q : Qual) (s : State) : Out :=
  let f := selFmt s.me [a, b]
  let oa := operandOf s a
  let ob := operandOf s b
  relIssue (.sel d a b cc q) f (commonLen s.me [oa, ob]) [(.p d, .pos32, none)] (colsOf [a, b]) (scsOf [a, b]) oa ob Operand.none q
    (selOk cc f && sourcesOk s.me f [a, b]) s

/-- `selr` (R199). -/
def execSelr (d : PReg) (a b c : ColSrc) (q : Qual) (s : State) : Out :=
  let f := selFmt s.me [a, b, c]
  let oa := operandOf s a
  let ob := operandOf s b
  let oc := operandOf s c
  relIssue (.selr d a b c q) f (commonLen s.me [oa, ob, oc]) [(.p d, .pos32, none)] (colsOf [a, b, c]) (scsOf [a, b, c]) oa ob oc q
    (selOk .lt f && sourcesOk s.me f [a, b, c]) s

/-- `selb` (R200): every format. -/
def execSelb (d : PReg) (a : Col) (q : Qual) (s : State) : Out :=
  let oa := colOperand s a
  relIssue (.selb d a q) (colFmt s.me a) (commonLen s.me [oa]) [(.p d, .pos32, none)] [a] [] oa Operand.none Operand.none q true s

/-- The shape of `pand`, `por` and `pdiff` (R202). -/
def setOp (i : Instr) (d : PReg) (a b : Col) (s : State) : Out :=
  let oa := colOperand s a
  relIssue i .pos32 (lenOf oa.col) [(.p d, .pos32, none)] [a, b] [] oa (colOperand s b) Operand.none none
    (positionOk s.me a && positionOk s.me b) s

/-- `pand` (R202). -/
def execPand (d : PReg) (a b : Col) (s : State) : Out := setOp (.pand d a b) d a b s
/-- `por` (R202). -/
def execPor (d : PReg) (a b : Col) (s : State) : Out := setOp (.por d a b) d a b s
/-- `pdiff` (R202). -/
def execPdiff (d : PReg) (a b : Col) (s : State) : Out := setOp (.pdiff d a b) d a b s

/-- `prjp` (R203). -/
def execPrjp (d : PReg) (a b : Col) (s : State) : Out :=
  let ob := colOperand s b
  let n := lenOf ob.col
  relIssue (.prjp d a b) .pos32 n [(.p d, .pos32, some n)] [a, b] [] (colOperand s a) ob Operand.none none
    (positionOk s.me a && positionOk s.me b) s

/-- `prj` (R204): every format. -/
def execPrj (d : CReg) (a b : Col) (s : State) : Out :=
  let ob := colOperand s b
  let n := lenOf ob.col
  let f := colFmt s.me a
  relIssue (.prj d a b) f n [(.c d, f, some n)] [a, b] [] (colOperand s a) ob Operand.none none (positionOk s.me b) s

/-- `plc` (R205): c[d] has a's format already, and its length must be known. -/
def execPlc (d : CReg) (a b : Col) (s : State) : Out :=
  let oa := colOperand s a
  let ob := colOperand s b
  let f := colFmt s.me a
  if !(capture s s.cur (.c d)).known then .next s
  else relIssue (.plc d a b) f (commonLen s.me [oa, ob]) [(.c d, f, none)] [a, b] [] oa ob Operand.none none
    (positionOk s.me b && colFmt s.me (.c d) == f) s

/-- `pcol` (R206). -/
def execPcol (d : CReg) (a : Col) (b : Src) (s : State) : Out :=
  let oa := colOperand s a
  let n := (readSrc s.me b).toNat
  relIssue (.pcol d a b) .pos32 (lenOf oa.col) [(.c d, .bool1, some n)] [a] [b] oa (scalarOperand s.me b) Operand.none none
    (positionOk s.me a && decide (n ≤ 2 ^ 32 - 1)) s

/-- The shape of the joins (R207-R210). -/
def join (i : Instr) (d : PReg) (a b : Col) (s : State) : Out :=
  let oa := colOperand s a
  let f := colFmt s.me a
  relIssue i f (lenOf oa.col) [(.p d, .pos32, none), (.p (nextP d), .pos32, none)] [a, b] [] oa (colOperand s b) Operand.none none
    (keyOk f && colFmt s.me b == f) s

/-- `join.h` (R207). -/
def execJoinH (d : PReg) (a b : Col) (s : State) : Out := join (.joinH d a b) d a b s
/-- `join.m` (R208). -/
def execJoinM (d : PReg) (a b : Col) (s : State) : Out := join (.joinM d a b) d a b s
/-- `semi` (R209). -/
def execSemi (d : PReg) (a b : Col) (s : State) : Out := join (.semi d a b) d a b s
/-- `anti` (R210). -/
def execAnti (d : PReg) (a b : Col) (s : State) : Out := join (.anti d a b) d a b s

/-- `grp` (R211). -/
def execGrp (d : CReg) (a : Col) (s : State) : Out :=
  let oa := colOperand s a
  let f := colFmt s.me a
  let n := lenOf oa.col
  relIssue (.grp d a) f n [(.c d, .n32, some n), (.c (nextC d), f, none)] [a] [] oa Operand.none Operand.none none (keyOk f) s

/-- The shape of the aggregates (R212): the group count is LEN(c), once every earlier producer has yielded, or a scalar. -/
def aggregate (i : Instr) (d : CReg) (a b : Col) (c : ColSrc) (out : Fmt) (accept : Bool) (s : State) : Out :=
  let oa := colOperand s a
  let ob := colOperand s b
  let f := colFmt s.me a
  let count : Option Word := match c with
    | .sc x => some (readSrc s.me x)
    | .col r => (readLen s r).map (BitVec.ofNat 64)
  match count with
  | none => .next s
  | some g =>
    let oc : Operand := { col := none, val := g }
    relIssue i f (commonLen s.me [oa, ob]) [(.c d, out, some g.toNat)] ([a, b] ++ colsOf [c]) (scsOf [c]) oa ob oc none
      (accept && positionOk s.me b && decide (g.toNat ≤ 2 ^ 32 - 1)) s

/-- `agg.sum` (R212). -/
def execAggSum (d : CReg) (a b : Col) (c : ColSrc) (m : Arith) (s : State) : Out :=
  aggregate (.aggSum d a b c m) d a b c (redFmt (colFmt s.me a)) (redOk (colFmt s.me a)) s
/-- `agg.min` (R212). -/
def execAggMin (d : CReg) (a b : Col) (c : ColSrc) (m : Arith) (s : State) : Out :=
  aggregate (.aggMin d a b c m) d a b c (colFmt s.me a) (redOk (colFmt s.me a)) s
/-- `agg.max` (R212). -/
def execAggMax (d : CReg) (a b : Col) (c : ColSrc) (m : Arith) (s : State) : Out :=
  aggregate (.aggMax d a b c m) d a b c (colFmt s.me a) (redOk (colFmt s.me a)) s
/-- `agg.cnt` (R212): every format. -/
def execAggCnt (d : CReg) (a b : Col) (c : ColSrc) (m : Arith) (s : State) : Out :=
  aggregate (.aggCnt d a b c m) d a b c .n64 true s

/-- The shape of `sort`, `sortd`, `topk` and `uniq`. -/
def ordering (i : Instr) (d : PReg) (a : Col) (b : Operand) (srcs : List Src) (len : Nat → Option Nat) (s : State) : Out :=
  let oa := colOperand s a
  let f := colFmt s.me a
  relIssue i f (lenOf oa.col) [(.p d, .pos32, len (lenOf oa.col))] [a] srcs oa b Operand.none none (keyOk f) s

/-- `sort` (R213). -/
def execSort (d : PReg) (a : Col) (s : State) : Out := ordering (.sort d a) d a Operand.none [] some s
/-- `sortd` (R213). -/
def execSortd (d : PReg) (a : Col) (s : State) : Out := ordering (.sortd d a) d a Operand.none [] some s
/-- `topk` (R214). -/
def execTopk (d : PReg) (a : Col) (b : Src) (s : State) : Out :=
  ordering (.topk d a b) d a (scalarOperand s.me b) [b] (fun n => some (min (readSrc s.me b).toNat n)) s

/-- `srch` (R215). -/
def execSrch (d : PReg) (a : Col) (b : ColSrc) (s : State) : Out :=
  let oa := colOperand s a
  let ob := operandOf s b
  let f := colFmt s.me a
  let n := match ob.col with | some o => o.len | none => 1
  relIssue (.srch d a b) f n [(.p d, .pos32, some n)] (a :: colsOf [b]) (scsOf [b]) oa ob Operand.none none
    (keyOk f && sourcesOk s.me f [.col a, b]) s

/-- `uniq` (R216). -/
def execUniq (d : PReg) (a : Col) (s : State) : Out := ordering (.uniq d a) d a Operand.none [] (fun _ => none) s

/-! ## The lane groups' and the slices' own steps -/

/-- The event ELEMENT_GROUP. -/
def execElementGroup (c : CtxId) (g : Fin 4) (s : State) : Out := .next (elementGroup s c g)

/-- The event INDEX_BATCH. -/
def execIndexBatch (c : CtxId) (s : State) : Out := .next (indexBatch s c)

end Sys2Proof.Machine
end

