-- ==== Sys2Proof/Machine/Streams.lean ====
section
/-! DEFINITION. The buffer table and streams: major op 0x28, and the steps STRIP_FILL and BUFFER_ADMISSION (R236-R247). -/

namespace Sys2Proof.Machine

/-! ## Words and checks -/

def bufCode : BufState → Nat
  | .free => 0 | .filling => 1 | .full => 2 | .draining => 3

/-- The word `bfinfo` reads (R237). -/
def bufWord (e : BufEntry) : Word :=
  BitVec.ofNat 64 (bufCode e.st * 2 ^ 62 + e.auto.toNat * 2 ^ 61 + e.strm.toNat * 2 ^ 60 + e.part.toNat * 2 ^ 56
    + e.uses % 512 * 2 ^ 47 + e.size % 65536 * 2 ^ 31 + e.base % 2 ^ 17 * 2 ^ 14 + e.clm.toNat * 2 ^ 13
    + (if e.strm then e.creg.val else 0))

/-- An entry that another partition configured (R240). -/
def bufForeign (c : Ctx) (e : BufEntry) : Bool := e.size != 0 && e.part != c.part

/-- What a fill, drain or bfset finds wrong with its entry (R240). -/
def bufBad (c : Ctx) (e : BufEntry) (configures : Bool) : Option Nat :=
  if bufForeign c e then some 0x02
  else if e.strm || (!configures && e.size = 0) then some 0x0E
  else none

/-! ## Requests at the table (R238, R239) -/

/-- What an entry of the window still asks of the table: the buffer, and whether it fills. -/
def bufNeeds (c : Ctx) (e : Entry) : List (BReg × Bool) :=
  (e.strips.filter (fun x => x.bytes = none)).map (fun x => (c.c[x.reg].buf, false))
    ++ (match copyBuf e.instr with | some n => if e.admitted || e.len = 0 then [] else [n] | none => [])

/-- The requests of a context in program order, with the cycle at which each arrived; a blocked claim is the youngest. -/
def requestsOf (c : Ctx) : List (Option Entry × BReg × Bool × Word) :=
  c.window.flatMap (fun e => (bufNeeds c e).map (fun n => (some e, n.1, n.2, e.issueAt)))
    ++ (match c.parked with | some (.admission b at_) => [(none, b, true, at_)] | _ => [])

/-- The first request of a context for each buffer: a later one waits for it (R239). -/
def headRequests (c : Ctx) : List (Option Entry × BReg × Bool × Word) :=
  (requestsOf c).foldl (fun acc r => if acc.any (fun q => q.2.1 = r.2.1) then acc else acc ++ [r]) []

/-- Whether another context's request of the same kind arrived earlier; ties go to the lower context number. A request whose entry
is in a state of the other kind waits in its place, and those of that kind pass it (R238, log entry 88). -/
def servedBefore (s : State) (ctx : CtxId) (b : BReg) (fills : Bool) (at_ : Word) : Bool :=
  (List.range 5).any (fun n =>
    let x := ctxOn (coreOf ctx) n
    x ≠ ctx && active (s.ctx x) && (headRequests (s.ctx x)).any (fun r =>
      r.2.1 = b && r.2.2.1 == fills && (r.2.2.2.toNat < at_.toNat || (r.2.2.2 = at_ && n < ctxNo ctx))))

/-- A filler is admitted to a free entry, fillers in their order of arrival. -/
def mayFill (s : State) (ctx : CtxId) (b : BReg) (at_ : Word) : Bool :=
  let e := getBuf s (coreOf ctx) b
  e.st == .free && e.uses == 0 && !servedBefore s ctx b true at_

/-- A reader is admitted to a full entry, readers in their order of arrival. -/
def mayRead (s : State) (ctx : CtxId) (b : BReg) (at_ : Word) : Bool :=
  (getBuf s (coreOf ctx) b).st == .full && !servedBefore s ctx b false at_

/-- An earlier instruction of the context that names the entry is not admitted yet: a later one waits for it (R239). -/
def bufPending (c : Ctx) (b : BReg) : Bool :=
  (requestsOf c).any (fun r => r.2.1 = b)
    || c.posted.any (fun p => match p.instr with | .bfsetFull x | .bfsetRel x => x == b | _ => false)

/-- What a context's transition of an entry orders as a release (R241): every access before number `seq` is performed; then the
earlier stores reach memory. -/
def mayMove (c : Ctx) (seq : Nat) : Bool := quietBefore c seq && c.posted.all (fun p => p.seq > seq)

/-- Some context of the core waits on the entry. -/
def bufWaited (s : State) (k : CoreId) (b : BReg) : Bool :=
  (List.range 5).any (fun n =>
    let c := s.ctx (ctxOn k n)
    (requestsOf c).any (fun r => r.2.1 = b) || (match c.parked with | some (.buffer b' _) => b' == b | _ => false))

/-! ## Strips (R245, R246) -/

/-- S, the elements of a strip. -/
def stripSize (e : BufEntry) (f : Fmt) : Nat := 2048 * e.size / fmtBits f

/-- The SRF byte at which an entry begins. -/
def bufSrf (e : BufEntry) : Nat := 256 * e.base - 0x1000000

/-- The reader of a strip: an entry of the stream controller. -/
def fillEntry (s : State) (st : Stream) : Entry :=
  { makeEntry s { instr := .nop, engine := .stream, fmt := st.fmt, mfmt := st.mfmt, len := 0, dests := [], sdest := none
                  a := Operand.none, b := Operand.none, c := Operand.none, pol := st.pol } none with seq := st.seq, ph := st.ph }

/-- The address of pattern element `i` (R245). -/
def patternEa (st : Stream) (m : Fmt) (i : Nat) : Word := st.base + BitVec.ofInt 64 (i * st.stride.toInt * elemBytes m)

/-- Elements from `i` read into the entry's bytes, one after another. -/
def fillFrom (ctx : CtxId) (k : CoreId) (st : Stream) (m : Fmt) (off : Nat) : Nat → Nat → State → UnitRes
  | 0, _, s => .ok s
  | n + 1, i, s =>
    UnitRes.of i (loadElem s ctx (fillEntry s st) i (patternEa st m i) st.fmt m none) fun v s =>
      fillFrom ctx k st m off n (i + 1)
        (poolPut s k .srf (off + (i - st.start) * elemBytes st.fmt) (leBytes (elemBytes st.fmt) v))

def dropLock (s : State) (ctx : CtxId) (seq : Nat) : State :=
  s.modCtx ctx (fun c => { c with locks := c.locks.filter (fun l => l.seq ≠ seq) })

/-- The interlock entry of a strip while its fill is in flight (R254, R273). -/
def stripLock (st : Stream) : List Interlock :=
  let n := min st.strip (st.total - st.start)
  let m := st.mfmt.getD st.fmt
  match coverOf (elemBytes m) ((List.range n).map (fun i => (patternEa st m (st.start + i)).toNat)) with
  | some (lo, hi) => [{ seq := st.seq, ranges := [(lo, hi, false)] }]
  | none => []

/-- Accesses before the `strm` are seen by every strip (R272). -/
def fillWaits (c : Ctx) (st : Stream) : Bool :=
  (stripLock st).any (fun l => l.ranges.any (fun r =>
    accessWaits c (c.window.filter (fun e => e.seq < st.seq)) st.seq r.1 r.2.1 false || storeHit c r.1 r.2.1))

/-- A strip's lock is held, or can be. -/
def lockRoom (c : Ctx) (st : Stream) : Bool := c.locks.any (·.seq = st.seq) || stripLock st = [] || c.locks.length < 16

def takeLock (c : Ctx) (st : Stream) : Ctx :=
  if c.locks.any (·.seq = st.seq) then c else { c with locks := c.locks ++ stripLock st }

/-- Bytes of a tile as stored: none for zeros, 4,096 for a raw tile, else what the coding gives, which may be raw (R233, log entry
23). -/
def storedBytes (raw : Bool) (bs : List Byte) : Nat :=
  if bs.all (· == 0) && !raw then 0
  else if raw then 4096
  else 32 * max 1 (min 128 (Config.tileUnits bs))

/-- What a strip adds to the fetch meters: its elements' bytes as stored (R235); of a compressed page, each tile that is read once
(log entry 23). -/
def stripFetch (s : State) (st : Stream) (m : Fmt) (n : Nat) : Nat :=
  let eas := (List.range n).map (fun i => (patternEa st m (st.start + i)).toNat)
  let tiles := eas.foldl (fun l a => if l.contains (a / 4096) then l else a / 4096 :: l) []
  (tiles.map (fun t =>
    let here := (eas.filter (fun a => a / 4096 = t)).length * elemBytes m
    if inWindow (4096 * t) then here
    else
      match translate s (.streamCtl (coreOf st.ctx)) (s.ctx st.ctx).part (4096 * t) with
      | .ok page s => if pteComp page.w1 && !ptePeer page.w1 then storedBytes false (s.bytesPA (page.pa (4096 * t)) 4096) else here
      | _ => here)).foldl (· + ·) 0

/-- The step STRIP_FILL: the stream bound to a buffer reads its next strip. -/
def stripFill (s : State) (k : CoreId) (b : BReg) : State :=
  let e := getBuf s k b
  match e.stream with
  | none => s
  | some st =>
    let c := s.ctx st.ctx
    let begins := (e.st == .free && e.uses == 0) || e.st == .filling
    if !active c || !begins || st.fault.isSome || st.start ≥ st.total || fillWaits c st || !lockRoom c st
        || !quietBefore c st.seq then s
    else
      let s := drainReleased (s.modCtx st.ctx (fun c => takeLock c st)) st.ctx
      let n := min st.strip (st.total - st.start)
      let setSt (s : State) (x : BufState) (st : Stream) : State := setBuf s k b { getBuf s k b with st := x, filler := some st.ctx, stream := some st }
      let fail (i cause : Nat) (addr : Word) (s : State) : State :=
        dropLock (setSt s .filling { st with fault := some (i, cause, addr) }) st.ctx st.seq
      let fixed : Acc Fmt := match st.mfmt with
        | some m => .ok m s
        | none => fixFormat s st.ctx st.base st.fmt
      match fixed with
      | .wait s => setSt s .filling st
      | .fault cause addr s => fail st.start cause addr s
      | .ok m s =>
        let st := { st with mfmt := some m }
        if packed m then fail st.start 0x05 (patternEa st m st.start) s
        else
          match fillFrom st.ctx k st m (bufSrf e) n st.start s with
          | .wait s => setSt s .filling st
          | .fault i cause addr s => fail i cause addr s
          | .ok s =>
            let s := clearReqs (dropLock s st.ctx st.seq) st.ctx (st.seq + 1) 0 (2 ^ 64)
            let s := { s with meter := s.meter + stripFetch s st m n }
            setBuf s k b { getBuf s k b with st := .full, filler := none, stream := some st }

/-- The event STRIP_FILL. -/
def execStripFill (k : CoreId) (b : BReg) (s : State) : Out := .next (stripFill s k b)

/-! ## Admission -/

/-- A strip taken by its reader: its bytes are read whole, and the use is given back (R239, R246). -/
def takeStrip (s : State) (ctx : CtxId) (e : Entry) (b : BReg) : State :=
  let k := coreOf ctx
  let x := getBuf s k b
  match x.stream with
  | none => s
  | some st =>
    match e.strips.find? (fun p => (s.ctx ctx).c[p.reg].buf = b && p.bytes = none) with
    | none => s
    | some p =>
      if st.start ≠ p.start then s
      else
        match st.fault with
        | some (i, cause, addr) =>
          let s := s.modCore k (fun c => { c with bufs := c.bufs.set b { x with stream := some { st with fault := none } } })
          settle (hold s ctx e 4 i cause addr) ctx
        | none =>
          if x.st != .full then s
          else
            let bs := (s.core k).srf.bytes (bufSrf x) (p.len * elemBytes st.fmt)
            let s := setEntry s ctx { e with strips := e.strips.map (fun q => if q.reg = p.reg then { q with bytes := some bs } else q) }
            let s := setBuf s k b { x with uses := x.uses + 1, stream := some { st with start := st.start + p.len } }
            l1DropAll (giveBack s k b) k

/-- One request served at the table, if the entry's state allows it; a filler's transition is a release (R241). -/
def serve (s : State) (ctx : CtxId) (r : Option Entry × BReg × Bool × Word) : Option State :=
  let k := coreOf ctx
  let b := r.2.1
  match r.1 with
  | none =>
    if mayFill s ctx b r.2.2.2 && enginesQuiet s ctx then
      let s := drainReleased s ctx
      let s := setBuf s k b { getBuf s k b with st := .filling, clm := true, filler := some ctx }
      some (l1DropAll (s.modCtx ctx (fun c => retireWord { c with parked := none })) k)
    else none
  | some e =>
    if r.2.2.1 then
      if mayFill s ctx b r.2.2.2 && mayMove (s.ctx ctx) e.seq then
        let s := drainReleased s ctx
        some (l1DropAll (setEntry (setBuf s k b { getBuf s k b with st := .filling, filler := some ctx }) ctx { e with admitted := true }) k)
      else none
    else
      let x := getBuf s k b
      if (copyBuf e.instr).isSome then
        if mayRead s ctx b r.2.2.2 then
          some (l1DropAll (setEntry (setBuf s k b { x with uses := x.uses + 1 }) ctx { e with admitted := true }) k)
        else none
      else
        match x.stream with
        | some st =>
          if st.fault.isSome || (mayRead s ctx b r.2.2.2 && mayMove (s.ctx ctx) e.seq) then some (takeStrip (drainReleased s ctx) ctx e b)
          else none
        | none => none

/-- The step BUFFER_ADMISSION: the oldest request of a context that the table can serve. -/
def bufferAdmission (s : State) (ctx : CtxId) : State :=
  if active (s.ctx ctx) then ((headRequests (s.ctx ctx)).findSome? (serve s ctx)).getD s else s

/-- The event BUFFER_ADMISSION. -/
def execBufferAdmission (c : CtxId) (s : State) : Out := .next (bufferAdmission s c)

/-! ## 0x28 streams and buffers -/

/-- Any use of a column by an instruction in flight, a pop among them. -/
def columnUsed (c : Ctx) (r : Col) : Bool :=
  c.window.any (fun e => entryWrites e r || [e.srcA, e.srcB, e.srcC].any (fun o => match o with | some x => x.reg == r | none => false))

/-- A buffer leaves its stream: the column that was bound to it is in stream mode no more (log entry 37). -/
def unbind (s : State) (k : CoreId) (b : BReg) : State :=
  let e := getBuf s k b
  match e.stream with
  | none => s
  | some st =>
    let col : Col := .c e.creg
    let s := s.modCtx st.ctx (fun c =>
      let x := getCol c col
      if x.strm && x.buf = b then setCol c col (Column.empty x.fmt) else c)
    setBuf (dropLock s st.ctx st.seq) k b { e with st := .free, auto := false, strm := false, uses := 0, clm := false, filler := none, stream := none }

/-- `strm.fmt` (R245). Strip 0's fill is in flight from here on, so that its interlock entry is entered (R254). What it does to the
buffer table is a release (R241). -/
def execStrm (d : CReg) (a : BReg) (b c : Src) (fmt : Fmt) (s : State) : Out :=
  let x := s.me
  let k := coreOf s.cur
  let e := getBuf s k a
  if windowFull x || hazard x [b, c] [] || columnUsed x (.c d) then .next s
  else if bufForeign x e then .next (refuse s 0x02)
  else if packed fmt || fmt == .xacc || stripSize e fmt = 0 || e.base < 0x10000 then .next (refuse s 0x05)
  else if e.st != .free || e.uses != 0 || bufPending x a || x.locks.length ≥ 16 || !enginesQuiet s s.cur then .next s
  else
    let s := drainReleased s s.cur
    let old := getCol x (.c d)
    let s := if old.strm then unbind s k old.buf else s
    let s := unbind s k a
    let st : Stream :=
      { ctx := s.cur, seq := x.seq, ph := ownPhase x, pol := x.pold &&& 0xFFFFFFE7, base := readSrc x b, stride := readSrc x c
        fmt := fmt, mfmt := none, total := x.vl.toNat, strip := stripSize e fmt, start := 0, next := 0, fault := none }
    let s := setBuf s k a { getBuf s k a with strm := true, auto := true, creg := d, stream := some st }
    managed s (setCol (takeLock s.me st) (.c d) { Column.empty fmt with strm := true, buf := a })

/-- `unstrm` (R247). -/
def execUnstrm (d : CReg) (s : State) : Out :=
  let c := s.me
  let x := getCol c (.c d)
  if !x.strm then .next (refuse s 0x05)
  else if windowFull c || columnUsed c (.c d) then .next s
  else
    let e := getBuf s (coreOf s.cur) x.buf
    let flying := e.st == .filling && (match e.stream with | some st => st.fault.isNone | none => false)
    if flying || !enginesQuiet s s.cur then .next s
    else
      let s := unbind (drainReleased s s.cur) (coreOf s.cur) x.buf
      managed s s.me

/-- An instruction of major op 0x28 that takes no place in the window waits for a place there (R43), and for the context's earlier
requests to the entry it names (R239). -/
def bufWaits (c : Ctx) (b : BReg) : Bool := windowFull c || bufPending c b

/-- `bfwait.st` (R242): the context is parked until the entry is in the state; the return is an acquire (R241). -/
def execBfwait (a : BReg) (full : Bool) (s : State) : Out :=
  let k := coreOf s.cur
  let e := getBuf s k a
  if bufWaits s.me a then .next s
  else if bufForeign s.me e then .next (refuse s 0x02)
  else if bufMatches full e.st then .next (l1DropAll (s.setMe (retireWord s.me)) k)
  else .next (s.setMe { s.me with parked := some (.buffer a full) })

/-- `bftry.st` (R242). -/
def execBftry (d : FReg) (a : BReg) (st : Fin 4) (s : State) : Out :=
  let e := getBuf s (coreOf s.cur) a
  onFlags s [d]
    (if bufWaits s.me a then .next s
     else if bufForeign s.me e then .next (refuse s 0x02)
     else .next (s.setMe (retireWord (setF s.me d (bufCode e.st == st.val)))))

/-- `bfset.cfg` and `bfset.cfga` (R243). -/
def configure (a : BReg) (b c : Src) (auto : Bool) (s : State) : Out :=
  let x := s.me
  let k := coreOf s.cur
  let e := getBuf s k a
  if windowFull x || hazard x [b, c] [] || bufPending x a then .next s
  else
    match bufBad x e true with
    | some cause => .next (refuse s cause)
    | none =>
      let at_ := (readSrc x b).toNat
      let n := (readSrc x c).toNat
      let ok := at_ % 256 = 0 && n % 256 = 0 && n != 0 && inWindow at_ && (poolAt (s.core k) (at_ - windowBase) n).isSome
      if !ok then .next (refuse s 0x05)
      else if e.st != .free || e.uses != 0 || bufWaited s k a || !enginesQuiet s s.cur then .next s
      else
        let s := setBuf (drainReleased s s.cur) k a { BufEntry.reset with auto := auto, part := x.part, size := n / 256, base := (at_ - windowBase) / 256 }
        .next (s.setMe (retireWord s.me))

/-- `bfset.cfg` (R243). -/
def execBfsetCfg (a : BReg) (b c : Src) (s : State) : Out := configure a b c false s
/-- `bfset.cfga` (R243). -/
def execBfsetCfga (a : BReg) (b c : Src) (s : State) : Out := configure a b c true s

/-- `bfset.claim` (R243): a filler, which blocks its context until the table admits it. -/
def execBfsetClaim (a : BReg) (s : State) : Out :=
  if windowFull s.me then .next s
  else
    match bufBad s.me (getBuf s (coreOf s.cur) a) false with
    | some cause => .next (refuse s cause)
    | none =>
      let s := s.setMe { s.me with parked := some (.admission a s.cycle) }
      .next (bufferAdmission s s.cur)

/-! ## Releases that their home holds back (R279, R297) -/

/-- A release that is performed at once where every earlier access is done, and otherwise leaves the core: the context goes on
(`later`), and the home performs the release once it may. -/
def postRelease (s : State) (i : Instr) (ops : List Word) (later : Ctx → Ctx) (now : State → State) : State :=
  let s := markReleased s s.cur
  let c := s.me
  if enginesQuiet s s.cur then now (drainStores s s.cur)
  else s.setMe (later { c with posted := c.posted ++ [{ seq := c.seq, instr := i, ops := ops, clock := c.vc }] })

/-- `bfset.full` moves a claimed entry to full (R243). -/
def bufFill (s : State) (ctx : CtxId) (b : BReg) : State :=
  let e := getBuf s (coreOf ctx) b
  if e.st == .filling && e.clm then setBuf s (coreOf ctx) b { e with st := .full, clm := false, filler := none } else s

/-- `bfset.rel` releases an entry (R238). -/
def bufFree (s : State) (ctx : CtxId) (b : BReg) : State :=
  let e := getBuf s (coreOf ctx) b
  if e.st == .full then setBuf s (coreOf ctx) b { e with st := if e.uses > 0 then .draining else .free } else s

/-- `bfset.full` (R243). -/
def execBfsetFull (a : BReg) (s : State) : Out :=
  let e := getBuf s (coreOf s.cur) a
  if bufWaits s.me a then .next s
  else
    match bufBad s.me e false with
    | some cause => .next (refuse s cause)
    | none =>
      if !(e.st == .filling && e.clm) then .next (refuse s 0x0E)
      else .next (postRelease s (.bfsetFull a) [] retireWord (fun s => bufFill (s.setMe (retireWord s.me)) s.cur a))

/-- `bfset.rel` (R243). -/
def execBfsetRel (a : BReg) (s : State) : Out :=
  let e := getBuf s (coreOf s.cur) a
  if bufWaits s.me a then .next s
  else
    match bufBad s.me e false with
    | some cause => .next (refuse s cause)
    | none =>
      if e.st != .full then .next (refuse s 0x0E)
      else .next (postRelease s (.bfsetRel a) [] retireWord (fun s => bufFree (s.setMe (retireWord s.me)) s.cur a))

/-- `bfinfo` (R244). -/
def execBfinfo (d : SReg) (a : BReg) (s : State) : Out :=
  let e := getBuf s (coreOf s.cur) a
  onReady s [] [d]
    (if windowFull s.me then .next s
     else if bufForeign s.me e then .next (refuse s 0x02)
     else .next (s.setMe (retireWord (setS s.me d (bufWord e)))))

end Sys2Proof.Machine
end

