-- ==== Sys2Proof/Machine/Matrix.lean ====
section
/-! DEFINITION. The matrix array share: major op 0x2A and the step ACTIVATION_ROW (R73-R75, R255-R266). -/

namespace Sys2Proof.Machine

/-! ## Shares (R255, R261) -/

/-- COUNT: the row groups a context holds. -/
def grantCount (c : Ctx) : Nat := ((List.range 8).filter (fun g => c.gmask.getLsbD g)).length

/-- GRANT as special register 0x030 shows it. -/
def grantWord (c : Ctx) : Word := BitVec.ofNat 64 (c.gmask.toNat * 256 + grantCount c)

/-- AR, the rows of a bank. -/
def accRows (s : State) (ctx : CtxId) : Nat := 64 * poolAcs (s.core (coreOf ctx)).poolw / grantCount (s.ctx ctx)

/-- A matrix instruction in flight. -/
def matrixBusy (c : Ctx) : Bool := c.window.any (·.engine = .matrix)

/-- An accumulator that an instruction in flight uses. -/
def usesAcc (e : Entry) (d : AReg) : Bool :=
  match e.instr with
  | .mmul x _ _ | .mmuls x _ _ _ | .macrd _ x _ _ _ => x == d
  | _ => false

/-! ## Tile formats (R258) -/

/-- Activation format, K, the allowed scaling modes, and the accumulator format under a mode. -/
def tileOf (f : Fmt) : Option (Fmt × Nat × List Nat × (Nat → Fmt)) :=
  match f with
  | .e4m3 => some (.e4m3, 256, [0, 1, 2], fun _ => .f32)
  | .e5m2 => some (.e5m2, 256, [0, 1, 2], fun _ => .f32)
  | .e2m1 => some (.e2m1, 512, [0, 1, 2], fun _ => .f32)
  | .f16 => some (.f16, 128, [0, 1, 2], fun _ => .f32)
  | .bf16 => some (.bf16, 128, [0, 1, 2], fun _ => .f32)
  | .i8 => some (.i8, 256, [0, 2], fun m => if m = 2 then .f32 else .i32)
  | .n8 => some (.n8, 256, [0], fun _ => .i32)
  | .tern5 => some (.i8, 256, [0], fun _ => .i32)
  | _ => none

/-- Element `k` of a row read from byte 0 upward (R57). -/
def rowElem (f : Fmt) (row : List Byte) (k : Nat) : Nat := elemFrom f k ((row.drop (byteAt f k)).take (elemSpan f))

/-- The value of a row element; a trit enters as its value t (R262). -/
def rowVal (f : Fmt) (row : List Byte) (k : Nat) : Val :=
  if f = .tern5 then intVal (tritOf (rowElem f row k)) else elemVal f (rowElem f row k)

def rowInt (f : Fmt) (row : List Byte) (k : Nat) : Int := if f = .tern5 then tritOf (rowElem f row k) else intOf f (rowElem f row k)

/-- The exact products of K elements from `k`. -/
def rowProducts (fx fw : Fmt) (x w : List Byte) (k n : Nat) : List Val :=
  (List.range n).map (fun j => (rowVal fx x (k + j)).mul (rowVal fw w (k + j)))

/-! ## One output element of `mmul` and `mmuls` (R73-R75, R262) -/

def f32Round (v : Val) : Nat := roundTo .f32 .rne false v

/-- acc + v, rounded (R75). -/
def accAdd (acc : Nat) (v : Nat) : Nat := f32Round ((floatVal .f32 acc).add .rne (floatVal .f32 v))

def ueScale (u : Nat) (v : Val) : Val :=
  match scaleOf u with
  | some _ => v.scale ((u : Int) - 127)
  | none => .nan

/-- The new accumulator element: `asc` are the activation row's scales, `wsc` the weight row's. -/
def accNew (p : Plane) (fx : Fmt) (k : Nat) (x w : List Byte) (asc wsc : Nat → Nat) (acc : Nat) : Nat :=
  match p.mode with
  | 0 =>
    if isInteger fx then
      wrapTo 32 (acc + ((List.range k).map (fun j => rowInt fx x j * rowInt p.fmt w j)).foldl (· + ·) 0)
    else accAdd acc (f32Round (exactSum .rne (rowProducts fx p.fmt x w 0 k)))
  | 1 =>
    let blocks := (List.range (k / 16)).map (fun j =>
      ueScale (wsc j) (ueScale (asc j) (exactSum .rne (rowProducts fx p.fmt x w (16 * j) 16))))
    accAdd acc (f32Round (exactSum .rne blocks))
  | _ =>
    (List.range (k / 128)).foldl (fun acc g =>
      let sum := exactSum .rne (rowProducts fx p.fmt x w (128 * g) 128)
      accAdd acc (f32Round ((sum.mul (floatVal .f32 (asc g))).mul (floatVal .f32 (wsc g))))) acc

/-- Index of a weight scale of output column `j` (R259). -/
def weightScale (p : Plane) (k j n : Nat) : Nat :=
  (p.scales[if p.mode = 1 then j * (k / 16) + n else j / 128 * (k / 128) + n]?.getD 0).toNat

/-- Scales per activation row. -/
def rowScales (mode k : Nat) : Nat := if mode = 1 then k / 16 else if mode = 2 then k / 128 else 0

def bankGet (b : Bank) (r j : Nat) : Nat := (mget b.cells (r, j) 0).toNat

/-! ## Rows of the instructions in flight -/

/-- A weight row's scales that the column holds: those that no earlier row loaded, or none if one is missing. -/
def scalesFor (s : State) (ctx : CtxId) (e : Entry) (mode k j have_ : Nat) : Acc (List Nat) :=
  let need := if mode = 1 then (j + 1) * (k / 16) else if mode = 2 then (j / 128 + 1) * (k / 128) else 0
  match e.srcC with
  | none => .ok [] s
  | some o =>
    if need > o.len then openFault s 0x05
    else
      (List.range (need - have_)).foldr (fun n (go : List Nat → State → Acc (List Nat)) acc s =>
        (sourceElem s ctx e o (have_ + n)).bind fun x s => go (acc ++ [x]) s) (fun acc s => .ok acc s)
        |> fun go => go [] s

/-- A row whose weights are all zero: for tern5 each of its trits is the digit 1. DEDUCED (log entry 80): R259's rows at or above
LEN load as the value zero. -/
def zeroRow (f : Fmt) : List Byte := List.replicate 256 (if f = .tern5 then 121 else 0)

/-- The bytes of weight row `j` (R259). -/
def weightRow (s : State) (ctx : CtxId) (e : Entry) (f : Fmt) (j : Nat) : Acc (List Byte) :=
  match e.srcA with
  | some o =>
    if j ≥ o.len then .ok (zeroRow f) s
    else (sourceElem s ctx e o j).bind fun x s => .ok (leBytes 256 x) s
  | none =>
    let ea := e.opA + BitVec.ofNat 64 (256 * j)
    (readElement s ctx e (4096 * j) ea .v256 .v256 none).bind fun r s => .ok r.1 s

/-- `mldw`: one weight row into the shadow plane. -/
def loadRow (s : State) (ctx : CtxId) (e : Entry) (mode : Nat) (fmt : Fmt) : UnitRes :=
  let j := e.vs
  let k := match tileOf fmt with | some t => t.2.1 | none => 0
  let plane : Plane := if j = 0 then { fmt := fmt, mode := mode, rows := [], scales := [] }
    else (s.ctx ctx).shadow.getD { fmt := fmt, mode := mode, rows := [], scales := [] }
  UnitRes.of j (weightRow s ctx e fmt j) fun row s =>
    match (if fmt = .tern5 then (List.range 52).find? (fun i => !ternLegal ((row[i]?.getD 0).toNat)) else none) with
    | some i => .fault j 0x06 (BitVec.ofNat 64 i) s
    | none =>
      UnitRes.of j (scalesFor s ctx e mode k j plane.scales.length) fun xs s =>
        let plane := { plane with rows := plane.rows ++ [row], scales := plane.scales ++ xs.map (BitVec.ofNat 64) }
        .ok (s.modCtx ctx (fun c => { c with shadow := some plane }))

/-- Activation scales of row `r`. -/
def actScales (s : State) (ctx : CtxId) (e : Entry) (r n : Nat) : Acc (List Nat) :=
  match e.srcB with
  | none => .ok [] s
  | some o =>
    if (r + 1) * n > o.len then openFault s 0x05
    else
      (List.range n).foldr (fun i (go : List Nat → State → Acc (List Nat)) acc s =>
        (sourceElem s ctx e o (r * n + i)).bind fun x s => go (acc ++ [x]) s) (fun acc s => .ok acc s)
        |> fun go => go [] s

/-- `mmul` and `mmuls`: one activation row, all output columns (R262). -/
def mulRow (s : State) (ctx : CtxId) (e : Entry) (d : AReg) (row0 : Nat) : UnitRes :=
  let c := s.ctx ctx
  let r := e.vs
  match c.active, e.srcA with
  | some p, some o =>
    match tileOf p.fmt with
    | none => .wait s
    | some t =>
      let fx := t.1
      let k := t.2.1
      if row0 + r ≥ accRows s ctx then UnitRes.of (α := Unit) r (openFault s 0x05) fun _ s => .ok s
      else
        UnitRes.of r (actScales s ctx e r (rowScales p.mode k)) fun asc s =>
          UnitRes.of r (sourceElem s ctx e o r) fun x s =>
            let x := leBytes 256 x
            let a := c.acc[d]
            let cells := (List.range (32 * grantCount c)).foldl (fun (m : Map (Nat × Nat) (BitVec 32)) j =>
              let w := p.rows[j]?.getD (zeroRow p.fmt)
              mset m (row0 + r, j) (BitVec.ofNat 32
                (accNew p fx k x w (fun n => asc[n]?.getD 0) (weightScale p k j) (bankGet a.working (row0 + r) j)))) a.working.cells
            .ok (s.modCtx ctx (fun c => { c with acc := c.acc.set d { a with working := { a.working with cells := cells } } }))
  | _, _ => .wait s

/-- An element of a visible bank in format `f` (R264). -/
def bankElem (b : Bank) (f : Fmt) (r j : Nat) : Nat :=
  let x := bankGet b r j
  if b.tag = f then x else roundTo f .rne false (elemVal b.tag x)

/-- `macrd`: one row of `w` elements (R264). -/
def readRow (s : State) (ctx : CtxId) (e : Entry) (a : AReg) (row0 col0 w : Nat) : UnitRes :=
  let d := destOf e
  let b := ((s.ctx ctx).acc[a]).visible
  let vals := (List.range w).map (fun k => bankElem b d.fmt (row0 + e.vs) (col0 + k))
  UnitRes.of e.vs (writeElems ctx d.reg d.fmt (e.vs * w) vals s) fun _ s =>
    .ok (setEntry s ctx { e with oc := (e.vs + 1) * w })

/-- W and col0 of `macrd` (R264). -/
def readWindow (c : Ctx) (v : Word) : Nat × Nat :=
  let col0 := bitsAt v.toNat 0 9
  let w := bitsAt v.toNat 16 9
  (col0, if w = 0 then 32 * grantCount c - col0 else w)

/-- One row of a matrix instruction, and how many rows it has. -/
def matrixUnit (s : State) (ctx : CtxId) (e : Entry) : UnitRes × Nat :=
  match e.instr with
  | .mldw _ mode _ fmt => (loadRow s ctx e mode.toNat fmt, e.len)
  | .mmul d .. => (mulRow s ctx e d e.opB.toNat, e.len)
  | .mmuls d .. => (mulRow s ctx e d e.opC.toNat, e.len)
  | .macrd _ a .. =>
    let w := readWindow (s.ctx ctx) e.opC
    (readRow s ctx e a e.opB.toNat w.1 w.2, e.len / w.2)
  | _ => (.wait s, 0)

/-- What the next row of a matrix instruction reads is there, and its destination's row is free (R40). -/
def rowReady (c : Ctx) (older : List Entry) (e : Entry) : Bool :=
  let all (o : Option ColOperand) : Bool := operandReady older e o 0 (lenOf o)
  match e.instr with
  | .mldw .. => operandReady older e e.srcA e.vs (min (lenOf e.srcA) (e.vs + 1)) && all e.srcC
  | .macrd _ _ _ _ _ =>
    let w := (readWindow c e.opC).2
    e.dests.all (fun d => destReady older d.reg (e.vs * w) ((e.vs + 1) * w))
  | _ => operandReady older e e.srcA e.vs (e.vs + 1) && all e.srcB

/-- The step ACTIVATION_ROW: the oldest matrix instruction does its next row (R47). -/
def activationRow (s : State) (ctx : CtxId) : State :=
  let c := s.ctx ctx
  if !active c then s
  else
    match engineHead c .matrix with
    | none => s
    | some (e, older) =>
      if engineStands c older e || !rowReady c older e || rangeWaits s ctx older e then settle (forgive s ctx 4) ctx
      else
        let r := matrixUnit s ctx e
        settle (unitDone s ctx e r.1 (fun e => { e with vs := e.vs + 1, fin := e.vs + 1 ≥ r.2 })) ctx

/-- The event ACTIVATION_ROW. -/
def execActivationRow (c : CtxId) (s : State) : Out := .next (activationRow s c)

/-! ## 0x2A -/

/-- A matrix instruction that acts as it issues. -/
def matrixNow (s : State) : Out := managed s s.me

/-- Another context of the core holds row groups, or one saved there left its banks on the core (R361). -/
def coreAttached (s : State) (ctx : CtxId) : Bool :=
  (List.range 5).any (fun n => ctxOn (coreOf ctx) n ≠ ctx && (s.ctx (ctxOn (coreOf ctx) n)).gmask != 0)
    || s.areas.any (fun a => a.ret && coreOf a.ctx == coreOf ctx && a.saved.gmask != 0)

/-- The row groups that no context holds. -/
def freeGroups (s : State) (cl : ClusterId) : List (Fin 8) := (List.finRange 8).filter (fun g => ((s.cluster cl).groups[g]).isNone)

/-- The lowest `n` free row groups granted, accumulators cleared, planes empty (R256). -/
def grantGroups (s : State) (ctx : CtxId) (n : Nat) : State :=
  let gs := (freeGroups s (clusterOf ctx)).take n
  let s := s.modCluster (clusterOf ctx) (fun k => { k with groups := gs.foldl (fun (v : Vector (Option CtxId) 8) (g : Fin 8) => v.set g (some ctx)) k.groups })
  s.modCtx ctx (fun c => { c with
    gmask := BitVec.ofNat 8 ((gs.map (fun g => 2 ^ g.val)).foldl (· + ·) 0), shadow := none, active := none
    acc := Vector.replicate 4 Accumulator.clear })

/-- `matt` (R256). -/
def execMatt (a : Src) (s : State) : Out :=
  let c := s.me
  if windowFull c || hazard c [a] [] || matrixBusy c then .next s
  else
    let n := (readSrc c a).toNat
    if n = 0 || n > 8 || c.gmask != 0 then .next (refuse s 0x05)
    else if coreAttached s s.cur || poolAcs (s.core (coreOf s.cur)).poolw = 0 || freeGroups s (clusterOf s.cur) = [] then matrixNow s
    else matrixNow (grantGroups s s.cur n)

/-- `mdet` (R257). -/
def execMdet (s : State) : Out := if windowFull s.me || matrixBusy s.me then .next s else matrixNow (detach s s.cur)

/-- The formats of a scale column (R259, R262). -/
def scaleFmtOk (mode : Nat) (f : Fmt) : Bool := if mode = 1 then f == .ue8m0 else f == .f32

/-- `mldw.fmt.mode` (R259); in the reduced service of phase 3 only f16 (R416). -/
def execMldw (a : ColSrc) (mode : ScaleLit) (c : Option Col) (fmt : Fmt) (s : State) : Out :=
  let k := s.me
  let oa := operandOf s a
  let oc := c.elim Operand.none (colOperand s)
  let n := 32 * grantCount k
  let modeOk := match tileOf fmt with | some t => t.2.2.1.contains mode.toNat | none => false
  let colOk := match a with | .col r => colFmt k r == .v256 | .sc _ => true
  let scaleOk := match c with | some r => mode.toNat = 0 || scaleFmtOk mode.toNat (colFmt k r) | none => mode.toNat = 0
  let at_ := oa.val.toNat
  issue s (colsOf [a] ++ c.toList) (scsOf [a]) [] none
    (if n = 0 || !modeOk || !colOk || !scaleOk || (s.phase.toNat = 3 && fmt ≠ .f16) then .error 0x05
     else .ok { instr := .mldw a mode c fmt, engine := .matrix, fmt := fmt, mfmt := none, len := n, dests := [], sdest := none
                a := oa, b := Operand.none, c := oc, pol := k.pold &&& 0xFFFFFFE7
                ranges := match a with | .sc _ => [(at_, at_ + 256 * n, false)] | .col _ => [] }) plain

/-- `mflip` (R260): it waits for the matrix instructions in flight, which use the planes as they are. -/
def execMflip (s : State) : Out :=
  let c := s.me
  if windowFull c || matrixBusy c then .next s
  else if c.gmask = 0 || c.shadow.isNone then .next (refuse s 0x05)
  else matrixNow (s.setMe { c with active := c.shadow, shadow := none })

/-- The issue of `mmul` and `mmuls` (R262). -/
def multiply (i : Instr) (d : AReg) (a : Col) (cols : List Col) (x : Src) (b c : Operand) (modeOk : Nat → Fmt → Bool) (s : State) : Out :=
  let k := s.me
  let oa := colOperand s a
  let ok := match k.active with
    | none => false
    | some p =>
      modeOk p.mode p.fmt && (match tileOf p.fmt with | some t => k.acc[d].working.tag == t.2.2.2 p.mode | none => false)
  issue s (a :: cols) [x] [] none
    (if ok && colFmt k a == .v256 then
       .ok { instr := i, engine := .matrix, fmt := .v256, mfmt := none, len := lenOf oa.col, dests := [], sdest := none
             a := oa, b := b, c := c, pol := 0 }
     else .error 0x05) plain

/-- `mmul` (R262). -/
def execMmul (d : AReg) (a : Col) (b : Src) (s : State) : Out :=
  multiply (.mmul d a b) d a [] b (scalarOperand s.me b) Operand.none (fun m _ => m == 0) s

/-- `mmuls` (R262). -/
def execMmuls (d : AReg) (a b : Col) (c : Src) (s : State) : Out :=
  multiply (.mmuls d a b c) d a [b] c (colOperand s b) (scalarOperand s.me c)
    (fun m _ => m != 0 && scaleFmtOk m (colFmt s.me b)) s

/-- `macswp` (R263): it waits until the accumulator is quiescent and no read of it is in flight (R265). -/
def execMacswp (d : AReg) (s : State) : Out :=
  let c := s.me
  if windowFull c || c.window.any (fun e => usesAcc e d) then .next s
  else
    let a := c.acc[d]
    matrixNow (s.setMe { c with acc := c.acc.set d { working := a.visible, visible := a.working } })

/-- `macclr.fmt` (R263). -/
def execMacclr (d : AReg) (fmt : Fmt) (s : State) : Out :=
  let c := s.me
  if windowFull c || c.window.any (fun e => usesAcc e d) then .next s
  else if !(fmt == .f32 || fmt == .i32) then .next (refuse s 0x05)
  else matrixNow (s.setMe { c with acc := c.acc.set d { c.acc[d] with working := Bank.clear fmt } })

/-- `macrd.fmt` (R264). -/
def execMacrd (d : CReg) (a : AReg) (b c : Src) (fmt : Fmt) (s : State) : Out :=
  let k := s.me
  let w := readWindow k (readSrc k c)
  let tag := k.acc[a].visible.tag
  let fmtOk := if tag = .f32 then [Fmt.f32, .f16, .bf16, .e4m3, .e5m2].contains fmt else fmt == .i32 || fmt == .f32
  let vl := k.vl.toNat
  let n := vl * w.2
  let ok := fmtOk && decide ((readSrc k b).toNat + vl ≤ accRows s s.cur) && decide (w.1 + w.2 ≤ 32 * grantCount k) && destsOk k [d]
  issue s [] [b, c] [] none
    (if ok then
       .ok { instr := .macrd d a b c fmt, engine := .matrix, fmt := fmt, mfmt := none, len := n, dests := [(.c d, fmt, some n)]
             sdest := none, a := Operand.none, b := scalarOperand k b, c := scalarOperand k c, pol := 0 }
     else .error 0x05) plain

end Sys2Proof.Machine
end

