-- ==== Sys2Proof/Machine/Exact.lean ====
section
/-! DEFINITION. Exact reductions: major op 0x2B and the step BYTE_BATCH (R59, R72, R267-R270). -/

namespace Sys2Proof.Machine

/-- The formats `xred` adds (R267). -/
def xredOk (f : Fmt) : Bool :=
  [Fmt.f16, .bf16, .f32, .e4m3, .e5m2, .e2m1].contains f || isInteger f

/-- The formats `xfin` rounds to (R268). -/
def xfinOk (f : Fmt) : Bool := [Fmt.f16, .bf16, .f32, .f64].contains f || isInteger f

/-- The exact value that an element adds (R64, R267). -/
def addend (f : Fmt) (ftz : Bool) (x : Nat) : Val := if isFloat f then floatVal f (ftzSource f ftz x) else intVal (intOf f x)

/-- The address of xacc `i`. -/
def xaccEa (e : Entry) (i : Nat) : Word := e.opA + BitVec.ofNat 64 (48 * i)

/-- Elements of the batch at byte offset `vs` (R270): 256 source bytes of `xred`, else the xaccs that begin in 256 bytes. -/
def byteBatch (e : Entry) : List Nat :=
  let r := match e.instr with
    | .xred .. => (elemsIn e.fmt e.vs, elemsIn e.fmt (e.vs + 256))
    | _ => (ceilDiv e.vs 48, ceilDiv (e.vs + 256) 48)
  (List.range (min r.2 e.len - r.1)).map (· + r.1)

/-- Alignment, translation, protection and lease of an xacc. -/
def xaccPlace (s : State) (ctx : CtxId) (e : Entry) (k : Kind) (i : Nat) : Acc (List Piece) :=
  let ea := xaccEa e i
  if ea.toNat % 16 ≠ 0 then .fault 0x0B ea s else resolve s (entryWho ctx e) k ea 48

/-- Whether a read of the pieces meets poison. -/
def piecesPoisoned (s : State) (ps : List Piece) : Bool :=
  ps.any (fun p => match p.place with | .mem pa _ => s.poisoned pa p.len | _ => false)

/-- The pieces of a peer's page, if the xacc lies there. -/
def peerPiece (ps : List Piece) : Option (Nat × Page) :=
  match ps with
  | { place := .peer pa page, .. } :: _ => some (pa, page)
  | _ => none

/-- One addition, indivisible at its home (R267): at a peer it is one xacc add, which carries the addend in the form of an xacc (log entry 15). -/
def addOne (s : State) (ctx : CtxId) (e : Entry) (ftz : Bool) (i : Nat) : UnitRes :=
  let ea := xaccEa e i
  match e.srcB with
  | none => .wait s
  | some o =>
    UnitRes.of i (xaccPlace s ctx e .atomic i) fun ps s =>
      if piecesPoisoned s ps then .fault i 0x0C ea s
      else
        UnitRes.of i (sourceElem s ctx e o i) fun x s =>
          match peerPiece ps with
          | some (pa, page) =>
            UnitRes.of i (peerAsk (setDirty s (s.ctx ctx).part page) ctx (e.seq + 1, 4096 * i, 0) .xaccAdd
                (flitFor s ctx 4 (pteTgt page.w1) pa 48 (opcOf 0 false e.pol) (leBytes 48 (xaccAdd 0 (addend o.fmt ftz x)))) ea ea
                page.pte)
              fun _ s => .ok s
          | none =>
            UnitRes.of i (readPieces (entryWho ctx e) (e.seq + 1, 4096 * i) ea ps s) fun bs s =>
              UnitRes.of i (writePieces (entryWho ctx e) (e.seq + 1, 4096 * i + 1) ea
                  (leBytes 48 (xaccAdd (ofLe bs) (addend o.fmt ftz x))) ps s) fun _ s => .ok s

/-- One xacc rounded into the destination (R268). -/
def roundOne (s : State) (ctx : CtxId) (e : Entry) (m : Arith) (i : Nat) : UnitRes :=
  let ea := xaccEa e i
  let d := destOf e
  UnitRes.of i (xaccPlace s ctx e .read i) fun ps s =>
    UnitRes.of i (readPieces (entryWho ctx e) (e.seq + 1, 4096 * i) ea ps s) fun bs s =>
      match raceCheck s ctx e.ph false ps with
      | none => .fault i 0x08 ea s
      | some s =>
        UnitRes.of i (writeElem (afterRead s ctx e.pol ps) ctx d.reg d.fmt i (xaccRound d.fmt m (ofLe bs))) fun _ s => .ok s

/-- One xacc cleared: a sector it covers whole loses its poison, one it covers in part is met (R269, R417). -/
def clearOne (s : State) (ctx : CtxId) (e : Entry) (i : Nat) : UnitRes :=
  let ea := xaccEa e i
  UnitRes.of i (xaccPlace s ctx e .write i) fun ps s =>
    if writePoison s ps then .fault i 0x0C ea s
    else
      match raceCheck s ctx e.ph true ps with
      | none => .fault i 0x08 ea s
      | some s =>
        UnitRes.of i (writePieces (entryWho ctx e) (e.seq + 1, 4096 * i) ea (List.replicate 48 0) ps s) fun _ s => .ok s

/-- Every element that can be performed is, and is masked; the lowest fault stands (R270). -/
def performMasked (one : Nat → State → UnitRes) (lo : Nat) : List Nat → State → State × List Nat × Option (Nat × Nat × Word) × Bool
  | [], s => (s, [], none, false)
  | i :: is, s =>
    match one i s with
    | .ok s => let r := performMasked one lo is s; (r.1, (i - lo) :: r.2.1, r.2.2)
    | .fault k cause addr s => let r := performMasked one lo is s; (r.1, r.2.1, some (k, cause, addr), r.2.2.2)
    | .wait s => let r := performMasked one lo is s; (r.1, r.2.1, r.2.2.1, true)

/-- One batch: every check first, then the elements. -/
def exactUnit (s : State) (ctx : CtxId) (e : Entry) : UnitRes :=
  let batch := byteBatch e
  let lo := batch.headD 0
  let kind : Kind := match e.instr with | .xred .. => .atomic | .xfin .. => .read | _ => .write
  let one (i : Nat) (s : State) : UnitRes :=
    let e := ((s.ctx ctx).window.find? (·.seq = e.seq)).getD e
    match e.instr with
    | .xred _ _ ftz => addOne s ctx e ftz i
    | .xfin _ _ _ m => roundOne s ctx e m i
    | _ => clearOne s ctx e i
  match eachUnit (fun i s => UnitRes.of i (xaccPlace s ctx e kind i) fun _ s => .ok s) batch s with
  | .ok s =>
    let r := performMasked one lo (batch.filter (fun i => !e.mask.contains (i - lo))) s
    let s := match (r.1.ctx ctx).window.find? (·.seq = e.seq) with
      | some e => setEntry r.1 ctx { e with mask := e.mask ++ r.2.1 }
      | none => r.1
    if r.2.2.2 then .wait s
    else match r.2.2.1 with
      | some (k, cause, addr) => .fault k cause addr s
      | none => .ok s
  | r => r

/-- The elements of the batch that it reads, or writes, in columns (R40). -/
def batchReady (older : List Entry) (e : Entry) : Bool :=
  match (byteBatch e).head?, (byteBatch e).getLast? with
  | some lo, some hi => spanReady older e lo (hi + 1)
  | _, _ => true

/-- The step BYTE_BATCH: the oldest exact reduction does its next batch. -/
def byteBatchStep (s : State) (ctx : CtxId) : State :=
  let c := s.ctx ctx
  if !active c then s
  else
    match engineHead c .exact with
    | none => s
    | some (e, older) =>
      if engineStands c older e || !batchReady older e || rangeWaits s ctx older e then settle (forgive s ctx 4) ctx
      else
        let top := (byteBatch e).getLast?.elim e.len (· + 1)
        let isFin : Bool := match e.instr with | .xfin .. => true | _ => false
        settle (unitDone s ctx e (exactUnit s ctx e) (fun e =>
          { e with vs := e.vs + 256, mask := [], fin := top ≥ e.len, oc := if isFin then top else e.oc })) ctx

/-- The event BYTE_BATCH. -/
def execByteBatch (c : CtxId) (s : State) : Out := .next (byteBatchStep s c)

/-- A plan of the exact-reduction engine over `n` xaccs at `a`. -/
def exactPlan (s : State) (i : Instr) (f : Fmt) (n : Nat) (dests : List (Col × Fmt × Option Nat)) (a : Src) (b : Operand) (wr : Bool) : Plan :=
  let at_ := (readSrc s.me a).toNat
  { instr := i, engine := .exact, fmt := f, mfmt := none, len := n, dests := dests, sdest := none, a := scalarOperand s.me a, b := b
    c := Operand.none, pol := s.me.pold &&& 0xFFFFFFE7, ranges := if n = 0 then [] else [(at_, at_ + 48 * n, wr)] }

/-- `xred` (R267). -/
def execXred (a : Src) (b : Col) (ftz : Bool) (s : State) : Out :=
  let ob := colOperand s b
  let f := colFmt s.me b
  issue s [b] [a] [] none
    (if xredOk f then .ok (exactPlan s (.xred a b ftz) f (lenOf ob.col) [] a ob true) else .error 0x05) plain

/-- `xfin` (R268). -/
def execXfin (d : CReg) (a b : Src) (m : Arith) (s : State) : Out :=
  let f := colFmt s.me (.c d)
  let n := (readSrc s.me b).toNat
  issue s [] [a, b] [] none
    (if xfinOk f && destsOk s.me [d] && decide (n ≤ 2 ^ 32 - 1) then
       .ok (exactPlan s (.xfin d a b m) f n [(.c d, f, some n)] a Operand.none false)
     else .error 0x05) plain

/-- `xclr` (R269). -/
def execXclr (a b : Src) (s : State) : Out :=
  let n := (readSrc s.me b).toNat
  issue s [] [a, b] [] none
    (if n ≤ 2 ^ 32 - 1 then .ok (exactPlan s (.xclr a b) .xacc n [] a Operand.none true) else .error 0x05) plain

end Sys2Proof.Machine
end

