-- ==== Sys2Proof/Machine/Copies.lean ====
section
/-! DEFINITION. Copies and tile transforms: major op 0x29 and the step COPY_SEGMENT (R235, R248-R254, R305, R407). -/

namespace Sys2Proof.Machine

/-! ## Storage (R233, R235, R251) -/

/-- Compressed storage: the scratchpad, and pages with the compressed bit. -/
def compressedAt (pl : Place) : Bool :=
  match pl with
  | .pool .spd _ => true
  | .pool .srf _ => false
  | .mem _ page | .peer _ page => pteComp page.w1

/-- The tile of a piece, where it lies in compressed storage. -/
def tileOfPiece (x : Piece) : Option Nat :=
  if compressedAt x.place then
    match x.place with
    | .pool _ off => some (off / 4096)
    | .mem pa _ | .peer pa _ => some (pa / 4096)
  else none

/-- What a segment's read adds to the fetch meters: the bytes as stored (R235); each compressed tile counts once, whole, in the
first segment that reads of it (log entry 23). -/
def fetched (s : State) (ctx : CtxId) (first : Bool) (ps : List Piece) (bs : List Byte) : Nat :=
  let plain := ((ps.filter (fun x => (tileOfPiece x).isNone)).map (·.len)).foldl (· + ·) 0
  let step (acc : List Nat × Nat) (x : Piece) : List Nat × Nat :=
    match tileOfPiece x with
    | none => acc
    | some t =>
      let at_ := match x.place with | .pool _ off => off % 4096 | .mem pa _ | .peer pa _ => pa % 4096
      if acc.1.contains t then acc
      else
        let n := match x.place with
          | .pool .spd _ => storedBytes ((s.core (coreOf ctx)).rawTiles.contains t) ((s.core (coreOf ctx)).spd.bytes (4096 * t) 4096)
          | .mem _ _ => storedBytes false (s.bytesPA (4096 * t) 4096)
          | _ => if bs.length = 4096 then storedBytes false bs else bs.length
        (t :: acc.1, if first || at_ = 0 then acc.2 + n else acc.2)
  plain + (ps.foldl step ([], 0)).2

/-! ## Segments (R250) -/

/-- The pieces of `n` sectors from `va`, each checked at its own address; a read also meets poison. -/
def segPieces (w : Who) (k : Kind) : Nat → Nat → Nat → State → Acc (List Piece)
  | 0, _, _, s => .ok [] s
  | n + 1, i, va, s =>
    let ea := BitVec.ofNat 64 va
    (resolve s w k ea 32).bind fun ps s =>
      if k == .read && piecesPoisoned s ps then .fault 0x0C ea s
      else (segPieces w k n (i + 32) (va + 32) s).bind fun rest s => .ok (ps.map (fun p => { p with at_ := p.at_ + i }) ++ rest) s

/-- A segment that lies in one run of a peer's memory. -/
def peerRun (ps : List Piece) : Option (Nat × Page) :=
  match peerPiece ps with
  | some (pa, page) =>
    if ps.all (fun p => match p.place with
        | .peer q g => q == pa + p.at_ && pteTgt g.w1 == pteTgt page.w1
        | _ => false) then some (pa, page) else none
  | none => none

/-- The bytes of a segment's source: one request for a run at a peer. -/
def segRead (s : State) (ctx : CtxId) (e : Entry) (j : Nat) (ea : Word) (n : Nat) (ps : List Piece) : Acc (List Byte) :=
  match peerRun ps with
  | some (pa, page) =>
    peerAsk s ctx (e.seq + 1, 4096 * j, 0) .segRead (flitFor s ctx 8 (pteTgt page.w1) pa n (opcOf 0 false e.pol) []) ea ea page.pte
  | none => readPieces (entryWho ctx e) (e.seq + 1, 4096 * j) ea ps s

def segWrite (s : State) (ctx : CtxId) (e : Entry) (j : Nat) (ea : Word) (bs : List Byte) (ps : List Piece) : Acc Unit :=
  match peerRun ps with
  | some (pa, page) =>
    (peerAsk (setDirty s (s.ctx ctx).part page) ctx (e.seq + 1, 4096 * j + 1, 0) .segWrite
        (flitFor s ctx 7 (pteTgt page.w1) pa bs.length (opcOf 0 false e.pol (failedRelease s (entryWho ctx e))) bs) ea ea page.pte).bind
      fun _ s => .ok () (l1Drop s (coreOf ctx) (placeKey (coreOf ctx) (.peer pa page)) bs.length)
  | none => writePieces (entryWho ctx e) (e.seq + 1, 4096 * j + 1) ea bs ps s

/-- What R251 requires of the two sides. -/
def sidesOk (i : Instr) (src dst : Bool) : Bool :=
  match i with
  | .cpy .. => src == dst
  | .cpyx .. => src && !dst
  | .cpyc .. => !src && dst
  | _ => true

/-- The race checks of a segment, sector by sector: a conflict names its address (R290). -/
def raceSegment (ctx : CtxId) (ph : Nat) (write : Bool) : List Piece → State → Acc Unit
  | [], s => .ok () s
  | p :: ps, s =>
    match raceCheck s ctx ph write [p] with
    | none => .fault 0x08 (BitVec.ofNat 64 p.va) s
    | some s => raceSegment ctx ph write ps s

def raceSides (s : State) (ctx : CtxId) (e : Entry) (sp dp : List Piece) : Acc Unit :=
  if polOrder e.pol ≠ 0 then .ok () s
  else
    match (raceSegment ctx e.ph false sp s).bind (fun _ s => raceSegment ctx e.ph true dp s) with
    | .fault cause addr _ => .fault cause addr s
    | r => r

/-- `cpy` between scratchpad tiles moves them as they are stored, wherever a whole tile is covered on both sides (R251): once every
segment of the tile is there, its copy is raw where the tile is. -/
def moveTiles (s : State) (ctx : CtxId) (e : Entry) (j : Nat) : State :=
  let k := coreOf ctx
  let src := e.opB.toNat - windowBase
  let dst := e.opA.toNat - windowBase
  let moved (s : State) (t : Nat) : State :=
    let here := 4096 * t
    let off := here - dst
    let segs := [off / 4096, (off + 4095) / 4096]
    if here < dst || here + 4096 > dst + e.len || !segs.all (fun g => 4096 * g < e.vs || e.late.contains g || g = j) then s
    else
      match poolAt (s.core k) (src + off) 4096, poolAt (s.core k) here 4096 with
      | some (.spd, a), some (.spd, b) =>
        if (s.core k).rawTiles.contains (a / 4096) && !(s.core k).rawTiles.contains (b / 4096) then
          s.modCore k (fun c => { c with rawTiles := b / 4096 :: c.rawTiles })
        else s
      | _, _ => s
  match e.instr with
  | .cpy .. =>
    if inWindow e.opA.toNat && inWindow e.opB.toNat && src % 4096 = dst % 4096 then
      [(dst + 4096 * j) / 4096, (dst + 4096 * j + 4095) / 4096].foldl moved s
    else s
  | _ => s

/-- Segment `j` of a copy: checks on both sides, then the bytes. Sides that do not fit name the segment's first byte (R251), of
one side or the other (log entry 34). -/
def copyUnit (s : State) (ctx : CtxId) (e : Entry) (j : Nat) : UnitRes :=
  let n := min 4096 (e.len - 4096 * j)
  let src := e.opB.toNat + 4096 * j
  let dst := e.opA.toNat + 4096 * j
  let w := entryWho ctx e
  UnitRes.of j (segPieces w .read (n / 32) 0 src s) fun sp s =>
    UnitRes.of j (segPieces w .write (n / 32) 0 dst s) fun dp s =>
      if !sp.all (fun p => dp.all (fun q => sidesOk e.instr (compressedAt p.place) (compressedAt q.place))) then
        .fault j 0x05 (BitVec.ofNat 64 (if Config.pick s.fresh % 2 = 0 then src else dst)) s.draw
      else
        match sp.find? (fun x => acquireMeets s (coreOf ctx) e.pol [x]) with
        | some x => .fault j 0x0C (BitVec.ofNat 64 x.va) s
        | none =>
          UnitRes.of j (raceSides s ctx e sp dp) fun _ s =>
            UnitRes.of j (segRead s ctx e j (BitVec.ofNat 64 src) n sp) fun bs s =>
              let s := { s with meter := s.meter + fetched s ctx (j = 0) sp bs }
              let s := afterRead s ctx e.pol sp
              UnitRes.of j (segWrite s ctx e j (BitVec.ofNat 64 dst) bs dp) fun _ s =>
                .ok (moveTiles (releasePieces s ctx e dp) ctx e j)

/-- Tile `j` of `txc` or `txe` (R253): raw, or coded again; SRF tiles are not changed. -/
def tileUnit (s : State) (ctx : CtxId) (e : Entry) (j : Nat) : UnitRes :=
  let k := coreOf ctx
  match poolAt (s.core k) (e.opA.toNat + 4096 * j - windowBase) 4096 with
  | some (.spd, off) =>
    let tile := off / 4096
    .ok (s.modCore k (fun c => { c with rawTiles := match e.instr with
      | .txe .. => if c.rawTiles.contains tile then c.rawTiles else tile :: c.rawTiles
      | _ => c.rawTiles.filter (· ≠ tile) }))
  | some (.srf, _) => .ok s
  | none => .fault j 0x02 (e.opA + BitVec.ofNat 64 (4096 * j)) s

def segUnit (s : State) (ctx : CtxId) (e : Entry) (j : Nat) : UnitRes :=
  match e.instr with
  | .txc .. | .txe .. => tileUnit s ctx e j
  | _ => copyUnit s ctx e j

/-! ## Counting segments (R250, R252) -/

/-- What happens when the last source segment has been read, and when the last segment counts as complete. -/
def copyEnd (s : State) (ctx : CtxId) (e : Entry) : State :=
  let k := coreOf ctx
  match copyBuf e.instr with
  | some (b, true) => setBuf s k b { getBuf s k b with st := .full, filler := none }
  | some (b, false) => if e.consumed then s else giveBack s k b
  | none => s

/-- A copy whose segments, as they count, make releases: decrements of a barrier, and transitions of a buffer (R241, R282). -/
def countReleases (e : Entry) : Bool := e.bind.isSome || (copyBuf e.instr).isSome

/-- Segments counted from the lowest upward, each with the decrement of its destination bytes; where that is a release it is held
back until every earlier access of the context is performed (R279). -/
def countSegments (ctx : CtxId) (seq : Nat) : Nat → State → UnitRes
  | 0, s => .ok s
  | fuel + 1, s =>
    match (s.ctx ctx).window.find? (·.seq = seq) with
    | none => .ok s
    | some e =>
      let j := e.vs / 4096
      if !e.late.contains j || e.vs ≥ e.len || (countReleases e && !mayMove (s.ctx ctx) seq) then .ok s
      else
        let s := if countReleases e then drainReleased s ctx else s
        let n := min 4096 (e.len - e.vs)
        let dec : Acc Unit := match e.bind with
          | some b => barDecrement s ctx b n e.clock
          | none => .ok () s
        UnitRes.of j dec fun _ s =>
          let e := ((s.ctx ctx).window.find? (·.seq = seq)).getD e
          let vs := min (e.vs + 4096) e.len
          let e := { e with vs := vs, late := e.late.filter (· ≠ j), fin := vs ≥ e.len }
          countSegments ctx seq fuel (setEntry (if e.fin then copyEnd s ctx e else s) ctx { e with consumed := e.consumed || e.fin })

/-- The segments not transferred yet. -/
def segmentsLeft (e : Entry) : List Nat :=
  ((List.range (ceilDiv e.len 4096)).drop (e.vs / 4096)).filter (fun j => !e.late.contains j)

/-- A copy that may go on: admitted, its ranges clear of older instructions, no fault held. -/
def copyReady (s : State) (ctx : CtxId) (e : Entry) : Bool :=
  let older := (s.ctx ctx).window.filter (fun p => p.seq < e.seq)
  e.engine = .stream && !e.fin && !engineStands (s.ctx ctx) older e && (bufNeeds (s.ctx ctx) e).isEmpty && !rangeWaits s ctx older e
    && !(segmentsLeft e = [] && countReleases e && !mayMove (s.ctx ctx) e.seq)

/-- The step COPY_SEGMENT: some segment of the oldest copy that may go on; segments are mutually unordered, so a fault counts
only where every lower segment is done. -/
def copySegment (s : State) (ctx : CtxId) : State :=
  let c := s.ctx ctx
  if !active c then s
  else
    match c.window.find? (copyReady s ctx) with
    | none => settle (forgive s ctx 4) ctx
    | some e =>
      let s := if polRel e.pol then drainReleased s ctx else s
      let left := segmentsLeft e
      let k := Config.pick s.fresh % max 1 left.length
      let s := s.draw
      match left[k]? with
      | none =>
        match countSegments ctx e.seq (ceilDiv e.len 4096 + 1) s with
        | .ok s | .wait s => settle s ctx
        | .fault j cause addr s => settle (holdUnit s ctx e.seq 4 j cause addr) ctx
      | some j =>
        match segUnit s ctx e j with
        | .wait s' => keepRequests s s'
        | .fault i cause addr s' => if k = 0 && e.vs / 4096 = j then settle (holdUnit s' ctx e.seq 4 i cause addr) ctx else s
        | .ok s =>
          let s := clearReqs s ctx (e.seq + 1) (4096 * j) (4096 * j + 4096)
          let s := match (s.ctx ctx).window.find? (·.seq = e.seq) with
            | some e =>
              let last := left.length == 1
              let s := setEntry s ctx { e with late := e.late ++ [j] }
              -- the operands-consumed event of a drain comes with its last source segment (R252)
              match last && mayMove (s.ctx ctx) e.seq, copyBuf e.instr with
              | true, some (b, false) =>
                let s := drainReleased s ctx
                giveBack (setEntry s ctx { e with late := e.late ++ [j], consumed := true }) (coreOf ctx) b
              | _, _ => s
            | none => s
          match countSegments ctx e.seq (ceilDiv e.len 4096 + 1) s with
          | .ok s | .wait s => settle s ctx
          | .fault i cause addr s => settle (holdUnit s ctx e.seq 4 i cause addr) ctx

/-- The event COPY_SEGMENT. -/
def execCopySegment (c : CtxId) (s : State) : Out := .next (copySegment s c)

/-! ## Issue -/

/-- The binding a copy names: none, or BBn, which must be valid (R305). -/
def bindingOf (c : Ctx) (q : Binding) : Option Word := q.map (fun n => c.bb[n])
def bindingBad (c : Ctx) (q : Binding) : Bool := match bindingOf c q with | some w => w.toNat % 2 = 0 | none => false

/-- The address of a buffer side: an offset into the entry. -/
def bufferVa (e : BufEntry) (off : Word) : Nat := windowBase + 256 * e.base + off.toNat

/-- The issue checks of R249 in order. -/
def copyBad (s : State) (p : BitVec 32) (n a b : Word) (q : Binding) (buf : BufSide) : Option Nat :=
  let c := s.me
  let x := getBuf s (coreOf s.cur) buf.handle
  let off := if buf.mode = 1 then a else b
  let dst := if buf.mode = 1 then bufferVa x a else a.toNat
  let src := if buf.mode = 2 then bufferVa x b else b.toNat
  if polBad p then some 0x05
  else if n.toNat % 32 ≠ 0 || a.toNat % 32 ≠ 0 || b.toNat % 32 ≠ 0 then some 0x0B
  else if buf.mode = 3 || (buf.mode = 0 && buf.handle ≠ 0) then some 0x05
  else if buf.mode ≠ 0 && off.toNat + n.toNat > 256 * x.size then some 0x05
  else if src < dst + n.toNat && dst < src + n.toNat then some 0x05
  else if buf.mode ≠ 0 && (bufBad c x false).isSome then bufBad c x false
  else if bindingBad c q then some 0x05
  else none

/-- What a copy captures beside its plan (R305). -/
def withBinding (b : Option Word) (_ : State) (e : Entry) : Entry := { e with bind := b }

/-- A copy of major op 0x29 (R248). -/
def copy (i : Instr) (d : SReg) (a b : Src) (pol : SReg) (q : Binding) (buf : BufSide) (s : State) : Out :=
  let c := s.me
  let p := policyOf c pol
  let n := getS c d
  let x := getBuf s (coreOf s.cur) buf.handle
  let dst := BitVec.ofNat 64 (if buf.mode = 1 then bufferVa x (readSrc c a) else (readSrc c a).toNat)
  let src := BitVec.ofNat 64 (if buf.mode = 2 then bufferVa x (readSrc c b) else (readSrc c b).toNat)
  issue s [] [a, b] [d, pol] none
    (match copyBad s p n (readSrc c a) (readSrc c b) q buf with
     | some cause => .error cause
     | none =>
       .ok { instr := i, engine := .stream, fmt := .n8, mfmt := none, len := n.toNat, dests := [], sdest := none
             a := { col := none, val := dst }, b := { col := none, val := src }, c := Operand.none, pol := p
             ranges := if n = 0 then [] else
               [(src.toNat, src.toNat + n.toNat, false), (dst.toNat, dst.toNat + n.toNat, true)] })
    (withBinding (bindingOf c q))

/-- `cpy` (R248-R252). -/
def execCpy (d : SReg) (a b : Src) (pol : SReg) (q : Binding) (buf : BufSide) (s : State) : Out :=
  copy (.cpy d a b pol q buf) d a b pol q buf s
/-- `cpyx` (R248-R252). -/
def execCpyx (d : SReg) (a b : Src) (pol : SReg) (q : Binding) (buf : BufSide) (s : State) : Out :=
  copy (.cpyx d a b pol q buf) d a b pol q buf s
/-- `cpyc` (R248-R252). -/
def execCpyc (d : SReg) (a b : Src) (pol : SReg) (q : Binding) (buf : BufSide) (s : State) : Out :=
  copy (.cpyc d a b pol q buf) d a b pol q buf s

/-- `txc` and `txe` (R253). -/
def transform (i : Instr) (d : SReg) (a : Src) (pol : SReg) (q : Binding) (s : State) : Out :=
  let c := s.me
  let p := policyOf c pol
  let n := (getS c d).toNat
  let at_ := (readSrc c a).toNat
  let inside := inWindow at_ && (poolAt (s.core (coreOf s.cur)) (at_ - windowBase) n).isSome
  let bad : Option Nat :=
    if polBad p then some 0x05
    else if at_ % 4096 ≠ 0 || n % 4096 ≠ 0 then some 0x0B
    else if !inside || bindingBad c q then some 0x05
    else none
  issue s [] [a] [d, pol] none
    (match bad with
     | some cause => .error cause
     | none =>
       .ok { instr := i, engine := .stream, fmt := .n8, mfmt := none, len := n, dests := [], sdest := none
             a := scalarOperand c a, b := Operand.none, c := Operand.none, pol := p
             ranges := if n = 0 then [] else [(at_, at_ + n, true)] })
    (withBinding (bindingOf c q))

/-- `txc` (R253). -/
def execTxc (d : SReg) (a : Src) (pol : SReg) (q : Binding) (s : State) : Out := transform (.txc d a pol q) d a pol q s
/-- `txe` (R253). -/
def execTxe (d : SReg) (a : Src) (pol : SReg) (q : Binding) (s : State) : Out := transform (.txe d a pol q) d a pol q s

end Sys2Proof.Machine
end

