-- ==== Sys2Proof/Machine/Sync.lean ====
section
/-! DEFINITION. Barrier instructions, hardware queues, and the steps QUEUE_REQUEST and QUEUE_REPLY: major ops 0x38 and 0x39
(R297-R308). -/

namespace Sys2Proof.Machine

/-! ## 0x38 barriers (R303) -/

/-- What a release waits for that does not leave the core before it is performed (R279, log entry 89); the earlier scalar stores
reach memory first. -/
def releaseThen (s : State) (k : State → Out) : Out := if !enginesQuiet s s.cur then .next s else k (drainReleased s s.cur)

/-- The clock of an object, by its address (R299, R305). -/
def barClock (s : State) (addr : Word) : Clock := mget s.barClocks (s.me.part, addr) []

/-- An operation on an object waits for the context's earlier ones there, decrements of copies in flight among them (R300), and for
the older accesses to its bytes (R274, R280). -/
def objectWaits (c : Ctx) (addr : Word) (write : Bool) : Bool :=
  scalarWaits c addr 32 write
    || c.window.any (fun e => e.bind.any (fun b => BitVec.ofNat 64 (bitsAt b.toNat 5 52 * 32) == addr))
    || c.posted.any (fun p => match p.instr with | .barInit _ _ => p.ops.head? == some addr | _ => false)

/-- The context's own scalar stores to an object's bytes come first (R272). -/
def ownStoresFirst (s : State) (addr : Word) : State :=
  if storeHit s.me addr.toNat (addr.toNat + 32) then drainStores s s.cur else s

/-- The home of an object as words that a release carries. -/
def homeWords : BarHome → List Word
  | .pad k off => [1, BitVec.ofNat 64 k.toNat, BitVec.ofNat 64 off]
  | .mem pa => [0, 0, BitVec.ofNat 64 pa]

def homeOfWords (ws : List Word) : BarHome :=
  if ws[0]?.getD 0 = 1 then .pad (BitVec.ofNat 9 (ws[1]?.getD 0).toNat) (ws[2]?.getD 0).toNat else .mem (ws[2]?.getD 0).toNat

/-- `bar.init` at the object (R303): waiters return broken, then every field is set; PSN only over a store that failed. -/
def initBarrier (s : State) (ctx : CtxId) (h : BarHome) (addr : Word) (n : Nat) : State :=
  let s := wakeAll s h none true false
  let s := barWrite s (coreOf ctx) h
    { broken := false, psn := storeFailed s ctx, pend := 0, gen := 0, exp := n, arr := 0, rest := 0 }
  { s with barClocks := mdel s.barClocks ((s.ctx ctx).part, addr) }

/-- `bar.init` (R303): a release. -/
def execBarInit (a b : Src) (s : State) : Out :=
  onReady s [a, b] []
    (let addr := readSrc s.me a
     let n := (readSrc s.me b).toNat
     if n = 0 || n > 65535 then .next (refuse s 0x05)
     else if objectWaits s.me addr true then .next s
     else finish (barResolve (ownStoresFirst s addr) s.cur .write true addr) fun h s =>
       postRelease s (.barInit a b) ([addr, BitVec.ofNat 64 n] ++ homeWords h) retire
         (fun s => initBarrier (s.setMe (retire s.me)) s.cur h addr n))

/-- `bar.post` (R303). -/
def execBarPost (a b : Src) (s : State) : Out :=
  onReady s [a, b] []
    (let addr := readSrc s.me a
     let n := (readSrc s.me b).toNat
     if objectWaits s.me addr true then .next s
     else
       match barResolve (ownStoresFirst s addr) s.cur .atomic false addr with
       | .fault cause ea s => .next (freezeHere s cause 0 ea)
       | .wait s => .next s
       | .ok h s =>
         let s := barSeen s (coreOf s.cur) h
         let o := barRead s h
         if o.broken || n = 0 then .next (s.setMe (retire s.me))
         else if o.pend + n > 2 ^ 56 - 1 then .next (freezeHere s 0x09 0 addr)
         else
           let s := barWrite s (coreOf s.cur) h { o with pend := o.pend + n }
           .next (s.setMe (retire s.me)))

/-- `bar.arr` (R303): s[d] receives the generation; a broken object changes no further. It faults at the instruction, so that it
waits there until it may be performed as a release (log entry 89). -/
def execBarArr (d : SReg) (a : Src) (s : State) : Out :=
  onReady s [a] [d]
    (let addr := readSrc s.me a
     releaseThen s fun s =>
       match barResolve s s.cur .atomic false addr with
       | .fault cause ea s => .next (freezeHere s cause 0 ea)
       | .wait s => .next s
       | .ok h s =>
         let s := barSeen s (coreOf s.cur) h
         let o := barRead s h
         if !o.broken && o.arr = o.exp then .next (freezeHere s 0x09 0 addr)
         else
           let c := enterMember (setS s.me d (BitVec.ofNat 64 o.gen.toNat)) addr
           if o.broken then .next (s.setMe (retire c))
           else
             let s := if c.chk then
                 { s with barClocks := mset s.barClocks (c.part, addr) (clockMax (barClock s addr) c.vc) } else s
             let s := s.setMe (retire (bumpPhase c))
             .next (barSettle (barWrite s (coreOf s.cur) h { o with arr := o.arr + 1, psn := o.psn || storeFailed s s.cur })
               (coreOf s.cur) h))

/-- The end of `bar.wait`: f[d] := BROKEN, an acquire unless broken (R303). -/
def waitReturns (s : State) (d : FReg) (addr : Word) (broken : Bool) : State :=
  let c := retire (setF s.me d broken)
  if broken then s.setMe c else l1DropAll (s.setMe (joinClock c (barClock s addr))) (coreOf s.cur)

/-- `bar.wait` (R303): it parks on its generation, or returns at once. -/
def execBarWait (d : FReg) (a b : Src) (s : State) : Out :=
  onReady s [a, b] [] (onFlags s [d]
    (let addr := readSrc s.me a
     let g : BitVec 32 := BitVec.ofNat 32 (readSrc s.me b).toNat
     if objectWaits s.me addr false then .next s
     else
       match barResolve (ownStoresFirst s addr) s.cur .read false addr with
       | .fault cause ea s => .next (freezeHere s cause 0 ea)
       | .wait s => .next s
       | .ok h s =>
         let s := barSeen s (coreOf s.cur) h
         let o := barRead s h
         if o.psn then .next (freezeHere s 0x0C 0 addr)
         else
           let s := s.setMe (enterMember s.me addr)
           if o.broken || o.gen ≠ g then .next (waitReturns s d addr o.broken)
           else
             let p : Parked := match h with
               | .pad _ off => .barrier off true addr g d
               | .mem pa => .barrier pa false addr g d
             .next (s.setMe { s.me with parked := some p })))

/-- `bar.try` (R303). -/
def execBarTry (d : SReg) (a b : Src) (s : State) : Out :=
  onReady s [a, b] [d]
    (let addr := readSrc s.me a
     let g : BitVec 32 := BitVec.ofNat 32 (readSrc s.me b).toNat
     if objectWaits s.me addr false then .next s
     else
       match barResolve (ownStoresFirst s addr) s.cur .read false addr with
       | .fault cause ea s => .next (freezeHere s cause 0 ea)
       | .wait s => .next s
       | .ok h s =>
         let s := barSeen s (coreOf s.cur) h
         let o := barRead s h
         if o.psn then .next (freezeHere s 0x0C 0 addr)
         else
           let v : Nat := if o.broken then 2 else if o.gen ≠ g then 1 else 0
           let c := retire (setS s.me d (BitVec.ofNat 64 v))
           .next (if v = 1 then l1DropAll (s.setMe (joinClock c (barClock s addr))) (coreOf s.cur) else s.setMe c))

/-! ## 0x39 queues (R306-R308) -/

/-- The fields of a queue handle (R306). -/
def qGen (h : Word) : BitVec 20 := BitVec.ofNat 20 (bitsAt h.toNat 44 20)
def qPart (h : Word) : PartId := BitVec.ofNat 4 (bitsAt h.toNat 40 4)
def qId (h : Word) : BitVec 8 := BitVec.ofNat 8 (bitsAt h.toNat 23 8)

def queueHandle (gen : BitVec 20) (part : PartId) (k : CoreId) (q : BitVec 8) : Word :=
  BitVec.ofNat 64 (gen.toNat * 2 ^ 44 + part.toNat * 2 ^ 40 + (coreCluster k).toNat * 2 ^ 33 + coreNo k * 2 ^ 31 + q.toNat * 2 ^ 23)

/-- The checks on a handle at issue (R306). -/
def queueBad (c : Ctx) (h : Word) : Option Nat :=
  if bitsAt h.toNat 0 23 ≠ 0 || qCluster h > 95 || qGen h = 0 then some 0x05
  else if qPart h ≠ c.part then some 0x02
  else none

def queueOf (s : State) (k : CoreId) (q : BitVec 8) : HwQueue := mget (s.core k).queues q HwQueue.reset
def setQueue (s : State) (k : CoreId) (q : BitVec 8) (x : HwQueue) : State := s.modCore k (fun c => { c with queues := mset c.queues q x })

/-- A handle whose queue is gone. -/
def queueStale (x : HwQueue) (h : Word) : Bool := x.st == .free || x.gen != qGen h

/-- Hardware queues in use on a core. -/
def residents (s : State) (k : CoreId) : Nat := ((s.core k).queues.filter (fun p => p.2.st = .resident)).length

/-- The next generation, which is never 0. -/
def nextGen (g : BitVec 20) : BitVec 20 := if g + 1 = 0 then 1 else g + 1

/-- A free identifier of a core: the one the device proposes, or the lowest (log entry 17). -/
def freeQueue (s : State) (k : CoreId) : Option (BitVec 8) :=
  let want := BitVec.ofNat 8 (Config.pick s.fresh)
  if (queueOf s k want).st = .free then some want
  else ((List.range 256).map (BitVec.ofNat 8)).find? (fun q => (queueOf s k q).st = .free)

/-- The queue controller writes a queue's image: its 1,088 bytes are the device's own, and free values (R307, log entry 65). A line
that the partition's tables do not map to this module's memory is not written. -/
def writeImage (s : State) (part : PartId) (at_ : Word) : State :=
  (List.range 17).foldl (fun s i =>
    let va := at_.toNat + 64 * i
    match (if va ≥ 2 ^ 57 || inWindow va then .malformed else walk s part va) with
    | .leaf pte w0 w1 =>
      let pa := pteFrame w0 + va % 2 ^ (12 + 2 * pteSize w0)
      if ptePeer w1 || isHost pa || !pteWr w0 then s
      else
        let s := setDirtyPte s part pte
        { storePA (l1Snoop s pa 64) pa ((List.range 64).map (fun k => Config.imageByte (s.fresh + k))) with fresh := s.fresh + 64 }
    | _ => s) s

/-- An entry offered to a queue: the reason code (R308). -/
def enqueue (s : State) (k : CoreId) (h lo hi : Word) (bad : Bool) : Nat × State :=
  let x := queueOf s k (qId h)
  if queueStale x h then (3, s)
  else if x.entries.length ≥ 64 then (2, s)
  else
    let s := setQueue s k (qId h) { x with entries := x.entries ++ [(lo, hi, bad)] }
    if x.st = .swapped then (1, writeImage s (qPart h) x.image) else (0, s)

/-- s[d] and f[c] of a `qenq` whose reason is known. -/
def enqueued (c : Ctx) (d : SReg) (f : FReg) (reason : Nat) : Ctx := setF (setS c d (BitVec.ofNat 64 reason)) f (reason ≤ 1)

/-- `qmk` (R308). -/
def execQmk (d : SReg) (a : Src) (s : State) : Out :=
  onReady s [a] [d]
    (let at_ := readSrc s.me a
     let k := coreOf s.cur
     if at_.toNat % 64 ≠ 0 then .next (openFreeze s 0x0B 0)
     else
       match freeQueue s k with
       | none => writeBack s.draw d 0
       | some q =>
         let x := queueOf s k q
         let st : QState := if residents s k < 16 then .resident else .swapped
         let s := writeImage (setQueue s.draw k q { gen := x.gen, st := st, image := at_, entries := [] }) s.me.part at_
         writeBack s d (queueHandle x.gen s.me.part k q))

/-- An enqueue that every earlier access of its context precedes: at the own core its result is known at once, to another core it
is on its way from now on. -/
def sendEntry (s : State) (ctx : CtxId) (h lo hi : Word) (d : SReg) (f : FReg) : State :=
  let bad := storeFailed s ctx
  if qCore h = coreOf ctx then
    let r := enqueue s (qCore h) h lo hi bad
    r.2.modCtx ctx (fun c => enqueued { c with pendS := c.pendS.erase d, pendF := c.pendF.erase f } d f r.1)
  else
    let op : QueueOp := { ctx := ctx, handle := h, lo := lo, hi := hi, bad := bad, d := d, f := f, reply := true, reason := 0 }
    sendQueueOps s [op]

/-- `qenq` (R308): a release; its results come later where it is held back, and from another core (R297). -/
def execQenq (d : SReg) (a : Src) (b : SReg) (c : FReg) (s : State) : Out :=
  onReady s [a] [d, b, nextS b] (onFlags s [c]
    (let h := readSrc s.me a
     match queueBad s.me h with
     | some cause => .next (refuse s cause)
     | none =>
       if b.val % 2 = 1 then .next (openFreeze s 0x05 0)
       else
         let lo := getS s.me b
         let hi := getS s.me (nextS b)
         let owing (x : Ctx) : Ctx := retire { x with pendS := d :: x.pendS, pendF := c :: x.pendF }
         .next (postRelease s (.qenq d a b c) [h, lo, hi] owing (fun s => sendEntry (s.setMe (owing s.me)) s.cur h lo hi d c))))

/-- An enqueue of the context that is held back: its later operations on the queue come after it. -/
def queuePosted (c : Ctx) (h : Word) : Bool :=
  c.posted.any (fun p => match p.instr with | .qenq .. => p.ops.head? == some h | _ => false)

/-- `qdeq` (R308): the oldest entry, an acquire when it returns one; a marked entry faults (R295). -/
def execQdeq (d : SReg) (a : Src) (c : FReg) (s : State) : Out :=
  onReady s [a] [d, nextS d] (onFlags s [c]
    (let h := readSrc s.me a
     match queueBad s.me h with
     | some cause => .next (refuse s cause)
     | none =>
       if qCore h ≠ coreOf s.cur then .next (openFreeze s 0x02 0)
       else if queuePosted s.me h then .next s
       else
         let x := queueOf s (qCore h) (qId h)
         match (if queueStale x h then [] else x.entries) with
         | [] => writeFlag s c false
         | (lo, hi, bad) :: rest =>
           if bad then .next (openFreeze s 0x0C 0)
           else
             let s := setQueue s (qCore h) (qId h) { x with entries := rest }
             let s := if x.st = .swapped then writeImage s (qPart h) x.image else s
             .next (l1DropAll (s.setMe (retire (setF (setS (setS s.me d lo) (nextS d) hi) c true))) (coreOf s.cur))))

/-- `qrm` (R308). -/
def execQrm (d : SReg) (a b : Src) (s : State) : Out :=
  onReady s [a, b] [d]
    (let h := readSrc s.me a
     let mode := (readSrc s.me b).toNat
     match queueBad s.me h with
     | some cause => .next (refuse s cause)
     | none =>
       if qCore h ≠ coreOf s.cur then .next (openFreeze s 0x02 0)
       else if mode ≥ 3 then .next (openFreeze s 0x05 0)
       else if queuePosted s.me h then .next s
       else
         let k := coreOf s.cur
         let x := queueOf s k (qId h)
         let put (y : HwQueue) : Out := writeBack (writeImage (setQueue s k (qId h) y) (qPart h) x.image) d 0
         if queueStale x h then writeBack s d 3
         else if mode = 0 then put { gen := nextGen x.gen, st := .free, image := 0, entries := [] }
         else if mode = 1 then if x.st = .swapped then writeBack s d 4 else put { x with st := .swapped }
         else if x.st = .resident then writeBack s d 4
         else if residents s k ≥ 16 then writeBack s d 2
         else put { x with st := .resident })

def qStateCode : QState → Nat
  | .free => 0 | .resident => 1 | .swapped => 2

/-- `qinfo` (R308). -/
def execQinfo (d : SReg) (a : Src) (s : State) : Out :=
  onReady s [a] [d]
    (let h := readSrc s.me a
     match queueBad s.me h with
     | some cause => .next (refuse s cause)
     | none =>
       let x := queueOf s (qCore h) (qId h)
       if queuePosted s.me h then .next s
       else writeBack s d (BitVec.ofNat 64 (x.gen.toNat * 2 ^ 44 + qStateCode x.st * 2 ^ 42 + x.entries.length * 2 ^ 35
         + (x.gen != qGen h).toNat * 2 ^ 34)))

/-! ## The queue controllers' steps -/

/-- QUEUE_REQUEST: the owning core's controller serves the oldest request that has reached it. -/
def queueRequest (s : State) (k : CoreId) : State :=
  match (s.core k).qin with
  | [] => s
  | op :: rest =>
    let r := enqueue (s.modCore k (fun c => { c with qin := rest })) k op.handle op.lo op.hi op.bad
    if op.reply then r.2.modCtx op.ctx (fun c => { c with replies := c.replies ++ [{ op with reason := r.1 }] }) else r.2

/-- QUEUE_REPLY: the oldest reply reaches its context. -/
def queueReply (s : State) (ctx : CtxId) : State :=
  let c := s.ctx ctx
  match c.replies with
  | [] => s
  | op :: rest =>
    s.setCtx ctx (enqueued { c with replies := rest, pendS := c.pendS.erase op.d, pendF := c.pendF.erase op.f } op.d op.f op.reason)

/-- The event QUEUE_REQUEST. -/
def execQueueRequest (k : CoreId) (s : State) : Out := .next (queueRequest s k)

/-- The event QUEUE_REPLY. -/
def execQueueReply (c : CtxId) (s : State) : Out := .next (queueReply s c)

end Sys2Proof.Machine
end

