-- ==== Sys2Proof/Machine/Walkers.lean ====
section
/-! DEFINITION. Arming, leasing, launching and stealing of tasks: the walkers and the ready queues, with the steps
SUCCESSOR_DECREMENT, LEASE_HELD, TASK_LAUNCH, IDLE_STEAL and STEAL_REQUEST (R17-R18, R219, R315-R327, R331, R416). -/

namespace Sys2Proof.Machine

/-! ## Initial values (R17, R142, R317) -/

/-- The special registers that an initial-value block sets, in bit order. -/
inductive InitReg | vl | slip | spb | spq | pold | dln
deriving DecidableEq, Repr

/-- A value that a write of the register refuses (R17, R142, R374). -/
def initBad (r : InitReg) (v : Word) : Bool :=
  match r with
  | .vl | .dln => v.toNat ≥ 2 ^ 32
  | .slip => v.toNat > 7
  | .spb => v.toNat % 4096 ≠ 0 || v.toNat ≥ 2 ^ 57
  | .spq => false
  | .pold => v.toNat ≥ 2 ^ 32 || polBad (BitVec.ofNat 32 v.toNat)

def setInit (c : Ctx) (r : InitReg) (v : Word) : Ctx :=
  match r with
  | .vl => { c with vl := BitVec.ofNat 32 v.toNat }
  | .slip => { c with slip := BitVec.ofNat 3 v.toNat }
  | .spb => { c with spb := v }
  | .spq => { c with spq := BitVec.ofNat 64 (v.toNat / 4096 * 4096) }
  | .pold => { c with pold := BitVec.ofNat 32 v.toNat }
  | .dln => { c with dln := BitVec.ofNat 32 v.toNat }

/-- An initial-value block as read: refused, or scalars and special registers with their values. -/
structure InitBlock where
  bad  : Bool
  scal : List (Nat × Word)
  spec : List (InitReg × Word)
deriving DecidableEq, Repr

/-- The block at an address; 0 gives none (R315, R317). -/
def readInit (s : State) (cl : ClusterId) (part : PartId) (addr : Nat) : Acc InitBlock :=
  if addr = 0 then .ok { bad := false, scal := [], spec := [] } s
  else
    (unitWords cl part 2 addr s).bind fun ms s =>
      let m0 := (ms[0]?.getD 0)
      let m1 := (ms[1]?.getD 0)
      let regs := (List.range 64).filter (fun n => n ≠ 0 && m0.getLsbD n)
      let all : List InitReg := [.vl, .slip, .spb, .spq, .pold, .dln]
      let specs := ((List.range 6).zip all).filterMap (fun p => if m1.getLsbD p.1 then some p.2 else none)
      (unitWords cl part (regs.length + specs.length) (addr + 16) s).bind fun vs s =>
        let sp := specs.zip (vs.drop regs.length)
        .ok { bad := m0.getLsbD 0 || m1.toNat ≥ 64 || sp.any (fun p => initBad p.1 p.2), scal := regs.zip vs, spec := sp } s

def applyInit (c : Ctx) (b : InitBlock) : Ctx :=
  let c := b.scal.foldl (fun c p => if h : p.1 < 64 then setS c ⟨p.1, h⟩ p.2 else c) c
  b.spec.foldl (fun c p => setInit c p.1 p.2) c

/-! ## Arming (R320, R321) -/

/-- The words of a node: its 256 bytes, read with its partition's translation, or its slot of a finaliser area. -/
def nodeWords (s : State) (cl : ClusterId) (ref : NodeRef) : Acc (List Word) :=
  match ref with
  | .mem part a => (unitPlace s cl part .read a.toNat 256).bind fun pa s => .ok ((List.range 32).map (fun i => s.wordPA (pa + 8 * i))) s
  | .fin c slot =>
    match (s.cluster c).finArea.find? (·.1 = slot) with
    | some x => .ok (x.2.words.take 32) s
    | none => .fault 0x01 0 s

def wd (ws : List Word) (i : Nat) : Word := ws[i]?.getD 0

/-- Lease range `k` of a node: base, RW, length. -/
def leaseAt (ws : List Word) (k : Nat) : Nat × Nat × Nat :=
  ((wd ws (16 + 2 * k)).toNat, bitsAt (wd ws (17 + 2 * k)).toNat 62 2, bitsAt (wd ws (17 + 2 * k)).toNat 0 48)

/-- R318. -/
def leaseBad (ws : List Word) (k : Nat) : Bool :=
  let l := leaseAt ws k
  l.1 ≥ 2 ^ 57 || l.2.1 = 0 || bitsAt (wd ws (17 + 2 * k)).toNat 48 14 ≠ 0 || l.2.2 = 0 || l.1 + l.2.2 > 2 ^ 57

def leasesOf (ws : List Word) : List Lease :=
  (List.range (nLeases (wd ws 0))).map (fun k =>
    let l := leaseAt ws k
    { base := l.1, len := l.2.2, rd := l.2.1 % 2 = 1, wr := l.2.1 / 2 = 1 })

/-- The checks of codes 1 to 6 and 11 on a node's own fields, in the order of R321. -/
def armCode (ws : List Word) (part : PartId) (fin : Bool) : Option Nat :=
  let w := wd ws 0
  let st := wd ws 4
  let pool := nPool w
  let n := nLeases w
  let succ := stNsucc st
  if stState st ≠ 0 then some 1
  else if (if fin then nKind w ≠ 2 else nKind w ≥ 2) then some 2
  else if !fin && (nCluster w > 95 || (nClAny w && !nCoreAny w)) then some 3
  else if poolSrf pool < 4 || poolSrf pool > 20 || poolSpd pool > 16 || poolAcs pool > 16
      || poolSrf pool + poolSpd pool + poolAcs pool ≠ 24 then some 4
  else if n > 8 || (List.range n).any (leaseBad ws) || (nKind w = 1 && n ≠ 0) then some 5
  else if (wd ws 1).toNat % 8 ≠ 0 || (wd ws 2).toNat % 8 ≠ 0 || (wd ws 3).toNat % 8 ≠ 0 || succ > 11
      || (List.range succ).any (fun k => (wd ws (5 + k)).toNat % 256 ≠ 0)
      || bitsAt w.toNat 32 2 ≠ 0 || bitsAt w.toNat 0 5 ≠ 0 || bitsAt st.toNat 0 49 ≠ 0
      || (nKind w = 1 && (bitsAt (wd ws 19).toNat 57 7 ≠ 0 || bitsAt (wd ws 19).toNat 3 2 ≠ 0 || bitsAt (wd ws 19).toNat 1 2 = 3))
    then some 6
  else if nPart w ≠ part then some 11
  else none

/-- The bank and the initial values that a node names: their words, or the failure code 8 or 7. -/
def nodeValues (s : State) (cl : ClusterId) (part : PartId) (ws : List Word) : Except Nat (Map Nat Word × InitBlock) × State :=
  match (loadBank s cl part (wd ws 2).toNat).bind (fun bank s => (readInit s cl part (wd ws 3).toNat).bind fun ib s => .ok (bank, ib) s) with
  | .ok r s => (if r.2.bad then .error 7 else .ok r, s)
  | .fault _ _ s | .wait s => (.error 8, s)

/-- A node that never launches, or has ended, gives up its slot of a finaliser area. -/
def freeSlot (s : State) (ref : NodeRef) : State :=
  match ref with
  | .mem _ _ => s
  | .fin c slot => s.modCluster c (fun k => { k with finArea := k.finArea.filter (·.1 ≠ slot) })

/-- R321: the node fails. -/
def failArmed (s : State) (cl : ClusterId) (ref : NodeRef) (code : Nat) : State := freeSlot (failNode s cl ref code) ref

/-- NODE_ARM: a walker arms a node; `part` is the arming partition. -/
def armNode (s : State) (cl : ClusterId) (part : PartId) (ref : NodeRef) : State :=
  let fin : Bool := match ref with | .fin _ _ => true | .mem _ _ => false
  match nodeWords s cl ref with
  | .fault _ _ s | .wait s => countNode s part
  | .ok ws s =>
    match armCode ws part fin with
    | some code => failArmed s cl ref code
    | none =>
      match nodeValues s cl part ws with
      | (.error code, s) => failArmed s cl ref code
      | (.ok _, s) =>
        let ready := nPred (wd ws 0) = 0
        match nodePut s cl ref 4 (withState (wd ws 4) (if ready then 2 else 1) 0) with
        | .fault _ _ s | .wait s => countNode s part
        | .ok _ s => s.modCluster cl (fun k =>
            if ready then { k with leasing := k.leasing ++ [ref] } else { k with armed := k.armed ++ [ref] })

/-- A node sent to a walker, which arms nothing before its cluster is up (R416). -/
def sendNode (s : State) (cl : ClusterId) (part : PartId) (ref : NodeRef) : State :=
  if s.up.contains cl then armNode s cl part ref else s.modCluster cl (fun k => { k with toArm := k.toArm ++ [ref] })

/-- The node at an address goes to the walker of its placed cluster, or to `home` for any cluster (R309, R320). A placed cluster
above 95 has no walker: `home` fails the node (log entry 39). -/
def armAt (s : State) (home : ClusterId) (part : PartId) (a : Word) : State :=
  match unitWord s home part a.toNat with
  | .fault _ _ s | .wait s => countNode s part
  | .ok w s =>
    let cl := if nClAny w || nCluster w > 95 then home else BitVec.ofNat 7 (nCluster w)
    sendNode s cl part (.mem part a)

/-- `n` consecutive nodes, in ascending order. -/
def armRun (home : ClusterId) (part : PartId) : Nat → Word → State → State
  | 0, _, s => s
  | n + 1, a, s => armRun home part n (a + 256) (armAt s home part a)

/-! ## Decrements and leases (R322, R323) -/

/-- The walker that armed a node. -/
def armedAt (s : State) (ref : NodeRef) : Option ClusterId :=
  (s.clusters.find? (fun p => p.2.armed.contains ref)).map (·.1)

/-- SUCCESSOR_DECREMENT: the oldest decrement that a walker has sent reaches its successor. -/
def successorDecrement (s : State) (cl : ClusterId) : State :=
  match (s.cluster cl).decs with
  | [] => s
  | ref :: rest =>
    let s := s.modCluster cl (fun k => { k with decs := rest })
    match (nodeWord s cl ref 0).bind (fun w s => (nodeWord s cl ref 4).bind fun st s => .ok (w, st) s) with
    | .fault _ _ s | .wait s => countNode s (refPart s ref)
    | .ok (w, st) s =>
      if nPred w = 0 then failNode s cl ref 9   -- and a walker or a ready queue that holds it gives it up
      else
        let go := nPred w = 1 && stState st = 1
        let s := match nodePut s cl ref 0 (withBits w 16 16 (nPred w - 1)) with | .ok _ s | .fault _ _ s | .wait s => s
        if !go then s
        else
          let home := (armedAt s ref).getD cl
          let s := match nodePut s cl ref 4 (withState st 2 0) with | .ok _ s | .fault _ _ s | .wait s => s
          s.modCluster home (fun k => { k with armed := k.armed.filter (· ≠ ref), leasing := k.leasing ++ [ref] })

/-- The pages under the byte ranges of leases, in order. -/
def leasePages (ls : List Lease) : List Nat :=
  ls.flatMap (fun l => (List.range ((l.base + l.len - 1) / 4096 - l.base / 4096 + 1)).map (fun i => (l.base / 4096 + i) * 4096))

/-- The granules of local memory under the byte ranges of leases, with a partition's walk. -/
def granulesOf (s : State) (part : PartId) (ls : List Lease) : List Nat :=
  (leasePages ls).filterMap (fun va =>
    match walk s part va with
    | .leaf _ w0 w1 =>
      let pa := pteFrame w0 + va % 2 ^ (12 + 2 * pteSize w0)
      if ptePeer w1 || isHost pa then none else some (pa / 4096)
    | _ => none)

/-- Malformed entries that the walks of leases meet are counted (R366). -/
def countLeases (s : State) (part : PartId) (ls : List Lease) : State :=
  (leasePages ls).foldl (fun s va => match walk s part va with | .malformed => countMalformed s part | _ => s) s

/-- A lease takes granules into HBM: copies toward HBM are complete, a demotion copy in flight is abandoned and stays queued
(R418). -/
def takeGranules (s : State) (gs : List Nat) : State :=
  { s with
      inHbm := s.inHbm ++ (gs.filter (fun g => !s.inHbm.contains g)).eraseDups
      migs := (s.migs.filter (fun m => !(m.toHbm && gs.contains m.granule))).map (fun m =>
        if gs.contains m.granule then { m with copying := false } else m)
      shadows := s.shadows.filter (fun p => !(gs.contains p.1 && s.migs.any (fun m => m.toHbm && m.byKvpro && m.granule = p.1))) }

/-- A core's queued entries, and the core with the fewest, or the most, of a cluster; the lowest-numbered on a tie. -/
def queued (s : State) (k : CoreId) : Nat := (s.core k).ready.length
def coresOf (cl : ClusterId) : List CoreId := (List.range 4).map (coreAt cl)
def fewest (s : State) (cl : ClusterId) : CoreId :=
  (coresOf cl).foldl (fun b k => if queued s k < queued s b then k else b) (coreAt cl 0)
def mostOf (s : State) (cl : ClusterId) : CoreId :=
  (coresOf cl).foldl (fun b k => if queued s b < queued s k then k else b) (coreAt cl 0)

/-- Whether a checked node would find no free index (R331). -/
def groupFull (s : State) (part : PartId) : Bool :=
  match (s.part part).group with
  | some g => g.members.length ≥ 64
  | none => false

/-- A node whose lease holds enters a ready queue of its walker's cluster (R323, R325). -/
def enterReady (s : State) (cl : ClusterId) (ref : NodeRef) (ws : List Word) : State :=
  let w := wd ws 0
  let fin : Bool := match ref with | .fin _ _ => true | .mem _ _ => false
  let k := if nCoreAny w then fewest s cl else coreAt cl (nCore w)
  s.modCore k (fun c => { c with ready := c.ready ++
    [{ node := ref, part := nPart w, pool := nPool w, clAny := !fin && nClAny w, coreAny := nCoreAny w }] })

/-- LEASE_HELD: some leasing node of a walker gets its granules, unless HBM cannot take them yet, its checked group is full or
its partition is frozen. A node that has failed meanwhile leaves, and never launches (R321). -/
def leaseHeld (s : State) (cl : ClusterId) : State :=
  let l := (s.cluster cl).leasing
  match l[Config.pick s.fresh % max 1 l.length]? with
  | none => s
  | some ref =>
    let s := s.draw
    let drop (s : State) : State := s.modCluster cl (fun k => { k with leasing := k.leasing.filter (· ≠ ref) })
    match nodeWords s cl ref with
    | .fault _ _ s | .wait s => countNode (drop s) (refPart s ref)
    | .ok ws s =>
      let part := nPart (wd ws 0)
      let gs := granulesOf s part (leasesOf ws)
      if stState (wd ws 4) ≠ 2 then drop s
      else if (s.part part).frozen || (nChk (wd ws 0) && groupFull s part) then s
      else if gs ≠ [] && (s.phase.toNat < 4 || !Config.policy s.fresh) then s.draw
      else
        match nodePut s.draw cl ref 4 (withState (wd ws 4) 3 0) with
        | .fault _ _ s | .wait s => countNode (drop s) part
        | .ok _ s => enterReady (takeGranules (countLeases (drop s) part (leasesOf ws)) gs) cl ref ws

/-! ## Launch (R18, R219, R325, R331) -/

/-- A partition's share on a core (R328). -/
def shareOf (s : State) (k : CoreId) (part : PartId) : Nat :=
  ((List.range 64).filter (fun e => (mget (s.core k).slots e 0).toNat % 16 = part.toNat)).length

def ctxsOf (k : CoreId) : List CtxId := (List.range 5).map (ctxOn k)
def allIdle (s : State) (k : CoreId) : Bool := (ctxsOf k).all (fun x => (s.ctx x).run == .idle)

/-- The lowest-numbered idle user context. -/
def idleUser (s : State) (k : CoreId) : Option CtxId :=
  ((List.range 4).map (ctxOn k)).find? (fun x => (s.ctx x).run == .idle)

/-- No save area retains a pool part of the core (R361). -/
def poolMayChange (s : State) (k : CoreId) : Bool := allIdle s k && s.areas.all (fun a => !(a.ret && coreOf a.ctx = k))

/-- Pool parts whose granules change: their bytes are free values (R219, log entry 26). -/
def changePool (s : State) (k : CoreId) (w : BitVec 15) : State :=
  let c := s.core k
  if c.poolw = w then s
  else
    let part (was now : Nat × Nat) (old : Memory) (salt : Nat) : Memory :=
      if was = now then old
      else ((List.range ((now.2 - now.1) * granuleBytes)).foldl (fun (x : Memory) i => x.put i [Config.poolByte (s.fresh + 2 * i + salt)]) [])
    { s.setCore k { c with
        poolw := w
        spd := part (spdGranules c.poolw) (spdGranules w) c.spd 0
        srf := part (srfGranules c.poolw) (srfGranules w) c.srf 1
        rawTiles := if spdGranules c.poolw = spdGranules w then c.rawTiles else [] } with fresh := s.fresh + 2 ^ 22 }

/-- A group forms: its shadow tags and clock lines are cleared, and no clock of an earlier group of the partition remains with a
node, a den, a drop, a death or a finaliser: every entry of a first member's VC is 0 (R286, R331, log entry 90). -/
def formGroup (s : State) (part : PartId) : State :=
  { s with
      tags := s.tags.filter (·.1.1 ≠ part)
      clocks := s.clocks.filter (·.1.1 ≠ part)
      barClocks := s.barClocks.filter (·.1.1 ≠ part)
      nodeClocks := s.nodeClocks.filter (fun p => refPart s p.1 ≠ part)
      clusters := s.clusters.map (fun p => (p.1, { p.2 with
        dens := p.2.dens.map (fun d => (d.1, if d.2.part = part then { d.2 with clock := [] } else d.2))
        drops := p.2.drops.map (fun d => if d.part = part then { d with clock := [] } else d)
        deaths := p.2.deaths.map (fun d => if d.part = part then { d with clock := [] } else d)
        finArea := p.2.finArea.map (fun f => (f.1, if f.2.part = part then { f.2 with clock := [] } else f.2)) })) }

/-- The member that a launching checked task becomes (R286, R288, R331); the launch has found an index free. -/
def joinGroup (s : State) (part : PartId) (x : CtxId) (ref : NodeRef) (c : Ctx) : State × Ctx :=
  let s := if (s.part part).group.isNone then formGroup s part else s
  let g := (s.part part).group.getD { members := [], finals := [] }
  let i := ((List.range 64).find? (fun i => !mhas g.members i)).getD 0
  let start : Clock := mget s.nodeClocks ref []
  let slot := match ref with
    | .fin cl n => (match (s.cluster cl).finArea.find? (·.1 = n) with | some f => f.2.clock | none => [])
    | .mem _ _ => []
  let own : Nat := if mhas g.finals i then mget (mget g.finals i []) i 0 + 1 else 0
  let vc := clockMax (clockMax start slot) [(i, min own 0xFFFFFF)]
  let s := { s with nodeClocks := mdel s.nodeClocks ref }
  (s.modPart part (fun p => { p with group := some { g with members := mset g.members i x } }),
   { c with chk := true, sat := own > 0xFFFFFF, member := i, vc := vc })

/-- What a copy node's context executes (R316, R319): its fields in s1 to s3 and BB0, the copy, `tend` (log entry 40). -/
def copyScript (ws : List Word) (c : Ctx) : Ctx :=
  let b := wd ws 19
  let q : Binding := if b.toNat % 2 = 1 then some 0 else none
  let buf : BufSide := { mode := 0, handle := 0 }
  let mode := bitsAt b.toNat 1 2
  let i : Instr := if mode = 0 then .cpy 1 (.s 2) (.s 3) 0 q buf else if mode = 1 then .cpyx 1 (.s 2) (.s 3) 0 q buf
    else .cpyc 1 (.s 2) (.s 3) 0 q buf
  let c := setS (setS (setS c 1 (wd ws 18)) 2 (wd ws 17)) 3 (wd ws 16)
  { c with script := [i, .tend], bb := c.bb.set 0 (BitVec.ofNat 64 (bitsAt b.toNat 5 52 * 32 + b.toNat % 2)) }

/-- Values that take precedence over a finaliser template's own, and the mark of a poisoned drop (R295, R383). -/
def finValues (s : State) (ref : NodeRef) (c : Ctx) : Ctx × Bool :=
  match ref with
  | .mem _ _ => (c, false)
  | .fin cl n =>
    match (s.cluster cl).finArea.find? (·.1 = n) with
    | some f => (setS (setS (setS c 1 (wd f.2.words 32)) 2 (wd f.2.words 33)) 3 (wd f.2.words 34), f.2.poison)
    | none => (c, false)

/-- A launching node's bank and initial values, read anew. Code 8 is met there as at arming; values that were good at arming
and are no longer have no code of their own, and the task starts with them (log entry 63). -/
def launchValues (s : State) (cl : ClusterId) (part : PartId) (ws : List Word) : Acc (Map Nat Word × InitBlock) :=
  (loadBank s cl part (wd ws 2).toNat).bind fun bank s => (readInit s cl part (wd ws 3).toNat).bind fun ib s => .ok (bank, ib) s

/-- An entry launches on a context position: the task starts, or its node fails; one that has failed in its queue does not start
(R321). The start synchronises with what came before it, so the core's scalar L1 copies go (R222, R282). A finaliser started by
a poisoned drop freezes at its first instruction (R295). -/
def launchOn (s : State) (x : CtxId) (r : Ready) : State :=
  let cl := clusterOf x
  match nodeWords s cl r.node with
  | .fault _ _ s | .wait s => countNode s r.part
  | .ok ws s =>
    if stState (wd ws 4) ≠ 3 then s
    else
    match launchValues s cl r.part ws with
    | .fault _ _ s | .wait s => failArmed s cl r.node 8
    | .ok (bank, ib) s =>
      let s := l1DropAll s (coreOf x)
      let w := wd ws 0
      let c : Ctx := { Ctx.reset with
        run := .running, node := some r.node, part := r.part, stage := nStage w, pc := wd ws 1, bank := bank
        leases := if nLeases w = 0 then none else some (leasesOf ws) }
      let c := applyInit c ib
      let c := if nKind w = 1 then copyScript ws c else c
      let f := finValues s r.node c
      let j := if nChk w then joinGroup s r.part x r.node f.1 else (s, f.1)
      let s := j.1.setCtx x j.2
      if f.2 then
        freeze s x { cause := 0x0C, elem := 0, addr := Config.openAddr s.fresh, pc := wd ws 1, word := 0, nc := true, async := false }
      else s

/-- The oldest entry that a core may launch: of a partition with a share, not frozen (R325, R352). -/
def mayLaunch (s : State) (k : CoreId) (r : Ready) : Bool := shareOf s k r.part ≠ 0 && !(s.part r.part).frozen

/-- A checked entry that finds every index of its group taken waits in leasing again (R331). -/
def backToLeasing (s : State) (cl : ClusterId) (r : Ready) : State :=
  match (nodeWord s cl r.node 4).bind (fun w s => nodePut s cl r.node 4 (withState w 2 0)) with
  | .fault _ _ s | .wait s => countNode s r.part
  | .ok _ s => s.modCluster cl (fun k => { k with leasing := k.leasing ++ [r.node] })

/-- Whether an entry is of a checked node whose group is full (R331). -/
def groupBars (s : State) (cl : ClusterId) (r : Ready) : Bool :=
  (match nodeWords s cl r.node with | .ok ws _ => nChk (wd ws 0) | .fault .. | .wait _ => false) && groupFull s r.part

/-- TASK_LAUNCH: the core launches its oldest eligible entry on its lowest idle user context; an entry at the head whose pool
word differs stops every launch until the whole core is idle (R219). -/
def taskLaunch (s : State) (k : CoreId) : State :=
  let c := s.core k
  match c.ready, c.ready.find? (mayLaunch s k), idleUser s k with
  | hd :: _, some r, some x =>
    let other := r.pool ≠ c.poolw
    if (hd.pool ≠ c.poolw && hd ≠ r) || (other && !poolMayChange s k) then s
    else
      let s := s.modCore k (fun c => { c with ready := c.ready.erase r, idle := 0 })
      if groupBars s (coreCluster k) r then backToLeasing s (coreCluster k) r
      else launchOn (changePool s k r.pool) x r
  | _, _, _ => s

/-! ## Stealing (R326, R327) -/

/-- R326: no entry queued, and a user context without a task. -/
def coreIdle (s : State) (k : CoreId) : Bool := (s.core k).ready.isEmpty && (idleUser s k).isSome

/-- The order of a round. -/
def askOrder (k : CoreId) : List Ask :=
  let cl := coreCluster k
  let n := coreNo k
  [.core (coreAt cl ((n + 1) % 4)), .core (coreAt cl ((n + 2) % 4)), .core (coreAt cl ((n + 3) % 4)),
   .walker (BitVec.ofNat 7 ((cl.toNat + 95) % 96)), .walker (BitVec.ofNat 7 ((cl.toNat + 1) % 96))]

/-- IDLE_STEAL: one more idle cycle is counted; at 256 a round of requests begins (log entry 41). -/
def idleSteal (s : State) (k : CoreId) : State :=
  let c := s.core k
  if !coreIdle s k then s.setCore k { c with idle := 0, asks := [] }
  else if c.asks ≠ [] then s
  else if c.idle + 1 ≥ 256 then s.setCore k { c with idle := 0, asks := askOrder k }
  else s.setCore k { c with idle := c.idle + 1 }

/-- The core that a request reaches. -/
def askedCore (s : State) (a : Ask) : CoreId :=
  match a with
  | .core k => k
  | .walker cl => mostOf s cl

/-- The conditions of R327 on the victim's tail entry. -/
def mayTake (s : State) (thief victim : CoreId) (r : Ready) : Bool :=
  queued s victim ≥ 2 && r.coreAny && (coreCluster thief = coreCluster victim || r.clAny)
    && r.pool = (s.core thief).poolw && mayLaunch s thief r

/-- STEAL_REQUEST: the thief's next request reaches the victim. -/
def stealRequest (s : State) (thief victim : CoreId) : State :=
  let c := s.core thief
  match c.asks with
  | [] => s
  | a :: rest =>
    if !coreIdle s thief then s.setCore thief { c with asks := [], idle := 0 }
    else if askedCore s a ≠ victim then s
    else
      match (s.core victim).ready.getLast?, idleUser s thief with
      | some r, some x =>
        if mayTake s thief victim r then
          let s := s.setCore thief { c with asks := [], idle := 0 }
          let s := s.modCore victim (fun v => { v with ready := v.ready.dropLast })
          let cl := coreCluster thief
          if groupBars s cl r then backToLeasing s cl r else launchOn s x r
        else s.setCore thief { c with asks := rest }
      | _, _ => s.setCore thief { c with asks := rest }

/-! ## The events -/

/-- The event SUCCESSOR_DECREMENT. -/
def execSuccessorDecrement (cl : ClusterId) (s : State) : Out := .next (successorDecrement s cl)

/-- The event LEASE_HELD. -/
def execLeaseHeld (cl : ClusterId) (s : State) : Out := .next (leaseHeld s cl)

/-- The event TASK_LAUNCH. -/
def execTaskLaunch (k : CoreId) (s : State) : Out := .next (if validCore k then taskLaunch s k else s)

/-- The event IDLE_STEAL. -/
def execIdleSteal (k : CoreId) (s : State) : Out := .next (if validCore k then idleSteal s k else s)

/-- The event STEAL_REQUEST. -/
def execStealRequest (thief victim : CoreId) (s : State) : Out := .next (if validCore thief then stealRequest s thief victim else s)

end Sys2Proof.Machine
end

