-- ==== Sys2Proof/Machine/Tasks.lean ====
section
/-! DEFINITION. Task instructions and loop capture: major op 0x3A (R19-R23, R309-R314). -/

namespace Sys2Proof.Machine

/-! ## tsub and tdep -/

/-- The node range of `tsub`, each node checked as a read; a fault names the first node that fails (R309, log entry 42). -/
def checkNodes (s : State) : Nat → Word → Acc Unit
  | 0, _ => .ok () s
  | n + 1, a => (resolve s (meWho s s.me.pold) .read a 256).bind fun _ s => checkNodes s n (a + 256)

/-- A clock joined to a node's, beside those of the predecessors that have ended (R288). -/
def joinNodeClock (s : State) (ref : NodeRef) (k : Clock) : State :=
  { s with nodeClocks := mset s.nodeClocks ref (clockMax (mget s.nodeClocks ref []) k) }

/-- What a member's `tsub` leaves at each node: its clock (R288). -/
def recordClock (n : Nat) (a : Word) (s : State) : State :=
  if !s.me.chk then s
  else
    let s := (List.range n).foldl (fun s i => joinNodeClock s (.mem s.me.part (a + BitVec.ofNat 64 (256 * i))) s.me.vc) s
    s.setMe (bumpPhase s.me)

/-- `tsub` (R309): a release, which leaves the core with its node range checked; the walkers arm the nodes once every earlier
access is performed (R279). -/
def execTsub (a b : Src) (s : State) : Out :=
  onReady s [a, b] []
    (let at_ := readSrc s.me a
     let n := (readSrc s.me b).toNat
     if at_.toNat % 256 ≠ 0 then .next (refuse s 0x0B)
     else if n = 0 || n > 65535 then .next (refuse s 0x05)
     else finish (checkNodes s n at_) fun _ s =>
       postRelease (recordClock n at_ s) (.tsub a b) [at_, BitVec.ofNat 64 n] retire
         (fun s => armRun (clusterOf s.cur) s.me.part n at_ (s.setMe (retire s.me))))

/-- A node that `tdep` names: where its 256 bytes lie (R310). -/
def depNode (s : State) (a : Word) : Acc (Nat × Page) :=
  (resolve s (meWho s s.me.pold) .atomic a 256).bind fun ps s =>
    match ps with
    | { place := .mem pa page, .. } :: _ => if s.poisoned pa 256 then .fault 0x0C a s else .ok (pa, page) s
    | _ => .fault 0x02 a s

/-- A word of a node written at its home. -/
def depPut (s : State) (pa : Nat) (i : Nat) (w : Word) : State :=
  storePA (l1Drop s (coreOf s.cur) pa 256) (pa + 8 * i) (leBytes 8 w.toNat)

/-- The edge from a to b, or the reason why there is none (R310). -/
def addEdge (s : State) (b : Word) (pa pb : Nat × Page) : Nat × State :=
  let sa := s.wordPA (pa.1 + 32)
  let sb := s.wordPA (pb.1 + 32)
  let w := s.wordPA pb.1
  let n := stNsucc sa
  if stState sa = 4 then (1, s)
  else if stState sa = 5 then (4, s)
  else if stState sb ≥ 2 then (3, s)
  else if n ≥ 11 then (2, s)
  else if nPred w = 0xFFFF then (5, s)
  else
    let s := setDirty (setDirty s s.me.part pa.2) s.me.part pb.2
    let s := depPut s pa.1 (5 + n) b
    let s := depPut s pa.1 4 (withBits sa 60 4 (n + 1))
    (0, depPut s pb.1 0 (withBits w 16 16 (nPred w + 1)))

/-- `tdep` (R310). -/
def execTdep (d : SReg) (a b : Src) (s : State) : Out :=
  onReady s [a, b] [d]
    (let x := readSrc s.me a
     let y := readSrc s.me b
     if x.toNat % 256 ≠ 0 then .next (freezeHere s 0x0B 0 x)
     else if y.toNat % 256 ≠ 0 then .next (freezeHere s 0x0B 0 y)
     else if scalarWaits s.me x 256 true || scalarWaits s.me y 256 true then .next s
     else
       let s := drainStores s s.cur
       finish ((depNode s x).bind fun pa s => (depNode s y).bind fun pb s => .ok (pa, pb) s) fun p s =>
         let r := addEdge s y p.1 p.2
         r.2.setMe (retire (setS r.2.me d (BitVec.ofNat 64 r.1))))

/-! ## tend -/

/-- Streams that the context bound end; entries it was filling stay (R311, log entry 43). -/
def leaveBuffers (s : State) (ctx : CtxId) : State :=
  let k := coreOf ctx
  (List.finRange 32).foldl (fun s b =>
    let e := getBuf s k b
    match e.stream with
    | some st => if st.ctx = ctx then unbind s k b else s
    | none => if e.filler = some ctx then s.modCore k (fun c => { c with bufs := c.bufs.set b { e with filler := none } }) else s) s

/-- The walker's part of a completion: STATE 4, then one decrement to each successor in order; a member's clock goes with them
(R288, R322). -/
def completeNode (s : State) (cl : ClusterId) (ref : NodeRef) (clock : Option Clock) : State :=
  match (nodeWords s cl ref).bind (fun ws s => (nodePut s cl ref 4 (withState (wd ws 4) 4 0)).bind fun _ s => .ok ws s) with
  | .fault _ _ s | .wait s => countNode s (refPart s ref)
  | .ok ws s =>
    let part := refPart s ref
    let succ := (List.range (stNsucc (wd ws 4))).map (fun k => NodeRef.mem part (wd ws (5 + k)))
    let s := s.modCluster cl (fun k => { k with decs := k.decs ++ succ })
    match clock with
    | some vc => succ.foldl (fun s r => joinNodeClock s r vc) s
    | none => s

/-- Everything that a task holds goes back, and its context is idle (R19, R257, R311, R331). -/
def endTask (s : State) (ctx : CtxId) : State :=
  let c := s.ctx ctx
  let s := dropAll s ctx
  let s := detach s ctx
  let s := leaveBuffers s ctx
  let s := leaveGroup s ctx
  let s := match c.node with
    | some ref =>
      let keeps := c.chk && (s.part c.part).group.isSome
      freeSlot (completeNode s (clusterOf ctx) ref (if keeps then some c.vc else none)) ref
    | none => s
  idleCtx s ctx

/-- `tend` (R19, R311): a release; it waits for every column-class instruction and every store of the task. -/
def execTend (s : State) : Out :=
  let c := s.me
  if isHandlerCtx s.cur then .next (refuse s 0x05)
  else if c.window ≠ [] || c.pendS ≠ [] || c.pendF ≠ [] || !enginesQuiet s s.cur then .next s
  else
    let s := drainStores s s.cur
    -- a store that failed is reported first (R294)
    if storeFailed s s.cur then .next s else .next (endTask s s.cur)

/-! ## tyld, coord -/

/-- `tyld` (R312): the other admitted contexts of its partition issue first. -/
def execTyld (s : State) : Out :=
  let k := coreOf s.cur
  let others := ((s.core k).admitted.map (·.1)).filter (fun x => x ≠ s.cur && (s.ctx x).part = s.me.part)
  let s := s.modCore k (fun c => { c with yields := (s.cur, others) :: c.yields.filter (·.1 ≠ s.cur) })
  .next (s.setMe (retire s.me))

/-- The packed coordinates of selector 0 (R314). -/
def packedCoord (c : Ctx) (ctx : CtxId) : Word :=
  BitVec.ofNat 64 (c.part.toNat * 2 ^ 24 + c.stage.toNat * 2 ^ 20 + (if (clusterOf ctx).toNat < 48 then 0 else 2 ^ 19)
    + (clusterOf ctx).toNat * 2 ^ 12 + coreNo (coreOf ctx) * 2 ^ 10 + ctxNo ctx * 2 ^ 7)

/-- `coord` (R314). -/
def execCoord (d : SReg) (sel : BitVec 10) (s : State) : Out :=
  onReady s [] [d]
    (if sel = 0 then writeBack s d (packedCoord s.me s.cur)
     else if sel = 1 then writeBack s d (nodeAddr s.me)
     else .next (refuse s 0x05))

/-! ## lcap (R20-R23) -/

/-- The check of one captured word (R21). -/
def bodyBad (ctx : CtxId) (w : Word) : Option Nat :=
  match decode { handler := isHandlerCtx ctx, attached := true } w with
  | .error .illegal => some 0x04
  | .error .reserved => if columnOp w then some 0x05 else some 0x04
  | .ok _ => if columnOp w then none else some 0x04

/-- The words of a body fetched and checked in order; a word that fails is the fault address. -/
def captureBody (ctx : CtxId) : Nat → Word → State → Acc (List Word)
  | 0, _, s => .ok [] s
  | n + 1, va, s =>
    (fetchWord s ctx va).bind fun w s =>
      match bodyBad ctx w with
      | some cause => .fault cause va s
      | none => (captureBody ctx n (va + 8) s).bind fun ws s => .ok (w :: ws) s

/-- The bodies that the core's loop buffer of 128 words holds, the latest first (R23). -/
def fitBodies (s : State) (ctx : CtxId) (n : Nat) : List CtxId → List CtxId
  | [] => []
  | x :: xs =>
    let m := (s.ctx x).body.length
    if x = ctx then fitBodies s ctx n xs else if n + m ≤ 128 then x :: fitBodies s ctx (n + m) xs else []

/-- A body that begins to replay is in the loop buffer, and the one replayed least recently goes out for it (R23). -/
def keepBody (s : State) (ctx : CtxId) (n : Nat) : State :=
  s.modCore (coreOf ctx) (fun k => { k with bodies := ctx :: fitBodies s ctx n k.bodies })

/-- The captured body becomes the context's; the first word follows, or with trip 0 the word after the body. -/
def startBody (s : State) (ws : List Word) (trip : Nat) : State :=
  let c := s.me
  let at_ := c.pc + 8
  let s := keepBody s s.cur ws.length
  s.setMe (retireTo { c with
      body := ws, bodyAt := at_, bodyPos := if trip = 0 then none else some 0, lcnt := BitVec.ofNat 32 trip, sc := 0 }
    (if trip = 0 then at_ + BitVec.ofNat 64 (8 * ws.length) else at_))

/-- `lcap` (R20, R21, R313). -/
def execLcap (a b : Src) (s : State) : Out :=
  onReady s [a, b] []
    (let n := (readSrc s.me a).toNat
     let trip := (readSrc s.me b).toNat
     if n = 0 || n > 128 || trip ≥ 2 ^ 32 then .next (refuse s 0x05)
     else finish (captureBody s.cur n (s.me.pc + 8) s) fun ws s => startBody s ws trip)

end Sys2Proof.Machine
end

