-- ==== Sys2Proof/Machine/Slots.lean ====
section
/-! DEFINITION. The slot table and the admission of contexts, with the steps SLOT_TABLE_CYCLE and ADMISSION_ROTATE, and what
passes with every cycle (R312, R328-R330). -/

namespace Sys2Proof.Machine

/-- Pending writes of slot tables take effect when a multiple of 64 is passed (R328). -/
def applySlots (c : Core) : Core :=
  { c with slots := c.slotPend.foldl (fun m p => mset m p.1 p.2) c.slots, slotPend := [] }

/-- CYCLE moves on by a number of cycles that the model leaves open (log entry 6). -/
def tick (s : State) : State :=
  let n := s.cycle + BitVec.ofNat 64 (Config.stepCycles s.fresh)
  let passed : Bool := s.cycle.toNat / 64 ≠ n.toNat / 64
  { s with fresh := s.fresh + 1, cycle := n, cores := s.cores.map (fun p => (p.1, if passed then applySlots p.2 else p.2)) }

/-! ## Admission (R329) -/

/-- What an instruction that waits for an operand, an interlock entry or a window slot waits on. -/
def stallOf (c : Ctx) : Stalled :=
  { pc := c.pc, retired := c.retired, seq := c.seq, window := c.window, locks := c.locks, pendS := c.pendS, pendF := c.pendF }

/-- The context with nothing of that in the way. -/
def clearWay (c : Ctx) : Ctx := { c with window := [], locks := [], pendS := [], pendF := [] }

/-- Its next instruction has found itself waiting for one of these, and they are as they were (R329, log entry 44). -/
def isStalled (c : Ctx) : Bool := c.stalled.isSome && c.stalled == some (stallOf c)

/-- A context that could issue: it holds a task, is neither frozen, halted, stopping nor parked, and its next instruction waits
for no operand, interlock entry or window slot. -/
def runnable (s : State) (x : CtxId) : Bool :=
  let c := s.ctx x
  c.run == .running && !c.stopping && c.parked.isNone && !(s.part c.part).frozen && !isStalled c

def isAdmitted (k : Core) (x : CtxId) : Bool := k.admitted.any (·.1 = x)

/-- Admitted contexts of a partition, the latest first. -/
def admittedOf (s : State) (k : Core) (part : PartId) : List (CtxId × Nat × Bool) := k.admitted.filter (fun a => (s.ctx a.1).part = part)

/-- A context of its partition's FIFO is admitted. -/
def admitCtx (s : State) (k : Core) (x : CtxId) : Core :=
  { k with admitted := (x, s.cycle.toNat, false) :: k.admitted, waiting := k.waiting.filter (· ≠ x) }

/-- A context goes back to the FIFO, to its tail or to its front. -/
def unadmit (k : Core) (x : CtxId) (front : Bool) : Core :=
  { k with admitted := k.admitted.filter (·.1 ≠ x), waiting := if front then x :: k.waiting else k.waiting ++ [x] }

/-- Room for one more context of a partition. -/
def hasRoom (s : State) (core : CoreId) (k : Core) (part : PartId) : Bool := (admittedOf s k part).length < shareOf s core part

/-- A newly runnable context: a handler at the front of the FIFO, or in place of the user context admitted longest ago. -/
def arrive (s : State) (core : CoreId) (k : Core) (x : CtxId) : Core :=
  if isAdmitted k x || k.waiting.contains x then k
  else if !isHandlerCtx x then { k with waiting := k.waiting ++ [x] }
  else
    let part := (s.ctx x).part
    match (admittedOf s k part).reverse.find? (fun a => !isHandlerCtx a.1) with
    | some a => if hasRoom s core k part then admitCtx s k x else admitCtx s (unadmit k a.1 true) x
    | none => { k with waiting := x :: k.waiting }

/-- A context that others wait for, that has had 64 cycles and has issued, goes to the tail of its FIFO. -/
def rotateDue (s : State) (k : Core) : Core :=
  (k.admitted.reverse.filter (fun a => a.2.2 && a.2.1 + 64 ≤ s.cycle.toNat
    && k.waiting.any (fun x => (s.ctx x).part = (s.ctx a.1).part))).foldl (fun k a => unadmit k a.1 false) k

/-- The admitted set brought up to date: contexts no longer runnable leave, a lowered share sends back the latest, newly
runnable ones arrive, those whose time is over give way, and the FIFO fills what room there is. -/
def refresh (s : State) (core : CoreId) : State :=
  let k := s.core core
  let k := { k with admitted := k.admitted.filter (runnable s ·.1), waiting := k.waiting.filter (runnable s) }
  let k := k.admitted.foldl (fun k a =>
    if (admittedOf s k (s.ctx a.1).part).length > shareOf s core (s.ctx a.1).part then unadmit k a.1 false else k) k
  let k := ((ctxsOf core).filter (runnable s)).foldl (arrive s core) k
  let k := rotateDue s k
  let k := k.waiting.foldl (fun k x => if hasRoom s core k (s.ctx x).part then admitCtx s k x else k) k
  s.setCore core k

/-- ADMISSION_ROTATE: every look at the slot table finds the rotations made that were due (log entry 44). -/
def admissionRotate (s : State) (core : CoreId) : State := refresh s core

/-! ## The choice of a cycle (R330) -/

def slotAt (k : Core) (e : Nat) : BitVec 8 := mget k.slots (e % 64) 0
def slotPart (k : Core) (e : Nat) : PartId := BitVec.ofNat 4 ((slotAt k e).toNat % 16)
def slotStrict (k : Core) (e : Nat) : Bool := (slotAt k e).toNat / 16 % 2 = 1

/-- A ready context that `tyld` does not hold back (R312). -/
def mayIssue (k : Core) (x : CtxId) : Bool :=
  isAdmitted k x && k.yields.all (fun y => y.1 ≠ x || y.2.all (fun z => !isAdmitted k z))

def readyOf (s : State) (core : CoreId) (k : Core) (part : PartId) : List CtxId :=
  (ctxsOf core).filter (fun x => mayIssue k x && (s.ctx x).part = part)

/-- The partition whose context issues in entry `e`: its own, else, unless it is strict, the next one with a ready context. -/
def slotTaker (s : State) (core : CoreId) (k : Core) (e : Nat) : Option PartId :=
  if readyOf s core k (slotPart k e) ≠ [] then some (slotPart k e)
  else if slotStrict k e then none
  else ((List.range 64).map (fun j => slotPart k (e + j))).find? (fun p => readyOf s core k p ≠ [])

/-- The ready context that follows the one that issued last, in cyclic order. -/
def afterLast (last : Nat) (xs : List CtxId) : Option CtxId :=
  match xs.find? (fun x => ctxNo x > last) with
  | some x => some x
  | none => xs.head?

/-- A handler with share 0 that waits, for cycles that nobody takes (R338). -/
def spareHandler (s : State) (core : CoreId) (k : Core) (e : Nat) : Option CtxId :=
  let h := ctxOn core 4
  if !slotStrict k e && runnable s h && shareOf s core (s.ctx h).part = 0 then some h else none

/-- The context that the slot table picks in the present cycle. -/
def slotChoice (s : State) (core : CoreId) : Option CtxId :=
  let k := s.core core
  let e := s.cycle.toNat % 64
  match slotTaker s core k e with
  | some p => afterLast (mget k.lastIss p 4) (readyOf s core k p)
  | none => spareHandler s core k e

/-- The choice noted: who issued last, who has issued since its admission, and whom `tyld` no longer holds back. -/
def noteIssue (s : State) (core : CoreId) (x : CtxId) : State :=
  s.modCore core (fun k => { k with
    lastIss := mset k.lastIss (s.ctx x).part (ctxNo x)
    admitted := k.admitted.map (fun a => if a.1 = x then (a.1, a.2.1, true) else a)
    yields := (k.yields.filter (·.1 ≠ x)).map (fun y => (y.1, y.2.filter (· ≠ x))) })

/-- SLOT_TABLE_CYCLE: the core's slot table picks a context, whose instruction is the machine's next step. -/
def slotTableCycle (s : State) (core : CoreId) : State :=
  let s := refresh s core
  match slotChoice s core with
  | some x =>
    let s := noteIssue s core x
    { s with agenda := .run x :: s.agenda }
  | none => s

/-- The event SLOT_TABLE_CYCLE. -/
def execSlotTableCycle (k : CoreId) (s : State) : Out := .next (if validCore k then slotTableCycle s k else s)

/-- The event ADMISSION_ROTATE. -/
def execAdmissionRotate (k : CoreId) (s : State) : Out := .next (if validCore k then admissionRotate s k else s)

end Sys2Proof.Machine
end

