-- ==== Sys2Proof/Machine/Stops.lean ====
section
/-! DEFINITION. Stopping, saving and restoring contexts, with the steps STOP_ABANDON and STOP_COMPLETE (R46, R266, R354-R361). -/

namespace Sys2Proof.Machine

/-! ## Saving (R359) -/

/-- Stores and atomics that the stop abandoned keep their tags (R357); reads are made again. -/
def resendable (r : Request) : Bool :=
  match r.kind with
  | .read | .segRead | .den => false
  | .write | .atomic | .xaccAdd | .segWrite | .drop => true

/-- The lowest place of a partition's save-area pool that no area of it takes (R359, log entry 17). -/
def areaPlace (s : State) (part : PartId) : Nat :=
  let at_ (i : Nat) : Nat := Config.areaBase part.toNat / 4096 * 4096 + areaSize * i
  let taken (i : Nat) : Bool := s.areas.any (fun a => a.part == part && a.base == at_ i)
  at_ (((List.range (s.areas.length + 1)).find? (fun i => !taken i)).getD 0)

/-- What of the context is saved: it waits for nothing, a copy transfers its segments from VS upward again (R250), and its
`kvapp` gives its table up. -/
def savedCtx (c : Ctx) : Ctx :=
  { c with
      stopping := false, parked := none, stalled := none, kv := c.kv.map (fun k => { k with table := none })
      window := c.window.map (fun e => { e with late := if e.engine = .stream then [] else e.late }) }

/-- Queue operations of a context that have not reached their owners, and the cores without them. -/
def takeQueueOps (s : State) (x : CtxId) : List QueueOp × State :=
  let mine (q : QueueOp) : Bool := q.ctx = x && q.reply
  (s.cores.flatMap (fun p => p.2.qin.filter mine),
   { s with cores := s.cores.map (fun p => (p.1, { p.2 with qin := p.2.qin.filter (fun q => !mine q) })) })

/-- The context is saved as it stands, in an area whose header and tag are written to memory, and its position is idle. Its row
groups go back to the cluster; windows and banks stay on the core. Stores and atomics of unfinished units go with it, answered or
not, and are performed once (R357). -/
def saveCtx (s : State) (x : CtxId) (st : SaveState) (byFreeze : Bool) : State :=
  let c := s.ctx x
  let mine (r : Request) : Bool := r.ctx = x && r.kind ≠ .drop
  let q := takeQueueOps s x
  let a : SaveArea :=
    { base := areaPlace s c.part, part := c.part, ctx := x, st := st, ret := true, halt := c.halt, saved := savedCtx c
      reqs := s.reqs.filter (fun r => mine r && resendable r), qops := q.1
      claims := claimsOf s x, streams := streamsOf s x, byFreeze := byFreeze, pool := (s.core (coreOf x)).poolw, srf := [] }
  let s := detachBufs q.2 x
  let s := sealArea { s with areas := s.areas ++ [a], reqs := s.reqs.filter (fun r => !mine r) } a
  let s := s.modCluster (clusterOf x) (fun k => { k with groups := k.groups.map (fun o => if o = some x then none else o) })
  idleCtx s x

/-- How a context is saved (R359). -/
def saveStateOf (c : Ctx) : SaveState :=
  match c.run with
  | .frozen => .frozen
  | .halted => .halted
  | .running | .idle => .stopped

/-! ## Stops in progress (R354-R357) -/

/-- No access of the context is outstanding, no reply to it is due, no release is left that its home may perform, and no lane group
is within an element group (R47, R356). -/
def contextQuiet (s : State) (x : CtxId) : Bool :=
  let c := s.ctx x
  c.stores = [] && c.pendS = [] && c.pendF = [] && s.reqs.all (fun r => r.ctx ≠ x || r.kind = .drop || r.st ≠ .waiting)
    && !c.posted.head?.any (fun p => quietBefore c p.seq) && !midGroup s x

/-- Replies still awaited 4,096 cycles after acceptance are abandoned (R357). -/
def overdue (s : State) (r : StopReq) : Bool := r.since.toNat + 4096 ≤ s.cycle.toNat

/-- What an accepted stop's completion tells the host (R400): RESULT 0, BUSY clear, vector 0. -/
def signal (s : State) (v : Fin 32) : State := if s.msix.contains v then s else { s with msix := s.msix ++ [v] }
def finishCmd (s : State) (result : Nat) : State := signal { s with mstat := BitVec.ofNat 64 (result * 2 ^ 48) } 0

/-- STOP_ABANDON: reads still awaited are given up, and their elements read again on resume. Stores and atomics keep their tags,
and queue operations, until they are sent again with the restored context. -/
def stopAbandon (s : State) : State :=
  match s.stops.find? (overdue s) with
  | none => s
  | some r => { s with reqs := s.reqs.filter (fun q => !(r.targets.contains q.ctx && q.st = .waiting && !resendable q)) }

/-- STOP_COMPLETE: the oldest stop whose contexts are all quiet, or whose replies are abandoned, saves them and ends. -/
def stopComplete (s : State) : State :=
  match s.stops.find? (fun r => overdue s r || r.targets.all (contextQuiet s)) with
  | none => s
  | some r =>
    let s := r.targets.foldl (fun s x =>
      if holdsTask (s.ctx x) then saveCtx s x (saveStateOf (s.ctx x)) r.freezes.isSome else s) s
    let s := { s with stops := s.stops.erase r }
    if r.byCmd then finishCmd s 0 else s

/-! ## Restoring (R360, R361) -/

/-- Whether a save area's context may take a position: an idle one, on its core or, once reclaimed, on any core of its pool
word, where its row groups can be granted (R266, R361). -/
def mayRestore (s : State) (a : SaveArea) (y : CtxId) : Bool :=
  let k := coreOf y
  let n := grantCount a.saved
  validCtx y && (s.ctx y).run == .idle && isHandlerCtx y == isHandlerCtx a.ctx && isLevel1 y == isLevel1 a.ctx
    && s.up.contains (clusterOf y)
    && (if a.ret then k == coreOf a.ctx else (s.core k).poolw == a.pool)
    && (n = 0 || (n ≤ (freeGroups s (clusterOf y)).length && (ctxsOf k).all (fun z => (s.ctx z).gmask = 0)))

/-- The row groups granted to a restored context. -/
def regrant (s : State) (y : CtxId) (n : Nat) : State :=
  let gs := (freeGroups s (clusterOf y)).take n
  let s := s.modCluster (clusterOf y) (fun k => { k with groups := gs.foldl (fun (v : Vector (Option CtxId) 8) (g : Fin 8) => v.set g (some y)) k.groups })
  s.modCtx y (fun c => { c with gmask := BitVec.ofNat 8 ((gs.map (fun g => 2 ^ g.val)).foldl (· + ·) 0) })

/-- A reclaimed context's windows placed anew, their bytes from the area's extension (R361); none where one does not fit. -/
def replaceWindows (s : State) (y : CtxId) (bytes : Memory) : Option State :=
  let regs := (List.finRange 32).map Col.c ++ (List.finRange 16).map Col.p
  let old := s.ctx y
  let s0 := s.modCtx y (fun c => regs.foldl (fun c r => setCol c r { getCol c r with cap := 0 }) c)
  regs.foldl (fun o r => o.bind fun s =>
    let x := getCol old r
    if x.cap = 0 then some s
    else
      let n := windowSize x.fmt x.cap
      (placeWindow s (coreOf y) n).map fun u =>
        let s := s.draw.modCtx y (fun c => setCol c r { getCol c r with base := u, cap := x.cap })
        s.modCore (coreOf y) (fun c => { c with srf := c.srf.put (256 * u) (bytes.bytes (256 * x.base) n) })) (some s0)

/-- The context of save area `i` takes up position `y`. -/
def restoreAt (s : State) (i : Nat) (y : CtxId) : Option State :=
  match s.areas[i]? with
  | none => none
  | some a =>
    let run : Run := match a.st with
      | .stopped | .resumable => .running
      | .frozen => .frozen
      | .halted => .halted
    let c : Ctx := { a.saved with run := run, gmask := 0, halt := a.halt }
    let s := { s with areas := s.areas.eraseIdx i }
    let s := s.setCtx y c
    let s := regrant s y (grantCount a.saved)
    let s := l1DropAll (attachBufs s y a.claims a.streams) (coreOf y)
    let again := a.reqs.map (fun r => { r with ctx := y })
    let s := { s with reqs := s.reqs ++ again, outbox := s.outbox ++ (again.filter (·.st = .waiting)).map (·.flit) }
    let s := sendQueueOps s (a.qops.map (fun q => { q with ctx := y }))
    let s := if c.chk then s.modPart c.part (fun p => { p with group := p.group.map (fun g => { g with members := mset g.members c.member y }) }) else s
    if a.ret then some s else replaceWindows s y a.srf

/-- A corrupt area: the context is frozen with cause 0x0F, all it held being unknown (R360). -/
def restoreCorrupt (s : State) (i : Nat) (y : CtxId) (part : PartId) : State :=
  match s.areas[i]? with
  | none => s
  | some a =>
    let s := { s with areas := s.areas.eraseIdx i }
    let s := s.setCtx y { Ctx.reset with run := .running, part := part, isHandler := isHandlerCtx y }
    freeze s y { cause := 0x0F, elem := 0, addr := BitVec.ofNat 64 a.base, pc := 0, word := 0, nc := false, async := false }

/-- All context positions of the module. -/
def positions : List CtxId := (List.range 96).flatMap (fun cl => (List.range 4).flatMap (fun k => (List.range 5).map (fun n =>
  BitVec.ofNat 12 (cl * 32 + k * 8 + n))))

/-- A position for an area: one that the device chooses among those that will do (log entry 17). -/
def positionFor (s : State) (a : SaveArea) : Option CtxId :=
  let ys := if a.ret then (ctxsOf (coreOf a.ctx)).filter (mayRestore s a) else positions.filter (mayRestore s a)
  ys[Config.pick s.fresh % max 1 ys.length]?

/-- One area restored, if a position will do now. -/
def restoreArea (s : State) (i : Nat) (part : PartId) : Option State :=
  match s.areas[i]? with
  | none => none
  | some a =>
    match positionFor s a with
    | none => none
    | some y => if areaGood s.draw a then restoreAt s.draw i y else some (restoreCorrupt s.draw i y part)

/-- R361: the pool part goes into the area's extension; streams and claims of its core end (log entry 45). -/
def reclaimArea (s : State) (i : Nat) : State :=
  match s.areas[i]? with
  | none => s
  | some a =>
    let k := coreOf a.ctx
    let src := (s.core k).srf
    let bytes := (windowsOf a.saved).foldl (fun (m : Memory) w => m.put w.1 (src.bytes w.1 (w.2 - w.1))) []
    let s := (a.claims ++ a.streams.map (·.1)).foldl (fun s b =>
      setBuf s k b { getBuf s k b with st := .free, auto := false, strm := false, uses := 0, clm := false, filler := none, stream := none }) s
    let c := a.streams.foldl (fun c p => (List.finRange 32).foldl (fun c n =>
      let x := getCol c (.c n)
      if x.strm && x.buf = p.1 then setCol c (.c n) (Column.empty x.fmt) else c) c) a.saved
    modArea s i (fun a => { a with ret := false, srf := bytes, claims := [], streams := [], saved := c })

/-! ## The events -/

/-- The event STOP_ABANDON. -/
def execStopAbandon (s : State) : Out := .next (stopAbandon s)

/-- The event STOP_COMPLETE. -/
def execStopComplete (s : State) : Out := .next (stopComplete s)

end Sys2Proof.Machine
end

