-- ==== Sys2Proof/Machine/System.lean ====
section
/-! DEFINITION. The system instructions of major op 0x41 (R90, R118-R120, R142-R147, R230, R231, R305, R334, R347, R350, R370,
R412). -/

namespace Sys2Proof.Machine

/-! ## Special registers -/

/-- PHASE (R287). -/
def phaseWord (c : Ctx) : Word :=
  if c.chk then BitVec.ofNat 64 (2 ^ 31 + c.sat.toNat * 2 ^ 30 + c.member % 64 * 2 ^ 24 + ownPhase c % 2 ^ 24) else 0

/-- GRANn (R355). -/
def granWord (n : Nat) : Word :=
  match n with
  | 0 => 0x10 | 1 => 0x100010 | 2 => 0x200001 | 3 => 0x301000 | 4 => 0x400040 | _ => 0x500100

/-- The special registers of a context that are not marked H (R119): none for a number absent from the table. -/
def srRead (s : State) (x : CtxId) (n : Nat) : Option Word :=
  let c := s.ctx x
  let nat (v : Nat) : Option Word := some (BitVec.ofNat 64 v)
  match n with
  | 0x000 => nat x.toNat
  | 0x001 => nat (c.stage.toNat * 2 ^ 12 + x.toNat)
  | 0x002 => nat c.part.toNat
  | 0x003 => nat c.stage.toNat
  | 0x008 => nat c.vl.toNat
  | 0x009 => nat c.yl.toNat
  | 0x00A => nat c.slip.toNat
  | 0x00B => nat c.lcnt.toNat
  | 0x010 => nat (match c.kv with | some k => k.row | none => vsOf c.window)
  | 0x011 => some (lgWord c.window 0)
  | 0x012 => some (lgWord c.window 1)
  | 0x013 => some (lgWord c.window 2)
  | 0x014 => some (lgWord c.window 3)
  | 0x015 => nat (ocOf c.window)
  | 0x016 => nat c.sc.toNat
  | 0x018 => some c.spb
  | 0x019 => some c.spq
  | 0x01A => nat (splOf c)
  | 0x020 => nat c.pold.toNat
  | 0x021 => nat c.dln.toNat
  | 0x022 => some (phaseWord c)
  | 0x030 => some (grantWord c)
  | 0x031 => nat (s.core (coreOf x)).poolw.toNat
  | 0x040 => some s.cycle
  | 0x041 => some c.retired
  | n =>
    if 0x060 ≤ n && n ≤ 0x065 then some (granWord (n - 0x060))
    else if h : 0x050 ≤ n ∧ n ≤ 0x05E then some c.bb[n - 0x050]
    else none

/-- BBn as R305 limits it. -/
def bbBad (v : Word) : Bool := v.toNat ≥ 2 ^ 57 || bitsAt v.toNat 1 4 ≠ 0

/-- The writable registers and the limits on their values (R17, R142, R305, R374): none where the write is refused. -/
def srWrite (c : Ctx) (n : Nat) (v : Word) : Option Ctx :=
  let init (r : InitReg) : Option Ctx := if initBad r v then none else some (setInit c r v)
  match n with
  | 0x008 => init .vl
  | 0x00A => init .slip
  | 0x018 => if splOf c ≠ 0 then none else init .spb
  | 0x019 => init .spq
  | 0x020 => init .pold
  | 0x021 => init .dln
  | n => if h : 0x050 ≤ n ∧ n ≤ 0x05E then (if bbBad v then none else some { c with bb := c.bb.set (n - 0x050) v }) else none

/-- FBOVF (R350). -/
def fbovf (k : Cluster) : Word := BitVec.ofNat 64 (k.ovf.toNat * 2 ^ 63 + k.count % 2 ^ 32 * 2 ^ 16 + k.faults.length % 128)

/-- A word of the record that the issuing handler's cap0 names; 0 when it is empty (R334). -/
def windowWord (s : State) (n : Nat) : Word :=
  match s.me.cap[0] with
  | some k => match findNamed s k with
    | some x => recWord (namedCtx s x) n
    | none => 0
  | none => 0

/-- A read that waits (R142): YL for every earlier yield, the progress registers and SPL for an empty window. -/
def srWaits (c : Ctx) (n : Nat) : Bool :=
  (n == 0x009 && !allYielded c) || ((n == 0x01A || (0x010 ≤ n && n ≤ 0x015)) && c.window != [])

/-- `mfs` (R120, R142). -/
def execMfs (d : SReg) (sr : BitVec 12) (s : State) : Out :=
  let n := sr.toNat
  onReady s [] [d]
    (if srWaits s.me n then .next s
     else if isHandlerCtx s.cur && 0x100 ≤ n && n ≤ 0x13F then writeBack s d (windowWord s (n - 0x100))
     else if isHandlerCtx s.cur && n = 0x200 then writeBack s d (fbovf (s.cluster (clusterOf s.cur)))
     else
       match srRead s s.cur n with
       | some v => writeBack s d v
       | none => .next (refuse s 0x05))

/-- A write that waits: SPB and SPQ for an empty window, SLIP for the lane groups (R37, R142). -/
def srWriteWaits (c : Ctx) (n : Nat) : Bool :=
  ((n == 0x018 || n == 0x019) && c.window != []) || (n == 0x00A && !c.window.all lanesDone)

/-- `mts` (R17, R120, R142, R334, R350). -/
def execMts (sr : BitVec 12) (a : Src) (s : State) : Out :=
  let n := sr.toNat
  onReady s [a] []
    (let v := readSrc s.me a
     if !srNamed (isHandlerCtx s.cur) n then .next (refuse s 0x05)
     else if srWriteWaits s.me n then .next s
     else if n = 0x200 && v = 0x8000000000000000 then
       let s := s.modCluster (clusterOf s.cur) (fun k => { k with ovf := false, count := 0 })
       .next (s.setMe (retire s.me))
     else
       match srWrite s.me n v with
       | some c => .next (s.setMe (retire c))
       | none => .next (openFreeze s 0x05 0))

/-! ## Trap, breakpoint, snapshots -/

/-- A trigger of the snapshot registers (R412): they latch, or, while a snapshot is held, MISS counts. -/
def latch (s : State) : State :=
  match s.snap with
  | some _ => { s with miss := if s.miss = 0xFFFF then s.miss else s.miss + 1 }
  | none => { s with sntime := s.cycle
                     snap := some { ctxs := s.ctxs, srfs := s.cores.map (fun p => (p.1, p.2.srf))
                                    slots := s.cores.map (fun p => (p.1, p.2.slots)) } }

/-- `trap` (R347). -/
def execTrap (n : BitVec 21) (s : State) : Out := .next (freezeHere s 0x10 0 (n.zeroExtend 64))

/-- `brk` (R347): with breakpoint triggers enabled, the snapshot registers latch first. -/
def execBrk (n : BitVec 21) (s : State) : Out :=
  if s.me.window.any (fun e => e.held != []) || freezeWaits s s.cur then .next s
  else .next (freezeHere (if s.ebrk then latch s else s) 0x11 0 (n.zeroExtend 64))

/-! ## tlbi (R370) -/

/-- Accesses of the partition already translated are performed; then the entries go from every holder. -/
def invalidate (s : State) (gone : TlbEntry → Bool) : State :=
  let part := s.me.part
  let s := (s.ctxs.map (·.1)).foldl (fun s x => if (s.ctx x).part = part then drainStores s x else s) s
  { s with tlb := s.tlb.filter (fun e => !(e.part = part && gone e)) }

/-- An access of the issuing context's partition that is on its way to a peer, translated already. -/
def peersOwe (s : State) : Bool := s.reqs.any (fun r => r.kind ≠ .drop && r.st = .waiting && (s.ctx r.ctx).part = s.me.part)

/-- The entries go at once; the instruction retires when every access translated with one of them is performed (R370), those of any
page of the partition being waited for (log entry 92). -/
def tlbInvalidate (s : State) (gone : TlbEntry → Bool) : Out :=
  let s := invalidate s gone
  if peersOwe s then .next s else .next (s.setMe (retire s.me))

/-- `tlbi.page` (R370). -/
def execTlbiPage (a : Src) (s : State) : Out :=
  onReady s [a] []
    (let va := (readSrc s.me a).toNat
     if va ≥ 2 ^ 57 then .next (refuse s 0x05)
     else releaseThen s fun s => tlbInvalidate s (fun e => e.vbase ≤ va && va < e.vbase + 2 ^ e.bits))

/-- `tlbi.range` (R370). -/
def execTlbiRange (a : Src) (count : BitVec 19) (s : State) : Out :=
  onReady s [a] []
    (let va := (readSrc s.me a).toNat
     if va ≥ 2 ^ 57 || count = 0 then .next (refuse s 0x05)
     else releaseThen s fun s =>
       let lo := va / 4096 * 4096
       tlbInvalidate s (fun e => e.vbase < lo + 4096 * count.toNat && lo < e.vbase + 2 ^ e.bits))

/-- `tlbi.all` (R370). -/
def execTlbiAll (s : State) : Out :=
  releaseThen s fun s => tlbInvalidate s (fun _ => true)

/-! ## Retention (R230, R231) -/

/-- The partition's retention quota (R228, R410). -/
def quotaOf (s : State) (part : PartId) : Nat := match s.image with | some i => mget i.quotas part 0 | none => 0

/-- Bytes that the partition's valid registers hold. -/
def pinnedBytes (p : Partition) : Nat := (p.pins.toList.map (fun r => match r with | some x => 128 * x.2 | none => 0)).foldl (· + ·) 0

/-- `pin` (R230). -/
def execPin (d : FReg) (a : Src) (slot : Fin 8) (lines : BitVec 21) (s : State) : Out :=
  onReady s [a] [] (onFlags s [d]
    (let base := (readSrc s.me a).toNat
     let n := lines.toNat
     let part := s.me.part
     let p := s.part part
     if base % 128 ≠ 0 || n = 0 || base + 128 * n > 2 ^ 57 then .next (openFreeze s 0x05 0)
     else if p.pins[slot].isSome || pinnedBytes p + 128 * n > quotaOf s part then writeFlag s d false
     else writeFlag (s.setPart part { p with pins := p.pins.set slot (some (base, n)) }) d true))

/-- A register of a partition invalidated, its lines re-marked as retain-class lines (R231). -/
def unpinSlot (s : State) (part : PartId) (slot : Fin 8) : State :=
  let s := s.modPart part (fun p => { p with pins := p.pins.set slot none })
  { s with l2 := s.l2.map (fun l => if l.owner = some (part, slot) then { l with cls := .retain, owner := none, overflow := false } else l) }

/-- `unpin` (R231). -/
def execUnpin (slot : Fin 8) (s : State) : Out :=
  let s := unpinSlot s s.me.part slot
  .next (s.setMe (retire s.me))

/-! ## nop, cyc, halt -/

/-- `nop` (R143). -/
def execNop (s : State) : Out := .next (s.setMe (retire s.me))

/-- `cyc` (R144): it waits for every earlier access. -/
def execCyc (d : SReg) (s : State) : Out :=
  onReady s [] [d]
    (if s.me.window ≠ [] || s.me.locks ≠ [] || s.me.pendS ≠ [] || s.me.pendF ≠ [] then .next s
     else writeBack (drainStores s s.cur) d s.cycle)

/-- `halt` (R147): saved as for a stop request, or halted in place where no area is free; the management core hears of it. -/
def execHalt (n : BitVec 21) (s : State) : Out :=
  let c := s.me
  if c.window ≠ [] || !contextQuiet (drainStores s s.cur) s.cur then .next s
  else
    let s := drainStores s s.cur
    -- a store that failed is reported first (R294)
    if storeFailed s s.cur then .next s
    else
    let s := s.setMe { retire s.me with run := .halted, halt := n }
    let free := areasFree s s.me.part ≠ 0
    let s := if free then saveCtx s s.cur .halted false else s
    .next (signal s 1)

end Sys2Proof.Machine
end

