-- ==== Sys2Proof/Machine/Frozen.lean ====
section
/-! DEFINITION. Instructions on frozen contexts, the return from a handler and the start of one: major op 0x40 and the step
HANDLER_START (R22, R337-R349, R351). -/

namespace Sys2Proof.Machine

/-! ## Named contexts -/

/-- The record's cause and marks (R333). -/
def recCause (c : Ctx) : Nat := bitsAt (recWord c 0).toNat 0 8
def recAsync (c : Ctx) : Bool := bitsAt (recWord c 0).toNat 17 1 == 1
def recNc (c : Ctx) : Bool := bitsAt (recWord c 0).toNat 18 1 == 1

/-- A context that a failed restore left (R339, R360). -/
def isCorrupt (c : Ctx) : Bool := recCause c == 0x0F

/-- An operation on a named context where it is: on its position, or, for a saved one, at a position beside those of its core. The
operation works on the context and on its core's pool. -/
def withNamed {α : Type} (s : State) (n : Named) (k : State → CtxId → Acc α) : Acc α :=
  match n with
  | .resident x => k s x
  | .saved i =>
    match s.areas[i]? with
    | none => .wait s
    | some a =>
      let core := coreOf a.ctx
      let pool := (s.core core).srf
      let s := standIn s a
      let s := if a.ret then s else s.modCore core (fun c => { c with srf := a.srf })
      let back (s : State) : State :=
        let srf := (s.core core).srf
        let s := if a.ret then s else s.modCore core (fun c => { c with srf := pool })
        modArea (standOut s i a.ctx) i (fun b => { b with srf := if b.ret then b.srf else srf })
      match k s (ghostOf a.ctx) with
      | .ok v s => .ok v (back s)
      | .fault cause addr s => .fault cause addr (back s)
      | .wait s => .wait (back s)

/-! ## Selectors (R342) -/

/-- A word of frozen state. -/
inductive FrozenWord
  | scalar (n : SReg)
  | flags
  | special (n : Nat)
  | desc (r : Col) (hi : Bool)
  | elems (r : Col) (off : Nat)
  | handle (r : HReg) (w : Nat)
  | entry (k w : Nat)
  | record (n : Nat)
  | accum (a : AReg) (visible : Bool) (row col : Nat)
deriving DecidableEq, Repr

/-- Column register or position list `n`. -/
def colNamed (pos : Bool) (n : Nat) : Option Col :=
  if pos then (if h : n < 16 then some (.p ⟨n, h⟩) else none) else (if h : n < 32 then some (.c ⟨n, h⟩) else none)

/-- The word that a selector names: none where an unused bit is set, the space is reserved or a value is outside the table. -/
def selectorOf (b : Word) : Option FrozenWord :=
  let v := b.toNat
  let space := bitsAt v 60 4
  let low := bitsAt v 0 60
  match space with
  | 0 => if h : low < 64 then some (.scalar ⟨low, h⟩) else none
  | 1 => if low = 0 then some .flags else none
  | 2 => if low < 2 ^ 12 && !(0x100 ≤ low && low ≤ 0x13F) && low ≠ 0x200 && srNamed true low then some (.special low) else none
  | 3 => if low < 2 ^ 8 then (colNamed (bitsAt low 7 1 == 1) (bitsAt low 0 6)).map (.desc · (bitsAt low 6 1 == 1)) else none
  | 4 =>
    if low < 2 ^ 48 && bitsAt low 46 1 = 0 && bitsAt low 0 40 % 8 = 0 then
      (colNamed (bitsAt low 47 1 == 1) (bitsAt low 40 6)).map (.elems · (bitsAt low 0 40)) else none
  | 5 => if h : low < 2 ^ 8 ∧ bitsAt low 0 6 < 16 then some (.handle ⟨bitsAt low 0 6, h.2⟩ (bitsAt low 6 2)) else none
  | 6 => if low < 2 ^ 11 && bitsAt low 4 4 = 0 && bitsAt low 0 4 ≤ 6 then some (.entry (bitsAt low 8 3) (bitsAt low 0 4)) else none
  | 7 => if low < 64 then some (.record low) else none
  | 8 =>
    if h : low < 2 ^ 26 ∧ bitsAt low 8 4 = 0 ∧ bitsAt low 0 8 % 2 = 0 ∧ bitsAt low 24 2 < 4 then
      some (.accum ⟨bitsAt low 24 2, h.2.2.2⟩ (bitsAt low 23 1 == 1) (bitsAt low 12 11) (bitsAt low 0 8)) else none
  | _ => none

/-- The limits of R342 that depend on the context. -/
def selectorBad (s : State) (x : CtxId) (w : FrozenWord) : Bool :=
  let c := s.ctx x
  match w with
  | .entry k _ => k ≥ c.window.length
  | .elems r off => (getCol c r).strm || off ≥ bytesOf (getCol c r).fmt (getCol c r).len
  | .accum _ _ row col => c.gmask = 0 || row ≥ accRows s x || col ≥ 32 * grantCount c
  | _ => false

/-! ## Reading (R342) -/

/-- One byte of a register's elements; an arena byte is checked with the frozen context's translation (R29). -/
def frozenByte (s : State) (x : CtxId) (r : Col) (k : Nat) (write : Bool) : Acc Byte :=
  let d := getCol (s.ctx x) r
  if k ≥ bytesOf d.fmt d.len then .ok 0 s
  else
    let i := firstIn d.fmt k
    let chk : Acc Unit :=
      if packed d.fmt then arenaCheck s x d d.fmt i (min (perByte d.fmt) (d.len - i)) write
      else if i < d.cap then .ok () s
      else arenaRuns x d write 1 (k - byteAt d.fmt d.cap) 1 s
    chk.bind fun _ s => .ok (colByte s x d d.fmt k) s

def frozenBytes (x : CtxId) (r : Col) (write : Bool) : Nat → Nat → State → Acc (List Byte)
  | 0, _, s => .ok [] s
  | n + 1, k, s => (frozenByte s x r k write).bind fun b s => (frozenBytes x r write n (k + 1) s).bind fun bs s => .ok (b :: bs) s

def handleWord (h : Handle) (w : Nat) : Word :=
  match w with | 0 => h.w0 | 1 => h.w1 | 2 => h.w2 | _ => h.w3

def entryWord (e : Entry) (w : Nat) : Word :=
  match w with
  | 0 => e.pc
  | 1 => e.word
  | 2 => e.opA
  | 3 => e.opB
  | 4 => e.opC
  | 5 => BitVec.ofNat 64 e.pol.toNat
  | _ => BitVec.ofNat 64 e.vs

def accBank (c : Ctx) (a : AReg) (visible : Bool) : Bank := if visible then c.acc[a].visible else c.acc[a].working

/-- The word that a selector names, in a context whose selector limits hold. -/
def frozenRead (s : State) (x : CtxId) (w : FrozenWord) : Acc Word :=
  let c := s.ctx x
  match w with
  | .scalar n => .ok (getS c n) s
  | .flags => .ok (BitVec.ofNat 64 (((List.finRange 16).map (fun i => c.f[i].toNat * 2 ^ i.val)).foldl (· + ·) 0)) s
  | .special n =>
    let id := (capOf c).ctx
    .ok (if n = 0x000 then BitVec.ofNat 64 id.toNat
      else if n = 0x001 then BitVec.ofNat 64 (c.stage.toNat * 2 ^ 12 + id.toNat)
      else mget c.written n ((srRead s x n).getD 0)) s
  | .desc r hi => .ok (if hi then descWord1 (getCol c r) else descWord0 (getCol c r) (workOf c r)) s
  | .elems r off => (frozenBytes x r false 8 off s).bind fun bs s => .ok (BitVec.ofNat 64 (ofLe bs)) s
  | .handle r i => .ok (handleWord c.h[r] i) s
  | .entry k i => .ok (match c.window[k]? with | some e => entryWord e i | none => 0) s
  | .record n => .ok (recWord c n) s
  | .accum a vis row col =>
    let b := accBank c a vis
    .ok (BitVec.ofNat 64 ((mget b.cells (row, col) 0).toNat + (mget b.cells (row, col + 1) 0).toNat * 2 ^ 32)) s

/-! ## Writing (R342, R343) -/

/-- The fault point lies in a replay of the captured body (R22, R342), which may have issued its last word since. -/
def inReplay (c : Ctx) : Bool :=
  c.bodyAt.toNat ≤ (recWord c 1).toNat && (recWord c 1).toNat < c.bodyAt.toNat + 8 * c.body.length

/-- LGg set: the entries before DONE complete in the lane group, entry DONE at NEXT, the later ones not begun (R44). -/
def setLane (w : List Entry) (g done next : Nat) : List Entry :=
  w.zipIdx.map (fun p =>
    if p.1.engine ≠ .lanes then p.1
    else
      let n := if p.2 < done then max p.1.len (laneNext p.1 g) else if p.2 = done then next else 16 * g
      { p.1 with next := p.1.next.set g n })

/-- LCNT written: more replays follow where the last one has issued whole and nothing after it (R22, log entry 46). -/
def setTrips (c : Ctx) (n : BitVec 32) : Ctx :=
  if c.bodyPos.isNone && c.pc == c.bodyAt + BitVec.ofNat 64 (8 * c.body.length) then
    { c with lcnt := n, bodyPos := some 0, pc := c.bodyAt }
  else { c with lcnt := n }

/-- A special register of a frozen context: the writable ones, and the frozen copies of execution state. None where refused. -/
def frozenSr (c : Ctx) (n : Nat) (v : Word) : Option Ctx :=
  let small : Bool := v.toNat < 2 ^ 32
  let low : BitVec 32 := BitVec.ofNat 32 v.toNat
  let kept (c : Ctx) : Ctx := { c with written := mset c.written n v }
  match n with
  | 0x009 => if small then some { c with yl := low } else none
  | 0x00B => if small && low ≠ 0 && inReplay c then some (setTrips c low) else none
  | 0x016 => if small && inReplay c then some { c with sc := low } else none
  | 0x010 =>
    if !small then none
    else if recNc c && c.kv.isSome then some (kept { c with kv := c.kv.map (fun k => { k with row := v.toNat }) })
    else some <| kept { c with window := match c.window with
      | e :: w => (if e.engine = .lanes then e else { e with vs := v.toNat }) :: w
      | [] => [] }
  | 0x015 =>
    if !small then none
    else
      let i := c.window.findIdx (fun e => e.engine = .relational)
      some (kept { c with window := c.window.modify i (fun e => { e with oc := v.toNat }) })
  | n =>
    if 0x011 ≤ n && n ≤ 0x014 then
      (if v.toNat ≥ 2 ^ 36 then none
       else some (kept { c with window := setLane c.window (n - 0x011) (bitsAt v.toNat 32 4) (bitsAt v.toNat 0 32) }))
    else srWrite c n v

/-- The ranges that an entry's captured operands give at issue (R254, R273). -/
def operandRanges (e : Entry) : List (Nat × Nat × Bool) :=
  let a := e.opA.toNat
  let b := e.opB.toNat
  match e.instr with
  | .cpy .. | .cpyx .. | .cpyc .. => [(b, b + e.len, false), (a, a + e.len, true)]
  | .txc .. | .txe .. => [(a, a + e.len, true)]
  | .xred .. | .xclr .. => [(a, a + 48 * e.len, true)]
  | .xfin .. => [(a, a + 48 * e.len, false)]
  | .mldw (.sc _) .. => [(a, a + 256 * e.len, false)]
  | _ => []

/-- A changed entry enters its ranges again when it is re-issued (R275): a column access, whose ranges are found anew, or one whose
operands give them. -/
def reenter (c : Ctx) (k : Nat) : Ctx :=
  match c.window[k]? with
  | none => c
  | some e =>
    let rest := c.locks.filter (·.seq ≠ e.seq)
    if isColMem e.instr then { c with window := c.window.modify k (fun e => { e with admitted := false }), locks := rest }
    else if operandRanges e = [] || e.len = 0 then c
    else { c with locks := c.locks.map (fun l => if l.seq = e.seq then { l with ranges := operandRanges e } else l) }

/-- A word of frozen state written; none where the write is refused. -/
def frozenWrite (s : State) (x : CtxId) (w : FrozenWord) (v : Word) : Acc (Option Unit) :=
  let c := s.ctx x
  let done (c : Ctx) : Acc (Option Unit) := .ok (some ()) (s.setCtx x c)
  let no : Acc (Option Unit) := .ok none s
  match w with
  | .scalar n => done (setS c n v)
  | .flags => done { c with f := Vector.ofFn (fun i => v.getLsbD i.val) }
  | .special n => match frozenSr c n v with | some c => done c | none => no
  | .desc _ _ | .handle _ _ | .record _ => no
  | .elems r off =>
    let d := getCol c r
    let n := min 8 (bytesOf d.fmt d.len - off)
    (frozenBytes x r true n off s).bind fun _ s => .ok (some ()) (putColBytes s x r d.fmt off ((leBytes 8 v.toNat).take n))
  | .entry k i =>
    let set (g : Entry → Entry) : Acc (Option Unit) := done (reenter { c with window := c.window.modify k g } k)
    match i with
    | 2 => set (fun e => { e with opA := v })
    | 3 => set (fun e => { e with opB := v })
    | 4 => set (fun e => { e with opC := v })
    | 5 => set (fun e => { e with pol := BitVec.ofNat 32 v.toNat })
    | _ => no
  | .accum a vis row col =>
    let b := accBank c a vis
    let cells := mset (mset b.cells (row, col) (BitVec.ofNat 32 v.toNat)) (row, col + 1) (BitVec.ofNat 32 (v.toNat / 2 ^ 32))
    let b : Bank := { b with cells := cells }
    let acc := c.acc[a]
    done { c with acc := c.acc.set a (if vis then { acc with visible := b } else { acc with working := b }) }

/-! ## The instructions -/

/-- The context that a capability register names; an empty one, or one whose context is frozen no more, is cause 0x0E (R339). -/
def onNamed (s : State) (a : CapReg) (k : Named → Out) : Out :=
  match s.me.cap[a] with
  | none => .next (refuse s 0x0E)
  | some c =>
    match findNamed s c with
    | some n => k n
    | none => .next (refuse s 0x0E)

/-- The accesses that the context has sent are complete (R340): its scalar stores are performed. -/
def settled (s : State) (n : Named) : State :=
  match n with
  | .resident x => drainReady s x
  | .saved _ => s

/-- A reply of a peer, or of a queue's owner, is still due to the context (R340); what a stop has abandoned is not. -/
def repliesDue (s : State) (n : Named) : Bool :=
  match n with
  | .saved _ => false
  | .resident x =>
    s.reqs.any (fun r => r.ctx = x && r.kind ≠ .drop && r.st = .waiting) || (s.ctx x).replies ≠ []
      || s.cores.any (fun p => p.2.qin.any (fun q => q.ctx = x && q.reply))

/-- What a selector names in a context: none where R342 refuses it, for a corrupt context all but the record. -/
def wordIn (s : State) (n : Named) (b : Word) : Option FrozenWord :=
  match selectorOf b with
  | none => none
  | some w =>
    let bad : Bool := match withNamed s n (fun s x => .ok (selectorBad s x w) s) with | .ok v _ => v | .fault .. | .wait _ => true
    let record : Bool := match w with | .record _ => true | _ => false
    if bad || (isCorrupt (namedCtx s n) && !record) then none else some w

/-- `frz.rd` (R342). -/
def execFrzRd (d : SReg) (a : CapReg) (b : Src) (s : State) : Out :=
  onReady s [b] [d]
    (onNamed s a fun n =>
      if repliesDue s n then .next s
      else
      let s := settled s n
      match wordIn s n (readSrc s.me b) with
      | none => .next (refuse s 0x05)
      | some w => finish (withNamed s n (fun s x => frozenRead s x w)) fun v s => s.setMe (retire (setS s.me d v)))

/-- `frz.wr` (R343). -/
def execFrzWr (a : CapReg) (b c : Src) (s : State) : Out :=
  onReady s [b, c] []
    (onNamed s a fun n =>
      if repliesDue s n then .next s
      else
      let s := settled s n
      match wordIn s n (readSrc s.me b) with
      | none => .next (refuse s 0x05)
      | some w =>
        let v := readSrc s.me c
        finish (withNamed s n (fun s x => frozenWrite s x w v)) fun r s =>
          match r with
          | some _ => s.setMe (retire s.me)
          | none => refuse s 0x05)

/-- After `frz.res` the handler goes on. -/
def resumed (s : State) (n : Named) (c : Ctx) : Out :=
  let s := unfreeze s n c
  .next (s.setMe (retire s.me))

/-- `frz.res.retry` (R344): the record's point is executed again. -/
def execFrzResRetry (a : CapReg) (s : State) : Out :=
  onNamed s a fun n =>
    if isCorrupt (namedCtx s n) then .next (openFreeze s 0x05 0)
    else releaseThen s fun s => resumed s n (namedCtx s n)

/-- The faulting entry of a record, and the element it names. -/
def recEntry (c : Ctx) : Option Entry := c.window[bitsAt (recWord c 15).toNat 0 3]?
def recElem (c : Ctx) : Nat := bitsAt (recWord c 15).toNat 32 32

/-- U of R344: the faulting element, or all trits of its byte where a tern5 source is decoded. -/
def skipSet (e : Entry) (m : Nat) : List Nat :=
  let tern (o : Option ColOperand) : Bool := match o with | some x => x.fmt == .tern5 | none => false
  if tern e.srcA || tern e.srcB || (tern e.srcC && e.dests != []) then (List.range 5).map (5 * (m / 5) + ·) else [m]

/-- The context with its faulting point skipped. -/
def skipPoint (c : Ctx) : Ctx :=
  if recNc c then pastWord { c with kv := none }
  else
    match recEntry c with
    | some e => { c with window := c.window.map (fun x => if x.seq = e.seq then { x with late := x.late ++ skipSet e (recElem c) } else x) }
    | none => c

/-- Whether the faulting point may be skipped (R344). -/
def skippable (c : Ctx) : Bool :=
  !recAsync c && (recNc c || (match recEntry c with | some e => maySkip e | none => false))

/-- `frz.res.skip` (R344). -/
def execFrzResSkip (a : CapReg) (s : State) : Out :=
  onNamed s a fun n =>
    let c := namedCtx s n
    if isCorrupt c || !skippable c then .next (openFreeze s 0x05 0)
    else releaseThen s fun s => resumed s n (skipPoint (namedCtx s n))

/-- The position of a PC in the body being replayed; elsewhere the replay is over (log entry 46). -/
def resumeAt (c : Ctx) (pc : Word) : Ctx :=
  let c := { c with kv := none }
  let off := pc.toNat - c.bodyAt.toNat
  if c.bodyPos.isSome && c.bodyAt.toNat ≤ pc.toNat && off < 8 * c.body.length then
    { c with pc := pc, bodyPos := some (off / 8), script := [] }
  else { c with pc := pc, bodyPos := none, lcnt := if c.bodyPos.isSome then 0 else c.lcnt, script := [] }

/-- `frz.res.pc` (R344): the window is discarded. -/
def execFrzResPc (a : CapReg) (b : Src) (s : State) : Out :=
  onReady s [b] []
    (onNamed s a fun n =>
      let pc := readSrc s.me b
      if isCorrupt (namedCtx s n) || pc.toNat % 8 ≠ 0 || pc.toNat ≥ 2 ^ 57 then .next (openFreeze s 0x05 0)
      else releaseThen s fun s =>
        match withNamed s n (fun s x => .ok () (dropWindow s x)) with
        | .ok _ s => resumed s n (resumeAt (namedCtx s n) pc)
        | .fault _ _ s | .wait s => .next s)

/-- `frz.kill` (R345). -/
def execFrzKill (a : CapReg) (s : State) : Out :=
  onNamed s a fun n =>
    let s := killNamed s n
    .next (s.setMe (retire s.me))

/-- The status word of a capability (R341). -/
def capWord (s : State) (k : Option Capability) : Word :=
  match k with
  | none => 0
  | some k =>
    match findNamed s k with
    | none => 0
    | some n =>
      let c := namedCtx s n
      let st : Nat := if isCorrupt c then 3 else match n with | .resident _ => 1 | .saved _ => 2
      BitVec.ofNat 64 (c.isHandler.toNat * 2 ^ 43 + st * 2 ^ 40 + c.part.toNat * 2 ^ 36 + k.ctx.toNat * 2 ^ 24
        + (recWord c 0).toNat % 2 ^ 24)

/-- `frz.info` (R341). -/
def execFrzInfo (d : SReg) (a : CapReg) (s : State) : Out := onReady s [] [d] (writeBack s d (capWord s s.me.cap[a]))

/-- `hret` (R346): every capability register must be empty; the handler's own instructions end first (log entry 47). -/
def execHret (s : State) : Out :=
  let c := s.me
  if !isHandlerCtx s.cur then .next (refuse s 0x04)
  else if c.cap.toList.any Option.isSome then .next (openFreeze s 0x05 0)
  else if c.window ≠ [] || c.pendS ≠ [] || c.pendF ≠ [] || !enginesQuiet s s.cur then .next s
  else
    let s := drainStores s s.cur
    if storeFailed s s.cur then .next s else .next (handlerReturn (detach s s.cur) s.cur)

/-! ## HANDLER_START (R337, R338, R348, R351) -/

/-- The level-0 handler contexts of a cluster: context 4 of each core, of cores 0 to 2 in clusters 47 and 95 (R9, R337). -/
def settOf (cl : ClusterId) : List CtxId := ((List.range 4).map (fun n => ctxOn (coreAt cl n) 4)).filter (fun h => !isLevel1 h)

/-- The handler that serves a context: on its own core, or the lowest core, with a share for its partition; else the lowest
(R337). -/
def serverFor (s : State) (cl : ClusterId) (k : Capability) (part : PartId) : Option CtxId :=
  let idle := (settOf cl).filter (fun h => (s.ctx h).run == .idle)
  let shared := idle.filter (fun h => shareOf s (coreOf h) part ≠ 0)
  match shared.find? (fun h => coreOf h = coreOf k.ctx) with
  | some h => some h
  | none => match shared.head? with
    | some h => some h
    | none => idle.head?

/-- A handler's bank; a fault of the unit that loads it leaves the bank zero (log entry 48). -/
def handlerBank (s : State) (cl : ClusterId) (part : PartId) : Map Nat Word × State :=
  match loadBank s cl part (bitsAt (s.part part).hbank.toNat 3 54 * 8) with
  | .ok m s => (m, s)
  | .fault _ _ s | .wait s => ([], s)

/-- The partition of a context that a report names; none where it is frozen no more. -/
def reportPart (s : State) (k : Capability) : Option PartId := (findNamed s k).map (fun n => (namedCtx s n).part)

/-- A report that a handler may take: one of a frozen partition starts none (R352). -/
def servable (s : State) (k : Capability) : Bool := (reportPart s k).any (fun p => !(s.part p).frozen)

/-- The level-0 sett takes the oldest report that it may serve; reports of contexts that are frozen no more go. -/
def startLevel0 (s : State) (cl : ClusterId) : State :=
  let live := (s.cluster cl).faults.filter (fun k => (findNamed s k).isSome)
  let s := if live = (s.cluster cl).faults then s else s.modCluster cl (fun c => { c with faults := live })
  match live.find? (servable s) with
  | none => s
  | some k =>
    match findNamed s k with
    | none => s
    | some n =>
      let c := namedCtx s n
      match serverFor s cl k c.part with
      | none => s
      | some h =>
        let s := placeUnreported (s.modCluster cl (fun c => { c with faults := c.faults.erase k })) cl
        let b := handlerBank s cl c.part
        startHandler b.2 h (namedCtx b.2 n) none b.1

/-- The level-1 sett of the half takes the oldest escalation whose partition has a handler (R351). -/
def startLevel1 (s : State) (cl : ClusterId) : State :=
  let h := ctxOn (coreAt cl 3) 4
  let live := (s.cluster cl).level1.filter (fun k => (findNamed s k).isSome)
  let s := if live = (s.cluster cl).level1 then s else s.modCluster cl (fun c => { c with level1 := live })
  let hent (k : Capability) : Bool := (reportPart s k).any (fun p => (s.part p).hent.toNat % 2 == 1)
  match live.filter (fun k => hent k && servable s k) with
  | [] => s
  | k :: ks =>
    if (s.ctx h).run ≠ .idle then s
    else
      let k := ks.foldl (fun m x => if x.ftime.toNat < m.ftime.toNat then x else m) k
      match findNamed s k with
      | none => s
      | some n =>
        let c := namedCtx s n
        let s := s.modCluster cl (fun c => { c with level1 := c.level1.filter (· ≠ k) })
        let b := handlerBank s cl c.part
        startHandler b.2 h c c.cap[0] b.1

/-- HANDLER_START: an idle handler context of the cluster starts, of its level-0 sett or, in clusters 47 and 95, of the level-1
sett. A frozen partition starts none. -/
def handlerStart (s : State) (cl : ClusterId) : State :=
  let s0 := if cl = 47 || cl = 95 then startLevel1 s cl else s
  startLevel0 s0 cl

/-- The event HANDLER_START. -/
def execHandlerStart (cl : ClusterId) (s : State) : Out := .next (handlerStart s cl)

end Sys2Proof.Machine
end

