-- ==== Sys2Proof/Machine/Handles.lean ====
section
/-! DEFINITION. Counted tensors: handles, dens and finalisers, with the steps DROP_AT_DEN and FINALISER_ARM: major op 0x30
(R294-R296, R378-R388). -/

namespace Sys2Proof.Machine

/-! ## Dens (R379, R384) -/

/-- TOTAL of every record. -/
def denTotal : Nat := 2 ^ 31

def denSize (s : State) : Nat := match s.image with | some i => min i.denSize (2 ^ 20) | none => 0

def denRecord (s : State) (cl : ClusterId) (i : Nat) : DenRecord := mget (s.cluster cl).dens i DenRecord.reset
def setRecord (s : State) (cl : ClusterId) (i : Nat) (r : DenRecord) : State := s.modCluster cl (fun k => { k with dens := mset k.dens i r })

/-- A free record: one the device proposes, or the lowest (log entry 17). -/
def freeRecord (s : State) (cl : ClusterId) : Option Nat :=
  let n := denSize s
  let want := Config.pick s.fresh % max 1 n
  if n = 0 then none
  else if !(denRecord s cl want).live then some want
  else (List.range n).find? (fun i => !(denRecord s cl i).live)

/-- A record made at a den: its index and generation. -/
def newRecord (s : State) (cl : ClusterId) (part : PartId) (kind : Nat) (prx : Bool) (fin : Word) (held : Option Handle) :
    Option (Nat × BitVec 17 × State) :=
  (freeRecord s cl).map fun i =>
    let g := (denRecord s cl i).gen
    (i, g, setRecord s.draw cl i
      { live := true, part := part, kind := kind, prx := prx, ret := 0, fin := fin, gen := g, held := held, poison := false, clock := [] })

/-- The record that a handle names for a partition at a den of this module: none when it is free, of another generation or of
another partition. -/
def namedRecord (s : State) (part : PartId) (h : Handle) : Option DenRecord :=
  let r := denRecord s (hDen h) (hRec h)
  if r.live && r.gen = hGen h && r.part = part then some r else none

def isHere (s : State) (h : Handle) : Bool := hMod h = moduleNo s

/-! ## Questions to dens -/

/-- What asks a den of another module: an unlisted type, the question's number in OPC, the handle's words in INLINE (log
entry 15). -/
def denFlit (s : State) (ctx : CtxId) (h : Handle) (q : Nat) (more : List Byte) (tag : Word) : Flit :=
  flitFor s ctx 0 (hMod h) 0 32 q (handleBytes h ++ more) tag

/-- A 64-bit answer of another module's den. -/
def askDen (s : State) (key : Nat) (h : Handle) (q : Nat) (more : List Byte) : Acc Word :=
  (peerAsk s s.cur (0, key, 0) .den (denFlit s s.cur h q more) 0 0 0).bind fun bs s => .ok (BitVec.ofNat 64 (ofLe bs)) s

/-- Exclusivity along a chain of records (R386); a poisoned record is met by an acquire (R295). -/
def exclusive (acq : Bool) (key : Nat) : Nat → Handle → State → Acc Bool
  | 0, _, s => .ok false s
  | fuel + 1, h, s =>
    let part := s.me.part
    if isHere s h then
      match namedRecord s part h with
      | none => .ok false s
      | some r =>
        if 2 ^ hExp h ≠ denTotal - r.ret then .ok false s
        else if r.poison && acq then openFault s 0x0C
        else match (if r.prx then r.held else none) with
          | some h' => exclusive acq key fuel h' s
          | none => .ok true s
    else if !hasRoute s (hMod h) then .ok false s
    else (askDen s (key + fuel) h 0 []).bind fun w s => .ok (w == 1) s

/-- A chain is never longer than the records of the module. -/
def chainFuel (s : State) : Nat := 1 + (s.clusters.map (fun p => p.2.dens.length)).foldl (· + ·) 0

def exclusiveOf (s : State) (acq : Bool) (key : Nat) (h : Handle) : Acc Bool := exclusive acq key (chainFuel s) h s

/-- TOTAL − RET, or FIN, of the record a handle names (R387). -/
def denValue (s : State) (key : Nat) (h : Handle) (fin : Bool) : Acc Word :=
  if isHere s h then
    .ok (match namedRecord s s.me.part h with
      | some r => if fin then r.fin else BitVec.ofNat 64 (denTotal - r.ret)
      | none => 0) s
  else if !hasRoute s (hMod h) then .ok 0 s
  else askDen s key h (if fin then 2 else 1) []

/-! ## Checks (R380) -/

def emptyH (h : Handle) : Bool := hKind h = 0

/-! ## The instructions -/

/-- `hmk` and `hsp` when their checks are done: the record, and the handle in h[d] unless the den table is full. -/
def makeTensor (s : State) (d : HReg) (kind base len : Nat) (fmt : Fmt) (fin : Word) : State :=
  let cl := clusterOf s.cur
  match newRecord s cl s.me.part kind false fin none with
  | none => s.draw.setMe (retire s.me)
  | some (i, g, s) =>
    let h := handleOf kind false 31 (moduleNo s) cl i g base len fmt.code
    s.setMe (retire { s.me with h := s.me.h.set d h })

/-- `hmk.fmt` (R381). -/
def execHmk (d : HReg) (a b c : Src) (fmt : Fmt) (s : State) : Out :=
  onReady s [a, b, c] []
    (let base := (readSrc s.me a).toNat
     let len := (readSrc s.me b).toNat
     let fin := readSrc s.me c
     if base ≥ 2 ^ 57 || len = 0 || len ≥ 2 ^ 48 then .next (refuse s 0x05)
     else if fin.toNat % 256 ≠ 0 then .next (refuse s 0x0B)
     else if !emptyH s.me.h[d] then .next (refuse s 0x0E)
     else .next (makeTensor s d 1 base len fmt fin))

/-- The division of a handle's weight (R382). -/
def splitHandle (s : State) (d a : HReg) : State :=
  let c := s.me
  let h := c.h[a]
  if hExp h ≥ 1 then
    let h := { h with w0 := withBits h.w0 54 5 (hExp h - 1) }
    s.setMe (retire { c with h := (c.h.set a h).set d h })
  else
    let cl := clusterOf s.cur
    match newRecord s cl c.part (hKind h) true 0 (some h) with
    | none => s.draw.setMe (retire c)
    | some (i, g, s) =>
      let h := { h with w0 := handleWord0 (hKind h) true 30 (moduleNo s) cl i g }
      s.setMe (retire { c with h := (c.h.set a h).set d h })

/-- `hcpy` (R382). -/
def execHcpy (d a : HReg) (s : State) : Out :=
  if d = a then .next (refuse s 0x05)
  else if emptyH s.me.h[a] || !emptyH s.me.h[d] then .next (refuse s 0x0E)
  else .next (splitHandle s d a)

/-- The words of a handle, as a release carries them. -/
def handleWords (h : Handle) : List Word := [h.w0, h.w1, h.w2, h.w3]

/-- `hdrop` (R383, R296): a release. The register is empty once the drop has left the core. -/
def execHdrop (a : HReg) (s : State) : Out :=
  let h := s.me.h[a]
  if emptyH h then .next (refuse s 0x0E)
  else
    let gone (c : Ctx) : Ctx := retire { c with h := c.h.set a Handle.empty }
    .next (postRelease s (.hdrop a) (handleWords h) gone (fun s =>
      let s := ctxDrop s s.cur h
      s.setMe (gone s.me)))

/-- An `hfin` on its way: to a den of this module, in order with the drops, or to a peer; else discarded and counted (R387). -/
def sendFin (s : State) (ctx : CtxId) (h : Handle) (b : Word) (clock : Clock) : State :=
  let c := s.ctx ctx
  let bad := storeFailed s ctx
  if isHere s h then
    s.modCluster (hDen h) (fun k => { k with drops := k.drops ++
      [{ handle := h, part := c.part, bad := bad, clock := if c.chk then clock else [], fin := some b }] })
  else if hasRoute s (hMod h) then
    let tag := BitVec.ofNat 64 s.fresh
    let f := flitSeal (denFlit s ctx h (3 + bad.toNat * 1024) (leBytes 8 b.toNat) tag)
    let r : Request := { tag := tag, ctx := 0, va := 0, pte := 0, key := (0, 0, 0), kind := .drop, flit := f, resent := 0, st := .waiting }
    { s.draw with reqs := s.reqs ++ [r], outbox := s.outbox ++ [f] }
  else countHandle s c.part

/-- `hfin` (R387): a release. -/
def execHfin (a : HReg) (b : Src) (s : State) : Out :=
  onReady s [b] []
    (let v := readSrc s.me b
     let h := s.me.h[a]
     if v.toNat % 256 ≠ 0 then .next (refuse s 0x0B)
     else if emptyH h || hPrx h then .next (refuse s 0x0E)
     else .next (postRelease s (.hfin a b) (handleWords h ++ [v]) retire (fun s =>
       let s := sendFin s s.cur h v s.me.vc
       s.setMe (retire s.me))))

/-- `hexcl` (R386): an acquire when it gives 1. -/
def execHexcl (d : FReg) (a : HReg) (s : State) : Out :=
  onFlags s [d]
    (let h := s.me.h[a]
     if emptyH h then .next (refuse s 0x0E)
     else finish (exclusiveOf s true 1 h) fun x s =>
       let s := s.setMe (retire (setF s.me d x))
       if x then l1DropAll s (coreOf s.cur) else s)

/-! ## Slots (R385) -/

/-- The 32 bytes of a slot, for an access that reads and writes it; an access to a peer asks with its own atomic code and
operand (log entry 15). -/
def slotPlace (s : State) (a : Word) : Acc Piece :=
  (resolve s (meWho s s.me.pold) .atomic a 32).bind fun ps s =>
    match ps with
    | [x] =>
      (match x.place with
       | .mem pa _ => if s.poisoned pa 32 then .fault 0x0C a s else .ok x s
       | _ => .ok x s)
    | _ => .wait s

/-- A slot read and, if `k` gives a handle, written in the same step. -/
def slotStep (s : State) (a : Word) (code : Nat) (inline : List Byte) (k : Handle → Option Handle) : Acc (Option Handle) :=
  (slotPlace s a).bind fun x s =>
    match x.place with
    | .pool p off =>
      let old := handleOfBytes (poolBytes s (coreOf s.cur) p off 32)
      (match k old with
       | some h => .ok (some old) (poolPut s (coreOf s.cur) p off (handleBytes h))
       | none => .ok none s)
    | .mem pa page =>
      let old := handleOfBytes (s.bytesPA pa 32)
      (match k old with
       | some h =>
         let s := setDirty s s.me.part page
         .ok (some old) (storePA (l1Drop s (coreOf s.cur) pa 32) pa (handleBytes h))
       | none => .ok none s)
    | .peer pa page =>
      let opc := opcOf code false s.me.pold (code = 11 && storeFailed s s.cur)
      (peerAsk (setDirty s s.me.part page) s.cur (0, 0, 0) .atomic (flitFor s s.cur 3 (pteTgt page.w1) pa 32 opc inline) a a
          page.pte).bind fun bs s =>
        let old := handleOfBytes bs
        .ok ((k old).map (fun _ => old)) s

/-- LIVE of a slot. -/
def isLive (h : Handle) : Bool := h.w3.toNat ≥ 2 ^ 63
def setLive (h : Handle) (v : Bool) : Handle := { h with w3 := withBits h.w3 63 1 v.toNat }

/-- Where a slot lies. -/
def slotWhere (s : State) (a : Word) : Option Place :=
  match slotPlace s a with
  | .ok x _ => some x.place
  | .fault .. | .wait _ => none

/-- A mark of R294 at a place of this module. -/
def marked (s : State) (pl : Place) : Bool := s.syncBad.contains (placeKey (coreOf s.cur) pl / 32)

/-- `hld` (R385): an acquire at scope module. -/
def execHld (d : HReg) (a : Src) (s : State) : Out :=
  onReady s [a] []
    (let at_ := readSrc s.me a
     if at_.toNat % 32 ≠ 0 then .next (refuse s 0x0B)
     else if !emptyH s.me.h[d] then .next (refuse s 0x0E)
     else if scalarWaits s.me at_ 32 true then .next s
     else
       let s := drainStores s s.cur
       let pl := slotWhere s at_
       if pl.any (marked s) then .next (freezeHere s 0x0C 0 at_)
       else
         finish ((slotStep s at_ 10 [] (fun h => if isLive h && 1 ≤ hKind h && hKind h ≤ 3 then some (setLive h false) else none)).bind
             fun r s => match r with
               | some h => .ok h s
               | none => openFault s 0x0E) fun h s =>
           let s := match pl with | some p => acquireClock s s.cur (placeKey (coreOf s.cur) p) | none => s
           let s := s.setMe (retire { s.me with h := s.me.h.set d (setLive h false) })
           l1DropAll s (coreOf s.cur))

/-- `hst` (R385): a release at scope module. -/
def execHst (a : Src) (b : HReg) (s : State) : Out :=
  onReady s [a] []
    (let at_ := readSrc s.me a
     let h := s.me.h[b]
     if at_.toNat % 32 ≠ 0 then .next (refuse s 0x0B)
     else if emptyH h then .next (refuse s 0x0E)
     else if scalarWaits s.me at_ 32 true then .next s
     else releaseThen s fun s =>
       let pl := slotWhere s at_
       finish ((slotStep s at_ 11 (handleBytes (setLive h true)) (fun old => if isLive old then none else some (setLive h true))).bind
           fun r s => match r with
             | some _ => .ok () s
             | none => openFault s 0x0E) fun _ s =>
         let s := match pl with | some p => released s p true | none => s.modCtx s.cur bumpPhase
         s.setMe (retire { s.me with h := s.me.h.set b Handle.empty }))

/-- `hinfo` (R387). -/
def execHinfo (d : SReg) (a : HReg) (sel : BitVec 10) (s : State) : Out :=
  onReady s [] [d]
    (let h := s.me.h[a]
     if sel.toNat ≥ 6 then .next (refuse s 0x05)
     else if sel.toNat < 4 then writeBack s d (handleWord h sel.toNat)
     else if emptyH h then .next (refuse s 0x0E)
     else finish (denValue s 1 h (sel = 5)) fun v s => s.setMe (retire (setS s.me d v)))

/-! ## Sparse tensors (R388) -/

/-- Bytes read by an instruction of its own context, with the race check where the bytes are no object (R283, R290). -/
def ownRead (s : State) (key : Nat) (a : Word) (n : Nat) (race : Bool) : Acc (List Byte) :=
  let w := meWho s s.me.pold
  (resolve s w .read a n).bind fun ps s =>
    if ps.any (pieceBad s) then .fault 0x0C a s
    else
      match (if race then raceCheck s s.cur (ownPhase s.me) false ps else some s) with
      | some s => readPieces w (0, key) a ps s
      | none => .fault 0x08 a s

/-- The words of a descriptor. -/
def readDesc (a : Word) : Nat → Nat → State → Acc (List Word)
  | 0, _, s => .ok [] s
  | n + 1, k, s =>
    (ownRead s k (a + BitVec.ofNat 64 (8 * k)) 8 true).bind fun bs s =>
      (readDesc a n (k + 1) s).bind fun ws s => .ok (BitVec.ofNat 64 (ofLe bs) :: ws) s

/-- The product of the level sizes, or none for an illegal descriptor. -/
def descLen (ws : List Word) : Option Nat :=
  let w (k : Nat) : Nat := (ws[k]?.getD 0).toNat
  let n := bitsAt (w 0) 0 3
  let size (l : Nat) : Nat := bitsAt (w (8 + 4 * l)) 32 32
  let prod := ((List.range n).map size).foldl (· * ·) 1
  if n = 0 || n > 4 || (List.range n).any (fun l => bitsAt (w (8 + 4 * l)) 0 2 = 3 || size l = 0) || prod > 2 ^ 32 then none
  else some prod

/-- `hsp.fmt` (R388). -/
def execHsp (d : HReg) (a c : Src) (fmt : Fmt) (s : State) : Out :=
  onReady s [a, c] []
    (let at_ := readSrc s.me a
     let fin := readSrc s.me c
     if at_.toNat % 64 ≠ 0 || fin.toNat % 256 ≠ 0 then .next (refuse s 0x0B)
     else if !emptyH s.me.h[d] then .next (refuse s 0x0E)
     else if scalarWaits s.me at_ 192 false || !loadsReturned s.me.window then .next s
     else
       let s := drainStores s s.cur
       finish ((readDesc at_ 8 0 s).bind fun hd s =>
           let n := bitsAt (hd[0]?.getD 0).toNat 0 3
           (readDesc at_ (if n ≤ 4 then 4 * n else 0) 8 s).bind fun ls s =>
             match descLen (hd ++ ls) with
             | none => .fault 0x06 at_ s
             | some len => .ok len s) fun len s =>
         makeTensor s d 2 at_.toNat len fmt fin)

/-! ## The handle units' steps -/

/-- A record dies: a proxy drops what it holds, a tensor with a template waits for a finaliser slot (R383). -/
def die (s : State) (cl : ClusterId) (i : Nat) (r : DenRecord) (h : Handle) : State :=
  let s := setRecord s cl i { DenRecord.reset with gen := r.gen + 1 }
  match r.held with
  | some h' => if r.prx then sendDrop s h' r.part r.poison r.clock else s
  | none =>
    if r.fin = 0 then s
    else s.modCluster cl (fun k => { k with deaths := k.deaths ++
      [{ part := r.part, tmpl := r.fin, base := BitVec.ofNat 64 (hBase h), len := BitVec.ofNat 64 (hLen h)
         kindFmt := BitVec.ofNat 64 (r.kind * 256 + hFmtCode h), poison := r.poison, clock := r.clock }] })

/-- DROP_AT_DEN: the oldest drop, or `hfin`, that has reached a handle unit; one that names no such record is counted (R384). -/
def dropAtDen (s : State) (cl : ClusterId) : State :=
  match (s.cluster cl).drops with
  | [] => s
  | d :: rest =>
    let s := s.modCluster cl (fun k => { k with drops := rest })
    let h := d.handle
    match namedRecord s d.part h with
    | none => countHandle s d.part
    | some r =>
      let r := { r with poison := r.poison || d.bad, clock := clockMax r.clock d.clock }
      match d.fin with
      | some t => setRecord s cl (hRec h) { r with fin := t }
      | none =>
        if r.ret + 2 ^ hExp h > denTotal then countHandle s d.part
        else
          let r := { r with ret := r.ret + 2 ^ hExp h }
          if r.ret = denTotal then die s cl (hRec h) r h else setRecord s cl (hRec h) r

def finSize (s : State) : Nat := match s.image with | some i => i.finSize | none => 0

/-- FINALISER_ARM: the oldest death gets a slot of the finaliser area, if one is free; the copied template is armed at the
unit's own walker (R321, R383). -/
def finaliserArm (s : State) (cl : ClusterId) : State :=
  match (s.cluster cl).deaths with
  | [] => s
  | d :: rest =>
    match (List.range (finSize s)).find? (fun i => !mhas (s.cluster cl).finArea i) with
    | none => s
    | some slot =>
      let s := s.modCluster cl (fun k => { k with deaths := rest })
      match nodeWords s cl (.mem d.part d.tmpl) with
      | .fault _ _ s | .wait s => countNode s d.part
      | .ok ws s =>
        let ws := (ws.set 0 (withBits (wd ws 0) 16 16 0)).set 4 (withBits (wd ws 4) 57 3 0)
        let f : FinSlot := { part := d.part, words := ws ++ [d.base, d.len, d.kindFmt], poison := d.poison, clock := d.clock }
        let s := s.modCluster cl (fun k => { k with finArea := mset k.finArea slot f })
        sendNode s cl d.part (.fin cl slot)

/-- The event DROP_AT_DEN. -/
def execDropAtDen (cl : ClusterId) (s : State) : Out := .next (dropAtDen s cl)

/-- The event FINALISER_ARM. -/
def execFinaliserArm (cl : ClusterId) (s : State) : Out := .next (finaliserArm s cl)

end Sys2Proof.Machine
end

