-- ==== Sys2Proof/Machine/KvCache.lean ====
section
/-! DEFINITION. The key-value cache: block tables, appends, demotion and promotion, and the steps of the migration engine and
of deadlines: major op 0x31 (R372-R377, R390-R394, R418). -/

namespace Sys2Proof.Machine

/-! ## Accesses of the instructions (R380)

They are checked under R367 with POLD. Tables, entries and queues are objects, so only rows are checked for races (R283). -/

def kvWho (s : State) : Who := meWho s s.me.pold

/-- Bytes read; a row's bytes with the race check. -/
def kvRead (s : State) (key : Nat) (a : Word) (n : Nat) (row : Bool) : Acc (List Byte) :=
  ownRead s key a n row

def kvWord (s : State) (key : Nat) (a : Word) : Acc Word :=
  (kvRead s key a 8 false).bind fun bs s => .ok (BitVec.ofNat 64 (ofLe bs)) s

/-- Bytes written; a row's bytes with the race check. -/
def kvWrite (s : State) (key : Nat) (a : Word) (bs : List Byte) (row : Bool) : Acc Unit :=
  (resolve s (kvWho s) .write a bs.length).bind fun ps s =>
    if writePoison s ps then .fault 0x0C a s
    else
      match (if row then raceCheck s s.cur (ownPhase s.me) true ps else some s) with
      | some s => writePieces (kvWho s) (0, key) a bs ps s
      | none => .fault 0x08 a s

/-- Where an access begins. -/
def kvPlace (s : State) (a : Word) (n : Nat) : Option Place :=
  match resolve s (kvWho s) .read a n with
  | .ok (x :: _) _ => some x.place
  | _ => none

/-- A slot of a table as its handle (R390). -/
def kvEntry (s : State) (key : Nat) (a : Word) : Acc Handle :=
  (kvRead s key a 32 false).bind fun bs s => .ok (handleOfBytes bs) s

def entryAt (base : Word) (k : Nat) : Word := base + BitVec.ofNat 64 (64 + 32 * k)

/-! ## The block-free queue (R391) -/

def setAppend (s : State) (g : Append → Append) : State := s.setMe { s.me with kv := s.me.kv.map g }

/-- HEAD advanced by compare-and-swap: whether it still was `head`. -/
def advanceHead (s : State) (q head : Word) : Acc Bool :=
  (resolve s (kvWho s) .atomic q 8).bind fun ps s =>
    match ps with
    | [x] =>
      (atomPiece (kvWho s) (0, 24) q .cas 8 head.toNat (head + 1).toNat x s).bind fun old s => .ok (old = head.toNat) s
    | _ => .wait s

/-- The queue index that the append has taken, or takes now. -/
def claimIndex (s : State) (q : Word) : Acc Word :=
  match s.me.kv.bind (·.claim) with
  | some i => .ok i s
  | none =>
    (kvWord s 20 q).bind fun head s => (kvWord s 21 (q + 8)).bind fun tail s => (kvWord s 22 (q + 16)).bind fun capq s =>
      if capq = 0 || (tail - head).toNat > capq.toNat then .fault 0x06 q s
      else if head = tail then .fault 0x07 q s
      else
        (advanceHead s q head).bind fun done s =>
          let s := clearReqs s s.cur 0 20 25
          if done then .ok head (setAppend s (fun k => { k with claim := some head })) else .wait s

/-- A block dequeued: the slot's address once it is nonzero, read as an acquire, and the slot emptied. -/
def dequeue (s : State) (q : Word) : Acc Word :=
  (claimIndex s q).bind fun i s =>
    (kvWord s 25 (q + 16)).bind fun capq s =>
      let a := q + BitVec.ofNat 64 (64 + 8 * (i.toNat % max 1 capq.toNat))
      let pl := kvPlace s a 8
      if pl.any (marked s) then .fault 0x0C a s
      else
        (kvWord s 26 a).bind fun x s =>
          if x = 0 then .wait (clearReqs s s.cur 0 25 27)
          else
            let s := match pl with | some p => acquireClock s s.cur (placeKey (coreOf s.cur) p) | none => s
            (kvWrite (l1DropAll s (coreOf s.cur)) 27 a (List.replicate 8 0) false).bind fun _ s => .ok x s

/-- PENDING, or a block dequeued into it (R392). A header that cannot be written is met before the queue moves. -/
def takeBlock (s : State) (base : Word) : Acc Word :=
  let keep (x : Word) (s : State) : Acc Word := (kvWrite s 29 (base + 32) (leBytes 8 x.toNat) false).bind fun _ s => .ok x s
  match s.me.kv.bind (·.block) with
  | some x => keep x s
  | none =>
    (kvWord s 10 (base + 32)).bind fun p s =>
      if p ≠ 0 then .ok p s
      else
        (resolve s (kvWho s) .write (base + 32) 8).bind fun _ s =>
          (kvWord s 11 (base + 8)).bind fun q s => (dequeue s q).bind fun x s =>
            keep x (setAppend s (fun k => { k with claim := none, block := some x }))

/-! ## `kvapp` (R392) -/

/-- The block's record at the den of h[a], which has it made in one step: its index and generation, or none where the table is
full or no route leads there. -/
def blockRecord (s : State) (h : Handle) (x fin : Word) (fmt : Nat) : Acc (Option (Nat × BitVec 17)) :=
  match s.me.kv.bind (·.made) with
  | some r => .ok (some r) s
  | none =>
  if isHere s h then
    match newRecord s (hDen h) s.me.part 3 false fin none with
    | some (i, g, s) => .ok (some (i, g)) s
    | none => .ok none s.draw
  else if !hasRoute s (hMod h) then .ok none s
  else
    (askDen s 12 h 4 (leBytes 8 x.toNat ++ leBytes 8 fmt ++ leBytes 8 fin.toNat)).bind fun w s =>
      .ok (if w.toNat / 2 ^ 63 = 1 then some (bitsAt w.toNat 17 20, BitVec.ofNat 17 w.toNat) else none) s

/-- The row in a new block that takes the entry's place: copy on write, the row, the record, the entry. -/
def installBlock (s : State) (h : Handle) (base : Word) (k i : Nat) (old : Handle) (row : List Byte) : Acc Unit :=
  (takeBlock s base).bind fun x s =>
    (if isLive old && i ≠ 0 then kvRead s 13 (BitVec.ofNat 64 (hBase old)) (256 * i) true else .ok [] s).bind fun bs s =>
      (kvWrite s 14 x bs true).bind fun _ s =>
        (kvWrite s 15 (x + BitVec.ofNat 64 (256 * i)) row true).bind fun _ s =>
          (kvWord s 16 (base + 24)).bind fun f s => (kvWord s 17 (base + 16)).bind fun fin s =>
            -- the entry's place is checked before the record is made
            (resolve s (kvWho s) .write (entryAt base k) 32).bind fun ps s =>
              if writePoison s ps then .fault 0x0C (entryAt base k) s
              else
                let fmt := if isLive old then hFmtCode old else bitsAt f.toNat 0 5
                (blockRecord s h x fin fmt).bind fun r s =>
                  match r with
                  | none => .fault 0x07 base s
                  | some (rec_, gen) =>
                    let s := setAppend s (fun k => { k with made := some (rec_, gen) })
                    let new := setLive (handleOf 3 false 31 (hMod h) (hDen h) rec_ gen x.toNat 4096 fmt) true
                    (kvWrite s 18 (entryAt base k) (handleBytes new) false).bind fun _ s =>
                      kvWrite s 19 (base + 32) (List.replicate 8 0) false

/-- One row appended. -/
def appendRow (s : State) (h : Handle) (row : List Byte) : Acc Unit :=
  let base := BitVec.ofNat 64 (hBase h)
  (kvWord s 1 base).bind fun w s =>
    let n := bitsAt w.toNat 0 32
    let k := n / 16
    let i := n % 16
    if n = 2 ^ 32 - 1 || k ≥ bitsAt w.toNat 32 32 then .fault 0x07 base s
    else
      (kvEntry s 2 (entryAt base k)).bind fun old s =>
        (if isLive old then exclusiveOf s true 30 (setLive old false) else .ok false s).bind fun mine s =>
          (if mine then
              kvWrite (l1DropAll s (coreOf s.cur)) 3 (BitVec.ofNat 64 (hBase old + 256 * i)) row true
            else installBlock s h base k i old row).bind fun _ s =>
            (kvWrite s 4 base (leBytes 4 (n + 1)) false).bind fun _ s =>
              -- the drop of the old handle, posted once everything is written
              let s := if isLive old && !mine then ctxDrop s s.cur (setLive old false) else s
              .ok () (match kvPlace s base 8 with
                | some pl => released s pl false
                | none => s.modCtx s.cur bumpPhase)

/-- The bits of a handle that name its record: what appends to one table have in common. -/
def tableKey (h : Handle) : Nat := h.w0.toNat % 2 ^ 54

/-- Another context of the module is appending to the table. -/
def tableHeld (s : State) (key : Nat) : Bool :=
  s.ctxs.any (fun p => p.1 ≠ s.cur && p.2.run == .running && (p.2.kv.bind (·.table)) == some key)

/-- A freeze of `kvapp` at row r (R392). -/
def appendFreeze (s : State) (cause r : Nat) (addr : Word) : State :=
  let c := s.me
  if c.window.any (fun e => e.held != []) || freezeWaits s s.cur then s
  else freeze (setAppend s (fun k => { k with block := none })) s.cur { vs := some r, cause := cause, elem := r, addr := addr, pc := c.pc, word := s.ir, nc := true, async := false }

/-- `kvapp` (R392): a release that waits for the engines. Each step appends one row; the last retires it. -/
def execKvapp (a : HReg) (b : CReg) (s : State) : Out :=
  let c := s.me
  let x := getCol c (.c b)
  let h := c.h[a]
  if x.fmt ≠ .v256 then .next (refuse s 0x05)
  else if hKind h ≠ 1 then .next (refuse s 0x0E)
  else if c.window.any (fun e => entryWrites e (.c b)) || tableHeld s (tableKey h) then .next s
  else releaseThen s fun s =>
    let kv : Append := c.kv.getD { row := 0, table := none, claim := none, block := none, made := none }
    let r := kv.row
    if r ≥ x.len then .next (s.setMe (retire { s.me with kv := none }))
    else
      let s := s.setMe { s.me with kv := some { kv with table := some (tableKey h) } }
      match (readElem s s.cur (.c b) .v256 r).bind (fun v s => appendRow s h (leBytes 256 v)) with
      | .wait s => .next s
      | .fault cause addr s => .next (appendFreeze (clearReqs s s.cur 0 0 (2 ^ 64)) cause r addr)
      | .ok _ s =>
        let s := clearReqs s s.cur 0 0 (2 ^ 64)
        if r + 1 < x.len then .next (setAppend s (fun k => { k with row := r + 1, claim := none, block := none, made := none }))
        else .next (s.setMe (retire { s.me with kv := none }))

/-! ## The block of a position (R393) -/

/-- A block found: the entry's handle, its page, and its granule where it lies in this module's memory. -/
structure Block where
  entry   : Handle
  page    : Page
  granule : Option Nat

/-- The block at entry b div 16 of a table, with the checks of R393. -/
def blockOf (s : State) (h : Handle) (pos : Word) : Acc Block :=
  let base := BitVec.ofNat 64 (hBase h)
  (kvWord s 1 base).bind fun w s =>
    if pos.toNat ≥ bitsAt w.toNat 0 32 then openFault s 0x0E
    else
      (kvEntry s 2 (entryAt base (pos.toNat / 16))).bind fun e s =>
        if !isLive e then openFault s 0x0E
        else if inWindow (hBase e) then openFault s 0x05
        else
          (translate s (l1Holder s.cur) s.me.part (hBase e)).bind fun pg s =>
            let f := Fmt.ofCode (pteFmt pg.w1)
            if pteGeom pg.w1 ≠ 4 || !pteShd pg.w1 || !pteFmtv pg.w1
                || !(f = some .f16 || f = some .bf16 || f = some .e4m3 || f = some .e5m2) then openFault s 0x05
            else
              let pa := pg.pa (hBase e)
              .ok { entry := e, page := pg, granule := if ptePeer pg.w1 || isHost pa then none else some (pa / 4096) } s

/-- What `kvdem`, `kvpro` and `kvinfo` check and await before their block. -/
def onBlock (s : State) (a : HReg) (b : Src) (quiet : Bool) (k : State → Block → Acc (State → State)) : Out :=
  let h := s.me.h[a]
  if hKind h ≠ 1 then .next (refuse s 0x0E)
  else
    let base := BitVec.ofNat 64 (hBase h)
    let slot := entryAt base ((readSrc s.me b).toNat / 16)
    if (quiet && !enginesQuiet s s.cur) || !loadsReturned s.me.window || scalarWaits s.me base 64 false || scalarWaits s.me slot 32 false then .next s
    else
      let s := drainStores s s.cur
      finish ((blockOf s h (readSrc s.me b)).bind fun x s => k s x) fun g s => g s

/-- A granule's migrations after a request to move it (R418): the opposite one is abandoned, the same one joined, else the move
is queued if the granule is not there already. -/
def requestMove (s : State) (g : Nat) (toHbm : Bool) : State :=
  let mark (m : Migration) : Migration :=
    if m.granule = g then { m with byKvdem := m.byKvdem || !toHbm, byKvpro := m.byKvpro || toHbm } else m
  if s.migs.any (fun m => m.granule = g && m.toHbm ≠ toHbm) then { s with migs := s.migs.filter (fun m => m.granule ≠ g) }
  else if s.migs.any (fun m => m.granule = g) then { s with migs := s.migs.map mark }
  else if s.inHbm.contains g = toHbm then s
  else { s with migs := s.migs ++ [{ granule := g, toHbm := toHbm, copying := false, byKvdem := !toHbm, byKvpro := toHbm }] }

def shadowSlots (s : State) : Nat := match s.image with | some i => i.shadowPool | none => 0

/-- The shadow of a block and its demotion, and what f[d] receives (R393, R416). -/
def demote (s : State) (x : Block) : Acc Bool :=
  match x.granule with
  | none => .ok false s
  | some g =>
    if s.phase = 3 then .ok false s
    else if mhas s.shadows g then
      .ok true { s with migs := s.migs.filter (fun m => !(m.granule = g && m.toHbm)) }
    else if s.shadows.length ≥ shadowSlots s then .ok false s
    else
      (kvRead s 3 (BitVec.ofNat 64 (hBase x.entry)) 4096 true).bind fun _ s =>
        let f := (Fmt.ofCode (pteFmt x.page.w1)).getD .f16
        .ok true (requestMove { s with shadows := mset s.shadows g f } g false)

/-- `kvdem` (R393). -/
def execKvdem (d : FReg) (a : HReg) (b : Src) (s : State) : Out :=
  onFlags s [d] (onReady s [b] []
    (onBlock s a b true fun s x => (demote s x).bind fun v s => .ok (fun s => s.setMe (retire (setF s.me d v))) s))

/-- The promotion of a block (R393, R418): the shadow is freed when it is complete, which it may be at once. -/
def promote (s : State) (g : Nat) : State :=
  let s := requestMove s g true
  if s.migs.any (fun m => m.granule = g) then s else { s with shadows := mdel s.shadows g }

/-- `kvpro` (R393). -/
def execKvpro (a : HReg) (b : Src) (s : State) : Out :=
  onReady s [b] []
    (onBlock s a b true fun s x =>
      .ok (fun s => s.setMe (retire s.me)) (match x.granule with | some g => promote s g | none => s))

/-- The status word of R394; of a block outside this module's memory TIER is a free value (log entry 49). -/
def infoWord (s : State) (x : Block) (out : Word) (excl : Bool) : Word :=
  let mig := x.granule.any (fun g => s.migs.any (fun m => m.granule = g))
  let shd := x.granule.any (mhas s.shadows)
  let tier := match x.granule with | some g => (!s.inHbm.contains g).toNat | none => Config.pick s.fresh % 4
  BitVec.ofNat 64 (out.toNat % 2 ^ 32 * 2 ^ 32 + excl.toNat * 16 + mig.toNat * 8 + shd.toNat * 4 + tier)

/-- `kvinfo` (R394). -/
def execKvinfo (d : SReg) (a : HReg) (b : Src) (s : State) : Out :=
  onReady s [b] [d]
    (onBlock s a b false fun s x =>
      let h := setLive x.entry false
      (denValue s 31 h false).bind fun out s => (exclusiveOf s false 32 h).bind fun ex s =>
        let v := infoWord s x out ex
        .ok (fun s => s.setMe (retire (setS s.me d v))) s.draw)

/-! ## The migration engine (R372, R418) -/

/-- The leases of a task that is queued or holds a context. -/
def nodeLeases (s : State) (k : CoreId) (r : Ready) : List Nat :=
  match nodeWords s (coreCluster k) r.node with
  | .ok ws s => granulesOf s r.part (leasesOf ws)
  | _ => []

/-- A lease holds a granule in HBM (R323). -/
def isLeased (s : State) (g : Nat) : Bool :=
  let of (c : Ctx) : Bool := c.run != .idle && (granulesOf s c.part (c.leases.getD [])).contains g
  s.ctxs.any (fun p => of p.2) || s.areas.any (fun a => of a.saved)
    || s.cores.any (fun p => p.2.ready.any (fun r => (nodeLeases s p.1 r).contains g))

/-- MIGRATION_START: the copy of a granule begins, of a queued migration or of one that firmware policy starts. A granule that
is leased waits in HBM; in phase 3 every granule lies in LPDDR6 (R416). -/
def migrationStart (s : State) (g : Nat) : State :=
  if s.phase.toNat ≠ 4 || 4096 * g + 4096 > s.lsz then s
  else
    let s := if s.migs.any (fun m => m.granule = g) then s
      else { s with migs := s.migs ++
        [{ granule := g, toHbm := !s.inHbm.contains g, copying := false, byKvdem := false, byKvpro := false }] }
    let start (m : Migration) : Migration :=
      if m.granule = g && (m.toHbm || !isLeased s g) then { m with copying := true } else m
    { s with migs := s.migs.map start }

/-- MIGRATION_SWITCH: the tier map changes, unless the copy met an uncorrectable error (R372, R417). -/
def migrationSwitch (s : State) (g : Nat) : State :=
  match s.migs.find? (fun m => m.granule = g && m.copying) with
  | none => s
  | some m =>
    let s' := { s with migs := s.migs.filter (fun m => m.granule ≠ g) }
    if s.poisoned (4096 * g) 4096 then s'
    else if m.toHbm then
      { s' with inHbm := if s.inHbm.contains g then s.inHbm else s.inHbm ++ [g]
                shadows := if m.byKvpro then mdel s.shadows g else s.shadows }
    else { s' with inHbm := s.inHbm.filter (· ≠ g) }

/-- The event MIGRATION_START. -/
def execMigrationStart (granule : Nat) (s : State) : Out := .next (migrationStart s granule)

/-- The event MIGRATION_SWITCH. -/
def execMigrationSwitch (granule : Nat) (s : State) : Out := .next (migrationSwitch s granule)

/-- The event MIGRATION_ABANDON: firmware policy gives up a migration (R418). -/
def execMigrationAbandon (granule : Nat) (s : State) : Out :=
  .next { s with migs := s.migs.filter (fun m => m.granule ≠ granule) }

/-! ## Deadlines (R376) -/

/-- Rows of a deadline `btld` that have not been read. -/
def rowsLeft (e : Entry) : List Nat := (List.range e.len).filter (fun i => i ≥ laneNext e (i / 16 % 4) && !e.late.contains i)

/-- The oldest deadline load whose deadline has passed. -/
def expired (s : State) (c : Ctx) : Option Entry :=
  c.window.find? (fun e =>
    (match e.instr with | .btld .. => true | _ => false) && polTier e.pol = 3
      && e.issueAt.toNat + (tableWord e 28).toNat ≤ s.cycle.toNat && rowsLeft e ≠ [])

/-- The event DEADLINE_EXPIRY: the rows not returned by now are taken from their shadows, where they have one. -/
def execDeadlineExpiry (c : CtxId) (s : State) : Out :=
  match expired s (s.ctx c) with
  | some e => .next (setEntry s c { e with late := e.late ++ rowsLeft e })
  | none => .next s

end Sys2Proof.Machine
end

