-- ==== Sys2Proof/Machine/Fetch.lean ====
section
/-! DEFINITION. The word at a context's PC, its fetch and its refusal, with the steps of the memory system that no engine takes:
INSTRUCTION_FETCH, ILLEGAL_INSTRUCTION, MEMORY_REPLY, STORE_FAILED_AFTER_RELEASE and UNCORRECTABLE_ERROR (R20, R105-R108,
R122, R273, R294, R417). -/

namespace Sys2Proof.Machine

/-! ## The next word -/

/-- A body that begins its replay is in the loop buffer (R23). -/
def atReplay (s : State) (x : CtxId) : State := if (s.ctx x).bodyPos = some 0 then keepBody s x (s.ctx x).body.length else s

/-- The word that a context executes next: a body word in a replay (R21), the words of a copy node (R316), else the word
fetched at the PC (R105, R107). A fetch that meets poison is a poison fault. -/
def nextWord (s : State) (x : CtxId) : Acc Word :=
  let c := s.ctx x
  match c.script, c.bodyPos with
  | i :: _, _ => .ok (encode i) s
  | [], some k => .ok (c.body[k]?.getD 0) (atReplay s x)
  | [], none => (fetchWord s x c.pc).bind fun w s => .ok w (clearReqs s x 0 (2 ^ 32) (2 ^ 64))

/-- A fetch fault freezes at the word being fetched (R107): the record's word is zero, its fault address the PC. -/
def fetchFault (s : State) (cause : Nat) : State := refuse { clearReqs s s.cur 0 (2 ^ 32) (2 ^ 64) with ir := 0 } cause

/-- INSTRUCTION_FETCH: the fetch of `cur`'s next word. -/
def instructionFetch (s : State) : State :=
  match nextWord s s.cur with
  | .ok w s => { s with ir := w }
  | .fault cause _ s => fetchFault s cause
  | .wait s => s

/-- The event INSTRUCTION_FETCH. -/
def execInstructionFetch (s : State) : Out := .next (if runnable s s.cur then instructionFetch s else s)

/-- The refusal of R121 and R122: an illegal instruction (0x04), or a reserved operand (0x05), at the word. -/
def execIllegalInstruction (w : BitVec 64) (reservedOperand : Bool) (s : State) : Out :=
  .next (refuse { s with ir := w } (if reservedOperand then 0x05 else 0x04))

/-- The decode of a context's word (R121): what it may be depends on the kind of context and on its row groups. -/
def decodeFor (s : State) (x : CtxId) (w : Word) : Except BadWord Instr :=
  decode { handler := isHandlerCtx x, attached := (s.ctx x).gmask ≠ 0 } w

/-- A `kvapp` that has appended rows holds its table: its context is not at an instruction boundary. -/
def appending (c : Ctx) : Bool := c.kv.any (fun k => k.table.isSome)

/-! ## Stores that fail (R294) -/

/-- Cause 0x12 at an instruction boundary: the record names the instruction there. -/
def failAtBoundary (s : State) (x : CtxId) : State :=
  let c := s.ctx x
  if c.failed.isNone || appending c || c.window.any (fun e => e.held != []) || freezeWaits s x then s
  else
    match nextWord s x with
    | .ok w s => freezeFailed { s with ir := w } x
    | .fault _ _ s => freezeFailed { s with ir := 0 } x
    | .wait s => s

/-- The event STORE_FAILED_AFTER_RELEASE. -/
def execStoreFailedAfterRelease (c : CtxId) (s : State) : Out := .next (if active (s.ctx c) then failAtBoundary s c else s)

/-! ## Replies of the memory system (R138, R273) -/

/-- An entry whose writes are all made and not acknowledged. -/
def owesAck (c : Ctx) (e : Entry) : Bool :=
  !e.acked && worked e && c.locks.any (fun l => l.seq = e.seq && l.ranges.any (·.2.2))

/-- A release that has left its core is performed at its home (R279), over the stores before it. -/
def performPosted (s : State) (x : CtxId) (p : Posted) : State :=
  let s := drainWhile (fun st => st.seq ≤ p.seq) x (s.ctx x).stores.length s
  let w (i : Nat) : Word := p.ops[i]?.getD 0
  match p.instr with
  | .barInit _ _ => initBarrier s x (homeOfWords (p.ops.drop 2)) (w 0) (w 1).toNat
  | .qenq d _ _ f => sendEntry s x (w 0) (w 1) (w 2) d f
  | .tsub _ _ => armRun (clusterOf x) (s.ctx x).part (w 1).toNat (w 0) s
  | .hdrop _ => sendDrop s (handleOfWords p.ops) (s.ctx x).part (storeFailed s x) (if (s.ctx x).chk then p.clock else [])
  | .hfin _ _ => sendFin s x (handleOfWords p.ops) (w 4) p.clock
  | .bfsetFull b => bufFill s x b
  | .bfsetRel b => bufFree s x b
  | _ => s

/-- The oldest store that may become visible is performed, or else the oldest release whose earlier accesses are all done. -/
def performNext (s : State) (x : CtxId) : State :=
  let c := s.ctx x
  if c.stores.head?.any (storeMayGo c) then performStore s x
  else
    match c.posted with
    | p :: rest => if quietBefore c p.seq then performPosted (s.setCtx x { c with posted := rest }) x p else s
    | [] => s

/-- MEMORY_REPLY: the oldest write of a context is acknowledged, an engine's, or else a scalar store's or a release's, which is
performed now. -/
def memoryReply (s : State) (x : CtxId) : State :=
  match (s.ctx x).window.find? (owesAck (s.ctx x)) with
  | some e => settle (setEntry s x { e with acked := true }) x
  | none => performNext s x

/-- The event MEMORY_REPLY. -/
def execMemoryReply (c : CtxId) (s : State) : Out := .next (memoryReply s c)

/-! ## Uncorrectable errors (R417) -/

/-- Scalar stores on their way to a sector, with no later release gone, reach it before the error does, so that a store meets
poison precisely (R417, log entry 22). -/
def storesBefore (s : State) (sec : Nat) : State :=
  (s.ctxs.map (·.1)).foldl (fun s x =>
    if (s.ctx x).stores.any (fun st => !st.released && (sectorsOf st.pa st.bytes.length).contains sec) then drainReady s x else s) s

/-- The event UNCORRECTABLE_ERROR: one sector is poisoned. -/
def execUncorrectableError (pa : BitVec 52) (s : State) : Out :=
  let x := pa.toNat / 32
  .next (if s.poison.contains x then s
    else
      let s := storesBefore s x
      { s with poison := s.poison ++ [x] })

end Sys2Proof.Machine
end

