-- ==== Sys2Proof/Machine/Links.lean ====
section
/-! DEFINITION. Plefel Link: requests of other modules, replies, resends and forwarding (R402-R408, R386, R387, R392). -/

namespace Sys2Proof.Machine

/-! ## Requests of peers -/

/-- The reply flit (R403): TYPE 6 with the request's TAG; OPC tells data, protection and poison apart (log entry 15). -/
def replyFlit (s : State) (f : Flit) (a : PeerAnswer) : Flit :=
  let code := match a with | .data _ => 0 | .protection => 1 | .poison => 2
  let bs := match a with | .data bs => bs | _ => []
  flitSeal { type := 6, dest := f.src, src := moduleNo s, part := f.part, tag := f.tag, addr := 0
             len := BitVec.ofNat 32 bs.length, opc := BitVec.ofNat 32 code, inline := bs, check := 0 }

/-- The first performance of a request: its reply is kept and sent (R407). -/
def answer (s : State) (f : Flit) (a : PeerAnswer) : State :=
  { s with served := s.served ++ [((f.src, f.tag), a)], outbox := s.outbox ++ [replyFlit s f a] }

/-- A request of a type for this module: performed at most once per SRC and TAG, the first reply being repeated; one whose check
fails is not performed. -/
def servePeer (s : State) (f : Flit) (type : Nat) (k : State → State) : State :=
  if f.type.toNat ≠ type || f.dest ≠ moduleNo s || !flitOk f then s
  else
    match s.served.find? (fun p => p.1 = (f.src, f.tag)) with
    | some p => { s with outbox := s.outbox ++ [replyFlit s f p.2] }
    | none => k s

/-- A valid window that holds the bytes for the partition and the source (R406). -/
def windowAllows (s : State) (f : Flit) (n : Nat) (write : Bool) : Bool :=
  s.windows.toList.any (fun w =>
    let v := w.val.toNat
    let lo := w.base.toNat * 4096
    v % 2 = 1 && (!write || v / 2 % 2 = 1) && bitsAt v 16 4 = f.part.toNat
      && bitsAt v 30 10 ≤ f.src.toNat && f.src.toNat ≤ bitsAt v 20 10
      && lo ≤ f.addr.toNat && f.addr.toNat + n ≤ lo + bitsAt v 40 24 * 4096)

/-- An acquire that reads a location which R294 marked (R295). -/
def peerMeets (s : State) (f : Flit) (n : Nat) : Bool :=
  (opcAcq f || bitsAt f.opc.toNat 0 4 = 10) && (sectorsOf f.addr.toNat n).any s.syncBad.contains

/-- A read of `n` bytes at the home slice. -/
def peerRead (s : State) (f : Flit) (n : Nat) : State :=
  let pa := f.addr.toNat
  if n = 0 || n > 4096 || !windowAllows s f n false then answer s f .protection
  else if s.poisoned pa n || peerMeets s f n then answer s f .poison
  else answer s f (.data (s.bytesPA pa n))

/-- A write from outside the module's contexts: scalar copies go first (R224); a sector is not written in part over poison, and
then nothing is. -/
def outsideWrite (s : State) (pa : Nat) (bs : List Byte) : Option State :=
  if s.writeMeets pa bs.length then none else some (storePA (l1Snoop s pa bs.length) pa bs)

/-- A write at the home slice; a release over a failed store leaves its mark there (R294). -/
def peerWrite (s : State) (f : Flit) (bs : List Byte) : State :=
  if bs = [] || bs.length > 4096 || bs.length ≠ f.len.toNat || !windowAllows s f bs.length true then answer s f .protection
  else
    match outsideWrite s f.addr.toNat bs with
    | none => answer s f .poison
    | some s => answer (markSync s (opcFailed f) f.addr.toNat) f (.data [])

/-- A segment and its scale byte in one step (R180, R293, log entry 15): the data, the scale and the scale's address. -/
def peerScaled (s : State) (f : Flit) : State :=
  let n := f.inline.length - 9
  let bs := f.inline.take n
  let u := (f.inline.drop n).take 1
  let at_ := ofLe (f.inline.drop (n + 1))
  let g : Flit := { f with addr := BitVec.ofNat 52 at_ }
  if n = 0 || n > 4096 || n + 9 ≠ f.len.toNat || !windowAllows s f n true || !windowAllows s g 1 true then answer s f .protection
  else if s.writeMeets f.addr.toNat n || s.writeMeets g.addr.toNat 1 then answer s f .poison
  else
    let s := storePA (l1Snoop s f.addr.toNat n) f.addr.toNat bs
    let s := storePA (l1Snoop s g.addr.toNat 1) g.addr.toNat u
    answer (markSync s (opcFailed f) f.addr.toNat) f (.data [])

/-- The event PEER_READ. -/
def execPeerRead (f : Flit) (s : State) : Out := .next (servePeer s f 1 fun s => peerRead s f f.len.toNat)

/-- The event PEER_WRITE. -/
def execPeerWrite (f : Flit) (s : State) : Out :=
  .next (servePeer s f 2 fun s => if bitsAt f.opc.toNat 0 4 = 1 then peerScaled s f else peerWrite s f f.inline)

/-- The new contents that an atomic request gives its bytes, none for no change, and its reply: R139's operations, and those of
`hld` and `hst` at a slot (R385, log entry 15). -/
def atomicEffect (f : Flit) (old : List Byte) : Option (List Byte) :=
  let code := bitsAt f.opc.toNat 0 4
  let h := handleOfBytes old
  if code = 10 then (if isLive h && 1 ≤ hKind h && hKind h ≤ 3 then some (handleBytes (setLive h false)) else none)
  else if code = 11 then (if isLive h then none else some (f.inline.take 32))
  else
    (AtomOp.ofCode code).map fun op =>
      let n := old.length
      leBytes n (atomNew op (8 * n) (ofLe old) (ofLe (f.inline.take 8) % 2 ^ (8 * n)) (ofLe ((f.inline.drop 8).take 8) % 2 ^ (8 * n)))

/-- The event PEER_ATOMIC: an indivisible update at its home slice. -/
def execPeerAtomic (f : Flit) (s : State) : Out :=
  .next (servePeer s f 3 fun s =>
    let n := f.len.toNat
    let pa := f.addr.toNat
    if !(n = 4 || n = 8 || n = 32) || pa % n ≠ 0 || !windowAllows s f n true then answer s f .protection
    else if s.poisoned pa n || peerMeets s f n then answer s f .poison
    else
      let old := s.bytesPA pa n
      match atomicEffect f old with
      | some new => answer (markSync (storePA (l1Snoop s pa n) pa new) (opcFailed f) pa) f (.data old)
      | none => answer s f (.data old))

/-- The event XACC_ADD: one addition, indivisible at the region's home (R267, R408). A poisoned xacc is not updated (R270). -/
def execXaccAdd (f : Flit) (s : State) : Out :=
  .next (servePeer s f 4 fun s =>
    let pa := f.addr.toNat
    if f.len ≠ 48 || !windowAllows s f 48 true then answer s f .protection
    else if s.poisoned pa 48 then answer s f .poison
    else
      let sum := xaccAdd (ofLe (s.bytesPA pa 48)) (xaccVal (ofLe (f.inline.take 48)))
      answer (storePA (l1Snoop s pa 48) pa (leBytes 48 sum)) f (.data []))

/-- The event PEER_DROP: the drop goes to this module's den (R405); one for a record of another module is counted (R384). -/
def execPeerDrop (f : Flit) (s : State) : Out :=
  .next (servePeer s f 5 fun s =>
    let h := handleOfBytes f.inline
    let s := if isHere s h then sendDrop s h f.part (opcFailed f) [] else countHandle s f.part
    answer s f (.data []))

/-- The event SEGMENT_WRITE: command, data and check flit (R403); one whose check fails is not performed (R407). -/
def execSegmentWrite (f : Flit) (bytes : List (BitVec 8)) (crc : BitVec 64) (s : State) : Out :=
  .next (servePeer s f 7 fun s =>
    if crc ≠ crc64 (flitBytes f ++ leBytes 8 f.check.toNat ++ bytes) then s else peerWrite s f bytes)

/-- The event SEGMENT_READ. -/
def execSegmentRead (f : Flit) (s : State) : Out := .next (servePeer s f 8 fun s => peerRead s f f.len.toNat)

/-! ## Questions to this module's dens -/

/-- A question about exclusivity, along the chain of records (R386): answered, or passed on to the next module's den, which
answers the asker itself (log entry 15). -/
def answerExclusive (f : Flit) : Nat → Handle → State → State
  | 0, _, s => answer s f (.data (leBytes 8 0))
  | fuel + 1, h, s =>
    let no := answer s f (.data (leBytes 8 0))
    if isHere s h then
      match namedRecord s f.part h with
      | none => no
      | some r =>
        if 2 ^ hExp h ≠ denTotal - r.ret then no
        else if r.poison then answer s f .poison
        else match (if r.prx then r.held else none) with
          | some h' => answerExclusive f fuel h' s
          | none => answer s f (.data (leBytes 8 1))
    else if !hasRoute s (hMod h) then no
    else { s with outbox := s.outbox ++ [flitSeal { f with dest := hMod h, opc := 0, inline := handleBytes h }] }

/-- The event PEER_DEN_REQUEST: `hexcl`, `hinfo`, `hfin` and `kvapp` of another module at this module's den. -/
def execPeerDenRequest (f : Flit) (den : ClusterId) (rec : BitVec 20) (gen : BitVec 17) (q : DenQuestion) (s : State) : Out :=
  .next (servePeer s f 0 fun s =>
    let h (e : Nat) : Handle :=
      { w0 := handleWord0 1 false e (moduleNo s) den rec.toNat gen, w1 := 0, w2 := 0, w3 := 0 }
    let say (s : State) (v : Nat) : State := answer s f (.data (leBytes 8 v))
    match q with
    | .exclusive e => answerExclusive f (chainFuel s) (h e.toNat) s
    | .outstanding => say s (match namedRecord s f.part (h 0) with | some r => denTotal - r.ret | none => 0)
    | .fin => say s (match namedRecord s f.part (h 0) with | some r => r.fin.toNat | none => 0)
    | .setFin t =>
      say (s.modCluster den (fun k => { k with drops := k.drops ++
        [{ handle := h 0, part := f.part, bad := opcFailed f, clock := [], fin := some t }] })) 0
    | .create _ _ t =>
      (match newRecord s den f.part 3 false t none with
       | some (i, g, s) => say s (2 ^ 63 + i * 2 ^ 17 + g.toNat)
       | none => say s.draw 0))

/-! ## Replies and resends of this module's requests (R407) -/

/-- The event PEER_REPLY: the answer completes the outstanding request of its TAG; a drop is then done. -/
def execPeerReply (tag : BitVec 64) (answer : PeerAnswer) (s : State) : Out :=
  .next { s with reqs := (s.reqs.filter (fun r => !(r.tag = tag && r.kind = .drop))).map (fun r =>
    if r.tag = tag && r.st = .waiting then { r with st := .answered answer } else r) }

/-- The event REPLY_TIMEOUT: the request is sent again with its TAG and counted; after 3 resends it has failed, except a drop,
which is retried without limit (R405). -/
def execReplyTimeout (tag : BitVec 64) (s : State) : Out :=
  match s.reqs.find? (fun r => r.tag = tag && r.st = .waiting) with
  | none => .next s
  | some r =>
    if r.kind ≠ .drop && r.resent ≥ 3 then
      .next { s with reqs := s.reqs.map (fun q => if q.tag = tag && q.st = .waiting then { q with st := .failed } else q) }
    else
      let s := s.modPart r.flit.part (fun p => { p with retries := satInc p.retries })
      .next { s with
        outbox := s.outbox ++ [r.flit]
        reqs := s.reqs.map (fun q => if q.tag = tag && q.st = .waiting then { q with resent := q.resent + 1 } else q) }

/-! ## Forwarding (R402, R403) -/

/-- The event FLIT_FORWARD: a flit for another module leaves by the route table; nothing it carries is performed. -/
def execFlitForward (f : Flit) (s : State) : Out :=
  .next (if f.dest ≠ moduleNo s && hasRoute s f.dest then { s with outbox := s.outbox ++ [f] } else s)

/-- The event FLIT_REPLAY: the link layer replays a failed flit before it delivers it, so nothing of it is seen (R403). -/
def execFlitReplay (_ : Flit) (s : State) : Out := .next s

end Sys2Proof.Machine
end

