-- ==== Sys2Proof/Machine/Bringup.lean ====
section
/-! DEFINITION. Reset, firmware and configuration, clusters coming up, HBM training, thermal stops, the snapshot pin, and the
host's accesses over CXL (R395-R397, R409-R410, R412, R414, R416). -/

namespace Sys2Proof.Machine

/-! ## Phases (R398, R416) -/

/-- A change of bring-up phase signals vector 2. -/
def enterPhase (s : State) (n : Nat) : State := signal { s with phase := BitVec.ofNat 4 n } 2

/-! ## Module reset (R409, R410) -/

/-- The firmware slot that runs: of the valid ones the one with the higher version. -/
def bootSlot (slots : List FirmwareSlot) : Option Nat :=
  let ok := (List.range slots.length).filter (fun i => match slots[i]? with
    | some f => Config.signatureOk f.image f.signature
    | none => false)
  let version (i : Nat) : Nat := match slots[i]? with | some f => f.version | none => 0
  match ok with
  | [] => none
  | i :: is => some (is.foldl (fun b j => if version b < version j then j else b) i)

/-- The bytes of HBM and LPDDR6 together (R362). -/
def moduleBytes : Nat := 2112 * 2 ^ 30

/-- The slot tables that the image gives (R328, R410). -/
def resetCores (i : ImageData) : Map CoreId Core :=
  i.slots.map (fun p => (p.1, { Core.reset with slots := (List.range 64).zip p.2 }))

/-- The module after a reset: local memory, host memory and flash stand (log entry 52), a device key is drawn, and everything
else is as in `State.reset`. -/
def afterReset (s : State) (slots : List FirmwareSlot) : State :=
  { State.reset with
      fresh := s.fresh + 1, mem := s.mem, hostMem := s.hostMem, poison := s.poison, leaf := s.leaf, boots := s.boots + 1
      firmware := slots.take 2, devKey := Config.deviceKey (s.boots + 1) }

/-- MODULE_RESET: phase 1 until a firmware slot verifies, then the configuration image: one that fails leaves the module in
phase 1 with RESULT 4; one that verifies is put into force, and the reduced service of phase 3 begins. -/
def moduleReset (s : State) (slots : List FirmwareSlot) (image : Option ImageData) : State :=
  let s := enterPhase (afterReset s slots) 1
  match bootSlot s.firmware with
  | none => s
  | some n =>
    match image with
    | none => { s with running := some n, mstat := BitVec.ofNat 64 (4 * 2 ^ 48) }
    | some i => enterPhase { s with running := some n, image := some i, lsz := moduleBytes - i.reserved, cores := resetCores i } 3

/-- The event MODULE_RESET. -/
def execModuleReset (slots : List FirmwareSlot) (image : Option ImageData) (s : State) : Out := .next (moduleReset s slots image)

/-- The event FIRMWARE_IMAGE_LOAD: in phase 1, with no slot that verifies, flash takes the image (R409). -/
def execFirmwareImageLoad (slot : FirmwareSlot) (s : State) : Out :=
  .next (if s.phase = 1 && s.running.isNone then { s with firmware := slot :: s.firmware.drop 1 } else s)

/-! ## Clusters and full service (R416) -/

/-- CLUSTER_UP: the walker arms the nodes that were sent to it before. -/
def clusterUp (s : State) (cl : ClusterId) : State :=
  if s.phase.toNat < 3 || cl.toNat > 95 || s.up.contains cl then s
  else
    let wait := (s.cluster cl).toArm
    let s := { s.modCluster cl (fun k => { k with toArm := [] }) with up := s.up ++ [cl] }
    wait.foldl (fun s r => armNode s cl (refPart s r) r) s

/-- The event CLUSTER_UP. -/
def execClusterUp (cl : ClusterId) (s : State) : Out := .next (clusterUp s cl)

/-- Every context of the module that a stop affects. -/
def allTasks (s : State) : List CtxId := (s.ctxs.filter (fun p => holdsTask p.2 && !p.2.stopping)).map (·.1)

/-- Contexts stopped, saved and restored to their positions within one step: nothing of theirs changes, but a parked context
executes its wait again (log entry 50). None where the stop is refused (R354). -/
def pauseTasks (s : State) (ts : List CtxId) : Option State :=
  (acceptStop s ts true none).map fun _ => ts.foldl (fun s x => s.modCtx x (fun c => { c with parked := none })) s

/-- HBM_TRAINING_COMPLETE: the module is stopped, its clock raised, its contexts restored: full service. -/
def hbmTrainingComplete (s : State) : State :=
  if s.phase ≠ 3 then s
  else
    match pauseTasks s (allTasks s) with
    | some s => enterPhase s 4
    | none => s

/-- The event HBM_TRAINING_COMPLETE. -/
def execHbmTrainingComplete (s : State) : Out := .next (hbmTrainingComplete s)

/-! ## Thermal stop and the snapshot pin (R412, R414) -/

/-- The event THERMAL_STOP: every partition is stopped until a command 0x06 resumes it; vector 1. -/
def execThermalStop (s : State) : Out :=
  .next (signal ((List.range 16).foldl (fun s p => freezePartition s (BitVec.ofNat 4 p)) s) 1)

/-- The event SNAP_TRIG. -/
def execSnapTrig (s : State) : Out := .next (if s.epin then latch s else s)

/-- The held snapshot released and MISS cleared. -/
def rearm (s : State) : State := { s with snap := none, miss := 0 }

/-- The event REARM: a write of SNCTL with REARM 1. -/
def execRearm (s : State) : Out := .next (rearm s)

/-! ## The host over CXL (R395-R397) -/

/-- The event CXL_MEM_READ: bytes of the HDM range [0, LSZ), expanded, or CXL poison (R417). -/
def execCxlMemRead (addr : BitVec 52) (len : Fin 65) (s : State) : Out :=
  let pa := addr.toNat
  let r : HostReply := if pa + len.val > s.lsz then .unsupported
    else if s.poisoned pa len.val then .poison
    else .data (s.bytesPA pa len.val)
  .next { s with hostReply := some r }

/-- The event CXL_MEM_WRITE: performed at scope system; over a poisoned sector it does not cover, not performed. -/
def execCxlMemWrite (addr : BitVec 52) (bytes : List (BitVec 8)) (s : State) : Out :=
  if addr.toNat + bytes.length > s.lsz then .next { s with hostReply := some .unsupported }
  else
    match outsideWrite s addr.toNat bytes with
    | some s => .next { s with hostReply := some .done }
    | none => .next { s with hostReply := some .poison }

/-- The event UNSUPPORTED_REQUEST: completed with that status; no state of the module changes (R395). -/
def execUnsupportedRequest (_ : BitVec 16) (s : State) : Out := .next { s with hostReply := some .unsupported }

/-- The event CXL_CACHE_SNOOP: the device gives up its copies of a line of host memory (R395). -/
def execCxlCacheSnoop (addr : BitVec 52) (s : State) : Out :=
  let n := (2 ^ 51 + addr.toNat % 2 ^ 51) / 128
  .next { s with
    l2 := s.l2.filter (fun l => l.line ≠ n)
    cores := s.cores.map (fun p => (p.1, { p.2 with l1 := p.2.l1.filter (fun l => l.line ≠ n) })) }

end Sys2Proof.Machine
end

