-- ==== Sys2Proof/Machine/Scalar.lean ====
section
/-! DEFINITION. Scalar integer operations, immediates, predicates, branches and jumps: major ops 0x01 to 0x05 (R123-R133). -/

namespace Sys2Proof.Machine

/-! ## Shapes of the group -/

/-- `mn d, a, b` with a total result. -/
def alu2 (d : SReg) (a b : Src) (g : Word → Word → Word) (s : State) : Out :=
  onReady s [a, b] [d] (writeBack s d (g (readSrc s.me a) (readSrc s.me b)))

/-- `mn d, a`. -/
def alu1 (d : SReg) (a : Src) (g : Word → Word) (s : State) : Out := onReady s [a] [d] (writeBack s d (g (readSrc s.me a)))

/-- A division: b = 0 is cause 0x0A (R127). -/
def divide (d : SReg) (a b : Src) (g : Word → Word → Word) (s : State) : Out :=
  onReady s [a, b] [d]
    (if readSrc s.me b = 0 then .next (openFreeze s 0x0A 0) else writeBack s d (g (readSrc s.me a) (readSrc s.me b)))

/-- A bit-field instruction: position and width within the word, else cause 0x05 (R128). -/
def bitField (d : SReg) (a b c : Src) (g : Word → Nat → Nat → Word) (s : State) : Out :=
  onReady s [a, b, c] [d]
    (let pos := (readSrc s.me b).toNat
     let w := (readSrc s.me c).toNat
     if pos > 63 ∨ w = 0 ∨ w > 64 - pos then .next (openFreeze s 0x05 0) else writeBack s d (g (readSrc s.me a) pos w))

/-! ## The functions of R126 -/

def mulHigh (a b : Word) : Word := BitVec.ofInt 64 (a.toInt * b.toInt / 2 ^ 64)
def mulHighN (a b : Word) : Word := BitVec.ofNat 64 (a.toNat * b.toNat / 2 ^ 64)

/-- A shift count is b[5:0]. -/
def count (b : Word) : Nat := b.toNat % 64

def popCount (a : Word) : Word := BitVec.ofNat 64 ((List.range 64).filter a.getLsbD).length
def leadZeros (a : Word) : Word := if a = 0 then 64 else BitVec.ofNat 64 (63 - Nat.log2 a.toNat)
def trailZeros (a : Word) : Word := BitVec.ofNat 64 (((List.range 64).find? a.getLsbD).getD 64)

/-- Bits [pos + w − 1 : pos] of a word. -/
def fieldOf (a : Word) (pos w : Nat) : Nat := bitsAt a.toNat pos w

/-- A field of `w` bits sign-extended from its top bit. -/
def signField (v w : Nat) : Word := if v / 2 ^ (w - 1) % 2 = 1 then BitVec.ofInt 64 ((v : Int) - 2 ^ w) else BitVec.ofNat 64 v

/-- x, the 33-bit immediate sign-extended (R129). -/
def immOf (imm : BitVec 33) : Word := imm.signExtend 64

/-- The B-form target (R106). -/
def target (pc : Word) (disp : BitVec 45) : Word := pc + 8 * disp.signExtend 64

/-! ## 0x01 scalar integer (R126) -/


/-- `add` (R126). -/
def execAdd (d : SReg) (a b : Src) (s : State) : Out :=
  alu2 d a b (fun x y => x + y) s

/-- `sub` (R126). -/
def execSub (d : SReg) (a b : Src) (s : State) : Out :=
  alu2 d a b (fun x y => x - y) s

/-- `mul` (R126). -/
def execMul (d : SReg) (a b : Src) (s : State) : Out :=
  alu2 d a b (fun x y => x * y) s

/-- `mulh` (R126). -/
def execMulh (d : SReg) (a b : Src) (s : State) : Out :=
  alu2 d a b mulHigh s

/-- `mulhn` (R126). -/
def execMulhn (d : SReg) (a b : Src) (s : State) : Out :=
  alu2 d a b mulHighN s

/-- `div` (R126, R127). -/
def execDiv (d : SReg) (a b : Src) (s : State) : Out :=
  divide d a b (fun x y => x.sdiv y) s

/-- `divn` (R126, R127). -/
def execDivn (d : SReg) (a b : Src) (s : State) : Out :=
  divide d a b (fun x y => x / y) s

/-- `rem` (R126, R127). -/
def execRem (d : SReg) (a b : Src) (s : State) : Out :=
  divide d a b (fun x y => x.srem y) s

/-- `remn` (R126, R127). -/
def execRemn (d : SReg) (a b : Src) (s : State) : Out :=
  divide d a b (fun x y => x % y) s

/-- `and` (R126). -/
def execAnd (d : SReg) (a b : Src) (s : State) : Out :=
  alu2 d a b (fun x y => x &&& y) s

/-- `or` (R126). -/
def execOr (d : SReg) (a b : Src) (s : State) : Out :=
  alu2 d a b (fun x y => x ||| y) s

/-- `xor` (R126). -/
def execXor (d : SReg) (a b : Src) (s : State) : Out :=
  alu2 d a b (fun x y => x ^^^ y) s

/-- `andn` (R126). -/
def execAndn (d : SReg) (a b : Src) (s : State) : Out :=
  alu2 d a b (fun x y => x &&& ~~~y) s

/-- `shl` (R126). -/
def execShl (d : SReg) (a b : Src) (s : State) : Out :=
  alu2 d a b (fun x y => x <<< count y) s

/-- `shr` (R126). -/
def execShr (d : SReg) (a b : Src) (s : State) : Out :=
  alu2 d a b (fun x y => x >>> count y) s

/-- `sra` (R126). -/
def execSra (d : SReg) (a b : Src) (s : State) : Out :=
  alu2 d a b (fun x y => x.sshiftRight (count y)) s

/-- `rotl` (R126). -/
def execRotl (d : SReg) (a b : Src) (s : State) : Out :=
  alu2 d a b (fun x y => x.rotateLeft (count y)) s

/-- `min` (R126). -/
def execMin (d : SReg) (a b : Src) (s : State) : Out :=
  alu2 d a b (fun x y => if x.toInt ≤ y.toInt then x else y) s

/-- `max` (R126). -/
def execMax (d : SReg) (a b : Src) (s : State) : Out :=
  alu2 d a b (fun x y => if x.toInt ≥ y.toInt then x else y) s

/-- `minn` (R126). -/
def execMinn (d : SReg) (a b : Src) (s : State) : Out :=
  alu2 d a b (fun x y => if x.toNat ≤ y.toNat then x else y) s

/-- `maxn` (R126). -/
def execMaxn (d : SReg) (a b : Src) (s : State) : Out :=
  alu2 d a b (fun x y => if x.toNat ≥ y.toNat then x else y) s

/-- `popc` (R126). -/
def execPopc (d : SReg) (a : Src) (s : State) : Out :=
  alu1 d a popCount s

/-- `clz` (R126). -/
def execClz (d : SReg) (a : Src) (s : State) : Out :=
  alu1 d a leadZeros s

/-- `ctz` (R126). -/
def execCtz (d : SReg) (a : Src) (s : State) : Out :=
  alu1 d a trailZeros s

/-- `bfx` (R128). -/
def execBfx (d : SReg) (a b c : Src) (s : State) : Out :=
  bitField d a b c (fun x pos w => signField (fieldOf x pos w) w) s

/-- `bfxn` (R128). -/
def execBfxn (d : SReg) (a b c : Src) (s : State) : Out :=
  bitField d a b c (fun x pos w => BitVec.ofNat 64 (fieldOf x pos w)) s

/-- `bfi` (R128): the other bits of s[d] stand. -/
def execBfi (d : SReg) (a b c : Src) (s : State) : Out :=
  bitField d a b c (fun x pos w => withBits (getS s.me d) pos w x.toNat) s

/-- `csel` (R126). -/
def execCsel (d : SReg) (a b : Src) (f : FReg) (s : State) : Out :=
  onFlags s [f] (alu2 d a b (fun x y => if s.me.f[f] then x else y) s)

/-- `addsh` (R126). -/
def execAddsh (d : SReg) (a b : Src) (m : BitVec 5) (s : State) : Out :=
  alu2 d a b (fun x y => x + y <<< m.toNat) s

/-! ## 0x02 immediates (R129) -/

/-- `addi` (R129). -/
def execAddi (d : SReg) (a : Src) (imm : BitVec 33) (s : State) : Out :=
  alu1 d a (fun x => x + immOf imm) s

/-- `andi` (R129). -/
def execAndi (d : SReg) (a : Src) (imm : BitVec 33) (s : State) : Out :=
  alu1 d a (fun x => x &&& immOf imm) s

/-- `ori` (R129). -/
def execOri (d : SReg) (a : Src) (imm : BitVec 33) (s : State) : Out :=
  alu1 d a (fun x => x ||| immOf imm) s

/-- `xori` (R129). -/
def execXori (d : SReg) (a : Src) (imm : BitVec 33) (s : State) : Out :=
  alu1 d a (fun x => x ^^^ immOf imm) s

/-- `shli` (R129). -/
def execShli (d : SReg) (a : Src) (imm : BitVec 33) (s : State) : Out :=
  alu1 d a (fun x => x <<< (imm.toNat % 64)) s

/-- `shri` (R129). -/
def execShri (d : SReg) (a : Src) (imm : BitVec 33) (s : State) : Out :=
  alu1 d a (fun x => x >>> (imm.toNat % 64)) s

/-- `srai` (R129). -/
def execSrai (d : SReg) (a : Src) (imm : BitVec 33) (s : State) : Out :=
  alu1 d a (fun x => x.sshiftRight (imm.toNat % 64)) s

/-- `muli` (R129). -/
def execMuli (d : SReg) (a : Src) (imm : BitVec 33) (s : State) : Out :=
  alu1 d a (fun x => x * immOf imm) s

/-- `ldi` (R129). -/
def execLdi (d : SReg) (imm : BitVec 33) (s : State) : Out :=
  onReady s [] [d] (writeBack s d (immOf imm))

/-- `ldhi` (R129): s[d][63:31] is the immediate, s[d][30:0] stands. -/
def execLdhi (d : SReg) (imm : BitVec 33) (s : State) : Out :=
  onReady s [] [d] (writeBack s d (withBits (getS s.me d) 31 33 imm.toNat))

/-! ## 0x03 predicates (R130) -/

/-- `scmp.cc` (R130). -/
def execScmp (d : FReg) (a b : Src) (cc : Cond) (s : State) : Out :=
  onReady s [a, b] [] (onFlags s [d] (writeFlag s d (condHolds cc (readSrc s.me a) (readSrc s.me b))))

/-- `flog.op` (R130). -/
def execFlog (d : FReg) (a b : FReg) (op : Logic) (s : State) : Out :=
  onFlags s [d, a, b] (writeFlag s d (logicOf op s.me.f[a] s.me.f[b]))

/-- `fset` (R130). -/
def execFset (d : FReg) (a : Src) (s : State) : Out :=
  onReady s [a] [] (onFlags s [d] (writeFlag s d (readSrc s.me a != 0)))

/-- `ftos` (R130). -/
def execFtos (d : SReg) (a : FReg) (s : State) : Out :=
  onReady s [] [d] (onFlags s [a] (writeBack s d (BitVec.ofNat 64 s.me.f[a].toNat)))

/-! ## 0x04 branches, 0x05 jumps (R131-R133) -/

/-- `br`, `br.neg` (R131). -/
def execBr (neg : Bool) (f : FReg) (disp : BitVec 45) (s : State) : Out :=
  onFlags s [f]
    (let c := s.me
     .next (s.setMe (if c.f[f] != neg then retireTo c (target c.pc disp) else retire c)))

/-- `bra` (R131). -/
def execBra (disp : BitVec 45) (s : State) : Out :=
  .next (s.setMe (retireTo s.me (target s.me.pc disp)))

/-- `call` (R131): s62 := PC + 8. -/
def execCall (disp : BitVec 45) (s : State) : Out :=
  onReady s [] [62]
    (let c := s.me
     .next (s.setMe (retireTo (setS c 62 (c.pc + 8)) (target c.pc disp))))

/-- `bryl`, `bryl.neg` (R131): it waits for every earlier yield (R32). -/
def execBryl (neg : Bool) (disp : BitVec 45) (s : State) : Out :=
  let c := s.me
  if !allYielded c then .next s
  else .next (s.setMe (if (c.yl == 0) != neg then retireTo c (target c.pc disp) else retire c))

/-- A jump to a target that must be a multiple of 8, else cause 0x0B with the target as fault address (R106). -/
def jumpTo (s : State) (c : Ctx) (t : Word) : Out :=
  if t.toNat % 8 ≠ 0 then .next (freezeHere s 0x0B 0 t) else .next (s.setMe (retireTo c t))

/-- `jr` (R133). -/
def execJr (a : Src) (s : State) : Out :=
  onReady s [a] [] (jumpTo s s.me (readSrc s.me a))

/-- `callr` (R133): the link is written unless the target faults, here or at fetch. -/
def execCallr (a : Src) (s : State) : Out :=
  onReady s [a] [62]
    (let t := readSrc s.me a
     jumpTo s (if t.toNat ≥ 2 ^ 57 then s.me else setS s.me 62 (s.me.pc + 8)) t)

/-- `ret` (R133). -/
def execRet (s : State) : Out :=
  onReady s [] [62] (jumpTo s s.me (getS s.me 62))

end Sys2Proof.Machine
end

