-- ==== Sys2Proof/Machine/Window.lean ====
section
/-! DEFINITION. The management window: its registers, the graph-arm registers and the commands 0x01 to 0x11 (R398-R401,
R406, R411-R415). -/

namespace Sys2Proof.Machine

/-! ## Graph arming (R399) -/

/-- Whether a partition's tables translate every node of a run. -/
def nodesTranslate (s : State) (part : PartId) : Nat → Nat → Bool
  | 0, _ => true
  | n + 1, va =>
    va + 256 ≤ 2 ^ 57 && (match walk s part va with | .leaf .. => true | _ => false) && nodesTranslate s part n (va + 256)

/-- The first node of a run that does not translate counts, if its entry is malformed (R366). -/
def countNodes (part : PartId) : Nat → Nat → State → State
  | 0, _, s => s
  | n + 1, va, s =>
    match walk s part va with
    | .leaf .. => countNodes part n (va + 256) s
    | .malformed => countMalformed s part
    | .invalid | .poison => s

/-- A write of GARMB: COUNT nodes armed as `tsub` does, or RESULT 1. Both fields of GARMB read as zero: COUNT is written only, and
the rest is reserved (R2). -/
def graphArm (s : State) (v : Word) : State :=
  let a := s.garma.toNat
  let cl : ClusterId := BitVec.ofNat 7 (a / 2 ^ 57)
  let part : PartId := BitVec.ofNat 4 (bitsAt a 4 4)
  let node := bitsAt a 8 49 * 256
  let count := bitsAt v.toNat 0 16
  let refused (s : State) : State := { s with mstat := withBits s.mstat 48 8 1 }
  let s := { s with garmb := 0 }
  if count = 0 || v.toNat ≥ 2 ^ 16 || s.garmaBad || !s.up.contains cl then refused s
  else
    let ok := nodesTranslate s part count node
    let s := countNodes part count node s
    if ok then armRun cl part count (BitVec.ofNat 64 node) s else refused s

/-- The event GRAPH_ARM. -/
def execGraphArm (garmb : BitVec 64) (s : State) : Out := .next (graphArm s garmb)

/-! ## Commands (R400, R401) -/

def cmdOp (c : Word) : Nat := bitsAt c.toNat 56 8
def cmdPart (c : Word) : PartId := BitVec.ofNat 4 (bitsAt c.toNat 52 4)
def cmdCtx (c : Word) : CtxId := BitVec.ofNat 12 (bitsAt c.toNat 40 12)
def cmdScope (c : Word) : Nat := bitsAt c.toNat 37 3
def cmdGo (c : Word) : Bool := c.toNat % 2 == 1
/-- The register's value: GO is written only, and the reserved bits read as zero (R2). -/
def cmdKept (c : Word) : Word := withBits c 0 37 0

def cmdBusy (s : State) : Bool := s.mstat.toNat / 2 ^ 63 == 1

/-- What a command has done: complete with a RESULT, or still running. -/
inductive Progress
  | done (result : Nat) (s : State)
  | running (s : State)

/-- A command written to MCMD with GO 1 begins, unless one is running; the one that is running, and waits, goes on. -/
def command (op : Nat) (waits : Bool) (c : Word) (s : State) (body : State → Progress) : State :=
  if cmdOp c ≠ op || !cmdGo c || (cmdBusy s && !(waits && s.mcmd = cmdKept c)) then s
  else
    let s := { s with mcmd := cmdKept c }
    let r := if bitsAt c.toNat 1 36 ≠ 0 then Progress.done 1 s else body s
    match r with
    | .done n s => finishCmd s n
    | .running s => { s with mstat := BitVec.ofNat 64 (2 ^ 63) }

/-! ### Stops and saved contexts -/

/-- The contexts that a stop names; none for an operand that names nothing. -/
def stopTargets (s : State) (c : Word) : Option (List CtxId) :=
  let x := cmdCtx c
  let all := allTasks s
  match cmdScope c with
  | 0 => if validCtx x then some (all.filter (· = x)) else none
  | 1 => if validCore (coreOf x) then some (all.filter (fun y => coreOf y = coreOf x)) else none
  | 2 => if (clusterOf x).toNat < 96 then some (all.filter (fun y => clusterOf y = clusterOf x)) else none
  | 3 => some (all.filter (fun y => (s.ctx y).part = cmdPart c))
  | 4 => some all
  | _ => none

/-- Command 0x01 (R354): it runs until STOP_COMPLETE ends the stop. -/
def cmdStop (c : Word) (s : State) : Progress :=
  match stopTargets s c with
  | none => .done 1 s
  | some ts =>
    if cmdScope c = 0 && ts = [] then .done 2 s
    else
      match acceptStop s ts true none with
      | some s => .running s
      | none => .done 3 s

def areaIndex (s : State) (p : SaveArea → Bool) : Option Nat :=
  (List.range s.areas.length).find? (fun i => match s.areas[i]? with | some a => p a | none => false)

/-- Command 0x02 (R360): it runs until a position will do. -/
def cmdRestore (c : Word) (s : State) : Progress :=
  match areaIndex s (fun a => a.base = s.marg.toNat) with
  | none => .done 2 s
  | some i =>
    if (s.areas[i]?).any (fun a => a.part ≠ cmdPart c) then .done 1 s
    else
      match restoreArea s i (cmdPart c) with
      | some s => .done 0 s
      | none => .running s

/-- Command 0x03 (R147): in place, or restored from its save area first. -/
def cmdResumeHalted (c : Word) (s : State) : Progress :=
  let x := cmdCtx c
  if !validCtx x then .done 1 s
  else if (s.ctx x).run = .halted && !(s.ctx x).stopping then .done 0 (s.modCtx x (fun k => { k with run := .running }))
  else
    match areaIndex s (fun a => a.ctx = x && a.st = .halted) with
    | none => .done 2 s
    | some i =>
      match restoreArea (modArea s i (fun a => { a with st := .stopped })) i (cmdPart c) with
      | some s => .done 0 s
      | none => .running s

/-- Command 0x04 (R361). -/
def cmdReclaim (s : State) : Progress :=
  match areaIndex s (fun a => a.base = s.marg.toNat && a.ret) with
  | none => .done 2 s
  | some i => .done 0 (reclaimArea s i)

/-- Command 0x05 (R345): a frozen, stopped or halted context. -/
def cmdKill (c : Word) (s : State) : Progress :=
  let x := cmdCtx c
  if !validCtx x then .done 1 s
  else if ((s.ctx x).run = .frozen || (s.ctx x).run = .halted) && !(s.ctx x).stopping then .done 0 (killCtx s x)
  else
    match areaIndex s (fun a => a.ctx = x) with
    | some i => .done 0 (killSaved s i)
    | none => .done 2 s

/-! ### Whole partitions -/

/-- The areas that a partition freeze saved, restored one after another as positions allow. -/
def restoreFrozen (part : PartId) : Nat → State → State
  | 0, s => s
  | n + 1, s =>
    match areaIndex s (fun a => a.part = part && a.byFreeze && (positionFor s a).isSome) with
    | none => s
    | some i =>
      match restoreArea s i part with
      | some s => restoreFrozen part n s
      | none => s

/-- Command 0x06 (R352, R414): it runs until every context is restored; then the partition is frozen no more. -/
def cmdResumePartition (c : Word) (s : State) : Progress :=
  let part := cmdPart c
  if !(s.part part).frozen then .done 2 s
  else if s.stops.any (fun r => r.freezes = some part) then .running s
  else
    let s := restoreFrozen part s.areas.length s
    if s.areas.any (fun a => a.part = part && a.byFreeze) then .running s
    else .done 0 (s.modPart part (fun p => { p with frozen := false }))

/-- The nodes of a partition that have not started, as cluster and node. -/
def waitingNodes (s : State) (part : PartId) : List (ClusterId × NodeRef) :=
  s.clusters.flatMap (fun p => ((p.2.toArm ++ p.2.armed ++ p.2.leasing).filter (fun r => refPart s r = part)).map (fun r => (p.1, r)))
    ++ s.cores.flatMap (fun p => (p.2.ready.filter (fun r => r.part = part)).map (fun r => (coreCluster p.1, r.node)))

/-- Command 0x07: every context of the partition is killed, and its armed nodes fail with code 10. -/
def killPartition (s : State) (part : PartId) : State :=
  let left (r : StopReq) : StopReq := { r with targets := r.targets.filter (fun x => (s.ctx x).part ≠ part) }
  let s := { s with stops := (s.stops.map left).filter (fun r => r.freezes ≠ some part) }
  let s := ((s.ctxs.filter (fun p => holdsTask p.2 && p.2.part = part)).map (·.1)).foldl killCtx s
  let s := (List.range s.areas.length).foldl (fun s _ =>
    match areaIndex s (fun a => a.part = part) with | some i => killSaved s i | none => s) s
  let ns := waitingNodes s part
  let gone (r : NodeRef) : Bool := ns.any (·.2 = r)
  let s := { s with
    clusters := s.clusters.map (fun p => (p.1, { p.2 with
      toArm := p.2.toArm.filter (!gone ·), armed := p.2.armed.filter (!gone ·), leasing := p.2.leasing.filter (!gone ·) }))
    cores := s.cores.map (fun p => (p.1, { p.2 with ready := p.2.ready.filter (fun r => r.part ≠ part) })) }
  let s := ns.foldl (fun s p => failArmed s p.1 p.2 10) s
  -- its retention registers are cleared (R231)
  let s := (List.finRange 8).foldl (fun s slot => unpinSlot s part slot) s
  s.modPart part (fun p => { p with frozen := false })

/-! ### Registers of partitions, cores and windows -/

/-- Command 0x09 (R328): the entry is written when CYCLE next passes a multiple of 64. -/
def cmdSlotEntry (c : Word) (s : State) : Progress :=
  let k := coreOf (cmdCtx c)
  if !validCore k || bitsAt s.mval.toNat 5 3 ≠ 0 then .done 1 s
  else .done 0 (s.modCore k (fun k => { k with slotPend := mset k.slotPend (bitsAt s.marg.toNat 0 6) (BitVec.ofNat 8 s.mval.toNat) }))

/-- Command 0x0A (R363). A root that is not valid makes every translation of the partition fault, cached ones too. -/
def cmdPageRoot (c : Word) (s : State) : Progress :=
  let part := cmdPart c
  if bitsAt s.mval.toNat 52 12 ≠ 0 || bitsAt s.mval.toNat 1 8 ≠ 0 then .done 1 s
  else
    let s := if s.mval.toNat % 2 = 0 then { s with tlb := s.tlb.filter (·.part ≠ part) } else s
    .done 0 (s.modPart part (fun p => { p with pgroot := s.mval }))

/-- Command 0x0B (R335). -/
def cmdHandlerRegister (c : Word) (s : State) : Progress :=
  let v := s.mval.toNat
  let part := cmdPart c
  match s.marg.toNat with
  | 0 => if bitsAt v 57 7 ≠ 0 || bitsAt v 1 2 ≠ 0 then .done 1 s else .done 0 (s.modPart part (fun p => { p with hent := s.mval }))
  | 1 => if bitsAt v 57 7 ≠ 0 || bitsAt v 0 3 ≠ 0 then .done 1 s else .done 0 (s.modPart part (fun p => { p with hbank := s.mval }))
  | 2 => if bitsAt v 19 45 ≠ 0 || v % 2 ≠ 0 then .done 1 s else .done 0 (s.modPart part (fun p => { p with cam := s.mval }))
  | _ => .done 1 s

/-- A partition's counters by selector (R401). -/
def counterOf (p : Partition) (sel : Nat) : Option Word :=
  match sel with
  | 0 => some p.overCnt
  | 1 => some p.nodeErr
  | 2 => some p.malform
  | 3 => some p.hndErr
  | 4 => some p.retries
  | _ => none

def clearCounter (p : Partition) (sel : Nat) : Partition :=
  match sel with
  | 0 => { p with overCnt := 0 }
  | 1 => { p with nodeErr := 0 }
  | 2 => { p with malform := 0 }
  | 3 => { p with hndErr := 0 }
  | 4 => { p with retries := 0 }
  | _ => p

/-- Commands 0x0C and 0x0D. -/
def cmdCounter (clear : Bool) (c : Word) (s : State) : Progress :=
  let part := cmdPart c
  match counterOf (s.part part) s.marg.toNat with
  | none => .done 1 s
  | some v =>
    let s' := { s with mval := v }
    .done 0 (if clear then s'.modPart part (fun p => clearCounter p s.marg.toNat) else s')

/-- Command 0x0E (R406). -/
def cmdPeerWindow (s : State) : Progress :=
  if bitsAt s.mval.toNat 2 14 ≠ 0 then .done 1 s
  else
    let n : Fin 16 := ⟨s.marg.toNat % 16, Nat.mod_lt _ (by decide)⟩
    .done 0 { s with windows := s.windows.set n { base := BitVec.ofNat 40 (bitsAt s.marg.toNat 12 40), val := s.mval } }

/-! ### Readback (R413) -/

/-- A word of a context by the selector of R342, of the context that holds the position or is saved under its number. -/
def contextWord (s : State) (x : CtxId) (sel : Word) : Option Word :=
  let n : Named := if holdsTask (s.ctx x) then .resident x
    else match areaIndex s (fun a => a.ctx = x) with
      | some i => .saved i
      | none => .resident x
  match selectorOf sel with
  | none => none
  | some w =>
    match withNamed s n (fun s x => if selectorBad s x w then .wait s else frozenRead s x w) with
    | .ok v _ => some v
    | .fault .. | .wait _ => none

/-- The machine as a held snapshot shows its contexts. -/
def snapView (s : State) (n : Snapshot) : State :=
  { s with ctxs := n.ctxs, areas := [], cores := n.srfs.map (fun p => (p.1, { s.core p.1 with srf := p.2, slots := mget n.slots p.1 [] })) }

/-- Eight entries of a core's slot table as one word, the first in the lowest byte (R328). -/
def slotWord (c : Core) (n : Nat) : Word := BitVec.ofNat 64 (ofLe ((List.range 8).map (fun i => mget c.slots (8 * n + i) 0)))

/-- The instances of a class: cores, slices or clusters. -/
def instances (cls : Nat) : Nat := if cls = 1 || cls = 4 then 384 else if cls = 2 then 64 else 96

/-- The word that a state address names: none where it names nothing. Classes 1 to 4 follow the firmware's catalogue, which gives
a slot table its words; the others are free values (log entry 27). -/
def stateWord (s : State) (view : State) (cls : Nat) (inst word : Nat) : Option Word :=
  let x : CtxId := BitVec.ofNat 12 inst
  if cls = 0 then (if !validCtx x || word ≠ 0 then none else contextWord view x s.mval)
  else if cls > 4 || inst ≥ instances cls then none
  else
    match (if cls = 4 then Config.catalogueSlots word else none) with
    | some n => some (slotWord (view.core (BitVec.ofNat 9 inst)) (n % 8))
    | none => some (Config.catalogueWord s.fresh)

/-- Command 0x0F. -/
def cmdReadback (s : State) : Progress :=
  let a := s.marg.toNat
  let cls := bitsAt a 32 8
  let put (v : Option Word) (s : State) : Progress := match v with
    | some v => .done 0 { s.draw with mval := v }
    | none => .done 1 s
  if cls < 0x80 then put (stateWord s s cls (bitsAt a 40 12) (bitsAt a 0 32)) s
  else
    match s.snap with
    | none => .done 2 s
    | some n => put (stateWord s (snapView s n) (cls - 0x80) (bitsAt a 40 12) (bitsAt a 0 32)) s

/-! ### Margins and quotes (R411, R415) -/

/-- Command 0x10: the contexts of the clusters are paused; a cluster that no offset satisfies shows it in HEALTH. -/
def cmdMargin (c : Word) (s : State) : Progress :=
  let cl := clusterOf (cmdCtx c)
  if (cmdScope c ≠ 2 && cmdScope c ≠ 4) || (cmdScope c = 2 && cl.toNat > 95) then .done 1 s
  else
    let cls := if cmdScope c = 2 then [cl] else (List.range 96).map (BitVec.ofNat 7)
    match pauseTasks s ((allTasks s).filter (fun x => cls.contains (clusterOf x))) with
    | none => .done 3 s
    | some s => .done 0 (cls.foldl (fun s cl =>
        if Config.offsetOk s.fresh || s.health.contains cl then s.draw else { s.draw with health := s.health ++ [cl] }) s)

/-- Command 0x11: the leaf index goes to flash before the quote is written. -/
def cmdQuote (s : State) : Progress :=
  if s.marg.toNat ≥ 2 ^ 52 then .done 1 s
  else if !Config.leafIndexOk s.leaf then .done 4 s
  else
    let a := s.marg.toNat % 2 ^ 51
    let q := (Config.quoteBytes s.fresh (s.hostMem.bytes a 32)).take 4032
    .done 0 { s.draw with leaf := s.leaf + 1, hostMem := s.hostMem.put (a + 64) q }

/-! ## The events of the commands -/

/-- The event STOP. -/
def execStop (cmd : BitVec 64) (s : State) : Out := .next (command 0x01 false cmd s (cmdStop cmd))
/-- The event RESTORE. -/
def execRestore (cmd : BitVec 64) (s : State) : Out := .next (command 0x02 true cmd s (cmdRestore cmd))
/-- The event RESUME_HALTED. -/
def execResumeHalted (cmd : BitVec 64) (s : State) : Out := .next (command 0x03 true cmd s (cmdResumeHalted cmd))
/-- The event RECLAIM. -/
def execReclaim (cmd : BitVec 64) (s : State) : Out := .next (command 0x04 false cmd s cmdReclaim)
/-- The event KILL. -/
def execKill (cmd : BitVec 64) (s : State) : Out := .next (command 0x05 false cmd s (cmdKill cmd))
/-- The event RESUME_PARTITION. -/
def execResumePartition (cmd : BitVec 64) (s : State) : Out := .next (command 0x06 true cmd s (cmdResumePartition cmd))
/-- The event KILL_PARTITION. -/
def execKillPartition (cmd : BitVec 64) (s : State) : Out :=
  .next (command 0x07 false cmd s fun s => .done 0 (killPartition s (cmdPart cmd)))
/-- The event SNAP. -/
def execSnap (cmd : BitVec 64) (s : State) : Out := .next (command 0x08 false cmd s fun s => .done 0 (latch s))
/-- The event SLOT_ENTRY_WRITE. -/
def execSlotEntryWrite (cmd : BitVec 64) (s : State) : Out := .next (command 0x09 false cmd s (cmdSlotEntry cmd))
/-- The event PAGE_ROOT_WRITE. -/
def execPageRootWrite (cmd : BitVec 64) (s : State) : Out := .next (command 0x0A false cmd s (cmdPageRoot cmd))
/-- The event HANDLER_REGISTER_WRITE. -/
def execHandlerRegisterWrite (cmd : BitVec 64) (s : State) : Out := .next (command 0x0B false cmd s (cmdHandlerRegister cmd))
/-- The event COUNTER_READ. -/
def execCounterRead (cmd : BitVec 64) (s : State) : Out := .next (command 0x0C false cmd s (cmdCounter false cmd))
/-- The event COUNTER_CLEAR. -/
def execCounterClear (cmd : BitVec 64) (s : State) : Out := .next (command 0x0D false cmd s (cmdCounter true cmd))
/-- The event PEER_WINDOW_WRITE. -/
def execPeerWindowWrite (cmd : BitVec 64) (s : State) : Out := .next (command 0x0E false cmd s cmdPeerWindow)
/-- The event READBACK. -/
def execReadback (cmd : BitVec 64) (s : State) : Out := .next (command 0x0F false cmd s cmdReadback)
/-- The event MARGIN_WINDOW. -/
def execMarginWindow (cmd : BitVec 64) (s : State) : Out := .next (command 0x10 false cmd s (cmdMargin cmd))
/-- The event QUOTE. -/
def execQuote (cmd : BitVec 64) (s : State) : Out := .next (command 0x11 false cmd s cmdQuote)

/-! ## Register writes (R398) -/

/-- A command by its code; a code that the table does not list gives RESULT 1. -/
def runCommand (c : Word) (s : State) : State :=
  match cmdOp c with
  | 0x01 => command 0x01 false c s (cmdStop c)
  | 0x02 => command 0x02 false c s (cmdRestore c)
  | 0x03 => command 0x03 false c s (cmdResumeHalted c)
  | 0x04 => command 0x04 false c s cmdReclaim
  | 0x05 => command 0x05 false c s (cmdKill c)
  | 0x06 => command 0x06 false c s (cmdResumePartition c)
  | 0x07 => command 0x07 false c s fun s => .done 0 (killPartition s (cmdPart c))
  | 0x08 => command 0x08 false c s fun s => .done 0 (latch s)
  | 0x09 => command 0x09 false c s (cmdSlotEntry c)
  | 0x0A => command 0x0A false c s (cmdPageRoot c)
  | 0x0B => command 0x0B false c s (cmdHandlerRegister c)
  | 0x0C => command 0x0C false c s (cmdCounter false c)
  | 0x0D => command 0x0D false c s (cmdCounter true c)
  | 0x0E => command 0x0E false c s cmdPeerWindow
  | 0x0F => command 0x0F false c s cmdReadback
  | 0x10 => command 0x10 false c s (cmdMargin c)
  | 0x11 => command 0x11 false c s cmdQuote
  | n => command n false c s fun s => .done 1 s

/-- SNCTL: REARM, EBRK and EPIN are writable (R412). -/
def writeSnctl (s : State) (v : Word) : State :=
  let s := if bitsAt v.toNat 3 1 = 1 then rearm s else s
  { s with ebrk := bitsAt v.toNat 1 1 = 1, epin := v.toNat % 2 = 1 }

/-- A write of a 64-bit register of the window. The registers of a block stand in the order of its table, 8 bytes apart (log entry
51); other offsets are ignored. -/
def registerWrite (s : State) (offset : Nat) (v : Word) : State :=
  match offset with
  | 0x1000 => { s with garma := withBits v 0 4 0, garmaBad := v.toNat % 16 ≠ 0 }
  | 0x1008 => graphArm s v
  | 0x2000 => if cmdBusy s then s else if cmdGo v then runCommand v s else { s with mcmd := cmdKept v }
  | 0x2008 => { s with marg := v }
  | 0x2010 => { s with mval := v }
  | 0x3000 => writeSnctl s v
  | _ => s

/-- The event REGISTER_WRITE. -/
def execRegisterWrite (offset : BitVec 25) (value : BitVec 64) (s : State) : Out := .next (registerWrite s offset.toNat value)

end Sys2Proof.Machine
end

