-- ==== Sys2Proof/Machine/Dispatch.lean ====
section
/-! DEFINITION. The one match over the instructions: each arm calls the meaning of its own. -/

namespace Sys2Proof.Machine

def exec (i : Instr) (s : State) : Host.Outcome State Fault Refusal :=
  match i with
  | .add d a b => Sys2Proof.Machine.execAdd d a b s
  | .sub d a b => Sys2Proof.Machine.execSub d a b s
  | .mul d a b => Sys2Proof.Machine.execMul d a b s
  | .mulh d a b => Sys2Proof.Machine.execMulh d a b s
  | .mulhn d a b => Sys2Proof.Machine.execMulhn d a b s
  | .div d a b => Sys2Proof.Machine.execDiv d a b s
  | .divn d a b => Sys2Proof.Machine.execDivn d a b s
  | .rem d a b => Sys2Proof.Machine.execRem d a b s
  | .remn d a b => Sys2Proof.Machine.execRemn d a b s
  | .and d a b => Sys2Proof.Machine.execAnd d a b s
  | .or d a b => Sys2Proof.Machine.execOr d a b s
  | .xor d a b => Sys2Proof.Machine.execXor d a b s
  | .andn d a b => Sys2Proof.Machine.execAndn d a b s
  | .shl d a b => Sys2Proof.Machine.execShl d a b s
  | .shr d a b => Sys2Proof.Machine.execShr d a b s
  | .sra d a b => Sys2Proof.Machine.execSra d a b s
  | .rotl d a b => Sys2Proof.Machine.execRotl d a b s
  | .min d a b => Sys2Proof.Machine.execMin d a b s
  | .max d a b => Sys2Proof.Machine.execMax d a b s
  | .minn d a b => Sys2Proof.Machine.execMinn d a b s
  | .maxn d a b => Sys2Proof.Machine.execMaxn d a b s
  | .popc d a => Sys2Proof.Machine.execPopc d a s
  | .clz d a => Sys2Proof.Machine.execClz d a s
  | .ctz d a => Sys2Proof.Machine.execCtz d a s
  | .bfx d a b c => Sys2Proof.Machine.execBfx d a b c s
  | .bfxn d a b c => Sys2Proof.Machine.execBfxn d a b c s
  | .bfi d a b c => Sys2Proof.Machine.execBfi d a b c s
  | .csel d a b f => Sys2Proof.Machine.execCsel d a b f s
  | .addsh d a b m => Sys2Proof.Machine.execAddsh d a b m s
  | .addi d a imm => Sys2Proof.Machine.execAddi d a imm s
  | .andi d a imm => Sys2Proof.Machine.execAndi d a imm s
  | .ori d a imm => Sys2Proof.Machine.execOri d a imm s
  | .xori d a imm => Sys2Proof.Machine.execXori d a imm s
  | .shli d a imm => Sys2Proof.Machine.execShli d a imm s
  | .shri d a imm => Sys2Proof.Machine.execShri d a imm s
  | .srai d a imm => Sys2Proof.Machine.execSrai d a imm s
  | .muli d a imm => Sys2Proof.Machine.execMuli d a imm s
  | .ldi d imm => Sys2Proof.Machine.execLdi d imm s
  | .ldhi d imm => Sys2Proof.Machine.execLdhi d imm s
  | .scmp d a b cc => Sys2Proof.Machine.execScmp d a b cc s
  | .flog d a b op => Sys2Proof.Machine.execFlog d a b op s
  | .fset d a => Sys2Proof.Machine.execFset d a s
  | .ftos d a => Sys2Proof.Machine.execFtos d a s
  | .br neg f disp => Sys2Proof.Machine.execBr neg f disp s
  | .bra disp => Sys2Proof.Machine.execBra disp s
  | .call disp => Sys2Proof.Machine.execCall disp s
  | .bryl neg disp => Sys2Proof.Machine.execBryl neg disp s
  | .jr a => Sys2Proof.Machine.execJr a s
  | .callr a => Sys2Proof.Machine.execCallr a s
  | .ldb d m => Sys2Proof.Machine.execLdb d m s
  | .ldbn d m => Sys2Proof.Machine.execLdbn d m s
  | .ldh d m => Sys2Proof.Machine.execLdh d m s
  | .ldhn d m => Sys2Proof.Machine.execLdhn d m s
  | .ldw d m => Sys2Proof.Machine.execLdw d m s
  | .ldwn d m => Sys2Proof.Machine.execLdwn d m s
  | .ldd d m => Sys2Proof.Machine.execLdd d m s
  | .stb d m => Sys2Proof.Machine.execStb d m s
  | .sth d m => Sys2Proof.Machine.execSth d m s
  | .stw d m => Sys2Proof.Machine.execStw d m s
  | .std d m => Sys2Proof.Machine.execStd d m s
  | .aadd d m w32 => Sys2Proof.Machine.execAadd d m w32 s
  | .aand d m w32 => Sys2Proof.Machine.execAand d m w32 s
  | .aor d m w32 => Sys2Proof.Machine.execAor d m w32 s
  | .axor d m w32 => Sys2Proof.Machine.execAxor d m w32 s
  | .amin d m w32 => Sys2Proof.Machine.execAmin d m w32 s
  | .amax d m w32 => Sys2Proof.Machine.execAmax d m w32 s
  | .aminn d m w32 => Sys2Proof.Machine.execAminn d m w32 s
  | .amaxn d m w32 => Sys2Proof.Machine.execAmaxn d m w32 s
  | .axchg d m w32 => Sys2Proof.Machine.execAxchg d m w32 s
  | .acas d m w32 => Sys2Proof.Machine.execAcas d m w32 s
  | .fenceFull scope => Sys2Proof.Machine.execFenceFull scope s
  | .fenceAcq scope => Sys2Proof.Machine.execFenceAcq scope s
  | .fenceRel scope => Sys2Proof.Machine.execFenceRel scope s
  | .vadd d a b sat q => Sys2Proof.Machine.execVadd d a b sat q s
  | .vsub d a b sat q => Sys2Proof.Machine.execVsub d a b sat q s
  | .vmul d a b sat q => Sys2Proof.Machine.execVmul d a b sat q s
  | .vmulh d a b q => Sys2Proof.Machine.execVmulh d a b q s
  | .vmin d a b q => Sys2Proof.Machine.execVmin d a b q s
  | .vmax d a b q => Sys2Proof.Machine.execVmax d a b q s
  | .vabs d a sat q => Sys2Proof.Machine.execVabs d a sat q s
  | .vneg d a sat q => Sys2Proof.Machine.execVneg d a sat q s
  | .vand d a b q => Sys2Proof.Machine.execVand d a b q s
  | .vor d a b q => Sys2Proof.Machine.execVor d a b q s
  | .vxor d a b q => Sys2Proof.Machine.execVxor d a b q s
  | .vshl d a b q => Sys2Proof.Machine.execVshl d a b q s
  | .vshr d a b q => Sys2Proof.Machine.execVshr d a b q s
  | .vsra d a b q => Sys2Proof.Machine.execVsra d a b q s
  | .vpopc d a q => Sys2Proof.Machine.execVpopc d a q s
  | .vclz d a q => Sys2Proof.Machine.execVclz d a q s
  | .vmov d a q => Sys2Proof.Machine.execVmov d a q s
  | .vbcast d a b => Sys2Proof.Machine.execVbcast d a b s
  | .viota d a b c sat => Sys2Proof.Machine.execViota d a b c sat s
  | .vsel d a b c q => Sys2Proof.Machine.execVsel d a b c q s
  | .vmulw d a b => Sys2Proof.Machine.execVmulw d a b s
  | .vmad d a b c sat q => Sys2Proof.Machine.execVmad d a b c sat q s
  | .fadd d a b m q => Sys2Proof.Machine.execFadd d a b m q s
  | .fsub d a b m q => Sys2Proof.Machine.execFsub d a b m q s
  | .fmul d a b m q => Sys2Proof.Machine.execFmul d a b m q s
  | .ffma d a b c m q => Sys2Proof.Machine.execFfma d a b c m q s
  | .fmin d a b m q => Sys2Proof.Machine.execFmin d a b m q s
  | .fmax d a b m q => Sys2Proof.Machine.execFmax d a b m q s
  | .fabs d a m q => Sys2Proof.Machine.execFabs d a m q s
  | .fneg d a m q => Sys2Proof.Machine.execFneg d a m q s
  | .fdiv d a b m q => Sys2Proof.Machine.execFdiv d a b m q s
  | .fsqrt d a m q => Sys2Proof.Machine.execFsqrt d a m q s
  | .fexp2 d a m q => Sys2Proof.Machine.execFexp2 d a m q s
  | .flog2 d a m q => Sys2Proof.Machine.execFlog2 d a m q s
  | .fscl d a b m q => Sys2Proof.Machine.execFscl d a b m q s
  | .vcmp d a b cc => Sys2Proof.Machine.execVcmp d a b cc s
  | .vnz d a => Sys2Proof.Machine.execVnz d a s
  | .vnan d a => Sys2Proof.Machine.execVnan d a s
  | .cvtn d a t m => Sys2Proof.Machine.execCvtn d a t m s
  | .cvtw d a t m => Sys2Proof.Machine.execCvtw d a t m s
  | .cvt42 d a m => Sys2Proof.Machine.execCvt42 d a m s
  | .cvtif d a t m => Sys2Proof.Machine.execCvtif d a t m s
  | .cvtfi d a t m => Sys2Proof.Machine.execCvtfi d a t m s
  | .unpk3 d a => Sys2Proof.Machine.execUnpk3 d a s
  | .pk3 d a => Sys2Proof.Machine.execPk3 d a s
  | .cvts d a b m => Sys2Proof.Machine.execCvts d a b m s
  | .redSum d a m q => Sys2Proof.Machine.execRedSum d a m q s
  | .redMin d a m q => Sys2Proof.Machine.execRedMin d a m q s
  | .redMax d a m q => Sys2Proof.Machine.execRedMax d a m q s
  | .redCnt d a m q => Sys2Proof.Machine.execRedCnt d a m q s
  | .scanInc d a m => Sys2Proof.Machine.execScanInc d a m s
  | .scanExc d a m => Sys2Proof.Machine.execScanExc d a m s
  | .segred d a b m => Sys2Proof.Machine.execSegred d a b m s
  | .tdot d a b sat => Sys2Proof.Machine.execTdot d a b sat s
  | .redDot d a b m q => Sys2Proof.Machine.execRedDot d a b m q s
  | .ldc d a b pol q disp => Sys2Proof.Machine.execLdc d a b pol q disp s
  | .stc d a b pol q disp => Sys2Proof.Machine.execStc d a b pol q disp s
  | .gath d a b pol q disp => Sys2Proof.Machine.execGath d a b pol q disp s
  | .scat d a b pol q disp => Sys2Proof.Machine.execScat d a b pol q disp s
  | .ldt d h b pol => Sys2Proof.Machine.execLdt d h b pol s
  | .stt d h b pol => Sys2Proof.Machine.execStt d h b pol s
  | .btld d h b pol => Sys2Proof.Machine.execBtld d h b pol s
  | .segst d a pol disp => Sys2Proof.Machine.execSegst d a pol disp s
  | .catom d a b pol w32 op => Sys2Proof.Machine.execCatom d a b pol w32 op s
  | .calloc d a fmt => Sys2Proof.Machine.execCalloc d a fmt s
  | .cfree d => Sys2Proof.Machine.execCfree d s
  | .cfmt d fmt => Sys2Proof.Machine.execCfmt d fmt s
  | .len d a => Sys2Proof.Machine.execLen d a s
  | .trunc d a => Sys2Proof.Machine.execTrunc d a s
  | .setvl a => Sys2Proof.Machine.execSetvl a s
  | .cdesc d a => Sys2Proof.Machine.execCdesc d a s
  | .sel d a b cc q => Sys2Proof.Machine.execSel d a b cc q s
  | .selr d a b c q => Sys2Proof.Machine.execSelr d a b c q s
  | .selb d a q => Sys2Proof.Machine.execSelb d a q s
  | .pand d a b => Sys2Proof.Machine.execPand d a b s
  | .por d a b => Sys2Proof.Machine.execPor d a b s
  | .pdiff d a b => Sys2Proof.Machine.execPdiff d a b s
  | .prjp d a b => Sys2Proof.Machine.execPrjp d a b s
  | .prj d a b => Sys2Proof.Machine.execPrj d a b s
  | .plc d a b => Sys2Proof.Machine.execPlc d a b s
  | .pcol d a b => Sys2Proof.Machine.execPcol d a b s
  | .joinH d a b => Sys2Proof.Machine.execJoinH d a b s
  | .joinM d a b => Sys2Proof.Machine.execJoinM d a b s
  | .semi d a b => Sys2Proof.Machine.execSemi d a b s
  | .anti d a b => Sys2Proof.Machine.execAnti d a b s
  | .grp d a => Sys2Proof.Machine.execGrp d a s
  | .aggSum d a b c m => Sys2Proof.Machine.execAggSum d a b c m s
  | .aggMin d a b c m => Sys2Proof.Machine.execAggMin d a b c m s
  | .aggMax d a b c m => Sys2Proof.Machine.execAggMax d a b c m s
  | .aggCnt d a b c m => Sys2Proof.Machine.execAggCnt d a b c m s
  | .sort d a => Sys2Proof.Machine.execSort d a s
  | .sortd d a => Sys2Proof.Machine.execSortd d a s
  | .topk d a b => Sys2Proof.Machine.execTopk d a b s
  | .srch d a b => Sys2Proof.Machine.execSrch d a b s
  | .uniq d a => Sys2Proof.Machine.execUniq d a s
  | .strm d a b c fmt => Sys2Proof.Machine.execStrm d a b c fmt s
  | .unstrm d => Sys2Proof.Machine.execUnstrm d s
  | .bfwait a full => Sys2Proof.Machine.execBfwait a full s
  | .bftry d a st => Sys2Proof.Machine.execBftry d a st s
  | .bfsetCfg a b c => Sys2Proof.Machine.execBfsetCfg a b c s
  | .bfsetCfga a b c => Sys2Proof.Machine.execBfsetCfga a b c s
  | .bfsetClaim a => Sys2Proof.Machine.execBfsetClaim a s
  | .bfsetFull a => Sys2Proof.Machine.execBfsetFull a s
  | .bfsetRel a => Sys2Proof.Machine.execBfsetRel a s
  | .bfinfo d a => Sys2Proof.Machine.execBfinfo d a s
  | .cpy d a b pol q buf => Sys2Proof.Machine.execCpy d a b pol q buf s
  | .cpyx d a b pol q buf => Sys2Proof.Machine.execCpyx d a b pol q buf s
  | .cpyc d a b pol q buf => Sys2Proof.Machine.execCpyc d a b pol q buf s
  | .txc d a pol q => Sys2Proof.Machine.execTxc d a pol q s
  | .txe d a pol q => Sys2Proof.Machine.execTxe d a pol q s
  | .matt a => Sys2Proof.Machine.execMatt a s
  | .mldw a mode c fmt => Sys2Proof.Machine.execMldw a mode c fmt s
  | .mmul d a b => Sys2Proof.Machine.execMmul d a b s
  | .mmuls d a b c => Sys2Proof.Machine.execMmuls d a b c s
  | .macswp d => Sys2Proof.Machine.execMacswp d s
  | .macrd d a b c fmt => Sys2Proof.Machine.execMacrd d a b c fmt s
  | .macclr d fmt => Sys2Proof.Machine.execMacclr d fmt s
  | .xred a b ftz => Sys2Proof.Machine.execXred a b ftz s
  | .xfin d a b m => Sys2Proof.Machine.execXfin d a b m s
  | .xclr a b => Sys2Proof.Machine.execXclr a b s
  | .hmk d a b c fmt => Sys2Proof.Machine.execHmk d a b c fmt s
  | .hcpy d a => Sys2Proof.Machine.execHcpy d a s
  | .hdrop a => Sys2Proof.Machine.execHdrop a s
  | .hfin a b => Sys2Proof.Machine.execHfin a b s
  | .hexcl d a => Sys2Proof.Machine.execHexcl d a s
  | .hld d a => Sys2Proof.Machine.execHld d a s
  | .hst a b => Sys2Proof.Machine.execHst a b s
  | .hinfo d a sel => Sys2Proof.Machine.execHinfo d a sel s
  | .hsp d a c fmt => Sys2Proof.Machine.execHsp d a c fmt s
  | .kvapp a b => Sys2Proof.Machine.execKvapp a b s
  | .kvdem d a b => Sys2Proof.Machine.execKvdem d a b s
  | .kvpro a b => Sys2Proof.Machine.execKvpro a b s
  | .kvinfo d a b => Sys2Proof.Machine.execKvinfo d a b s
  | .barInit a b => Sys2Proof.Machine.execBarInit a b s
  | .barPost a b => Sys2Proof.Machine.execBarPost a b s
  | .barArr d a => Sys2Proof.Machine.execBarArr d a s
  | .barWait d a b => Sys2Proof.Machine.execBarWait d a b s
  | .barTry d a b => Sys2Proof.Machine.execBarTry d a b s
  | .qmk d a => Sys2Proof.Machine.execQmk d a s
  | .qenq d a b c => Sys2Proof.Machine.execQenq d a b c s
  | .qdeq d a c => Sys2Proof.Machine.execQdeq d a c s
  | .qrm d a b => Sys2Proof.Machine.execQrm d a b s
  | .qinfo d a => Sys2Proof.Machine.execQinfo d a s
  | .tsub a b => Sys2Proof.Machine.execTsub a b s
  | .tdep d a b => Sys2Proof.Machine.execTdep d a b s
  | .lcap a b => Sys2Proof.Machine.execLcap a b s
  | .coord d sel => Sys2Proof.Machine.execCoord d sel s
  | .frzRd d a b => Sys2Proof.Machine.execFrzRd d a b s
  | .frzWr a b c => Sys2Proof.Machine.execFrzWr a b c s
  | .frzResRetry a => Sys2Proof.Machine.execFrzResRetry a s
  | .frzResSkip a => Sys2Proof.Machine.execFrzResSkip a s
  | .frzResPc a b => Sys2Proof.Machine.execFrzResPc a b s
  | .frzKill a => Sys2Proof.Machine.execFrzKill a s
  | .frzInfo d a => Sys2Proof.Machine.execFrzInfo d a s
  | .mfs d sr => Sys2Proof.Machine.execMfs d sr s
  | .mts sr a => Sys2Proof.Machine.execMts sr a s
  | .trap n => Sys2Proof.Machine.execTrap n s
  | .brk n => Sys2Proof.Machine.execBrk n s
  | .tlbiPage a => Sys2Proof.Machine.execTlbiPage a s
  | .tlbiRange a count => Sys2Proof.Machine.execTlbiRange a count s
  | .pin d a slot lines => Sys2Proof.Machine.execPin d a slot lines s
  | .unpin slot => Sys2Proof.Machine.execUnpin slot s
  | .halt n => Sys2Proof.Machine.execHalt n s
  | .cyc d => Sys2Proof.Machine.execCyc d s
  | .illegalInstruction w reservedOperand => Sys2Proof.Machine.execIllegalInstruction w reservedOperand s
  | .ret => Sys2Proof.Machine.execRet s
  | .mdet => Sys2Proof.Machine.execMdet s
  | .mflip => Sys2Proof.Machine.execMflip s
  | .tend => Sys2Proof.Machine.execTend s
  | .tyld => Sys2Proof.Machine.execTyld s
  | .hret => Sys2Proof.Machine.execHret s
  | .tlbiAll => Sys2Proof.Machine.execTlbiAll s
  | .nop => Sys2Proof.Machine.execNop s
  | .instructionFetch => Sys2Proof.Machine.execInstructionFetch s
  | .elementGroup c g => Sys2Proof.Machine.execElementGroup c g s
  | .relationalGroupCommit c => Sys2Proof.Machine.execRelationalGroupCommit c s
  | .indexBatch c => Sys2Proof.Machine.execIndexBatch c s
  | .copySegment c => Sys2Proof.Machine.execCopySegment c s
  | .activationRow c => Sys2Proof.Machine.execActivationRow c s
  | .byteBatch c => Sys2Proof.Machine.execByteBatch c s
  | .stripFill k b => Sys2Proof.Machine.execStripFill k b s
  | .bufferAdmission c => Sys2Proof.Machine.execBufferAdmission c s
  | .memoryReply c => Sys2Proof.Machine.execMemoryReply c s
  | .storeFailedAfterRelease c => Sys2Proof.Machine.execStoreFailedAfterRelease c s
  | .uncorrectableError pa => Sys2Proof.Machine.execUncorrectableError pa s
  | .handlerStart cl => Sys2Proof.Machine.execHandlerStart cl s
  | .stopAbandon => Sys2Proof.Machine.execStopAbandon s
  | .stopComplete => Sys2Proof.Machine.execStopComplete s
  | .successorDecrement cl => Sys2Proof.Machine.execSuccessorDecrement cl s
  | .leaseHeld cl => Sys2Proof.Machine.execLeaseHeld cl s
  | .taskLaunch k => Sys2Proof.Machine.execTaskLaunch k s
  | .idleSteal k => Sys2Proof.Machine.execIdleSteal k s
  | .stealRequest thief victim => Sys2Proof.Machine.execStealRequest thief victim s
  | .slotTableCycle k => Sys2Proof.Machine.execSlotTableCycle k s
  | .admissionRotate k => Sys2Proof.Machine.execAdmissionRotate k s
  | .queueRequest k => Sys2Proof.Machine.execQueueRequest k s
  | .queueReply c => Sys2Proof.Machine.execQueueReply c s
  | .dropAtDen cl => Sys2Proof.Machine.execDropAtDen cl s
  | .finaliserArm cl => Sys2Proof.Machine.execFinaliserArm cl s
  | .migrationStart granule => Sys2Proof.Machine.execMigrationStart granule s
  | .migrationSwitch granule => Sys2Proof.Machine.execMigrationSwitch granule s
  | .deadlineExpiry c => Sys2Proof.Machine.execDeadlineExpiry c s
  | .peerRead f => Sys2Proof.Machine.execPeerRead f s
  | .peerWrite f => Sys2Proof.Machine.execPeerWrite f s
  | .peerAtomic f => Sys2Proof.Machine.execPeerAtomic f s
  | .xaccAdd f => Sys2Proof.Machine.execXaccAdd f s
  | .peerDrop f => Sys2Proof.Machine.execPeerDrop f s
  | .peerReply tag answer => Sys2Proof.Machine.execPeerReply tag answer s
  | .segmentWrite f bytes crc => Sys2Proof.Machine.execSegmentWrite f bytes crc s
  | .segmentRead f => Sys2Proof.Machine.execSegmentRead f s
  | .flitForward f => Sys2Proof.Machine.execFlitForward f s
  | .replyTimeout tag => Sys2Proof.Machine.execReplyTimeout tag s
  | .cxlMemRead addr len => Sys2Proof.Machine.execCxlMemRead addr len s
  | .cxlMemWrite addr bytes => Sys2Proof.Machine.execCxlMemWrite addr bytes s
  | .unsupportedRequest tag => Sys2Proof.Machine.execUnsupportedRequest tag s
  | .graphArm garmb => Sys2Proof.Machine.execGraphArm garmb s
  | .rearm => Sys2Proof.Machine.execRearm s
  | .registerWrite offset value => Sys2Proof.Machine.execRegisterWrite offset value s
  | .stop cmd => Sys2Proof.Machine.execStop cmd s
  | .restore cmd => Sys2Proof.Machine.execRestore cmd s
  | .resumeHalted cmd => Sys2Proof.Machine.execResumeHalted cmd s
  | .reclaim cmd => Sys2Proof.Machine.execReclaim cmd s
  | .kill cmd => Sys2Proof.Machine.execKill cmd s
  | .resumePartition cmd => Sys2Proof.Machine.execResumePartition cmd s
  | .killPartition cmd => Sys2Proof.Machine.execKillPartition cmd s
  | .snap cmd => Sys2Proof.Machine.execSnap cmd s
  | .slotEntryWrite cmd => Sys2Proof.Machine.execSlotEntryWrite cmd s
  | .pageRootWrite cmd => Sys2Proof.Machine.execPageRootWrite cmd s
  | .handlerRegisterWrite cmd => Sys2Proof.Machine.execHandlerRegisterWrite cmd s
  | .counterRead cmd => Sys2Proof.Machine.execCounterRead cmd s
  | .counterClear cmd => Sys2Proof.Machine.execCounterClear cmd s
  | .peerWindowWrite cmd => Sys2Proof.Machine.execPeerWindowWrite cmd s
  | .readback cmd => Sys2Proof.Machine.execReadback cmd s
  | .marginWindow cmd => Sys2Proof.Machine.execMarginWindow cmd s
  | .quote cmd => Sys2Proof.Machine.execQuote cmd s
  | .snapTrig => Sys2Proof.Machine.execSnapTrig s
  | .thermalStop => Sys2Proof.Machine.execThermalStop s
  | .moduleReset slots image => Sys2Proof.Machine.execModuleReset slots image s
  | .clusterUp cl => Sys2Proof.Machine.execClusterUp cl s
  | .hbmTrainingComplete => Sys2Proof.Machine.execHbmTrainingComplete s
  | .flitReplay f => Sys2Proof.Machine.execFlitReplay f s
  | .peerDenRequest f den rec gen q => Sys2Proof.Machine.execPeerDenRequest f den rec gen q s
  | .cxlCacheSnoop addr => Sys2Proof.Machine.execCxlCacheSnoop addr s
  | .firmwareImageLoad slot => Sys2Proof.Machine.execFirmwareImageLoad slot s
  | .migrationAbandon granule => Sys2Proof.Machine.execMigrationAbandon granule s

end Sys2Proof.Machine
end

