-- ==== Sys2Proof/Machine/Step.lean ====
section
/-! DEFINITION. One step of the module: the next action of the agenda, or the one that the arbiter proposes. -/

namespace Sys2Proof.Machine

/-- Whether an attempt has left the context where it was. -/
def stuck (s : State) (x : CtxId) (o : Out) : Bool :=
  match o with
  | .next t =>
    let c := s.ctx x
    let d := t.ctx x
    d.pc == c.pc && d.retired == c.retired && d.seq == c.seq && d.run == c.run && d.parked == c.parked && d.kv == c.kv
      && t.reqs.length == s.reqs.length
  | _ => false

/-- An instruction that waits, and would not without what is in flight, waits for an operand, an interlock entry or a window slot
(R329): its context is noted as stalled. -/
def noteStall (s : State) (x : CtxId) (i : Instr) (o : Out) : Out :=
  match o with
  | .next t =>
    let c := t.ctx x
    let clear := t.setCtx x (clearWay c)
    if stuck s x o && !stuck clear x (exec i clear) then .next (t.setCtx x { c with stalled := some (stallOf c) }) else o
  | _ => o

/-- A context's turn: a store that failed freezes it (R294); else its next word is fetched, decoded and executed. A context that
may not issue leaves the machine as it is. -/
def runContext (s : State) (x : CtxId) : Out :=
  if !validCtx x then .fault .noSuchContext
  else
    let s := { s with cur := x }
    if !runnable s x then .next s
    else if (s.ctx x).failed.isSome && !appending (s.ctx x) then .next (failAtBoundary s x)
    else
      match nextWord s x with
      | .wait s => .next s
      | .fault _ _ _ => exec .instructionFetch s
      | .ok w s =>
        match decodeFor s x w with
        | .ok i => noteStall s x i (exec i { s with ir := w })
        | .error e => exec (.illegalInstruction w (e == .reserved)) { s with ir := w }

/-- An action of the agenda: a context's turn, or a step of another agent. -/
def act (s : State) (a : Action) : Out :=
  match a with
  | .run x => runContext s x
  | .event i => exec i s

/-- An action that the arbiter proposes: contexts issue through their core's slot table (R330). -/
def propose (s : State) (a : Action) : Out :=
  match a with
  | .run x => execSlotTableCycle (coreOf x) s
  | .event i => exec i s

/-- One step (log entry 3): cycles pass, and the agenda's first action, or the arbiter's, is taken. -/
def step (s : State) : Host.Outcome State Fault Refusal :=
  match s.agenda with
  | a :: rest => act (tick { s with agenda := rest }) a
  | [] => propose (tick s.draw) (Config.arbiter s.fresh)

/-! ## Placing an instruction

A program comes to run from reset as log entry 53 says. Here one page of 64 GiB maps addresses to themselves, and context 0
executes the word placed at `fetchPc`. -/

def fetchPc : Nat := 0x10000

/-- The words of the page tables of partition 0, by physical address: root, level 4 and the leaf at level 3 (R363-R365). -/
def fetchTables : List (Nat × Word) := [(0x1000, 0x2001), (0x2000, 0x3001), (0x3000, 0xCFB)]

/-- A word and a zero word after it. -/
def putEntry (m : Memory) (p : Nat × Word) : Memory := m.put p.1 (leBytes 8 p.2.toNat ++ List.replicate 8 0)

/-- The state in which the next step fetches and executes the word `w` of `nbits` bits. -/
def State.withFetchWord (s : State) (nbits w : Nat) : State :=
  let c := s.ctx 0
  let p := s.part c.part
  let mem := (fetchTables.foldl putEntry s.mem).put fetchPc (leBytes 8 (w % 2 ^ nbits))
  let s := s.setCtx 0 { c with
    run := .running, stopping := false, parked := none, stalled := none, failed := none, pc := BitVec.ofNat 64 fetchPc, bodyPos := none, script := [] }
  let s := s.setPart c.part { p with pgroot := 0x1001, frozen := false }
  { s with
      agenda := [.run 0], mem := mem, lsz := max s.lsz (2 ^ 36), tlb := s.tlb.filter (fun e => e.part ≠ c.part)
      poison := s.poison.filter (fun x => x ≥ fetchPc / 32 + 1), stale := s.stale.filter (fun e => e.1 ≠ (0, fetchPc / 8)) }

end Sys2Proof.Machine
end

