-- ==== Sys2Proof/Safety.lean ====
section
/-! DEFINITION. What counts as a safe run: every step answers a next state, and the invariant that steps keep. -/

namespace Sys2Proof

open Machine

/-- The invariant of the machine's data: both memories, and every core's, in canonical form. -/
def MemInv (s : State) : Prop :=
  s.mem.wf = true ∧ s.hostMem.wf = true ∧ ∀ p ∈ s.cores, p.2.srf.wf = true ∧ p.2.spd.wf = true

/-- A state from which the next step goes on. -/
def Safe (s : State) : Prop := ∃ t, step s = .next t

end Sys2Proof
end

