-- ==== Sys2Proof/Certificates/Slice0/Obligations.lean ====
section
/-! DEFINITION. The statements for the provers, family by family, after the words they are stated in. -/

open Sys2Proof Sys2Proof.Machine

namespace Sys2Proof.Claims

/-! ## Words of the statements -/

/-- Every byte of local and of host memory reads as before. -/
def SameMemory (s t : State) : Prop := ∀ a, t.mem.read a = s.mem.read a ∧ t.hostMem.read a = s.hostMem.read a

/-- Nothing but the executing context differs: no byte of memory, no other context, no register of a core, a cluster, a
partition or the module. -/
def OnlyMe (s t : State) : Prop := t = s.setMe t.me ∧ (∀ x, x ≠ s.cur → t.ctx x = s.ctx x) ∧ SameMemory s t

/-- Of the executing context, nothing but scalar registers, predicates, the PC and RETIRED differs: no column, handle,
capability, accumulator or special register, nothing in flight. -/
def KeepsRest (s t : State) : Prop :=
  t.me = { s.me with s := t.me.s, f := t.me.f, pc := t.me.pc, retired := t.me.retired, script := t.me.script }

/-- No operand of the instruction is still being written (R39, R171, R297). -/
def Ready (s : State) (srcs : List Src) (regs : List SReg) : Prop := hazard s.me srcs regs = false

/-- No earlier writer of the predicates is on its way (R132). -/
def FlagsReady (s : State) (fs : List FReg) : Prop := ∀ f ∈ fs, busyF s.me f = false

/-- The scalar registers after a write of `v` to s[d]: s0 reads zero and discards the write (R13), the others keep their
values. -/
def Written (s t : State) (d : SReg) (v : Word) : Prop :=
  ∀ r, getS t.me r = if r = 0 then 0 else if r = d then v else getS s.me r

/-- The instruction answers a next state with s[d] := v, the PC moved on by 8 (R105) and nothing else changed. -/
def Gives (i : Instr) (s : State) (d : SReg) (v : Word) : Prop :=
  ∃ t, exec i s = .next t ∧ Written s t d v ∧ t.me.pc = s.me.pc + 8 ∧ t.me.retired = s.me.retired + 1 ∧ t.me.f = s.me.f
    ∧ KeepsRest s t ∧ OnlyMe s t

/-- The instruction answers a next state with f[d] := v, the PC moved on by 8 and nothing else changed. -/
def Sets (i : Instr) (s : State) (d : FReg) (v : Bool) : Prop :=
  ∃ t, exec i s = .next t ∧ (∀ g : FReg, t.me.f[g] = if g = d then v else s.me.f[g]) ∧ t.me.pc = s.me.pc + 8
    ∧ t.me.retired = s.me.retired + 1 ∧ t.me.s = s.me.s ∧ KeepsRest s t ∧ OnlyMe s t

/-- The instruction answers a next state with the PC at `pc`, and no register but the PC changed. -/
def Goes (i : Instr) (s : State) (pc : Word) : Prop :=
  ∃ t, exec i s = .next t ∧ t.me.pc = pc ∧ t.me.retired = s.me.retired + 1 ∧ t.me.s = s.me.s ∧ t.me.f = s.me.f
    ∧ KeepsRest s t ∧ OnlyMe s t

/-- The instruction answers a next state with s62 := PC + 8 and the PC at `pc`, and no other register changed. -/
def Links (i : Instr) (s : State) (pc : Word) : Prop :=
  ∃ t, exec i s = .next t ∧ t.me.pc = pc ∧ Written s t 62 (s.me.pc + 8) ∧ t.me.retired = s.me.retired + 1
    ∧ t.me.f = s.me.f ∧ KeepsRest s t ∧ OnlyMe s t

/-- The instruction retires without another effect. -/
def Retires (i : Instr) (s : State) : Prop := Goes i s (s.me.pc + 8)

/-- The instruction freezes its context with a cause and a fault address (R45, R122): with nothing held in flight, the context
enters FREEZE at the PC and the word it executes. -/
def Freezes (i : Instr) (s : State) (cause : Nat) (addr : Word) : Prop :=
  exec i s = .next (freeze s s.cur
    { cause := cause, elem := 0, addr := addr, pc := s.me.pc, word := s.ir, nc := true, async := false })

/-- The same where the rule names no fault address: any address (log entry 34), the counter of free values moving on. -/
def FreezesSomewhere (i : Instr) (s : State) (cause : Nat) : Prop :=
  ∃ addr, exec i s = .next (freeze s.draw s.cur
    { cause := cause, elem := 0, addr := addr, pc := s.me.pc, word := s.ir, nc := true, async := false })

/-- No fault of a column-class instruction is held (R45), no element group stands midway (R47) and nothing is owed to a resume
(R48): a fault at the executing instruction is taken at once. -/
def NothingHeld (s : State) : Prop := (∀ e ∈ s.me.window, e.held = []) ∧ freezeWaits s s.cur = false

/-! ### Column-class instructions -/

/-- A qualifier's list is read without a fault: the positions `l`, in the state `v`. The executing context, the others and every
byte of memory are as before; a spilled list may fill translations and cache lines. -/
def ListRead (s : State) (q : Qual) (l : Option (List Nat)) (v : State) : Prop :=
  (∀ k, listed s q k = k l v) ∧ v.cur = s.cur ∧ v.ir = s.ir ∧ v.me = s.me ∧ (∀ y, y ≠ s.cur → v.ctx y = s.ctx y) ∧ SameMemory s v

/-- A column-class instruction may issue: a place in the window (R43) and in the interlock table (R273), no scalar source or
destination still being written (R39, R171), the lengths of `cols` known, those of its column sources that it waits for (R41), its
qualifier's list written and read. -/
def MayIssue (s : State) (cols : List Col) (srcs : List Src) (regs : List SReg) (q : Qual) : Prop :=
  s.me.window.length < 8 ∧ s.me.locks.length < 16 ∧ hazard s.me srcs regs = false
    ∧ (∀ r ∈ cols, (capture s s.cur r).known = true) ∧ qualReady s.me q = true
    ∧ ∃ l v, ListRead s q l v

/-- The sources agree with the operation format: a column has it, and a scalar is broadcast only where R149 gives a broadcast
(R149, R152). -/
def Agree (s : State) (f : Fmt) (xs : List ColSrc) : Prop :=
  (∀ r ∈ colsOf xs, colFmt s.me r = f) ∧ (scsOf xs ≠ [] → hasBroadcast f = true)

/-- The destinations may be written: distinct (R112), not in stream mode (R155); one that is also a source, or in use by an
instruction in flight, keeps the width of its elements (R151; log entry 10). -/
def Writable (s : State) (ds : List (Col × Fmt)) (cols : List Col) : Prop :=
  (ds.map (·.1)).Nodup ∧ ∀ d ∈ ds, (getCol s.me d.1).strm = false ∧ (d.1 ∈ cols → sameWidth (colFmt s.me d.1) d.2 = true)
    ∧ (sameWidth (colFmt s.me d.1) d.2 = true ∨ inFlight s.me d.1 = false)

/-- What an instruction puts into the window: qualifier, engine, operation format, working length, destinations with the
formats they take, scalar destination, captured operands, policy word. -/
structure Queued where
  qual   : Qual := none
  engine : Engine := .lanes
  fmt    : Fmt
  len    : Nat
  dests  : List (Col × Fmt) := []
  sdest  : Option SReg := none
  a      : Operand := Operand.none
  b      : Operand := Operand.none
  c      : Operand := Operand.none
  pol    : BitVec 32 := 0
deriving DecidableEq, Repr

/-- The instruction enters the window (R42, R43, R150): the youngest entry holds it, its PC, its word and its captured
operands; each destination has the format given and, like every other column register, its old length; the PC moves past the
word (R20, R105); no scalar register, predicate, handle, capability, accumulator, plane or special register, no other context
and no byte of memory differs. Then a column memory access fixes its memory format (R172), and complete entries retire (R31). -/
def Enters (i : Instr) (s : State) (x : Queued) : Prop :=
  ∃ l v u e, ListRead s x.qual l v ∧ exec i s = .next (settle (prepare u s.cur s.me.window e).state s.cur)
    ∧ e.instr = i ∧ e.engine = x.engine ∧ e.pc = s.me.pc ∧ e.word = s.ir ∧ e.seq = s.me.seq ∧ e.fmt = x.fmt ∧ e.len = x.len
    ∧ e.qual = l ∧ e.opA = x.a.val ∧ e.opB = x.b.val ∧ e.opC = x.c.val ∧ e.srcA = x.a.col ∧ e.srcB = x.b.col
    ∧ e.srcC = x.c.col ∧ e.sdest = x.sdest ∧ e.pol = x.pol ∧ e.dests.map (fun d => (d.reg, d.fmt)) = x.dests
    ∧ u.me.window = s.me.window ++ [e] ∧ u.me.seq = s.me.seq + 1 ∧ u.me.pc = (pastWord s.me).pc
    ∧ (∀ d ∈ x.dests, colFmt u.me d.1 = d.2) ∧ (∀ r, r ∉ x.dests.map (·.1) → getCol u.me r = getCol s.me r)
    ∧ (∀ r, (getCol u.me r).len = (getCol s.me r).len)
    ∧ u.me = { s.me with c := u.me.c, p := u.me.p, window := u.me.window, seq := u.me.seq, locks := u.me.locks, pc := u.me.pc
                         script := u.me.script, bodyPos := u.me.bodyPos, lcnt := u.me.lcnt, sc := u.me.sc, vc := u.me.vc
                         sat := u.me.sat, awaited := false }
    ∧ (∀ y, y ≠ s.cur → u.ctx y = s.ctx y) ∧ SameMemory s u

/-- A column management instruction completes as it issues (R183): the context becomes `c`, past the word and counted. -/
def Manages (i : Instr) (s : State) (c : Ctx) : Prop :=
  ∃ t, exec i s = .next t ∧ t.me = pastWord { c with seq := s.me.seq + 1, retired := s.me.retired + 1 }
    ∧ (∀ x, x ≠ s.cur → t.ctx x = s.ctx x) ∧ SameMemory s t

/-- A policy word that a column load or store takes (R173): T1 and T2 and the scope in order, no release on a load, no acquire
on a store. -/
def PolicyOk (p : BitVec 32) (load : Bool) : Prop := polBad p = false ∧ (if load then polRel p else polAcq p) = false

/-- The destinations of a relational instruction (R155, R189): distinct, none among the sources, none the qualifier's list, none
in stream mode; one whose elements change width is not in use. -/
def RelTargets (s : State) (ds : List (Col × Fmt)) (cols : List Col) (q : Qual) : Prop :=
  (ds.map (·.1)).Nodup ∧ ∀ d ∈ ds, d.1 ∉ cols ∧ (getCol s.me d.1).strm = false
    ∧ (∀ n, q = some n → d.1 ≠ .p ⟨n.val, by omega⟩) ∧ (sameWidth (colFmt s.me d.1) d.2 = true ∨ inFlight s.me d.1 = false)

/-- An instruction on buffer entry `a` completes: the entry is `x`, every other entry of the table as in `u`, the context past the
instruction, which counts among the column-class ones (R20, R36, R116), with no register written, and no byte of memory differs
from `u`. -/
def Leaves (i : Instr) (s u : State) (a : BReg) (x : BufEntry) : Prop :=
  ∃ t, exec i s = .next t ∧ t.me = retireWord u.me ∧ SameMemory u t
    ∧ ∀ k b, getBuf t k b = if k = coreOf s.cur ∧ b = a then x else getBuf u k b

/-- A buffer entry that the executing partition may name (R240). -/
def OwnEntry (s : State) (e : BufEntry) : Prop := e.size = 0 ∨ e.part = s.me.part

/-- Bytes [at, at + n) of the local window in the present scratchpad or SRF (R217, R220). -/
def InPool (c : Core) (a n : Nat) : Prop :=
  windowBase ≤ a ∧ a < 2 ^ 57
    ∧ (a - windowBase + n ≤ poolSpd c.poolw * 65536
      ∨ 0x1000000 ≤ a - windowBase ∧ a - windowBase + n ≤ 0x1000000 + poolSrf c.poolw * 65536)

/-- The bytes of a copy's destination and source begin here (R248): in fill mode a, in drain mode b is an offset into the entry. -/
def copyDst (s : State) (a : Word) (buf : BufSide) : Nat :=
  if buf.mode = 1 then windowBase + 256 * (getBuf s (coreOf s.cur) buf.handle).base + a.toNat else a.toNat
def copySrc (s : State) (b : Word) (buf : BufSide) : Nat :=
  if buf.mode = 2 then windowBase + 256 * (getBuf s (coreOf s.cur) buf.handle).base + b.toNat else b.toNat

/-- What the issue checks of R249 and the binding of R305 ask of a copy of n bytes. -/
def CopyOk (s : State) (p : BitVec 32) (n a b : Word) (q : Binding) (buf : BufSide) : Prop :=
  let x := getBuf s (coreOf s.cur) buf.handle
  polBad p = false ∧ n.toNat % 32 = 0 ∧ a.toNat % 32 = 0 ∧ b.toNat % 32 = 0
    ∧ (buf.mode = 0 ∧ buf.handle = 0
      ∨ (buf.mode = 1 ∧ a.toNat + n.toNat ≤ 256 * x.size ∨ buf.mode = 2 ∧ b.toNat + n.toNat ≤ 256 * x.size)
        ∧ OwnEntry s x ∧ x.size ≠ 0 ∧ x.strm = false)
    ∧ (copyDst s a buf + n.toNat ≤ copySrc s b buf ∨ copySrc s b buf + n.toNat ≤ copyDst s a buf)
    ∧ (∀ k, q = some k → s.me.bb[k].toNat % 2 = 1)

/-- The weight formats of R258 with the scaling modes they allow, and the format of the accumulator. -/
def TileOk (f : Fmt) (mode : Nat) : Prop :=
  f ∈ [Fmt.e4m3, .e5m2, .e2m1, .f16, .bf16] ∧ mode ≤ 2 ∨ f = .i8 ∧ (mode = 0 ∨ mode = 2) ∨ f ∈ [Fmt.n8, .tern5] ∧ mode = 0
def tileTag (f : Fmt) (mode : Nat) : Fmt := if f ∈ [Fmt.i8, .n8, .tern5] ∧ mode = 0 then .i32 else .f32

/-- No byte of a core's scratchpad or SRF differs. -/
def SamePools (s t : State) : Prop := ∀ k, (t.core k).srf = (s.core k).srf ∧ (t.core k).spd = (s.core k).spd

/-- The byte at an address of a core's local window (R220). -/
def winByte (c : Core) (a : Nat) : Byte :=
  if a - windowBase < 0x1000000 then c.spd.read (a - windowBase) else c.srf.read (a - windowBase - 0x1000000)

/-- `n` bytes of the window, taken little-endian. -/
def winWord (c : Core) (a n : Nat) : Nat := ofLe ((List.range n).map (fun i => winByte c (a + i)))

/-- The effective address of R110 and R134. -/
def ea (s : State) (m : MemRef) (size : Nat) : Word :=
  readSrc s.me m.base + readSrc s.me m.idx + m.disp.signExtend 64 * BitVec.ofNat 64 size

/-- `n` bytes as a word, sign- or zero-extended. -/
def extended (signed : Bool) (n v : Nat) : Word :=
  if signed then (BitVec.ofNat (8 * n) v).signExtend 64 else (BitVec.ofNat (8 * n) v).setWidth 64

/-- The scalar loads of R134: size, and whether they sign-extend. -/
def loadForms (d : SReg) (m : MemRef) : List (Instr × Nat × Bool) :=
  [(.ldb d m, 1, true), (.ldbn d m, 1, false), (.ldh d m, 2, true), (.ldhn d m, 2, false), (.ldw d m, 4, true)
   , (.ldwn d m, 4, false), (.ldd d m, 8, false)]

/-- The scalar stores of R134 with their sizes. -/
def storeForms (d : SReg) (m : MemRef) : List (Instr × Nat) := [(.stb d m, 1), (.sth d m, 2), (.stw d m, 4), (.std d m, 8)]

/-- The atomics of R139 with the new value each stores: of the old value, of v, and for `acas` of s[d+1]. -/
def atomForms (d : SReg) (m : MemRef) (w32 : Bool) : List (Instr × ({w : Nat} → BitVec w → BitVec w → BitVec w → BitVec w)) :=
  [(.aadd d m w32, fun o v _ => o + v), (.aand d m w32, fun o v _ => o &&& v), (.aor d m w32, fun o v _ => o ||| v)
   , (.axor d m w32, fun o v _ => o ^^^ v), (.amin d m w32, fun o v _ => if o.toInt ≤ v.toInt then o else v)
   , (.amax d m w32, fun o v _ => if v.toInt ≤ o.toInt then o else v), (.aminn d m w32, fun o v _ => if o.toNat ≤ v.toNat then o else v)
   , (.amaxn d m w32, fun o v _ => if v.toNat ≤ o.toNat then o else v), (.axchg d m w32, fun _ v _ => v)
   , (.acas d m w32, fun o v n => if o = v then n else o)]

/-- The machine after a load, from the state `u` in which its address has been translated: s[d] := v, the PC moved on by 8, no
other register, context, byte of memory or of the pools changed. -/
def Loads (i : Instr) (s u : State) (d : SReg) (v : Word) : Prop :=
  ∃ t, exec i s = .next t ∧ Written u t d v ∧ t.me.pc = u.me.pc + 8 ∧ t.me.retired = u.me.retired + 1 ∧ t.me.f = u.me.f
    ∧ KeepsRest u t ∧ (∀ x, x ≠ u.cur → t.ctx x = u.ctx x) ∧ SameMemory u t ∧ SamePools u t

/-- Of all the pools, the bytes `bs` at `a` of the core's window were written, and nothing else. -/
def StoredAt (s t : State) (a : Nat) (bs : List Byte) : Prop :=
  ∀ k b, windowBase ≤ b → winByte (t.core k) b =
    if k = coreOf s.cur ∧ a ≤ b ∧ b < a + bs.length then bs[b - a]?.getD 0 else winByte (s.core k) b

/-- Every earlier access of the context is performed, and no scalar store of it is on its way. -/
def Quiet (s : State) : Prop := enginesQuiet s s.cur = true ∧ s.me.stores = []

/-- A release performed at once: every earlier access performed, no checked group. -/
def ReleaseNow (s : State) (p : BitVec 32) : Prop := polRel p = true → Quiet s ∧ s.me.chk = false

/-- A release that its home holds back until every earlier access is performed (R279, R297): from the state `u` in which its operands
have been checked it has left the core, with the stores before it (R294), no byte of memory and no other context differs yet, and the
context goes on as `c`. -/
def PostedFrom (i : Instr) (s u : State) (c : Ctx) : Prop :=
  ∃ t p, exec i s = .next t ∧ p.seq = u.me.seq ∧ p.instr = i ∧ p.clock = u.me.vc
    ∧ t.me = { c with posted := u.me.posted ++ [p], stores := u.me.stores.map (fun x => { x with released := true }) }
    ∧ (∀ x, x ≠ u.cur → t.ctx x = u.ctx x) ∧ SameMemory u t ∧ SamePools u t

/-- The same where the check of the operands changes nothing. -/
def Posted (i : Instr) (s : State) (c : Ctx) : Prop := PostedFrom i s s c

/-- Of the n bytes at `a` of the window no sector carries the mark of a release over a failed store (R294). -/
def Unmarked (s : State) (a n : Nat) : Prop :=
  ∀ q off, poolAt (s.core (coreOf s.cur)) (a - windowBase) n = some (q, off) →
    ∀ x ∈ sectorsOf (placeKey (coreOf s.cur) (.pool q off)) n, s.syncBad.contains x = false

/-- The bytes a scalar load reads at a physical address: of the scalar L1's line where it holds one, else of memory (R221). -/
def lineBytes (s : State) (pa n : Nat) : List Byte :=
  match l1Find s (coreOf s.cur) pa n with
  | some l => (l.bytes.drop (pa % 128)).take n
  | none => s.bytesPA pa n

/-- The instruction answers a next state with the executing context `c`; every other context, every byte of memory and of the
pools is as in `u`. -/
def Ends (i : Instr) (s u : State) (c : Ctx) : Prop :=
  ∃ t, exec i s = .next t ∧ t.me = c ∧ (∀ x, x ≠ s.cur → t.ctx x = u.ctx x) ∧ SameMemory u t ∧ SamePools u t

/-- The fields of a handle (R378). -/
def Describes (h : Handle) (kind : Nat) (prx : Bool) (e : Nat) (mod : BitVec 10) (den : ClusterId) (n : Nat) (gen : BitVec 17)
    (base len fmt : Nat) : Prop :=
  hKind h = kind ∧ hPrx h = prx ∧ hExp h = e ∧ hMod h = mod ∧ hDen h = den ∧ hRec h = n ∧ hGen h = gen ∧ hBase h = base
    ∧ hLen h = len ∧ hFmtCode h = fmt ∧ isLive h = false

/-- A den table of a cluster without a free record. -/
def DenFull (s : State) (cl : ClusterId) : Prop := ∀ n < denSize s, (denRecord s cl n).live = true

/-- Of all den records, record n of a cluster became `r`, and nothing else changed. -/
def RecordSet (s t : State) (cl : ClusterId) (n : Nat) (r : DenRecord) : Prop :=
  ∀ k m, denRecord t k m = if k = cl ∧ m = n then r else denRecord s k m

/-- A tensor is made from the state `u`: a free record of the issuing cluster's den names the partition, KIND, FIN and a
generation, and h[d] the whole weight, the record and the data; with the den table full nothing is written (R381). -/
def MakesTensor (i : Instr) (s u : State) (d : HReg) (kind base len : Nat) (fmt : Fmt) (fin : Word) : Prop :=
  let cl := clusterOf s.cur
  (DenFull u cl → Ends i s u (retire u.me))
  ∧ (¬ DenFull u cl → ∃ n h t, n < denSize u ∧ (denRecord u cl n).live = false
      ∧ Describes h kind false 31 (moduleNo u) cl n (denRecord u cl n).gen base len fmt.code
      ∧ exec i s = .next t ∧ t.me = retire { u.me with h := u.me.h.set d h } ∧ (∀ x, x ≠ s.cur → t.ctx x = u.ctx x)
      ∧ SameMemory u t ∧ SamePools u t
      ∧ RecordSet u t cl n { live := true, part := u.me.part, kind := kind, prx := false, ret := 0, fin := fin
                             gen := (denRecord u cl n).gen, held := none, poison := false, clock := [] })

/-- The handle at an address of the window (R378). -/
def winHandle (c : Core) (a : Nat) : Handle := handleOfBytes ((List.range 32).map (fun i => winByte c (a + i)))

/-- The memories of a core's pool are in their canonical form. -/
def PoolForm (c : Core) : Prop := c.spd.wf = true ∧ c.srf.wf = true

/-- One drop, or `hfin`, more on its way to a den; the other clusters as before. -/
def DropAdded (s t : State) (cl : ClusterId) (x : Drop) : Prop :=
  ∀ k, (t.cluster k).drops = if k = cl then (s.cluster k).drops ++ [x] else (s.cluster k).drops

/-- A drop of a context: its partition, the poison of a failed store and its clock go with it (R288, R294, R383). -/
def dropOf (c : Ctx) (h : Handle) (fin : Option Word) : Drop :=
  { handle := h, part := c.part, bad := c.failed.isSome, clock := if c.chk then c.vc else [], fin := fin }

/-- A handle names a live record of this module, of its own generation and of the partition (R379). -/
def Names (s : State) (h : Handle) (r : DenRecord) : Prop :=
  hMod h = moduleNo s ∧ r = denRecord s (hDen h) (hRec h) ∧ r.live = true ∧ r.gen = hGen h ∧ r.part = s.me.part

/-- An aligned address in the scratchpad part of a core's local window, where a barrier object may lie (R299, R302). -/
def BarAt (c : Core) (a : Nat) : Prop :=
  a % 32 = 0 ∧ windowBase ≤ a ∧ a < 2 ^ 57 ∧ a - windowBase + 32 ≤ poolSpd c.poolw * 65536 ∧ PoolForm c

/-- The barrier object there (R299). -/
def winBar (c : Core) (a : Nat) : Bar := Bar.ofNat (winWord c a 32)

/-- A context of the executing core is parked on the object at `a`, on generation g, and its `bar.wait` names f. -/
def ParkedOn (s : State) (x : CtxId) (a : Nat) (g : BitVec 32) (f : FReg) : Prop :=
  coreOf x = coreOf s.cur ∧ ∃ ad, (s.ctx x).parked = some (.barrier (a - windowBase) true ad g f)

/-- The `bar.wait` of a parked context returns: f := v, and the context goes on after it. -/
def Returned (s t : State) (x : CtxId) (f : FReg) (v : Bool) : Prop :=
  (t.ctx x).parked = none ∧ (t.ctx x).f = (s.ctx x).f.set f v ∧ (t.ctx x).pc = (s.ctx x).pc + 8
    ∧ (t.ctx x).retired = (s.ctx x).retired + 1 ∧ (t.ctx x).s = (s.ctx x).s ∧ (t.ctx x).run = (s.ctx x).run

/-- From `u`, the instruction makes the executing context `c`, writes the barrier object `b` at `a` and nothing else in memory. -/
def BarPut (i : Instr) (s u t : State) (c : Ctx) (a : Nat) (b : Bar) : Prop :=
  exec i s = .next t ∧ t.me = c ∧ SameMemory u t ∧ StoredAt u t a (leBytes 32 b.toNat)

/-- Nothing of the context in flight touches the object at `a`: no older access or copy is on its way to it, no earlier operation
there is held back, and no scalar store to its bytes is pending (R272, R274, R280, R300). -/
def ObjectFree (s : State) (a : Word) : Prop :=
  (∀ w, objectWaits s.me a w = false) ∧ storeHit s.me a.toNat (a.toNat + 32) = false

/-- A queue handle that passes the checks of R306. -/
def GoodQueue (s : State) (h : Word) : Prop := h.toNat % 2 ^ 23 = 0 ∧ qCluster h ≤ 95 ∧ qGen h ≠ 0 ∧ qPart h = s.me.part

/-- Of all hardware queues, q of core k became `x`. -/
def QueueSet (s t : State) (k : CoreId) (q : BitVec 8) (x : HwQueue) : Prop :=
  ∀ l r, queueOf t l r = if l = k ∧ r = q then x else queueOf s l r

/-- No byte of local or host memory differs outside the save areas listed (R359). -/
def OnlyAreas (as : List SaveArea) (s t : State) : Prop :=
  ∀ a, ((∀ r ∈ as, ¬ (r.base ≤ a ∧ a < r.base + areaSize)) → t.mem.read a = s.mem.read a)
    ∧ ((∀ r ∈ as, ¬ (r.base % 2 ^ 51 ≤ a ∧ a < r.base % 2 ^ 51 + areaSize)) → t.hostMem.read a = s.hostMem.read a)

/-- What a snapshot holds: every context, the SRF of every core and its slot table (R412, R413). -/
def snapshotOf (s : State) : Snapshot :=
  { ctxs := s.ctxs, srfs := s.cores.map (fun p => (p.1, p.2.srf)), slots := s.cores.map (fun p => (p.1, p.2.slots)) }

/-- A handle of a queue that is gone (R308). -/
def Gone (x : HwQueue) (h : Word) : Prop := x.st = .free ∨ x.gen ≠ qGen h

/-- What a controller makes of an offered entry: the reason code, and the queue (R308). -/
def Offered (x : HwQueue) (h lo hi : Word) (bad : Bool) (r : Nat) (y : HwQueue) : Prop :=
  (Gone x h → r = 3 ∧ y = x) ∧ (¬ Gone x h → 64 ≤ x.entries.length → r = 2 ∧ y = x)
    ∧ (¬ Gone x h → x.entries.length < 64 →
        r = (if x.st = .swapped then 1 else 0) ∧ y = { x with entries := x.entries ++ [(lo, hi, bad)] })

/-- Of local and host memory, the eight bytes at each of the physical addresses listed became the word beside it, and no word apart
from these changed. -/
def WordsPut (s t : State) (ws : List (Nat × Word)) : Prop :=
  (∀ p ∈ ws, t.wordPA p.1 = p.2)
    ∧ ∀ a, a + 8 ≤ 2 ^ 52 → (∀ p ∈ ws, a + 8 ≤ p.1 ∨ p.1 + 8 ≤ a) → t.wordPA a = s.wordPA a

/-- Capability `a` of the executing context names the frozen context at position x (R339). -/
def NamesCtx (s : State) (a : CapReg) (k : Capability) (x : CtxId) : Prop :=
  s.me.cap[a] = some k ∧ findNamed s k = some (.resident x) ∧ (s.ctx x).run = .frozen ∧ capOf (s.ctx x) = k ∧ x ≠ s.cur

/-- The instruction resumes the context at x as `c`, at its PC: it runs, its record is gone and no capability of the executing
context names it; that context goes on (R344). -/
def Resumes (i : Instr) (s : State) (k : Capability) (x : CtxId) (c : Ctx) : Prop :=
  ∃ t, exec i s = .next t ∧ (t.ctx x).run = .running ∧ (t.ctx x).record = [] ∧ (t.ctx x).pc = c.pc ∧ (t.ctx x).s = c.s
    ∧ (t.ctx x).f = c.f ∧ (t.ctx x).h = c.h ∧ (t.ctx x).window = c.window ∧ t.me.pc = s.me.pc + 8
    ∧ t.me.retired = s.me.retired + 1 ∧ t.me.s = s.me.s ∧ ∀ j : CapReg, t.me.cap[j] ≠ some k

/-- Special registers that a read answers at once, with their values (R119). -/
def srValues (s : State) : List (Nat × Word) :=
  let c := s.me
  [(0x000, s.cur.setWidth 64), (0x002, c.part.setWidth 64), (0x003, c.stage.setWidth 64), (0x008, c.vl.setWidth 64)
   , (0x00A, c.slip.setWidth 64), (0x00B, c.lcnt.setWidth 64), (0x016, c.sc.setWidth 64), (0x018, c.spb), (0x019, c.spq)
   , (0x020, c.pold.setWidth 64), (0x021, c.dln.setWidth 64), (0x031, (s.core (coreOf s.cur)).poolw.setWidth 64)
   , (0x040, s.cycle), (0x041, c.retired)]

/-- Writes of special registers that R17, R142, R305 and R374 accept: number, value, the context after it. -/
def SrWritten (s : State) (n : Nat) (v : Word) (c : Ctx) : Prop :=
  n = 0x008 ∧ v.toNat < 2 ^ 32 ∧ c = { s.me with vl := v.setWidth 32 }
    ∨ n = 0x00A ∧ v.toNat ≤ 7 ∧ s.me.window = [] ∧ c = { s.me with slip := v.setWidth 3 }
    ∨ n = 0x018 ∧ v.toNat % 4096 = 0 ∧ v.toNat < 2 ^ 57 ∧ s.me.window = [] ∧ splOf s.me = 0 ∧ c = { s.me with spb := v }
    ∨ n = 0x019 ∧ s.me.window = [] ∧ c = { s.me with spq := BitVec.ofNat 64 (v.toNat / 4096 * 4096) }
    ∨ n = 0x020 ∧ v.toNat < 2 ^ 32 ∧ polBad (v.setWidth 32) = false ∧ c = { s.me with pold := v.setWidth 32 }
    ∨ n = 0x021 ∧ v.toNat < 2 ^ 32 ∧ c = { s.me with dln := v.setWidth 32 }
    ∨ ∃ h : n - 0x050 < 15, 0x050 ≤ n ∧ v.toNat < 2 ^ 57 ∧ v.toNat / 2 % 16 = 0 ∧ c = { s.me with bb := s.me.bb.set (n - 0x050) v h }

/-- Values that R17, R142, R305 and R374 refuse. -/
def SrRefused (n : Nat) (v : Word) : Prop :=
  (n = 0x008 ∨ n = 0x021) ∧ v.toNat ≥ 2 ^ 32 ∨ n = 0x00A ∧ v.toNat > 7 ∨ n = 0x018 ∧ (v.toNat % 4096 ≠ 0 ∨ v.toNat ≥ 2 ^ 57)
    ∨ n = 0x020 ∧ (v.toNat ≥ 2 ^ 32 ∨ polBad (v.setWidth 32) = true)
    ∨ 0x050 ≤ n ∧ n ≤ 0x05E ∧ (v.toNat ≥ 2 ^ 57 ∨ v.toNat / 2 % 16 ≠ 0)

/-- A context position is idle again: no task, nothing in flight, no handle, no row group (R345). -/
def Ended (c : Ctx) : Prop := c.run = .idle ∧ c.node = none ∧ c.window = [] ∧ c.gmask = 0 ∧ ∀ r : HReg, c.h[r] = Handle.empty

/-- The TLB entries that `gone` names left the executing partition's translations; every other entry stays (R370). -/
def Invalidated (i : Instr) (s u : State) (gone : TlbEntry → Prop) : Prop :=
  ∃ t, exec i s = .next t ∧ t.me = retire u.me ∧ ∀ e, e ∈ t.tlb ↔ e ∈ s.tlb ∧ ¬ (e.part = s.me.part ∧ gone e)

/-- Context x runs with one instruction in flight, which holds no fault, and nothing older that it could wait for. -/
def Alone (s : State) (x : CtxId) (e : Entry) : Prop :=
  (s.ctx x).run = .running ∧ (s.ctx x).stopping = false ∧ (s.ctx x).window = [e] ∧ e.held = [] ∧ (s.ctx x).stores = []
    ∧ (∀ l ∈ (s.ctx x).locks, l.seq = e.seq) ∧ e.qual = none ∧ e.late = [] ∧ e.work = [] ∧ (s.ctx x).chk = false ∧ e.pol = 0
    ∧ (s.core (coreOf x)).srf.wf = true

/-- A column operand of format f read from register r. -/
def Reads (o : Option ColOperand) (r : Col) (f : Fmt) (n : Nat) : Prop :=
  o = some { reg := r, fmt := f, len := n, stream := false, known := true }

/-- Elements below n of register r lie in its window in the SRF (R25), each in bytes of its own (R53). -/
def InSrf (s : State) (x : CtxId) (r : Col) (f : Fmt) (n : Nat) : Prop := packed f = false ∧ n ≤ (getCol (s.ctx x) r).cap

/-- The bytes of elements below n of a source are those of a destination, or none of them (R184). -/
def NoOverlap (s : State) (x : CtxId) (d r : Col) (f : Fmt) (n : Nat) : Prop :=
  let a := 256 * (getCol (s.ctx x) d).base
  let b := 256 * (getCol (s.ctx x) r).base
  d = r ∨ a + n * elemBytes f ≤ b ∨ b + n * elemBytes f ≤ a

/-- The event ends in a state in which elements [lo, lo + vs.length) of register r of context x are `vs`, its elements below n
otherwise as before; no byte of memory and no other context differs. -/
def Produces (i : Instr) (s : State) (x : CtxId) (r : Col) (f : Fmt) (lo : Nat) (vs : List Nat) (n : Nat) : Prop :=
  ∃ t, exec i s = .next t ∧ SameMemory s t ∧ (∀ y, y ≠ x → t.ctx y = s.ctx y)
    ∧ ∀ k, k < n → colElem t x r f k = if lo ≤ k ∧ k < lo + vs.length then vs[k - lo]?.getD 0 else colElem s x r f k

/-- R157 on two elements X and Y of an integer format of w bits. -/
def laneForms (d : CReg) (a b : Col) (f : Fmt) (X Y : Nat) : List (Instr × Nat) :=
  let w := fmtBits f
  let A := intOf f X
  let B := intOf f Y
  [(.vadd d (.col a) (.col b) false none, (X + Y) % 2 ^ w), (.vsub d (.col a) (.col b) false none, (X + 2 ^ w - Y) % 2 ^ w)
   , (.vmul d (.col a) (.col b) false none, X * Y % 2 ^ w)
   , (.vadd d (.col a) (.col b) true none, wrapTo w (max (intMin f) (min (intMax f) (A + B))))
   , (.vmin d (.col a) (.col b) none, if A ≤ B then X else Y), (.vmax d (.col a) (.col b) none, if B ≤ A then X else Y)
   , (.vand d (.col a) (.col b) none, X &&& Y), (.vor d (.col a) (.col b) none, X ||| Y), (.vxor d (.col a) (.col b) none, X ^^^ Y)
   , (.vshl d (.col a) (.col b) none, X * 2 ^ (Y % w) % 2 ^ w), (.vshr d (.col a) (.col b) none, X / 2 ^ (Y % w))
   , (.vmov d (.col a) none, X)]


/-- A stop that a reply keeps waiting: one of its contexts has asked, and no answer has come (R356, R357). -/
def Awaited (r : StopReq) (q : Request) : Prop := q.ctx ∈ r.targets ∧ q.kind ≠ .drop ∧ q.st = .waiting

/-- The area holds the context as it stood at its position x (R359); a copy will transfer its segments from VS upward again (R250). -/
def Saves (a : SaveArea) (x : CtxId) (c : Ctx) : Prop :=
  a.ctx = x ∧ a.part = c.part ∧ a.ret = true ∧ a.halt = c.halt
    ∧ a.st = (match c.run with | .frozen => .frozen | .halted => .halted | .running | .idle => .stopped)
    ∧ a.saved.run = c.run ∧ a.saved.pc = c.pc ∧ a.saved.s = c.s ∧ a.saved.f = c.f ∧ a.saved.c = c.c ∧ a.saved.p = c.p
    ∧ a.saved.h = c.h ∧ a.saved.cap = c.cap ∧ a.saved.bank = c.bank ∧ a.saved.acc = c.acc
    ∧ a.saved.window = c.window.map (fun e => { e with late := if e.engine = .stream then [] else e.late })
    ∧ a.saved.locks = c.locks ∧ a.saved.members = c.members ∧ a.saved.record = c.record ∧ a.saved.node = c.node

/-- What a node's words say of a task that takes no bank, no initial values, no copy and no checked group. -/
def PlainTask (ws : List Word) : Prop := wd ws 2 = 0 ∧ wd ws 3 = 0 ∧ nKind (wd ws 0) = 0 ∧ nChk (wd ws 0) = false

/-- The task of entry `r` has launched at position x: at ENTRY, in its partition and stage, with its leases, every register as after
reset (R18, R317). -/
def Launched (s t : State) (x : CtxId) (r : Machine.Ready) (ws : List Word) : Prop :=
  let w := wd ws 0
  t.ctx x = { Ctx.reset with run := .running, node := some r.node, part := r.part, stage := nStage w, pc := wd ws 1
                             leases := if nLeases w = 0 then none else some (leasesOf ws) }
  ∧ ∀ y, y ≠ x → t.ctx y = s.ctx y

/-- Core k has admitted just the contexts that could issue, and none waits (R329). -/
def AllAdmitted (s : State) (k : CoreId) : Prop :=
  (s.core k).waiting = [] ∧ (s.core k).yields = [] ∧ (∀ a ∈ (s.core k).admitted, a.1 ∈ ctxsOf k ∧ runnable s a.1 = true)
    ∧ (∀ x ∈ ctxsOf k, runnable s x = true → ∃ a ∈ (s.core k).admitted, a.1 = x)
    ∧ ∀ p : PartId, ((s.core k).admitted.filter (fun a => (s.ctx a.1).part = p)).length ≤ shareOf s k p

/-- The contexts that could issue of a partition on a core. -/
def Able (s : State) (k : CoreId) (p : PartId) (x : CtxId) : Prop := x ∈ ctxsOf k ∧ runnable s x = true ∧ (s.ctx x).part = p


/-- Of all memory, the bytes at physical address `pa` became `bs`: in host memory where bit 51 is set (R394), else in local memory. -/
def MemPut (s t : State) (pa : Nat) (bs : List Byte) : Prop :=
  ∀ a, t.mem.read a = (if pa < 2 ^ 51 ∧ pa ≤ a ∧ a < pa + bs.length then bs[a - pa]?.getD 0 else s.mem.read a)
    ∧ t.hostMem.read a = (if 2 ^ 51 ≤ pa ∧ pa - 2 ^ 51 ≤ a ∧ a < pa - 2 ^ 51 + bs.length then bs[a - (pa - 2 ^ 51)]?.getD 0
        else s.hostMem.read a)

/-- Memory in its canonical form. -/
def MemForm (s : State) : Prop := s.mem.wf = true ∧ s.hostMem.wf = true

/-- The drop names a record of its unit that is in use, of its generation and its partition (R384). -/
def Takes (s : State) (cl : ClusterId) (d : Drop) (r : DenRecord) : Prop :=
  hDen d.handle = cl ∧ r = denRecord s cl (hRec d.handle) ∧ r.live = true ∧ r.gen = hGen d.handle ∧ r.part = d.part

/-- A partition's handle-error counter has gone up, and no record of a den has changed (R384). -/
def HandleError (s t : State) (p : PartId) : Prop :=
  (t.part p).hndErr = satInc (s.part p).hndErr ∧ (∀ q, q ≠ p → t.part q = s.part q) ∧ ∀ cl n, denRecord t cl n = denRecord s cl n

/-- A flit of a type that this module is to perform, for the first time (R403, R407). -/
def FreshFlit (s : State) (f : Flit) (type : Nat) : Prop :=
  f.type.toNat = type ∧ f.dest = moduleNo s ∧ flitOk f = true ∧ ∀ p ∈ s.served, p.1 ≠ (f.src, f.tag)

/-- A valid window of the partition and the source holds n bytes at the flit's address, for a read or a write (R406). -/
def Allowed (s : State) (f : Flit) (n : Nat) (write : Bool) : Prop :=
  ∃ i : Fin 16, let w := s.windows[i]
    let v := w.val.toNat
    v % 2 = 1 ∧ (write = true → v / 2 % 2 = 1) ∧ v / 2 ^ 16 % 2 ^ 4 = f.part.toNat ∧ v / 2 ^ 30 % 2 ^ 10 ≤ f.src.toNat
      ∧ f.src.toNat ≤ v / 2 ^ 20 % 2 ^ 10 ∧ w.base.toNat * 4096 ≤ f.addr.toNat
      ∧ f.addr.toNat + n ≤ (w.base.toNat + v / 2 ^ 40) * 4096

/-- The request is performed once: its answer is kept under SRC and TAG and sent as a TYPE 6 flit to its source (R403, R407). -/
def Replied (s t : State) (f : Flit) (a : PeerAnswer) : Prop :=
  t.served = s.served ++ [((f.src, f.tag), a)]
    ∧ ∃ r, t.outbox = s.outbox ++ [r] ∧ r = replyFlit s f a ∧ r.type = 6 ∧ r.dest = f.src ∧ r.src = moduleNo s ∧ r.tag = f.tag
      ∧ flitOk r = true ∧ ∀ bs, a = .data bs → r.inline = bs

/-- The event answers the request and changes no byte of memory and no context. -/
def AnswersOnly (i : Instr) (s : State) (f : Flit) (a : PeerAnswer) : Prop :=
  ∃ t, exec i s = .next t ∧ Replied s t f a ∧ SameMemory s t ∧ ∀ x, t.ctx x = s.ctx x

/-- The event writes `bs` at the flit's address and answers. -/
def AnswersWrite (i : Instr) (s : State) (f : Flit) (bs : List Byte) (a : PeerAnswer) : Prop :=
  ∃ t, exec i s = .next t ∧ Replied s t f a ∧ MemPut s t f.addr.toNat bs ∧ ∀ x, t.ctx x = s.ctx x


/-- The commands with their codes (R401). -/
def IsCommand (c : Word) (i : Instr) (op : Nat) : Prop :=
  (i, op) ∈ [(.stop c, 0x01), (.restore c, 0x02), (.resumeHalted c, 0x03), (.reclaim c, 0x04), (.kill c, 0x05), (.resumePartition c, 0x06)
    , (.killPartition c, 0x07), (.snap c, 0x08), (.slotEntryWrite c, 0x09), (.pageRootWrite c, 0x0A), (.handlerRegisterWrite c, 0x0B)
    , (.counterRead c, 0x0C), (.counterClear c, 0x0D), (.peerWindowWrite c, 0x0E), (.readback c, 0x0F), (.marginWindow c, 0x10)
    , (.quote c, 0x11)]

/-- A write of MCMD starts command `op`: GO is 1, no reserved bit is set and no command is running (R400, R401). -/
def Starts (s : State) (c : Word) (op : Nat) : Prop :=
  c.toNat / 2 ^ 56 = op ∧ c.toNat % 2 = 1 ∧ c.toNat / 2 % 2 ^ 36 = 0 ∧ s.mstat.toNat / 2 ^ 63 = 0

/-- The command has completed: BUSY clear, RESULT r, vector 0 signalled; MCMD keeps the command, its GO and its reserved bits reading as
zero (R2, R400). -/
def Complete (t : State) (c : Word) (r : Nat) : Prop :=
  t.mstat.toNat = r * 2 ^ 48 ∧ (0 : Fin 32) ∈ t.msix ∧ t.mcmd.toNat = c.toNat / 2 ^ 37 * 2 ^ 37

/-- The command completes with RESULT r and does nothing else. -/
def Refused (i : Instr) (s : State) (c : Word) (r : Nat) : Prop :=
  ∃ t, exec i s = .next t ∧ Complete t c r ∧ t = { s with mcmd := t.mcmd, mstat := t.mstat, msix := t.msix }

/-- The command completes with RESULT 0; no byte of memory and no context differs. -/
def Performs (i : Instr) (s : State) (c : Word) (more : State → Prop) : Prop :=
  ∃ t, exec i s = .next t ∧ Complete t c 0 ∧ SameMemory s t ∧ (∀ x, t.ctx x = s.ctx x) ∧ more t

/-- Of all partitions, `p` became `x`. -/
def PartSet (s t : State) (p : PartId) (x : Partition) : Prop := t.part p = x ∧ ∀ q, q ≠ p → t.part q = s.part q

/-- The contexts that a stop of a scope names (R354, R400). -/
def InScope (s : State) (c : Word) (x : CtxId) : Prop :=
  let y := c.toNat / 2 ^ 40 % 2 ^ 12
  match c.toNat / 2 ^ 37 % 8 with
  | 0 => x.toNat = y
  | 1 => x.toNat / 8 = y / 8
  | 2 => x.toNat / 32 = y / 32
  | 3 => (s.ctx x).part.toNat = c.toNat / 2 ^ 52 % 16
  | 4 => True
  | _ => False

/-- The restored context at position y stands as it was saved (R360, R361). -/
def Restored (a : SaveArea) (t : State) (y : CtxId) (run : Run) : Prop :=
  (t.ctx y).run = run ∧ (t.ctx y).part = a.saved.part ∧ (t.ctx y).pc = a.saved.pc ∧ (t.ctx y).s = a.saved.s ∧ (t.ctx y).f = a.saved.f
    ∧ (t.ctx y).c = a.saved.c ∧ (t.ctx y).p = a.saved.p ∧ (t.ctx y).h = a.saved.h ∧ (t.ctx y).cap = a.saved.cap
    ∧ (t.ctx y).window = a.saved.window ∧ (t.ctx y).record = a.saved.record ∧ (t.ctx y).node = a.saved.node


/-- The contexts that hold a task and that no stop has reached, and the save areas for them (R354). -/
def Holding (s : State) (x : CtxId) : Prop := (s.ctx x).run ≠ .idle ∧ (s.ctx x).stopping = false
def EnoughAreas (s : State) : Prop :=
  (s.ctxs.map (·.1)).Nodup
    ∧ ∀ p, (s.ctxs.filter (fun e => e.2.run ≠ .idle && e.2.stopping == false && e.2.part = p)).length ≤ areasFree s p

/-- Every context is as before, but one that held a task executes its wait again (log entry 50). -/
def Paused (s t : State) (among : CtxId → Prop) : Prop :=
  ∀ x, (Holding s x ∧ among x → t.ctx x = { s.ctx x with parked := none }) ∧ (¬ (Holding s x ∧ among x) → t.ctx x = s.ctx x)

/-- A firmware slot of flash that verifies (R409). -/
def Verifies (slots : List FirmwareSlot) (n : Nat) (x : FirmwareSlot) : Prop :=
  slots[n]? = some x ∧ Config.signatureOk x.image x.signature = true

/-- What the module is after a reset in which slot `run` runs, `image` is in force and the phase is `ph` (R409, R410; log entry 52): local
memory, host memory and flash stand, every other piece of state is as right after reset. -/
def ResetTo (s t : State) (slots : List FirmwareSlot) (ph : BitVec 4) (run : Option Nat) (image : Option ImageData) (mstat : Word) : Prop :=
  t = { State.reset with fresh := t.fresh, mem := s.mem, hostMem := s.hostMem, poison := s.poison, leaf := s.leaf
                         boots := s.boots + 1, firmware := slots.take 2, devKey := t.devKey, phase := ph, running := run
                         image := image, mstat := mstat, msix := [2], lsz := t.lsz, cores := t.cores }


/-- The decode for a user context that is attached to a row group (R121). -/
def decodeUser (w : Word) : Except BadWord Instr := decode { handler := false, attached := true } w

/-- What a turn of context x makes of its instruction's outcome: the same, but that a context which waits may be noted as stalled
(R329, log entry 44). -/
def Ran (x : CtxId) (o turn : Out) : Prop :=
  turn = o ∨ ∃ t y, o = .next t ∧ turn = .next (t.setCtx x { t.ctx x with stalled := some y })

end Sys2Proof.Claims

open Sys2Proof.Claims

/-! ## Scalar instructions, major ops 0x01 to 0x05 -/

/-- R126: the integer operations with a total result. -/
def Obligations.scalar_integer_results : Prop :=
  ∀ (s : State) (d : SReg) (a b : Src),
    (Ready s [a, b] [d] →
      let x := readSrc s.me a
      let y := readSrc s.me b
      let n := y.toNat % 64
      Gives (.add d a b) s d (x + y) ∧ Gives (.sub d a b) s d (x - y) ∧ Gives (.mul d a b) s d (x * y)
      ∧ Gives (.mulh d a b) s d (BitVec.ofInt 64 (x.toInt * y.toInt / 2 ^ 64))
      ∧ Gives (.mulhn d a b) s d (BitVec.ofNat 64 (x.toNat * y.toNat / 2 ^ 64))
      ∧ Gives (.and d a b) s d (x &&& y) ∧ Gives (.or d a b) s d (x ||| y) ∧ Gives (.xor d a b) s d (x ^^^ y)
      ∧ Gives (.andn d a b) s d (x &&& ~~~y) ∧ Gives (.shl d a b) s d (x <<< n) ∧ Gives (.shr d a b) s d (x >>> n)
      ∧ Gives (.sra d a b) s d (x.sshiftRight n) ∧ Gives (.rotl d a b) s d (x.rotateLeft n)
      ∧ Gives (.min d a b) s d (if x.toInt ≤ y.toInt then x else y)
      ∧ Gives (.max d a b) s d (if y.toInt ≤ x.toInt then x else y)
      ∧ Gives (.minn d a b) s d (if x.toNat ≤ y.toNat then x else y)
      ∧ Gives (.maxn d a b) s d (if y.toNat ≤ x.toNat then x else y)
      ∧ (∀ m : BitVec 5, Gives (.addsh d a b m) s d (x + y <<< m.toNat))
      ∧ (∀ f : FReg, FlagsReady s [f] → Gives (.csel d a b f) s d (if s.me.f[f] then x else y)))
    ∧ (Ready s [a] [d] →
      Gives (.popc d a) s d (BitVec.ofNat 64 ((List.range 64).filter (readSrc s.me a).getLsbD).length)
      ∧ Gives (.clz d a) s d (if readSrc s.me a = 0 then 64 else BitVec.ofNat 64 (63 - Nat.log2 (readSrc s.me a).toNat))
      ∧ Gives (.ctz d a) s d (BitVec.ofNat 64 (((List.range 64).find? (readSrc s.me a).getLsbD).getD 64)))

/-- R127, R128: division where b is not 0 and the bit fields, bit by bit; a division by 0 and a field outside the word freeze, and
nothing is written. -/
def Obligations.division_and_bit_fields : Prop :=
  (∀ (s : State) (d : SReg) (a b : Src), Ready s [a, b] [d] → readSrc s.me b ≠ 0 →
     Gives (.div d a b) s d (BitVec.ofInt 64 ((readSrc s.me a).toInt.tdiv (readSrc s.me b).toInt))
     ∧ Gives (.rem d a b) s d (BitVec.ofInt 64 ((readSrc s.me a).toInt.tmod (readSrc s.me b).toInt))
     ∧ Gives (.divn d a b) s d (BitVec.ofNat 64 ((readSrc s.me a).toNat / (readSrc s.me b).toNat))
     ∧ Gives (.remn d a b) s d (BitVec.ofNat 64 ((readSrc s.me a).toNat % (readSrc s.me b).toNat)))
  ∧ (∀ (s : State) (d : SReg) (a b c : Src), Ready s [a, b, c] [d] →
       let x := readSrc s.me a
       let pos := (readSrc s.me b).toNat
       let w := (readSrc s.me c).toNat
       pos ≤ 63 → 1 ≤ w → w ≤ 64 - pos →
       (∃ v, Gives (.bfxn d a b c) s d v ∧ ∀ k < 64, v.getLsbD k = (decide (k < w) && x.getLsbD (pos + k)))
       ∧ (∃ v, Gives (.bfx d a b c) s d v ∧ ∀ k < 64, v.getLsbD k = x.getLsbD (pos + min k (w - 1)))
       ∧ (∃ v, Gives (.bfi d a b c) s d v
           ∧ ∀ k < 64, v.getLsbD k = if pos ≤ k ∧ k < pos + w then x.getLsbD (k - pos) else (getS s.me d).getLsbD k))
  ∧ (∀ (s : State) (d : SReg) (a b c : Src), NothingHeld s →
       (Ready s [a, b] [d] → readSrc s.me b = 0 →
         FreezesSomewhere (.div d a b) s 0x0A ∧ FreezesSomewhere (.divn d a b) s 0x0A ∧ FreezesSomewhere (.rem d a b) s 0x0A
         ∧ FreezesSomewhere (.remn d a b) s 0x0A)
       ∧ (Ready s [a, b, c] [d] →
         ((readSrc s.me b).toNat > 63 ∨ readSrc s.me c = 0 ∨ (readSrc s.me c).toNat > 64 - (readSrc s.me b).toNat) →
         FreezesSomewhere (.bfx d a b c) s 0x05 ∧ FreezesSomewhere (.bfxn d a b c) s 0x05 ∧ FreezesSomewhere (.bfi d a b c) s 0x05))

/-- R129, R130: the immediates, x being imm33 sign-extended; comparisons, predicate logic, and predicates to and from scalars. -/
def Obligations.immediates_and_predicates : Prop :=
  (∀ (s : State) (d : SReg) (a : Src) (imm : BitVec 33),
       let x : Word := imm.signExtend 64
       let n := imm.toNat % 64
       (Ready s [a] [d] →
         Gives (.addi d a imm) s d (readSrc s.me a + x) ∧ Gives (.andi d a imm) s d (readSrc s.me a &&& x)
         ∧ Gives (.ori d a imm) s d (readSrc s.me a ||| x) ∧ Gives (.xori d a imm) s d (readSrc s.me a ^^^ x)
         ∧ Gives (.shli d a imm) s d (readSrc s.me a <<< n) ∧ Gives (.shri d a imm) s d (readSrc s.me a >>> n)
         ∧ Gives (.srai d a imm) s d ((readSrc s.me a).sshiftRight n) ∧ Gives (.muli d a imm) s d (readSrc s.me a * x))
       ∧ (Ready s [] [d] →
         Gives (.ldi d imm) s d x
         ∧ ∃ v, Gives (.ldhi d imm) s d v ∧ ∀ k < 64, v.getLsbD k = if k < 31 then (getS s.me d).getLsbD k else imm.getLsbD (k - 31)))
  ∧ (∀ (s : State) (a b : Src) (f g h : FReg) (d : SReg),
       (Ready s [a, b] [] → FlagsReady s [f] → ∀ cc, Sets (.scmp f a b cc) s f (condHolds cc (readSrc s.me a) (readSrc s.me b)))
       ∧ (FlagsReady s [f, g, h] → ∀ op, Sets (.flog f g h op) s f (logicOf op s.me.f[g] s.me.f[h]))
       ∧ (Ready s [a] [] → FlagsReady s [f] → Sets (.fset f a) s f (readSrc s.me a != 0))
       ∧ (Ready s [] [d] → FlagsReady s [g] → Gives (.ftos d g) s d (if s.me.f[g] then 1 else 0)))

/-- R106, R131, R133: a branch that is taken goes to PC + 8 × disp45, one that is not taken to PC + 8; `bryl` waits for earlier
yields. Indirect jumps go to targets that are multiples of 8; `callr` does not write s62 where the fetch at its target faults. A
misaligned target freezes at the jump with the target as its fault address, and s62 is not written. A fetch at a PC outside the
57-bit range is a translation fault. -/
def Obligations.branches_and_jumps : Prop :=
  (∀ (s : State) (f : FReg) (disp : BitVec 45) (neg : Bool),
       let dest : Word := s.me.pc + 8 * disp.signExtend 64
       Goes (.bra disp) s dest
       ∧ (FlagsReady s [f] → Goes (.br neg f disp) s (if s.me.f[f] != neg then dest else s.me.pc + 8))
       ∧ (Ready s [] [62] → Links (.call disp) s dest)
       ∧ ((∀ e ∈ s.me.window, e.dests = []) → Goes (.bryl neg disp) s (if (s.me.yl == 0) != neg then dest else s.me.pc + 8))
       ∧ ((∃ e ∈ s.me.window, e.dests ≠ []) → exec (.bryl neg disp) s = .next s))
  ∧ (∀ (s : State) (a : Src),
     (Ready s [a] [] → (readSrc s.me a).toNat % 8 = 0 → Goes (.jr a) s (readSrc s.me a))
     ∧ (Ready s [a] [62] → (readSrc s.me a).toNat % 8 = 0 →
         (((readSrc s.me a).toNat < 2 ^ 57 → Links (.callr a) s (readSrc s.me a))
         ∧ ((readSrc s.me a).toNat ≥ 2 ^ 57 → Goes (.callr a) s (readSrc s.me a))))
     ∧ (Ready s [] [62] → (getS s.me 62).toNat % 8 = 0 → Goes .ret s (getS s.me 62)))
  ∧ (∀ (s : State) (a : Src), NothingHeld s →
       (Ready s [a] [] → (readSrc s.me a).toNat % 8 ≠ 0 → Freezes (.jr a) s 0x0B (readSrc s.me a))
       ∧ (Ready s [a] [62] → (readSrc s.me a).toNat % 8 ≠ 0 →
           Freezes (.callr a) s 0x0B (readSrc s.me a))
       ∧ (Ready s [] [62] → (getS s.me 62).toNat % 8 ≠ 0 → Freezes .ret s 0x0B (getS s.me 62))
       ∧ (runnable s s.cur = true → s.me.script = [] → s.me.bodyPos = none → 2 ^ 57 ≤ s.me.pc.toNat →
           ∃ t, exec .instructionFetch s = .next (freeze t s.cur
             { cause := 0x01, elem := 0, addr := s.me.pc, pc := s.me.pc, word := 0, nc := true, async := false }) ∧ ∀ y, t.ctx y = s.ctx y))

/-! ## Column arithmetic, major ops 0x10 to 0x14 -/

/-- R157, R158: the element-wise integer instructions enter the window of the lanes with operation format F (R152), the shortest
of their columns' lengths (R30) and a destination of format F. -/
def Obligations.column_integer_issue : Prop :=
  ∀ (s : State) (d : CReg) (a b c : ColSrc) (q : Qual) (sat : Bool),
    let f1 := opFmt s.me d [a]
    let f2 := opFmt s.me d [a, b]
    let f3 := opFmt s.me d [a, b, c]
    let oa := operandOf s a
    let ob := operandOf s b
    let oc := operandOf s c
    (MayIssue s [] (scsOf [a]) [] q → Agree s f1 [a] → Writable s [(.c d, f1)] (colsOf [a]) →
      let x : Queued := { qual := q, fmt := f1, len := commonLen s.me [oa], dests := [(.c d, f1)], a := oa }
      Enters (.vmov d a q) s x
      ∧ (isIntOrPos f1 = true → ∀ i ∈ [Instr.vabs d a sat q, .vneg d a sat q, .vpopc d a q, .vclz d a q], Enters i s x))
    ∧ (MayIssue s [] (scsOf [a, b]) [] q → Agree s f2 [a, b] → Writable s [(.c d, f2)] (colsOf [a, b]) →
      isIntOrPos f2 = true →
      ∀ i ∈ [Instr.vadd d a b sat q, .vsub d a b sat q, .vmul d a b sat q, .vmulh d a b q, .vmin d a b q, .vmax d a b q,
             .vand d a b q, .vor d a b q, .vxor d a b q, .vshl d a b q, .vshr d a b q, .vsra d a b q],
        Enters i s { qual := q, fmt := f2, len := commonLen s.me [oa, ob], dests := [(.c d, f2)], a := oa, b := ob })
    ∧ (MayIssue s [] (scsOf [a, b, c]) [] q → Agree s f3 [a, b, c] →
      Writable s [(.c d, f3)] (colsOf [a, b, c]) → isIntOrPos f3 = true →
      Enters (.vmad d a b c sat q) s
        { qual := q, fmt := f3, len := commonLen s.me [oa, ob, oc], dests := [(.c d, f3)], a := oa, b := ob, c := oc })

/-- R152, R157, R158: a selector of format bool1 chooses between sources of format F; `vmulw` writes the format of twice the
width; `vbcast` and `viota` take F from their destination and their length from a scalar. -/
def Obligations.column_special_issue : Prop :=
  ∀ (s : State) (d : CReg) (a b : ColSrc) (c : Col) (x y z : Src) (q : Qual) (sat : Bool),
    let f := opFmt s.me d [a, b]
    let g := colFmt s.me (.c d)
    let oa := operandOf s a
    let ob := operandOf s b
    let oc := colOperand s c
    (MayIssue s [] (scsOf [a, b]) [] q → Agree s f [a, b] → colFmt s.me c = .bool1 →
      Writable s [(.c d, f)] (colsOf [a, b, .col c]) →
      Enters (.vsel d a b c q) s
        { qual := q, fmt := f, len := commonLen s.me [oa, ob, oc], dests := [(.c d, f)], a := oa, b := ob, c := oc })
    ∧ (MayIssue s [] (scsOf [a, b]) [] none → Agree s f [a, b] → f ∈ [Fmt.i8, .i16, .i32, .n8, .n16, .n32] →
      Writable s [(.c d, widerInt f)] (colsOf [a, b]) →
      Enters (.vmulw d a b) s
        { fmt := f, len := commonLen s.me [oa, ob], dests := [(.c d, widerInt f)], a := oa, b := ob })
    ∧ (MayIssue s [] [x, y] [] none → hasBroadcast g = true → Writable s [(.c d, g)] [] → (readSrc s.me y).toNat < 2 ^ 32 →
      Enters (.vbcast d x y) s
        { fmt := g, len := (readSrc s.me y).toNat, dests := [(.c d, g)], a := scalarOperand s.me x, b := scalarOperand s.me y })
    ∧ (MayIssue s [] [x, y, z] [] none → isIntOrPos g = true → Writable s [(.c d, g)] [] → (readSrc s.me z).toNat < 2 ^ 32 →
      Enters (.viota d x y z sat) s
        { fmt := g, len := (readSrc s.me z).toNat, dests := [(.c d, g)], a := scalarOperand s.me x, b := scalarOperand s.me y
          c := scalarOperand s.me z })

/-- R159, R160: the floating-point instructions, F one of the floating-point formats; the exponent of `fscl` keeps an integer
format of its own. -/
def Obligations.column_float_issue : Prop :=
  ∀ (s : State) (d : CReg) (a b c : ColSrc) (q : Qual) (m : Arith),
    let f1 := opFmt s.me d [a]
    let f2 := opFmt s.me d [a, b]
    let f3 := opFmt s.me d [a, b, c]
    let oa := operandOf s a
    let ob := operandOf s b
    let oc := operandOf s c
    (MayIssue s [] (scsOf [a]) [] q → Agree s f1 [a] → Writable s [(.c d, f1)] (colsOf [a]) → isFloat f1 = true →
      ∀ i ∈ [Instr.fabs d a m q, .fneg d a m q, .fsqrt d a m q, .fexp2 d a m q, .flog2 d a m q],
        Enters i s { qual := q, fmt := f1, len := commonLen s.me [oa], dests := [(.c d, f1)], a := oa })
    ∧ (MayIssue s [] (scsOf [a, b]) [] q → Agree s f2 [a, b] → Writable s [(.c d, f2)] (colsOf [a, b]) →
      isFloat f2 = true →
      ∀ i ∈ [Instr.fadd d a b m q, .fsub d a b m q, .fmul d a b m q, .fmin d a b m q, .fmax d a b m q, .fdiv d a b m q],
        Enters i s { qual := q, fmt := f2, len := commonLen s.me [oa, ob], dests := [(.c d, f2)], a := oa, b := ob })
    ∧ (MayIssue s [] (scsOf [a, b, c]) [] q → Agree s f3 [a, b, c] →
      Writable s [(.c d, f3)] (colsOf [a, b, c]) → isFloat f3 = true →
      Enters (.ffma d a b c m q) s
        { qual := q, fmt := f3, len := commonLen s.me [oa, ob, oc], dests := [(.c d, f3)], a := oa, b := ob, c := oc })
    ∧ (MayIssue s [] (scsOf [a, b]) [] q → Agree s f1 [a] → (∀ r ∈ colsOf [b], isInteger (colFmt s.me r) = true) →
      Writable s [(.c d, f1)] (colsOf [a, b]) → isFloat f1 = true →
      Enters (.fscl d a b m q) s
        { qual := q, fmt := f1, len := commonLen s.me [oa, ob], dests := [(.c d, f1)], a := oa, b := ob })

/-- R161 to R166: tests give bool1 columns, conversions the format that their literal or their rule names. -/
def Obligations.tests_and_conversions_issue : Prop :=
  ∀ (s : State) (d : CReg) (a b : ColSrc) (r u : Col) (cc : ColCond) (k : BitVec 10) (m : Arith),
    let f := opFmt s.me d [a, b]
    let g := colFmt s.me r
    let oa := operandOf s a
    let ob := operandOf s b
    let o := colOperand s r
    let n := commonLen s.me [o]
    (MayIssue s [] (scsOf [a, b]) [] none → Agree s f [a, b] → testOk cc f = true →
      Writable s [(.c d, .bool1)] (colsOf [a, b]) →
      Enters (.vcmp d a b cc) s { fmt := f, len := commonLen s.me [oa, ob], dests := [(.c d, .bool1)], a := oa, b := ob })
    ∧ (MayIssue s [] [] [] none →
      (Writable s [(.c d, .bool1)] [r] →
        Enters (.vnz d r) s { fmt := g, len := n, dests := [(.c d, .bool1)], a := o }
        ∧ (isFloat g = true → Enters (.vnan d r) s { fmt := g, len := n, dests := [(.c d, .bool1)], a := o }))
      ∧ (∀ h, Fmt.ofCode k.toNat = some h → Writable s [(.c d, h)] [r] →
        let x : Queued := { fmt := g, len := n, dests := [(.c d, h)], a := o }
        ((isFloat g = true ∨ m.rnd = .rne ∧ m.ftz = false) →
          (widens h g = true → Enters (.cvtn d r k m) s x) ∧ (widens g h = true → Enters (.cvtw d r k m) s x))
        ∧ (isIntOrPos g = true → isWideFloat h = true → Enters (.cvtif d r k m) s x)
        ∧ (isWideFloat g = true → isInteger h = true → Enters (.cvtfi d r k m) s x))
      ∧ (g = .tern5 → Writable s [(.c d, .i8)] [r] →
        Enters (.unpk3 d r) s { fmt := .tern5, len := n, dests := [(.c d, .i8)], a := o })
      ∧ (g = .i8 → Writable s [(.c d, .tern5)] [r] →
        Enters (.pk3 d r) s { fmt := .i8, len := n, dests := [(.c d, .tern5)], a := o })
      ∧ (g = .f32 → Writable s [(.c d, .e2m1), (.c (nextC d), .ue8m0)] [r] →
        Enters (.cvt42 d r m) s { fmt := .f32, len := n, dests := [(.c d, .e2m1), (.c (nextC d), .ue8m0)], a := o }))
    ∧ (MayIssue s [] [] [] none → isMini g = true → colFmt s.me u = .ue8m0 → Writable s [(.c d, .f32)] [r, u] →
      Enters (.cvts d r u m) s
        { fmt := g, len := min ((o.col).elim 0 (·.len)) (16 * ((colOperand s u).col).elim 0 (·.len)), dests := [(.c d, .f32)]
          a := o, b := colOperand s u })

/-- R167 to R171: reductions. A scalar result is written when the instruction completes, and s[d] is busy until then. -/
def Obligations.reduction_issue : Prop :=
  ∀ (s : State) (d : SReg) (r u : Col) (q : Qual) (m : Arith) (sat : Bool) (e : CReg),
    let f := colFmt s.me r
    let g := colFmt s.me u
    let o := colOperand s r
    let v := colOperand s u
    let n := commonLen s.me [o]
    let n2 := commonLen s.me [o, v]
    (MayIssue s [] [] [d] q →
      Enters (.redCnt d r m q) s { qual := q, fmt := f, len := n, sdest := some d, a := o }
      ∧ (redOk f = true → ∀ i ∈ [Instr.redSum d r m q, .redMin d r m q, .redMax d r m q],
          Enters i s { qual := q, fmt := f, len := n, sdest := some d, a := o }))
    ∧ (MayIssue s [] [] [d] q → redOk f = true → f ≠ .bool1 → g = f →
      Enters (.redDot d r u m q) s { qual := q, fmt := f, len := n2, sdest := some d, a := o, b := v })
    ∧ (MayIssue s [] [] [d] none → (f = .tern5 ∨ f = .i8) → g = .i8 →
      Enters (.tdot d r u sat) s { fmt := f, len := n2, sdest := some d, a := o, b := v })
    ∧ (MayIssue s [] [] [] none → redOk f = true → Writable s [(.c e, redFmt f)] [r] →
      ∀ i ∈ [Instr.scanInc e r m, .scanExc e r m],
        Enters i s { fmt := f, len := n, dests := [(.c e, redFmt f)], a := o })
    ∧ (MayIssue s [] [] [] none → redOk f = true → g = .bool1 → Writable s [(.c e, redFmt f)] [r, u] →
      Enters (.segred e r u m) s { fmt := f, len := n2, dests := [(.c e, redFmt f)], a := o, b := v })

/-- R43, R152, R153, R173, R178: an operation format that the group does not accept is a reserved-operand fault at issue, as is a
refused policy word; a column access through an empty handle freezes with cause 0x0E; nothing enters the window. With eight
instructions in flight a ninth waits, and nothing changes. -/
def Obligations.issue_refused_or_waiting : Prop :=
  (∀ (s : State) (d : CReg) (a b c : ColSrc) (q : Qual) (sat : Bool) (m : Arith), NothingHeld s →
     (MayIssue s [] (scsOf [a, b]) [] q →
       (isIntOrPos (opFmt s.me d [a, b]) = false →
         ∀ i ∈ [Instr.vadd d a b sat q, .vsub d a b sat q, .vmul d a b sat q, .vmulh d a b q, .vmin d a b q, .vmax d a b q,
                .vand d a b q, .vor d a b q, .vxor d a b q, .vshl d a b q, .vshr d a b q, .vsra d a b q],
           Freezes i s 0x05 s.me.pc)
       ∧ (isFloat (opFmt s.me d [a, b]) = false →
         ∀ i ∈ [Instr.fadd d a b m q, .fsub d a b m q, .fmul d a b m q, .fmin d a b m q, .fmax d a b m q, .fdiv d a b m q],
           Freezes i s 0x05 s.me.pc)
       ∧ (∀ r ∈ colsOf [a, b], colFmt s.me r ≠ opFmt s.me d [a, b] →
         ∀ i ∈ [Instr.vadd d a b sat q, .vmin d a b q, .fadd d a b m q, .fmin d a b m q], Freezes i s 0x05 s.me.pc))
     ∧ (MayIssue s [] (scsOf [a, b, c]) [] q →
       (isIntOrPos (opFmt s.me d [a, b, c]) = false → Freezes (.vmad d a b c sat q) s 0x05 s.me.pc)
       ∧ (isFloat (opFmt s.me d [a, b, c]) = false → Freezes (.ffma d a b c m q) s 0x05 s.me.pc)))
  ∧ (∀ (s : State) (d : CReg) (h : HReg) (b : ColSrc) (r : Col) (x y : Src) (pol : SReg) (q : Qual) (disp : BitVec 11),
       NothingHeld s →
       (MayIssue s (colsOf [b]) (scsOf [b]) [pol] none → PolicyOk (policyOf s.me pol) true → packed (colFmt s.me (.c d)) = false →
         (∀ u ∈ colsOf [b], isIntOrPos (colFmt s.me u) = true) → Writable s [(.c d, colFmt s.me (.c d))] (colsOf [b]) →
         hKind s.me.h[h] = 0 → Freezes (.ldt d h b pol) s 0x0E s.me.pc)
       ∧ (MayIssue s (if q.isSome then [.c d] else []) [x, y] [pol] q → ¬ PolicyOk (policyOf s.me pol) true →
         Freezes (.ldc d x y pol q disp) s 0x05 s.me.pc)
       ∧ (MayIssue s [.c d] [x, y] [pol] q → ¬ PolicyOk (policyOf s.me pol) false → Freezes (.stc d x y pol q disp) s 0x05 s.me.pc)
       ∧ (MayIssue s [.c d, r] [x] [pol] q → ¬ PolicyOk (policyOf s.me pol) false → Freezes (.scat d x r pol q disp) s 0x05 s.me.pc))
  ∧ (∀ (s : State) (d : CReg) (e : PReg) (a b : ColSrc) (r u : Col) (q : Qual) (cc : ColCond) (m : Arith) (x y : Src) (sat : Bool)
       (pol : SReg) (disp : BitVec 11), s.me.window.length = 8 →
       ∀ i ∈ [Instr.vadd d a b sat q, .fadd d a b m q, .vcmp d a b cc, .scanInc d r m, .sel e a b cc q, .joinH e r u, .sort e r,
              .ldc d x y pol q disp, .gath d x r pol q disp, .xred x r sat, .xclr x y], exec i s = .next s)

/-! ## Column memory and column management, major ops 0x18 and 0x19 -/

/-- R172 to R176, R181: column loads and stores by stride, by index, and column atomics enter the window with their policy word;
the sub-byte formats only by stride 1. -/
def Obligations.column_memory_issue : Prop :=
  ∀ (s : State) (d : CReg) (a b : Src) (r : Col) (pol : SReg) (q : Qual) (disp : BitVec 11) (w32 : Bool) (op : Fin 8),
    let f := colFmt s.me (.c d)
    let p := policyOf s.me pol
    let oa := scalarOperand s.me a
    let data := colOperand s (.c d)
    let idx := colOperand s r
    (MayIssue s (if q.isSome then [.c d] else []) [a, b] [pol] q → PolicyOk p true → (getCol s.me (.c d)).strm = false →
      (packed f = true → readSrc s.me b = 1) →
      Enters (.ldc d a b pol q disp) s
        { qual := q, fmt := f, len := s.me.vl.toNat, dests := [(.c d, f)], a := oa, b := scalarOperand s.me b, pol := p })
    ∧ (MayIssue s [.c d] [a, b] [pol] q → PolicyOk p false → (packed f = true → readSrc s.me b = 1) →
      Enters (.stc d a b pol q disp) s
        { qual := q, fmt := f, len := commonLen s.me [data], a := oa, b := scalarOperand s.me b, c := data, pol := p })
    ∧ (packed f = false → indexFmt (colFmt s.me r) = true →
      (MayIssue s (if q.isSome then [.c d, r] else [r]) [a] [pol] q → PolicyOk p true → Writable s [(.c d, f)] [r] →
        Enters (.gath d a r pol q disp) s
          { qual := q, engine := .slice, fmt := f, len := commonLen s.me [idx], dests := [(.c d, f)], a := oa, b := idx, pol := p })
      ∧ (MayIssue s [.c d, r] [a] [pol] q → PolicyOk p false →
        Enters (.scat d a r pol q disp) s
          { qual := q, engine := .slice, fmt := f, len := commonLen s.me [idx, data], a := oa, b := idx, c := data, pol := p })
      ∧ (MayIssue s [.c d, r] [a] [pol] none → polBad p = false →
        (w32 = true ∧ (f = .i32 ∨ f = .n32) ∨ w32 = false ∧ (f = .i64 ∨ f = .n64)) →
        Enters (.catom d a r pol w32 op) s
          { engine := .slice, fmt := f, len := commonLen s.me [idx, data], a := oa, b := idx, c := data, pol := p }))

/-- R178 to R180, R389: tensor accesses through a handle whose kind and format allow them, block-table loads through a handle of
kind 1, and stores of whole segments with their scales. -/
def Obligations.tensor_memory_issue : Prop :=
  ∀ (s : State) (d : CReg) (h : HReg) (b : ColSrc) (r : Col) (a : Src) (pol : SReg) (disp : BitVec 11),
    let f := colFmt s.me (.c d)
    let p := policyOf s.me pol
    let idx := operandOf s b
    let o := colOperand s r
    let data := colOperand s (.c d)
    let scales := colOperand s (.c (nextC d))
    (packed f = false → (∀ u ∈ colsOf [b], isIntOrPos (colFmt s.me u) = true) → tensorBad s.me.h[h] f = none →
      (MayIssue s (colsOf [b]) (scsOf [b]) [pol] none → PolicyOk p true → Writable s [(.c d, f)] (colsOf [b]) →
        Enters (.ldt d h b pol) s { fmt := f, len := commonLen s.me [idx], dests := [(.c d, f)], b := idx, pol := p })
      ∧ (MayIssue s (.c d :: colsOf [b]) (scsOf [b]) [pol] none → PolicyOk p false →
        Enters (.stt d h b pol) s
          { fmt := f, len := min (commonLen s.me [idx]) (commonLen s.me [data]), b := idx, c := data, pol := p }))
    ∧ (MayIssue s [r] [] [pol] none → PolicyOk p true → colFmt s.me r ∈ [Fmt.pos32, .n32, .n64] → hKind s.me.h[h] = 1 →
      Writable s [(.c d, .v256), (.c (nextC d), .bool1)] [r] →
      Enters (.btld d h r pol) s
        { fmt := .v256, len := commonLen s.me [o], dests := [(.c d, .v256), (.c (nextC d), .bool1)], b := o, pol := p })
    ∧ (MayIssue s [.c d, .c (nextC d)] [a] [pol] none → PolicyOk p false → isMini f = true → colFmt s.me (.c (nextC d)) = .ue8m0 →
      Enters (.segst d a pol disp) s
        { fmt := f, len := commonLen s.me [data], a := { data with val := readSrc s.me a }, b := scales, pol := p })

/-- R184: `calloc` completes and gives an empty register of the format a window of n elements that lies in the pool and overlaps no
other; where there is no room CAP is 0. Another capacity, format or target freezes. -/
def Obligations.calloc_places_a_window : Prop :=
  ∀ (s : State) (d : Col) (a : Src) (fmt : Fmt),
    let n := (readSrc s.me a).toNat
    let free := s.setMe (releaseCol s.me d fmt)
    let k := coreOf s.cur
    s.me.window.length < 8 → hazard s.me [a] [] = false → inFlight s.me d = false →
    ((getCol s.me d).strm = false → n ≤ 2 ^ 24 - 1 → (∀ p, d = .p p → fmt = .pos32) →
    ∃ (t : State) (x : Column), exec (.calloc d a fmt) s = .next t
      ∧ t.me = pastWord { setCol s.me d x with seq := s.me.seq + 1, retired := s.me.retired + 1 }
      ∧ (∀ y, y ≠ s.cur → t.ctx y = s.ctx y) ∧ SameMemory s t
      ∧ x.fmt = fmt ∧ x.len = 0 ∧ x.strm = false ∧ x.extents = [] ∧ x.spill = []
      ∧ (x.cap = n ∧ (n ≠ 0 → 256 * x.base + windowSize fmt n ≤ poolSrf (s.core k).poolw * 65536
            ∧ ∀ w ∈ takenOn free k, 256 * x.base + windowSize fmt n ≤ w.1 ∨ w.2 ≤ 256 * x.base)
        ∨ x.cap = 0 ∧ placeWindow free k (windowSize fmt n) = none))
    ∧ (NothingHeld s → ((getCol s.me d).strm = true ∨ 2 ^ 24 - 1 < n ∨ (∃ p, d = .p p) ∧ fmt ≠ .pos32) →
      Freezes (.calloc d a fmt) s 0x05 s.me.pc)

/-- R183 to R186: `calloc` and the other management instructions complete as they issue; `cfree` of a column in stream mode and `cfmt` between formats of unlike width freeze.
LEN can be read once every earlier producer has yielded (R32). -/
def Obligations.column_management : Prop :=
  ∀ (s : State) (d : Col) (c : CReg) (r : Col) (a : Src) (e : SReg) (fmt : Fmt),
    let x := getCol s.me (.c c)
    let k := min (getCol s.me d).len (readSrc s.me a).toNat
    s.me.window.length < 8 →
    (inFlight s.me d = false → (getCol s.me d).strm = false →
      (hazard s.me [a] [] = false → (readSrc s.me a).toNat < 2 ^ 24 → (∀ p, d = .p p → fmt = .pos32) →
        ∃ v, Manages (.calloc d a fmt) s v)
      ∧ Manages (.cfree d) s (setCol s.me d (Column.empty (emptyFmt d)))
      ∧ (hazard s.me [a] [] = false → allYielded s.me = true →
        ∃ v, Manages (.trunc d a) s v ∧ (getCol v d).len = k ∧ v.yl = BitVec.ofNat 32 k
          ∧ (∀ u, u ≠ d → getCol v u = getCol s.me u) ∧ v = { s.me with c := v.c, p := v.p, yl := v.yl }))
    ∧ (inFlight s.me (.c c) = false → x.strm = false → (sameWidth x.fmt fmt = true ∨ x.len = 0) →
      Manages (.cfmt c fmt) s (setFmt s.me (.c c) fmt))
    ∧ (NothingHeld s →
      (inFlight s.me d = false → (getCol s.me d).strm = true → Freezes (.cfree d) s 0x05 s.me.pc)
      ∧ (inFlight s.me (.c c) = false → (x.strm = true ∨ sameWidth x.fmt fmt = false ∧ x.len ≠ 0) → Freezes (.cfmt c fmt) s 0x05 s.me.pc))
    ∧ (hazard s.me [a] [] = false →
      Manages (.setvl (.sc a)) s { s.me with vl := BitVec.ofNat 32 (min (readSrc s.me a).toNat (2 ^ 32 - 1)) })
    ∧ (∀ n, readLen s r = some n →
      Manages (.setvl (.col r)) s { s.me with vl := BitVec.ofNat 32 n }
      ∧ (hazard s.me [] [e] = false → Manages (.len e r) s (setS s.me e (BitVec.ofNat 64 n)))
      ∧ (MayIssue s [] [] [] none → Writable s [(.c c, .n64)] [r] →
        Enters (.cdesc c r) s
          { fmt := .n64, len := 2, dests := [(.c c, .n64)], a := { col := none, val := descWord0 { getCol s.me r with len := n } (workOf s.me r) }
            b := { col := none, val := descWord1 { getCol s.me r with len := n } } }))
    ∧ (allYielded s.me = true → (getCol s.me r).strm = false → readLen s r = some (getCol s.me r).len)

/-! ## Relational instructions, major ops 0x20 to 0x24 -/

/-- R198 to R206: selections and projections. -/
def Obligations.selection_issue : Prop :=
  ∀ (s : State) (d : PReg) (e : CReg) (a b c : ColSrc) (r u : Col) (x : Src) (q : Qual) (cc : ColCond),
    let f2 := selFmt s.me [a, b]
    let f3 := selFmt s.me [a, b, c]
    let o := colOperand s r
    let v := colOperand s u
    let n := lenOf o.col
    (MayIssue s [] (scsOf [a, b]) [] q → Agree s f2 [a, b] → selOk cc f2 = true →
      RelTargets s [(.p d, .pos32)] (colsOf [a, b]) q →
      Enters (.sel d a b cc q) s
        { qual := q, engine := .relational, fmt := f2, len := commonLen s.me [operandOf s a, operandOf s b], dests := [(.p d, .pos32)]
          a := operandOf s a, b := operandOf s b })
    ∧ (MayIssue s [] (scsOf [a, b, c]) [] q → Agree s f3 [a, b, c] → selOk .lt f3 = true →
      RelTargets s [(.p d, .pos32)] (colsOf [a, b, c]) q →
      Enters (.selr d a b c q) s
        { qual := q, engine := .relational, fmt := f3, len := commonLen s.me [operandOf s a, operandOf s b, operandOf s c]
          dests := [(.p d, .pos32)], a := operandOf s a, b := operandOf s b, c := operandOf s c })
    ∧ (MayIssue s [] [] [] q → RelTargets s [(.p d, .pos32)] [r] q →
      Enters (.selb d r q) s
        { qual := q, engine := .relational, fmt := colFmt s.me r, len := commonLen s.me [o], dests := [(.p d, .pos32)], a := o })
    ∧ (MayIssue s [] [] [] none → positionOk s.me r = true → positionOk s.me u = true → RelTargets s [(.p d, .pos32)] [r, u] none →
      (∀ i ∈ [Instr.pand d r u, .por d r u, .pdiff d r u],
        Enters i s { engine := .relational, fmt := .pos32, len := n, dests := [(.p d, .pos32)], a := o, b := v })
      ∧ Enters (.prjp d r u) s
          { engine := .relational, fmt := .pos32, len := lenOf v.col, dests := [(.p d, .pos32)], a := o, b := v })
    ∧ (MayIssue s [] [] [] none → positionOk s.me u = true → RelTargets s [(.c e, colFmt s.me r)] [r, u] none →
      Enters (.prj e r u) s
        { engine := .relational, fmt := colFmt s.me r, len := lenOf v.col, dests := [(.c e, colFmt s.me r)], a := o, b := v }
      ∧ (colFmt s.me (.c e) = colFmt s.me r → (capture s s.cur (.c e)).known = true →
        Enters (.plc e r u) s
          { engine := .relational, fmt := colFmt s.me r, len := commonLen s.me [o, v], dests := [(.c e, colFmt s.me r)], a := o
            b := v }))
    ∧ (MayIssue s [] [x] [] none → positionOk s.me r = true → (readSrc s.me x).toNat ≤ 2 ^ 32 - 1 →
      RelTargets s [(.c e, .bool1)] [r] none →
      Enters (.pcol e r x) s
        { engine := .relational, fmt := .pos32, len := n, dests := [(.c e, .bool1)], a := o, b := scalarOperand s.me x })

/-- R207 to R216: joins, grouping, aggregates, sorting and search; keys are of the formats that R188 accepts. -/
def Obligations.joins_and_sorting_issue : Prop :=
  ∀ (s : State) (d : PReg) (e : CReg) (r u : Col) (b c : ColSrc) (x : Src) (m : Arith),
    let f := colFmt s.me r
    let o := colOperand s r
    let v := colOperand s u
    let n := lenOf o.col
    (keyOk f = true →
      (MayIssue s [] [] [] none → colFmt s.me u = f → RelTargets s [(.p d, .pos32), (.p (nextP d), .pos32)] [r, u] none →
        ∀ i ∈ [Instr.joinH d r u, .joinM d r u, .semi d r u, .anti d r u],
          Enters i s { engine := .relational, fmt := f, len := n, dests := [(.p d, .pos32), (.p (nextP d), .pos32)], a := o, b := v })
      ∧ (MayIssue s [] [] [] none → RelTargets s [(.c e, .n32), (.c (nextC e), f)] [r] none →
        Enters (.grp e r) s { engine := .relational, fmt := f, len := n, dests := [(.c e, .n32), (.c (nextC e), f)], a := o })
      ∧ (MayIssue s [] [] [] none → RelTargets s [(.p d, .pos32)] [r] none →
        ∀ i ∈ [Instr.sort d r, .sortd d r, .uniq d r],
          Enters i s { engine := .relational, fmt := f, len := n, dests := [(.p d, .pos32)], a := o })
      ∧ (MayIssue s [] [x] [] none → RelTargets s [(.p d, .pos32)] [r] none →
        Enters (.topk d r x) s
          { engine := .relational, fmt := f, len := n, dests := [(.p d, .pos32)], a := o, b := scalarOperand s.me x })
      ∧ (MayIssue s [] (scsOf [b]) [] none → Agree s f [.col r, b] → RelTargets s [(.p d, .pos32)] (r :: colsOf [b]) none →
        Enters (.srch d r b) s
          { engine := .relational, fmt := f, len := ((operandOf s b).col).elim 1 (·.len), dests := [(.p d, .pos32)], a := o
            b := operandOf s b }))
    ∧ (MayIssue s [] (scsOf [c]) [] none → positionOk s.me u = true →
      ∀ g : Word, (match c with | .sc y => g = readSrc s.me y | .col y => (readLen s y).map (BitVec.ofNat 64) = some g) →
        g.toNat ≤ 2 ^ 32 - 1 →
        let q (out : Fmt) : Queued :=
          { engine := .relational, fmt := f, len := commonLen s.me [o, v], dests := [(.c e, out)], a := o, b := v
            c := { col := none, val := g } }
        (RelTargets s [(.c e, .n64)] ([r, u] ++ colsOf [c]) none → Enters (.aggCnt e r u c m) s (q .n64))
        ∧ (redOk f = true →
          (RelTargets s [(.c e, redFmt f)] ([r, u] ++ colsOf [c]) none → Enters (.aggSum e r u c m) s (q (redFmt f)))
          ∧ (RelTargets s [(.c e, f)] ([r, u] ++ colsOf [c]) none →
            Enters (.aggMin e r u c m) s (q f) ∧ Enters (.aggMax e r u c m) s (q f))))

/-! ## Streams, buffers, copies, the matrix array and exact reductions, major ops 0x28 to 0x2B -/

/-- R237, R240, R242 to R244: the instructions on an entry of the buffer table that the context may name; an entry of another
partition is a protection fault, every other misuse a handle-misuse fault. -/
def Obligations.buffer_instructions : Prop :=
  (∀ (s : State) (a : BReg) (b c : Src) (d : SReg) (f : FReg) (auto : Bool),
     let e := getBuf s (coreOf s.cur) a
     s.me.parked = none → OwnEntry s e → s.me.window.length < 8 →
     (bufPending s.me a = false → ∀ full, bufMatches full e.st = true → Leaves (.bfwait a full) s s a e)
     ∧ (bufPending s.me a = false → ∀ full, bufMatches full e.st = false →
         exec (.bfwait a full) s = .next (s.setMe { s.me with parked := some (.buffer a full) }))
     ∧ (bufPending s.me a = false → FlagsReady s [f] → ∀ st, Manages (.bftry f a st) s (setF s.me f (bufCode e.st == st.val)))
     ∧ (Ready s [] [d] → e.uses < 512 → e.size < 65536 → e.base < 2 ^ 17 →
         ∃ v, Manages (.bfinfo d a) s (setS s.me d v) ∧ v.toNat / 2 ^ 62 = bufCode e.st ∧ v.toNat / 2 ^ 61 % 2 = e.auto.toNat
           ∧ v.toNat / 2 ^ 60 % 2 = e.strm.toNat ∧ v.toNat / 2 ^ 56 % 16 = e.part.toNat ∧ v.toNat / 2 ^ 47 % 512 = e.uses
           ∧ v.toNat / 2 ^ 31 % 65536 = e.size ∧ v.toNat / 2 ^ 14 % 2 ^ 17 = e.base ∧ v.toNat / 2 ^ 13 % 2 = e.clm.toNat
           ∧ v.toNat / 2 ^ 5 % 2 ^ 8 = 0 ∧ (e.strm = true → v.toNat % 32 = e.creg.val))
     ∧ (Ready s [b, c] [] → Quiet s → e.strm = false → e.st = .free → e.uses = 0 → bufPending s.me a = false → bufWaited s (coreOf s.cur) a = false →
         (readSrc s.me b).toNat % 256 = 0 → (readSrc s.me c).toNat % 256 = 0 → readSrc s.me c ≠ 0 →
         InPool (s.core (coreOf s.cur)) (readSrc s.me b).toNat (readSrc s.me c).toNat →
         Leaves (if auto then .bfsetCfga a b c else .bfsetCfg a b c) s s a
           { BufEntry.reset with auto := auto, part := s.me.part, size := (readSrc s.me c).toNat / 256
                                 base := ((readSrc s.me b).toNat - windowBase) / 256 })
     ∧ (e.strm = false → e.size ≠ 0 →
         (bufPending s.me a = false → e.st = .filling → e.clm = true →
           (Quiet s → Leaves (.bfsetFull a) s s a { e with st := .full, clm := false, filler := none })
           ∧ (enginesQuiet s s.cur = false → Posted (.bfsetFull a) s (retireWord s.me)))
         ∧ (bufPending s.me a = false → e.st = .full →
           (Quiet s → Leaves (.bfsetRel a) s s a { e with st := if e.uses > 0 then .draining else .free })
           ∧ (enginesQuiet s s.cur = false → Posted (.bfsetRel a) s (retireWord s.me)))
         ∧ (Quiet s → s.me.run = .running → s.me.stopping = false → (∀ x ∈ s.me.window, bufNeeds s.me x = []) →
             mayFill s s.cur a s.cycle = true →
           Leaves (.bfsetClaim a) s s a { e with st := .filling, clm := true, filler := some s.cur })))
  ∧ (∀ (s : State) (a : BReg) (b c : Src) (d : SReg) (f : FReg) (st : Fin 4) (full : Bool),
       let e := getBuf s (coreOf s.cur) a
       NothingHeld s → s.me.window.length < 8 → bufPending s.me a = false →
       (e.size ≠ 0 → e.part ≠ s.me.part →
         Freezes (.bfwait a full) s 0x02 s.me.pc ∧ (FlagsReady s [f] → Freezes (.bftry f a st) s 0x02 s.me.pc)
         ∧ (Ready s [] [d] → Freezes (.bfinfo d a) s 0x02 s.me.pc)
         ∧ (Ready s [b, c] [] → Freezes (.bfsetCfg a b c) s 0x02 s.me.pc ∧ Freezes (.bfsetCfga a b c) s 0x02 s.me.pc)
         ∧ ∀ i ∈ [Instr.bfsetClaim a, .bfsetFull a, .bfsetRel a], Freezes i s 0x02 s.me.pc)
       ∧ (e.size = 0 ∨ e.part = s.me.part →
         (e.size = 0 ∨ e.strm = true → ∀ i ∈ [Instr.bfsetClaim a, .bfsetFull a, .bfsetRel a], Freezes i s 0x0E s.me.pc)
         ∧ (Ready s [b, c] [] → e.strm = true →
             Freezes (.bfsetCfg a b c) s 0x0E s.me.pc ∧ Freezes (.bfsetCfga a b c) s 0x0E s.me.pc)
         ∧ (¬ (e.st = .filling ∧ e.clm = true) → Freezes (.bfsetFull a) s 0x0E s.me.pc)
         ∧ (e.st ≠ .full → Freezes (.bfsetRel a) s 0x0E s.me.pc)))

/-- R245, R247: `strm` binds a column to an entry of the SRF, `unstrm` gives both back, waits while either is in
use, and freezes at a column that is not in stream mode. -/
def Obligations.streams_bind_and_end : Prop :=
  ∀ (s : State) (d : CReg) (a : BReg) (b c : Src) (fmt : Fmt),
    let k := coreOf s.cur
    s.me.parked = none → s.me.window.length < 8 →
    (let e := getBuf s k a;
      Ready s [b, c] [] → columnUsed s.me (.c d) = false → OwnEntry s e → packed fmt = false → fmt ≠ .xacc →
      0x1000000 ≤ 256 * e.base → 2048 * e.size / fmtBits fmt ≠ 0 → e.st = .free → e.uses = 0 → e.stream = none →
      (getCol s.me (.c d)).strm = false → bufPending s.me a = false → s.me.locks.length < 16 → Quiet s →
      ∃ t st, exec (.strm d a b c fmt) s = .next t
        ∧ getBuf t k a = { e with strm := true, auto := true, creg := d, stream := some st }
        ∧ (∀ x, x ≠ a → getBuf t k x = getBuf s k x)
        ∧ st.ctx = s.cur ∧ st.base = readSrc s.me b ∧ st.stride = readSrc s.me c ∧ st.fmt = fmt ∧ st.total = s.me.vl.toNat
        ∧ st.strip = 2048 * e.size / fmtBits fmt ∧ st.start = 0 ∧ st.next = 0
        ∧ getCol t.me (.c d) = { Column.empty fmt with strm := true, buf := a }
        ∧ (∀ r, r ≠ .c d → getCol t.me r = getCol s.me r) ∧ t.me.pc = (pastWord s.me).pc ∧ t.me.retired = s.me.retired + 1
        ∧ SameMemory s t)
    ∧ (let x := getCol s.me (.c d); let e := getBuf s k x.buf;
      x.strm = true → columnUsed s.me (.c d) = false → ¬ (e.st = .filling ∧ ∃ st, e.stream = some st ∧ st.fault = none) →
      e.creg = d → (∃ st, e.stream = some st ∧ st.ctx = s.cur) → Quiet s →
      ∃ t, exec (.unstrm d) s = .next t
        ∧ getCol t.me (.c d) = Column.empty x.fmt
        ∧ getBuf t k x.buf = { e with st := .free, auto := false, strm := false, uses := 0, clm := false, filler := none, stream := none }
        ∧ (∀ y, y ≠ x.buf → getBuf t k y = getBuf s k y) ∧ t.me.pc = (pastWord s.me).pc ∧ t.me.retired = s.me.retired + 1
        ∧ SameMemory s t)
    ∧ (let x := getCol s.me (.c d); let e := getBuf s k x.buf;
      (x.strm = true → (columnUsed s.me (.c d) = true ∨ e.st = .filling ∧ ∃ st, e.stream = some st ∧ st.fault = none) →
        exec (.unstrm d) s = .next s)
      ∧ (x.strm = false → NothingHeld s → Freezes (.unstrm d) s 0x05 s.me.pc))

/-- R248, R249, R253, R305: copies and tile transforms that pass the issue checks enter the window; the checks, in their order. -/
def Obligations.copies_issue : Prop :=
  (∀ (s : State) (d : SReg) (a b : Src) (pol : SReg) (q : Binding) (buf : BufSide),
     let n := getS s.me d
     let p := policyOf s.me pol
     let x := readSrc s.me a
     let y := readSrc s.me b
     (MayIssue s [] [a, b] [d, pol] none → CopyOk s p n x y q buf →
       ∀ i ∈ [Instr.cpy d a b pol q buf, .cpyx d a b pol q buf, .cpyc d a b pol q buf],
         Enters i s { engine := .stream, fmt := .n8, len := n.toNat, a := { col := none, val := BitVec.ofNat 64 (copyDst s x buf) }
                      b := { col := none, val := BitVec.ofNat 64 (copySrc s y buf) }, pol := p })
     ∧ (MayIssue s [] [a] [d, pol] none → polBad p = false → x.toNat % 4096 = 0 → n.toNat % 4096 = 0 →
       InPool (s.core (coreOf s.cur)) x.toNat n.toNat → (∀ k, q = some k → s.me.bb[k].toNat % 2 = 1) →
       ∀ i ∈ [Instr.txc d a pol q, .txe d a pol q],
         Enters i s { engine := .stream, fmt := .n8, len := n.toNat, a := scalarOperand s.me a, pol := p }))
  ∧ (∀ (s : State) (d : SReg) (a b : Src) (pol : SReg) (q : Binding) (buf : BufSide),
       let n := (getS s.me d).toNat
       let p := policyOf s.me pol
       let x := readSrc s.me a
       let y := readSrc s.me b
       let e := getBuf s (coreOf s.cur) buf.handle
       NothingHeld s →
       (MayIssue s [] [a, b] [d, pol] none →
         ∀ i ∈ [Instr.cpy d a b pol q buf, .cpyx d a b pol q buf, .cpyc d a b pol q buf],
           (polBad p = true → Freezes i s 0x05 s.me.pc)
           ∧ (polBad p = false →
             ((n % 32 ≠ 0 ∨ x.toNat % 32 ≠ 0 ∨ y.toNat % 32 ≠ 0) → Freezes i s 0x0B s.me.pc)
             ∧ (n % 32 = 0 → x.toNat % 32 = 0 → y.toNat % 32 = 0 →
               (buf.mode = 3 ∨ buf.mode = 0 ∧ buf.handle ≠ 0 ∨ buf.mode = 1 ∧ x.toNat + n > 256 * e.size
                   ∨ buf.mode = 2 ∧ y.toNat + n > 256 * e.size
                   ∨ copySrc s y buf < copyDst s x buf + n ∧ copyDst s x buf < copySrc s y buf + n → Freezes i s 0x05 s.me.pc)
               ∧ ((buf.mode = 1 ∧ x.toNat + n ≤ 256 * e.size ∨ buf.mode = 2 ∧ y.toNat + n ≤ 256 * e.size) →
                 (copyDst s x buf + n ≤ copySrc s y buf ∨ copySrc s y buf + n ≤ copyDst s x buf) →
                 (e.size ≠ 0 → e.part ≠ s.me.part → Freezes i s 0x02 s.me.pc)
                 ∧ (OwnEntry s e → (e.strm = true ∨ e.size = 0) → Freezes i s 0x0E s.me.pc)))))
       ∧ (MayIssue s [] [a] [d, pol] none → polBad p = false → ∀ i ∈ [Instr.txc d a pol q, .txe d a pol q],
           ((x.toNat % 4096 ≠ 0 ∨ n % 4096 ≠ 0) → Freezes i s 0x0B s.me.pc)
           ∧ (x.toNat % 4096 = 0 → n % 4096 = 0 → ¬ InPool (s.core (coreOf s.cur)) x.toNat n → Freezes i s 0x05 s.me.pc)))

/-- R255 to R264: the share of a matrix array, planes and accumulators, and the multiplications that enter
the window; `mflip` without a loaded plane freezes. -/
def Obligations.matrix_instructions : Prop :=
  ∀ (s : State) (x : Src) (b : ColSrc) (r u : Col) (d : AReg) (e : CReg) (y z : Src) (mode : ScaleLit) (fmt : Fmt),
    let c := s.me
    let rows := 32 * grantCount c
    let clear := { c with gmask := 0, acc := Vector.replicate 4 Accumulator.clear, shadow := none, active := none }
    c.window.length < 8 →
    (matrixBusy c = false →
      Manages .mdet s clear
      ∧ (hazard c [x] [] = false → c.gmask = 0 → readSrc c x ≠ 0 → (readSrc c x).toNat ≤ 8 →
          let free := freeGroups s (clusterOf s.cur)
          (coreAttached s s.cur = true ∨ poolAcs (s.core (coreOf s.cur)).poolw = 0 ∨ free = [] → Manages (.matt x) s c)
          ∧ (coreAttached s s.cur = false → poolAcs (s.core (coreOf s.cur)).poolw ≠ 0 → free ≠ [] →
            ∃ g : BitVec 8, Manages (.matt x) s { clear with gmask := g }
              ∧ ∀ n : Fin 8, g.getLsbD n = (free.take (readSrc c x).toNat).contains n))
      ∧ (c.gmask ≠ 0 → ∀ p, c.shadow = some p → Manages .mflip s { c with active := some p, shadow := none })
      ∧ ((c.gmask = 0 ∨ c.shadow = none) → NothingHeld s → Freezes .mflip s 0x05 s.me.pc))
    ∧ ((∀ k ∈ c.window, usesAcc k d = false) →
      Manages (.macswp d) s { c with acc := c.acc.set d { working := c.acc[d].visible, visible := c.acc[d].working } }
      ∧ ((fmt = .f32 ∨ fmt = .i32) →
        Manages (.macclr d fmt) s { c with acc := c.acc.set d { c.acc[d] with working := { tag := fmt, cells := [] } } }))
    ∧ (∀ m : Option Col, MayIssue s (colsOf [b] ++ m.toList) (scsOf [b]) [] none → rows ≠ 0 → TileOk fmt mode.toNat →
      (∀ k ∈ colsOf [b], colFmt c k = .v256) → (m = none → mode = 0) →
      (∀ k, m = some k → mode.toNat = 0 ∨ mode.toNat = 1 ∧ colFmt c k = .ue8m0 ∨ mode.toNat = 2 ∧ colFmt c k = .f32) →
      (s.phase = 3 → fmt = .f16) →
      Enters (.mldw b mode m fmt) s
        { engine := .matrix, fmt := fmt, len := rows, a := operandOf s b, c := m.elim Operand.none (colOperand s)
          pol := c.pold &&& 0xFFFFFFE7 })
    ∧ (∀ p, c.active = some p → TileOk p.fmt p.mode → c.acc[d].working.tag = tileTag p.fmt p.mode → colFmt c r = .v256 →
      (MayIssue s [r] [x] [] none → p.mode = 0 →
        Enters (.mmul d r x) s
          { engine := .matrix, fmt := .v256, len := lenOf (colOperand s r).col, a := colOperand s r, b := scalarOperand c x })
      ∧ (MayIssue s [r, u] [x] [] none → (p.mode = 1 ∧ colFmt c u = .ue8m0 ∨ p.mode = 2 ∧ colFmt c u = .f32) →
        Enters (.mmuls d r u x) s
          { engine := .matrix, fmt := .v256, len := lenOf (colOperand s r).col, a := colOperand s r, b := colOperand s u
            c := scalarOperand c x }))
    ∧ (MayIssue s [] [y, z] [] none → (getCol c (.c e)).strm = false →
      (sameWidth (colFmt c (.c e)) fmt = true ∨ inFlight c (.c e) = false) →
      (c.acc[d].visible.tag = .f32 ∧ fmt ∈ [Fmt.f32, .f16, .bf16, .e4m3, .e5m2]
        ∨ c.acc[d].visible.tag = .i32 ∧ (fmt = .i32 ∨ fmt = .f32)) →
      let col0 := (readSrc c z).toNat % 512
      let w0 := (readSrc c z).toNat / 2 ^ 16 % 512
      let w := if w0 = 0 then rows - col0 else w0
      (readSrc c y).toNat + c.vl.toNat ≤ 64 * poolAcs (s.core (coreOf s.cur)).poolw / grantCount c → col0 + w ≤ rows →
      Enters (.macrd e d y z fmt) s
        { engine := .matrix, fmt := fmt, len := c.vl.toNat * w, dests := [(.c e, fmt)], b := scalarOperand c y, c := scalarOperand c z })

/-- R267 to R269: exact reductions enter the window with the default policy, without an order. -/
def Obligations.exact_reductions_issue : Prop :=
  ∀ (s : State) (a b : Src) (r : Col) (d : CReg) (m : Arith) (ftz : Bool),
    let p := s.me.pold &&& 0xFFFFFFE7
    let f := colFmt s.me r
    let g := colFmt s.me (.c d)
    (MayIssue s [r] [a] [] none → (f ∈ [Fmt.f16, .bf16, .f32, .e4m3, .e5m2, .e2m1] ∨ isInteger f = true) →
      Enters (.xred a r ftz) s
        { engine := .exact, fmt := f, len := lenOf (colOperand s r).col, a := scalarOperand s.me a, b := colOperand s r, pol := p })
    ∧ (MayIssue s [] [a, b] [] none → (readSrc s.me b).toNat ≤ 2 ^ 32 - 1 →
      Enters (.xclr a b) s { engine := .exact, fmt := .xacc, len := (readSrc s.me b).toNat, a := scalarOperand s.me a, pol := p }
      ∧ ((g ∈ [Fmt.f16, .bf16, .f32, .f64] ∨ isInteger g = true) → (getCol s.me (.c d)).strm = false →
        Enters (.xfin d a b m) s
          { engine := .exact, fmt := g, len := (readSrc s.me b).toNat, dests := [(.c d, g)], a := scalarOperand s.me a, pol := p }))

/-! ## Scalar memory and fences, major ops 0x06 to 0x09 -/

/-- R134 to R138, R220, R272: a scalar load from the local window, and one from memory once its address is translated: from the
line of the scalar L1 that holds it, else from memory, with the context's own stores laid over. -/
def Obligations.scalar_loads : Prop :=
  ∀ (s : State) (d : SReg) (m : MemRef), ∀ f ∈ loadForms d m,
    let size := f.2.1
    let p := policyOf s.me m.pol
    let a := ea s m size
    Ready s [m.base, m.idx] [d, m.pol] → polBad p = false → polRel p = false → a.toNat % size = 0 →
    scalarWaits s.me a size false = false →
    (InPool (s.core (coreOf s.cur)) a.toNat size → s.me.chk = false → (polAcq p = true → Unmarked s a.toNat size) →
      Loads f.1 s s d (extended f.2.2 size (winWord (s.core (coreOf s.cur)) a.toNat size)))
    ∧ (∀ pa page u, resolve s (meWho s p) .read a size = .ok [{ at_ := 0, len := size, va := a.toNat, place := .mem pa page }] u →
        u.poisoned pa size = false → u.me.chk = false → (polAcq p = true → u.syncBad.contains (pa / 32) = false) →
        (lineBytes u pa size).length = size →
        Loads f.1 s u d (extended f.2.2 size (ofLe (overlay u.me.stores pa (lineBytes u pa size)))))

/-- R134 to R138, R220, R273: a scalar store to the local window writes its bytes there and nowhere else; one to memory leaves
with them for MEMORY_REPLY to perform. -/
def Obligations.scalar_stores : Prop :=
  ∀ (s : State) (d : SReg) (m : MemRef), ∀ f ∈ storeForms d m,
    let size := f.2
    let p := policyOf s.me m.pol
    let a := ea s m size
    let bs := leBytes size (getS s.me d).toNat
    Ready s [m.base, m.idx] [d, m.pol] → polBad p = false → polAcq p = false → a.toNat % size = 0 →
    scalarWaits s.me a size true = false →
    (InPool (s.core (coreOf s.cur)) a.toNat size → ReleaseNow s p → s.me.fenced = false →
      (s.core (coreOf s.cur)).spd.wf = true → (s.core (coreOf s.cur)).srf.wf = true →
      ∃ t, exec f.1 s = .next t ∧ t.me = retire s.me ∧ (∀ x, x ≠ s.cur → t.ctx x = s.ctx x) ∧ SameMemory s t
        ∧ StoredAt s t a.toNat bs)
    ∧ (∀ pa page u, resolve s (meWho s p) .write a size = .ok [{ at_ := 0, len := size, va := a.toNat, place := .mem pa page }] u →
        polRel p = false → u.me.fenced = false → u.me.chk = false → u.writeMeets pa size = false →
        ∃ t, exec f.1 s = .next t
          ∧ t.me = retire { u.me with stores := u.me.stores ++ [{ seq := u.me.seq, pc := u.me.pc, word := u.ir, released := false, va := a, pa := pa, bytes := bs }] }
          ∧ (∀ x, x ≠ u.cur → t.ctx x = u.ctx x) ∧ SameMemory (setDirty u u.me.part page) t ∧ SamePools u t)

/-- R139 to R141: an atomic on the local window stores the new value and answers the old one, at 64 and at 32 bits. -/
def Obligations.atomics_update : Prop :=
  ∀ (s : State) (d : SReg) (m : MemRef) (w32 : Bool), ∀ f ∈ atomForms d m w32,
    let size := if w32 then 4 else 8
    let p := policyOf s.me m.pol
    let a := ea s m size
    let old := BitVec.ofNat (8 * size) (winWord (s.core (coreOf s.cur)) a.toNat size)
    let new := f.2 old ((getS s.me d).setWidth (8 * size)) ((getS s.me (nextS d)).setWidth (8 * size))
    Ready s [m.base, m.idx] [d, nextS d, m.pol] → polBad p = false → a.toNat % size = 0 → scalarWaits s.me a size true = false →
    InPool (s.core (coreOf s.cur)) a.toNat size → ReleaseNow s p → s.me.stores = [] → s.me.chk = false → s.me.fenced = false →
    (polAcq p = true → Unmarked s a.toNat size) →
    (s.core (coreOf s.cur)).spd.wf = true → (s.core (coreOf s.cur)).srf.wf = true →
    ∃ t, exec f.1 s = .next t
      ∧ Written s t d (if w32 = true ∧ (f.1 = .amin d m w32 ∨ f.1 = .amax d m w32) then old.signExtend 64 else old.setWidth 64)
      ∧ t.me.pc = s.me.pc + 8 ∧ t.me.retired = s.me.retired + 1 ∧ t.me.f = s.me.f ∧ KeepsRest s t
      ∧ (∀ x, x ≠ s.cur → t.ctx x = s.ctx x) ∧ SameMemory s t ∧ StoredAt s t a.toNat (leBytes size new.toNat)

/-- R135: the first check that fails decides the fault, and the access is not made; the fault address is ea. -/
def Obligations.scalar_access_faults : Prop :=
  ∀ (s : State) (d : SReg) (m : MemRef) (w32 : Bool),
    let p := policyOf s.me m.pol
    let far (i : Instr) (a : Word) : Prop := exec i s = .next (freeze (clearReqs s s.cur 0 0 (2 ^ 64)) s.cur
      { cause := 0x01, elem := 0, addr := a, pc := s.me.pc, word := s.ir, nc := true, async := false })
    NothingHeld s → Ready s [m.base, m.idx] [d, nextS d, m.pol] →
    (∀ f ∈ loadForms d m, let a := ea s m f.2.1
      (polBad p = true ∨ polRel p = true → Freezes f.1 s 0x05 a)
      ∧ (polBad p = false → polRel p = false →
        (a.toNat % f.2.1 ≠ 0 → Freezes f.1 s 0x0B a)
        ∧ (a.toNat % f.2.1 = 0 → scalarWaits s.me a f.2.1 false = false → 2 ^ 57 ≤ a.toNat → far f.1 a)))
    ∧ (∀ f ∈ storeForms d m, let a := ea s m f.2
      (polBad p = true ∨ polAcq p = true → Freezes f.1 s 0x05 a)
      ∧ (polBad p = false → polAcq p = false →
        (a.toNat % f.2 ≠ 0 → Freezes f.1 s 0x0B a)
        ∧ (a.toNat % f.2 = 0 → scalarWaits s.me a f.2 true = false → (polRel p = true → enginesQuiet s s.cur = true) →
            2 ^ 57 ≤ a.toNat → far f.1 a)))
    ∧ (∀ f ∈ atomForms d m w32, let size := if w32 then 4 else 8; let a := ea s m size
      (polBad p = true → Freezes f.1 s 0x05 a)
      ∧ (polBad p = false → a.toNat % size ≠ 0 → Freezes f.1 s 0x0B a))

/-- R281, R298: a fence waits for the engines' accesses; an acquire fence then drops the scalar L1 at scope core or wider (R222),
a release fence performs every earlier scalar store. -/
def Obligations.fences : Prop :=
  ∀ (s : State) (sc : Scope),
    (enginesQuiet s s.cur = false → ∀ i ∈ [Instr.fenceFull sc, .fenceAcq sc, .fenceRel sc], exec i s = .next s)
    ∧ (enginesQuiet s s.cur = true →
      let u := drainReleased s s.cur
      u.me.stores = []
      ∧ (∃ t, exec (.fenceAcq sc) s = .next t ∧ t.me = retire { joinClock s.me s.me.seen with seen := [] }
          ∧ (∀ x, x ≠ s.cur → t.ctx x = s.ctx x) ∧ SameMemory s t ∧ SamePools s t
          ∧ (sc ≠ .context → (t.core (coreOf s.cur)).l1 = []))
      ∧ (∃ t, exec (.fenceRel sc) s = .next t ∧ t.me = retire { u.me with fenced := u.me.chk }
          ∧ (∀ x, x ≠ s.cur → t.ctx x = u.ctx x) ∧ SameMemory u t ∧ SamePools u t)
      ∧ (∃ t, exec (.fenceFull sc) s = .next t ∧ t.me.pc = u.me.pc + 8 ∧ t.me.retired = u.me.retired + 1 ∧ t.me.s = u.me.s
          ∧ t.me.f = u.me.f ∧ t.me.stores = [] ∧ t.me.seen = [] ∧ t.me.fenced = u.me.chk
          ∧ (∀ x, x ≠ s.cur → t.ctx x = u.ctx x) ∧ SameMemory u t ∧ SamePools u t
          ∧ (sc ≠ .context → (t.core (coreOf s.cur)).l1 = [])))

/-! ## Handles and the key-value cache, major ops 0x30 and 0x31 -/

/-- R381, R388: `hmk` and `hsp` make tensors; the descriptor of `hsp` is read here from the local window. -/
def Obligations.tensors_are_made : Prop :=
  ∀ (s : State) (d : HReg) (a b c : Src) (fmt : Fmt), hKind s.me.h[d] = 0 → (readSrc s.me c).toNat % 256 = 0 →
    (Ready s [a, b, c] [] → (readSrc s.me a).toNat < 2 ^ 57 → 1 ≤ (readSrc s.me b).toNat → (readSrc s.me b).toNat < 2 ^ 48 →
      MakesTensor (.hmk d a b c fmt) s s d 1 (readSrc s.me a).toNat (readSrc s.me b).toNat fmt (readSrc s.me c))
    ∧ (let at_ := (readSrc s.me a).toNat
       let u := drainStores s s.cur
       let word := fun k => winWord (u.core (coreOf s.cur)) (at_ + 8 * k) 8
       let n := word 0 % 8
       let size := fun l => word (8 + 4 * l) / 2 ^ 32
       let len := ((List.range n).map size).foldl (· * ·) 1
       Ready s [a, c] [] → at_ % 64 = 0 → scalarWaits s.me (readSrc s.me a) 192 false = false → loadsReturned s.me.window = true →
       s.me.chk = false →
       InPool (u.core (coreOf s.cur)) at_ (64 + 32 * n) → 1 ≤ n → n ≤ 4 → (∀ l < n, word (8 + 4 * l) % 4 ≠ 3 ∧ size l ≠ 0) →
       len ≤ 2 ^ 32 → MakesTensor (.hsp d a c fmt) s u d 2 at_ len fmt (readSrc s.me c))

/-- R382, R383, R387: the weight of a handle is halved, or 1 is split by a proxy record; drops and templates leave for the den
in order as releases, or are counted where no route leads; R387: what `hinfo` reads. -/
def Obligations.handle_weights : Prop :=
  ∀ (s : State) (d a : HReg) (e : SReg) (b : Src) (sel : BitVec 10),
    let c := s.me
    let h := c.h[a]
    let cl := clusterOf s.cur
    (hKind h ≠ 0 → hKind c.h[d] = 0 → d ≠ a →
      (1 ≤ hExp h → ∃ g, hExp g = hExp h - 1 ∧ hKind g = hKind h ∧ hPrx g = hPrx h ∧ hMod g = hMod h ∧ hDen g = hDen h
          ∧ hRec g = hRec h ∧ hGen g = hGen h ∧ g.w1 = h.w1 ∧ g.w2 = h.w2 ∧ g.w3 = h.w3
          ∧ Ends (.hcpy d a) s s (retire { c with h := (c.h.set a g).set d g }))
      ∧ (hExp h = 0 → DenFull s cl → Ends (.hcpy d a) s s (retire c))
      ∧ (hExp h = 0 → ¬ DenFull s cl → ∃ n g t, n < denSize s ∧ (denRecord s cl n).live = false
          ∧ hKind g = hKind h ∧ hPrx g = true ∧ hExp g = 30 ∧ hMod g = moduleNo s ∧ hDen g = cl ∧ hRec g = n
          ∧ hGen g = (denRecord s cl n).gen ∧ g.w1 = h.w1 ∧ g.w2 = h.w2 ∧ g.w3 = h.w3
          ∧ exec (.hcpy d a) s = .next t ∧ t.me = retire { c with h := (c.h.set a g).set d g }
          ∧ (∀ x, x ≠ s.cur → t.ctx x = s.ctx x) ∧ SameMemory s t ∧ SamePools s t
          ∧ RecordSet s t cl n { live := true, part := c.part, kind := hKind h, prx := true, ret := 0, fin := 0
                                 gen := (denRecord s cl n).gen, held := some h, poison := false, clock := [] }))
    ∧ (hKind h ≠ 0 → enginesQuiet s s.cur = false →
      Posted (.hdrop a) s (retire { c with h := c.h.set a Handle.empty })
      ∧ (Ready s [b] [] → (readSrc c b).toNat % 256 = 0 → hPrx h = false → Posted (.hfin a b) s (retire c)))
    ∧ (hKind h ≠ 0 → enginesQuiet s s.cur = true →
      let u := drainReleased s s.cur
      let gone := retire { u.me with h := u.me.h.set a Handle.empty }
      (hMod h = moduleNo s → ∃ t, exec (.hdrop a) s = .next t ∧ t.me = gone ∧ (∀ x, x ≠ s.cur → t.ctx x = u.ctx x)
        ∧ SameMemory u t ∧ DropAdded s t (hDen h) (dropOf u.me h none))
      ∧ (hMod h ≠ moduleNo s → hasRoute s (hMod h) = true → ∃ t f, exec (.hdrop a) s = .next t ∧ t.me = gone ∧ SameMemory u t
          ∧ t.outbox = s.outbox ++ [f] ∧ f.type = 5 ∧ f.dest = hMod h ∧ f.part = u.me.part ∧ f.inline = handleBytes h)
      ∧ (hMod h ≠ moduleNo s → hasRoute s (hMod h) = false → ∃ t, exec (.hdrop a) s = .next t ∧ t.me = gone ∧ SameMemory u t
          ∧ (t.part u.me.part).hndErr = satInc (s.part u.me.part).hndErr)
      ∧ (Ready s [b] [] → (readSrc c b).toNat % 256 = 0 → hPrx h = false →
          (hMod h = moduleNo s → ∃ t, exec (.hfin a b) s = .next t ∧ t.me = retire u.me ∧ (∀ x, x ≠ s.cur → t.ctx x = u.ctx x)
            ∧ SameMemory u t ∧ DropAdded s t (hDen h) (dropOf u.me h (some (readSrc c b))))
          ∧ (hMod h ≠ moduleNo s → hasRoute s (hMod h) = false → ∃ t, exec (.hfin a b) s = .next t ∧ t.me = retire u.me
              ∧ SameMemory u t ∧ (t.part u.me.part).hndErr = satInc (s.part u.me.part).hndErr)))
    ∧ (Ready s [] [e] →
      (sel.toNat < 4 → Ends (.hinfo e a sel) s s (retire (setS c e
        (if sel = 0 then h.w0 else if sel = 1 then h.w1 else if sel = 2 then h.w2 else h.w3))))
      ∧ (hKind h ≠ 0 → (hMod h = moduleNo s ∨ hasRoute s (hMod h) = false) → (sel = 4 ∨ sel = 5) →
          let r := denRecord s (hDen h) (hRec h)
          Ends (.hinfo e a sel) s s (retire (setS c e
            (if hMod h = moduleNo s ∧ r.live = true ∧ r.gen = hGen h ∧ r.part = c.part then
              (if sel = 4 then BitVec.ofNat 64 (2 ^ 31 - r.ret) else r.fin) else 0)))))

/-- R386: a handle is exclusive when its weight is all that is outstanding at its record, and, through a proxy, the weight 1
the proxy holds is all that is outstanding at the record behind it. -/
def Obligations.exclusivity : Prop :=
  ∀ (s : State) (d : FReg) (a : HReg),
    let h := s.me.h[a]
    let Named := fun (h : Handle) (r : DenRecord) => hMod h = moduleNo s ∧ r = denRecord s (hDen h) (hRec h) ∧ r.live = true
      ∧ r.gen = hGen h ∧ r.part = s.me.part
    let Sets := fun (v : Bool) => Ends (.hexcl d a) s s (retire (setF s.me d v))
    FlagsReady s [d] → hKind h ≠ 0 →
    (hMod h = moduleNo s → (∀ r, ¬ Named h r) → Sets false)
    ∧ (hMod h ≠ moduleNo s → hasRoute s (hMod h) = false → Sets false)
    ∧ (∀ r, Named h r → 2 ^ hExp h ≠ 2 ^ 31 - r.ret → Sets false)
    ∧ (∀ r, Named h r → 2 ^ hExp h = 2 ^ 31 - r.ret → r.poison = false →
        (r.prx = false → Sets true)
        ∧ (∀ g q, r.prx = true → r.held = some g → Named g q → q.poison = false → q.prx = false →
            Sets (decide (2 ^ hExp g = 2 ^ 31 - q.ret))))

/-- R385: a handle moves between a register and a slot, here a slot of the local window; a slot in the wrong state is a
handle-misuse fault and stays as it was. -/
def Obligations.handle_slots : Prop :=
  ∀ (s : State) (d b : HReg) (a : Src),
    let at_ := readSrc s.me a
    let k := coreOf s.cur
    let u := drainStores s s.cur
    let w := drainReleased s s.cur
    let old := winHandle (u.core k) at_.toNat
    let misused := fun (i : Instr) (v : State) => ∃ addr, exec i s = .next (freeze (clearReqs v.draw s.cur 0 0 (2 ^ 64)) s.cur
      { cause := 0x0E, elem := 0, addr := addr, pc := s.me.pc, word := s.ir, nc := true, async := false })
    Ready s [a] [] → at_.toNat % 32 = 0 → scalarWaits s.me at_ 32 true = false → InPool (u.core k) at_.toNat 32 →
    PoolForm (u.core k) →
    (hKind s.me.h[d] = 0 →
      (isLive old = true → 1 ≤ hKind old → hKind old ≤ 3 → s.me.chk = false → Unmarked u at_.toNat 32 →
        ∃ t, exec (.hld d a) s = .next t ∧ t.me = retire { u.me with h := u.me.h.set d (setLive old false) }
          ∧ (∀ x, x ≠ s.cur → t.ctx x = u.ctx x) ∧ SameMemory u t
          ∧ StoredAt u t at_.toNat (handleBytes (setLive old false)) ∧ (t.core k).l1 = [])
      ∧ ((isLive old = false ∨ hKind old = 0 ∨ 3 < hKind old) → NothingHeld s → Unmarked u at_.toNat 32 →
          misused (.hld d a) u))
    ∧ (hKind s.me.h[b] ≠ 0 → enginesQuiet s s.cur = true → s.me.chk = false →
      (isLive old = false →
        ∃ t, exec (.hst a b) s = .next t ∧ t.me = retire { w.me with h := w.me.h.set b Handle.empty }
          ∧ (∀ x, x ≠ s.cur → t.ctx x = w.ctx x) ∧ SameMemory w t
          ∧ StoredAt w t at_.toNat (handleBytes (setLive s.me.h[b] true)))
      ∧ (isLive old = true → NothingHeld s → misused (.hst a b) w))

/-- R392: `kvapp` appends one row a step; here in place, the table and the block in the local window and the entry exclusive: the
row goes to BASE + 256 i of the block, SEQLEN grows by 1, and the last row retires the instruction. -/
def Obligations.rows_are_appended : Prop :=
  ∀ (s : State) (a : HReg) (b : CReg),
    let x := getCol s.me (.c b)
    let h := s.me.h[a]
    let u := drainReleased s s.cur
    let c := u.core (coreOf s.cur)
    let r := (s.me.kv.map (·.row)).getD 0
    let base := hBase h
    let n := winWord c base 4
    let k := n / 16
    let i := n % 16
    let e := winHandle c (base + 64 + 32 * k)
    x.fmt = .v256 → hKind h = 1 → (∀ y ∈ s.me.window, entryWrites y (.c b) = false) → tableHeld s (tableKey h) = false →
    enginesQuiet s s.cur = true →
    (x.len ≤ r → Ends (.kvapp a b) s u (retire { u.me with kv := none }))
    ∧ (r < x.len → r < x.cap → base % 64 = 0 → n ≠ 2 ^ 32 - 1 → k < winWord c (base + 4) 4 → InPool c base (64 + 32 * (k + 1)) →
        isLive e = true → (∃ q, Names u (setLive e false) q ∧ 2 ^ hExp e = 2 ^ 31 - q.ret ∧ q.poison = false ∧ q.prx = false) →
        InPool c (hBase e + 256 * i) 256 → PoolForm c → s.me.chk = false →
        ∃ t v, exec (.kvapp a b) s = .next t
          ∧ t.me = (if r + 1 < x.len then { u.me with kv := some { row := r + 1, table := some (tableKey h), claim := none, block := none, made := none } }
              else retire { u.me with kv := none })
          ∧ (∀ y, y ≠ s.cur → t.ctx y = u.ctx y) ∧ SameMemory u t
          ∧ StoredAt u v (hBase e + 256 * i) ((List.range 256).map (fun j => c.srf.read (256 * x.base + 256 * r + j)))
          ∧ v.cur = s.cur ∧ StoredAt v t base (leBytes 4 (n + 1)))

/-- R393, R394, R418: what `kvdem`, `kvpro` and `kvinfo` do with the block of a position: a shadow and a demotion to LPDDR6, a
promotion to HBM, or the status word. -/
def Obligations.blocks_move_between_tiers : Prop :=
  ∀ (s : State) (d : FReg) (e : SReg) (a : HReg) (b : Src) (x : Block) (w : State),
    let h := s.me.h[a]
    let u := drainStores s s.cur
    let base := BitVec.ofNat 64 (hBase h)
    let ours := fun (g : Nat) (m : Migration) => decide (m.granule = g)
    hKind h = 1 → Ready s [b] [] → loadsReturned s.me.window = true → scalarWaits s.me base 64 false = false →
    scalarWaits s.me (base + BitVec.ofNat 64 (64 + 32 * ((readSrc s.me b).toNat / 16))) 32 false = false →
    blockOf u h (readSrc s.me b) = .ok x w → w.cur = s.cur →
    (FlagsReady s [d] → enginesQuiet s s.cur = true →
      ((x.granule = none ∨ w.phase = 3) → Ends (.kvdem d a b) s w (retire (setF w.me d false)))
      ∧ (∀ g, x.granule = some g → w.phase ≠ 3 →
        (mhas w.shadows g = true → ∃ t, exec (.kvdem d a b) s = .next t ∧ t.me = retire (setF w.me d true)
          ∧ t.migs = w.migs.filter (fun m => !(ours g m && m.toHbm)) ∧ t.shadows = w.shadows ∧ SameMemory w t)
        ∧ (mhas w.shadows g = false → shadowSlots w ≤ w.shadows.length → Ends (.kvdem d a b) s w (retire (setF w.me d false)))
        ∧ (∀ bs v, mhas w.shadows g = false → w.shadows.length < shadowSlots w →
            kvRead w 3 (BitVec.ofNat 64 (hBase x.entry)) 4096 true = .ok bs v → v.cur = s.cur →
            ∃ t, exec (.kvdem d a b) s = .next t ∧ t.me = retire (setF v.me d true) ∧ mhas t.shadows g = true ∧ SameMemory v t
              ∧ (v.migs.any (ours g) = false → v.inHbm.contains g = true →
                t.migs = v.migs ++ [{ granule := g, toHbm := false, copying := false, byKvdem := true, byKvpro := false }]))))
    ∧ (enginesQuiet s s.cur = true → ∃ t, exec (.kvpro a b) s = .next t ∧ t.me = retire w.me ∧ SameMemory w t
        ∧ (∀ g, x.granule = some g → w.migs.any (ours g) = false →
          (w.inHbm.contains g = false →
            t.migs = w.migs ++ [{ granule := g, toHbm := true, copying := false, byKvdem := false, byKvpro := true }]
              ∧ t.shadows = w.shadows)
          ∧ (w.inHbm.contains g = true → t.migs = w.migs ∧ t.shadows = mdel w.shadows g)))
    ∧ (Ready s [] [e] → ∀ r g ex, Names w (setLive x.entry false) r → x.granule = some g →
        exclusiveOf w false 32 (setLive x.entry false) = .ok ex w →
        ∃ v : Word, Ends (.kvinfo e a b) s w (retire (setS w.me e v)) ∧ v.toNat / 2 ^ 32 = 2 ^ 31 - r.ret
          ∧ v.toNat % 2 ^ 32 = ex.toNat * 16 + (w.migs.any (ours g)).toNat * 8 + (mhas w.shadows g).toNat * 4
              + (!w.inHbm.contains g).toNat)

/-! ## Synchronisation, queues and tasks, major ops 0x38 to 0x3A -/

/-- R299 to R304 on an object in the scratchpad: `bar.init` sets it and lets every waiter return broken, `bar.post` adds pending
bytes, `bar.arr` counts an arrival, `bar.wait` returns, parks or refuses, `bar.try` never parks. The address of an object is
checked first; the fault address is that of the object. -/
def Obligations.barriers : Prop :=
  (∀ (s : State) (d : SReg) (f : FReg) (a b : Src),
     let k := coreOf s.cur
     let addr := readSrc s.me a
     let at_ := addr.toNat
     let n := (readSrc s.me b).toNat
     let g : BitVec 32 := BitVec.ofNat 32 n
     let u := drainReleased s s.cur
     let o := winBar (s.core k) at_
     let failed := u.me.failed.isSome
     BarAt (s.core k) at_ → s.me.parked = none → s.me.chk = false →
     (Ready s [a, b] [] →
       (n = 0 ∨ n > 65535 → NothingHeld s → Freezes (.barInit a b) s 0x05 s.me.pc)
       ∧ (enginesQuiet s s.cur = false → ObjectFree s addr → 1 ≤ n → n ≤ 65535 → Posted (.barInit a b) s (retire s.me))
       ∧ (enginesQuiet s s.cur = true → ObjectFree s addr → 1 ≤ n → n ≤ 65535 →
           ∃ t, BarPut (.barInit a b) s u t (retire u.me) at_
               { broken := false, psn := failed, pend := 0, gen := 0, exp := n, arr := 0, rest := 0 }
             ∧ ∀ x, x ≠ s.cur → (∀ g f, ParkedOn u x at_ g f → Returned u t x f true)
                 ∧ ((∀ g f, ¬ ParkedOn u x at_ g f) → t.ctx x = u.ctx x))
       ∧ (ObjectFree s addr → o.broken = true ∨ n = 0 → Ends (.barPost a b) s s (retire s.me))
       ∧ (ObjectFree s addr → o.broken = false → n ≠ 0 → o.pend + n ≤ 2 ^ 56 - 1 →
           ∃ t, BarPut (.barPost a b) s s t (retire s.me) at_ { o with pend := o.pend + n } ∧ ∀ x, x ≠ s.cur → t.ctx x = s.ctx x)
       ∧ (ObjectFree s addr → o.broken = false → n ≠ 0 → o.pend + n > 2 ^ 56 - 1 → NothingHeld s → Freezes (.barPost a b) s 0x09 addr))
     ∧ (Ready s [a] [d] → enginesQuiet s s.cur = true →
       let c := enterMember (setS u.me d (BitVec.ofNat 64 o.gen.toNat)) addr
       let n := { o with arr := o.arr + 1, psn := o.psn || failed }
       (o.broken = true → Ends (.barArr d a) s u (retire c))
       ∧ (o.broken = false → o.arr = o.exp → NothingHeld s → exec (.barArr d a) s = .next (freeze u s.cur
           { cause := 0x09, elem := 0, addr := addr, pc := s.me.pc, word := s.ir, nc := true, async := false }))
       ∧ (o.broken = false → o.arr < o.exp →
         (¬ (o.arr + 1 = o.exp ∧ o.pend = 0) → ∃ t, BarPut (.barArr d a) s u t (retire c) at_ n ∧ ∀ x, x ≠ s.cur → t.ctx x = u.ctx x)
         ∧ (o.arr + 1 = o.exp → o.pend = 0 → ∃ t, BarPut (.barArr d a) s u t (retire c) at_ { n with gen := o.gen + 1, arr := 0 }
             ∧ ∀ x, x ≠ s.cur → (∀ f, ParkedOn u x at_ o.gen f → n.psn = false → Returned u t x f false)
                 ∧ ((∀ f, ¬ ParkedOn u x at_ o.gen f) → t.ctx x = u.ctx x))))
     ∧ (Ready s [a, b] [] → FlagsReady s [f] → ObjectFree s addr →
       let c := enterMember s.me addr
       (o.psn = true → NothingHeld s → Freezes (.barWait f a b) s 0x0C addr)
       ∧ (o.psn = false →
         (o.broken = true → Ends (.barWait f a b) s s (retire (setF c f true)))
         ∧ (o.broken = false → o.gen ≠ g → Ends (.barWait f a b) s s (retire (setF c f false)))
         ∧ (o.broken = false → o.gen = g →
             Ends (.barWait f a b) s s { c with parked := some (.barrier (at_ - windowBase) true addr g f) })))
     ∧ (Ready s [a, b] [d] → ObjectFree s addr →
       (o.psn = true → NothingHeld s → Freezes (.barTry d a b) s 0x0C addr)
       ∧ (o.psn = false → Ends (.barTry d a b) s s (retire (setS s.me d
           (if o.broken = true then 2 else if o.gen ≠ g then 1 else 0))))))
  ∧ (∀ (s : State) (d : SReg) (f : FReg) (a b : Src),
       let addr := readSrc s.me a
       NothingHeld s → Ready s [a, b] [d] → FlagsReady s [f] → ObjectFree s addr → ∀ i ∈ [Instr.barPost a b, .barWait f a b, .barTry d a b],
         (addr.toNat % 32 ≠ 0 → Freezes i s 0x0B addr)
         ∧ (addr.toNat % 32 = 0 → windowBase + 0x1000000 ≤ addr.toNat → addr.toNat < windowBase + 0x2000000 → Freezes i s 0x02 addr)
         ∧ (addr.toNat % 32 = 0 → 2 ^ 57 ≤ addr.toNat → Freezes i s 0x01 addr))

/-- R306, R308: the queue instructions, with their reason codes; a handle that fails the checks is refused. The owning core's
controller serves the oldest request that has reached it and sends its reason code back; the reply sets the flag and the context
goes on. -/
def Obligations.queues : Prop :=
  (∀ (s : State) (d b : SReg) (f : FReg) (a c : Src),
     let k := coreOf s.cur
     let h := readSrc s.me a
     let x := queueOf s (qCore h) (qId h)
     let u := drainReleased s s.cur
     (Ready s [a] [d] →
       (h.toNat % 64 ≠ 0 → NothingHeld s → FreezesSomewhere (.qmk d a) s 0x0B)
       ∧ (h.toNat % 64 = 0 → (∀ q, (queueOf s k q).st ≠ .free) → Loads (.qmk d a) s s d 0)
       ∧ (h.toNat % 64 = 0 → (∃ q, (queueOf s k q).st = .free) → ∃ q v t, (queueOf s k q).st = .free ∧ qGen v = (queueOf s k q).gen
           ∧ qPart v = s.me.part ∧ qCore v = k ∧ qId v = q ∧ v.toNat % 2 ^ 23 = 0 ∧ exec (.qmk d a) s = .next t ∧ Written s t d v
           ∧ t.me.pc = s.me.pc + 8 ∧ t.me.f = s.me.f ∧ KeepsRest s t ∧ (∀ y, y ≠ s.cur → t.ctx y = s.ctx y)
           ∧ SameMemory (writeImage s.draw s.me.part h) t
           ∧ QueueSet s t k q { gen := (queueOf s k q).gen, st := if residents s k < 16 then .resident else .swapped
                                image := h, entries := [] }))
     ∧ (Ready s [a, c] [d, nextS d, b, nextS b] → FlagsReady s [f] → NothingHeld s → ∀ i ∈ [Instr.qenq d a b f, .qdeq d a f, .qrm d a c, .qinfo d a],
       ((h.toNat % 2 ^ 23 ≠ 0 ∨ qCluster h > 95 ∨ qGen h = 0) → Freezes i s 0x05 s.me.pc)
       ∧ (h.toNat % 2 ^ 23 = 0 → qCluster h ≤ 95 → qGen h ≠ 0 → qPart h ≠ s.me.part → Freezes i s 0x02 s.me.pc)
       ∧ (GoodQueue s h → qCore h ≠ k → i ≠ .qenq d a b f → i ≠ .qinfo d a → FreezesSomewhere i s 0x02))
     ∧ (GoodQueue s h →
       (Ready s [a] [d, b, nextS b] → FlagsReady s [f] →
         (b.val % 2 = 1 → NothingHeld s → FreezesSomewhere (.qenq d a b f) s 0x05)
         ∧ (b.val % 2 = 0 → enginesQuiet s s.cur = false → Posted (.qenq d a b f) s (retire { s.me with pendS := d :: s.me.pendS, pendF := f :: s.me.pendF }))
         ∧ (b.val % 2 = 0 → enginesQuiet s s.cur = true →
           (qCore h = k → ∃ t r y, Offered x h (getS s.me b) (getS s.me (nextS b)) u.me.failed.isSome r y
             ∧ exec (.qenq d a b f) s = .next t ∧ t.me = retire (setF (setS u.me d (BitVec.ofNat 64 r)) f (decide (r ≤ 1)))
             ∧ (∀ y, y ≠ s.cur → t.ctx y = u.ctx y) ∧ SameMemory (if r = 1 then writeImage u (qPart h) x.image else u) t
             ∧ QueueSet u t k (qId h) y)
           ∧ (qCore h ≠ k → ∃ t, exec (.qenq d a b f) s = .next t
             ∧ t.me = retire { u.me with pendS := d :: u.me.pendS, pendF := f :: u.me.pendF }
             ∧ (∀ y, y ≠ s.cur → t.ctx y = u.ctx y) ∧ SameMemory u t ∧ (∀ l q, queueOf t l q = queueOf u l q)
             ∧ (t.core (qCore h)).qin = (s.core (qCore h)).qin ++
                 [{ ctx := s.cur, handle := h, lo := getS s.me b, hi := getS s.me (nextS b), bad := u.me.failed.isSome, d := d, f := f
                    reply := true, reason := 0 }])))
       ∧ (qCore h = k → queuePosted s.me h = false → Ready s [a] [d, nextS d] → FlagsReady s [f] →
         (Gone x h ∨ x.entries = [] → Sets (.qdeq d a f) s f false)
         ∧ (∀ lo hi bad rest, ¬ Gone x h → x.entries = (lo, hi, bad) :: rest →
           (bad = true → NothingHeld s → FreezesSomewhere (.qdeq d a f) s 0x0C)
           ∧ (bad = false → ∃ t, exec (.qdeq d a f) s = .next t ∧ t.me = retire (setF (setS (setS s.me d lo) (nextS d) hi) f true)
               ∧ (∀ y, y ≠ s.cur → t.ctx y = s.ctx y) ∧ (t.core k).l1 = []
               ∧ SameMemory (if x.st = .swapped then writeImage s (qPart h) x.image else s) t
               ∧ QueueSet s t k (qId h) { x with entries := rest })))
       ∧ (qCore h = k → queuePosted s.me h = false → Ready s [a, c] [d] →
         let m := (readSrc s.me c).toNat
         let Answers := fun (r : Word) (v : State) (y : HwQueue) => ∃ t, exec (.qrm d a c) s = .next t ∧ t.me = retire (setS s.me d r)
           ∧ (∀ y, y ≠ s.cur → t.ctx y = s.ctx y) ∧ SameMemory v t ∧ QueueSet s t k (qId h) y
         let w := writeImage s (qPart h) x.image
         (m ≥ 3 → NothingHeld s → FreezesSomewhere (.qrm d a c) s 0x05)
         ∧ (m ≤ 2 → Gone x h → Answers 3 s x)
         ∧ (¬ Gone x h →
           (m = 0 → ∃ g, g ≠ 0 ∧ g ≠ x.gen ∧ Answers 0 w { gen := g, st := .free, image := 0, entries := [] })
           ∧ (m = 1 → (x.st = .swapped → Answers 4 s x) ∧ (x.st = .resident → Answers 0 w { x with st := .swapped }))
           ∧ (m = 2 → (x.st = .resident → Answers 4 s x) ∧ (x.st = .swapped → residents s k ≥ 16 → Answers 2 s x)
               ∧ (x.st = .swapped → residents s k < 16 → Answers 0 w { x with st := .resident }))))
       ∧ (Ready s [a] [d] → queuePosted s.me h = false → x.entries.length ≤ 64 → ∃ v : Word, Gives (.qinfo d a) s d v ∧ v.toNat / 2 ^ 44 = x.gen.toNat
           ∧ v.toNat / 2 ^ 42 % 4 = (match x.st with | .free => 0 | .resident => 1 | .swapped => 2)
           ∧ v.toNat / 2 ^ 35 % 2 ^ 7 = x.entries.length
           ∧ v.toNat / 2 ^ 34 % 2 = (if x.gen = qGen h then 0 else 1) ∧ v.toNat % 2 ^ 34 = 0)))
  ∧ (∀ (s : State) (k : CoreId) (x : CtxId) (op : QueueOp) (rest : List QueueOp),
       ((s.core k).qin = [] → exec (.queueRequest k) s = .next s)
       ∧ ((s.core k).qin = op :: rest → ∃ t r y, exec (.queueRequest k) s = .next t ∧ (t.core k).qin = rest
           ∧ Offered (queueOf s k (qId op.handle)) op.handle op.lo op.hi op.bad r y ∧ QueueSet s t k (qId op.handle) y
           ∧ SameMemory (if r = 1 then writeImage s (qPart op.handle) (queueOf s k (qId op.handle)).image else s) t
           ∧ (∀ z, t.ctx z = if op.reply = true ∧ z = op.ctx then
               { s.ctx z with replies := (s.ctx z).replies ++ [{ op with reason := r }] } else s.ctx z))
       ∧ ((s.ctx x).replies = [] → exec (.queueReply x) s = .next s)
       ∧ ((s.ctx x).replies = op :: rest → ∃ t, exec (.queueReply x) s = .next t ∧ SameMemory s t
           ∧ (∀ z, z ≠ x → t.ctx z = s.ctx z)
           ∧ t.ctx x = setF (setS { s.ctx x with replies := rest, pendS := (s.ctx x).pendS.erase op.d
                                                 pendF := (s.ctx x).pendF.erase op.f } op.d (BitVec.ofNat 64 op.reason)) op.f
                         (decide (op.reason ≤ 1))))

/-- R19, R309 to R314: arming a run of nodes, adding an edge, yielding, the coordinates of a task, and a loop's capture. `tend` waits
for the instructions and accesses of its task; then the context is idle, with no handle and no row group, and its node has ended. -/
def Obligations.tasks : Prop :=
  (∀ (s : State) (d : SReg) (a b : Src) (sel : BitVec 10),
     let x := readSrc s.me a
     let y := readSrc s.me b
     let u := drainStores s s.cur
     (Ready s [a, b] [] →
       (x.toNat % 256 ≠ 0 → NothingHeld s → Freezes (.tsub a b) s 0x0B s.me.pc)
       ∧ (x.toNat % 256 = 0 → (y = 0 ∨ y.toNat > 65535) → NothingHeld s → Freezes (.tsub a b) s 0x05 s.me.pc)
       ∧ (∀ w, x.toNat % 256 = 0 → y ≠ 0 → y.toNat ≤ 65535 → checkNodes s y.toNat x = .ok () w → w.me.chk = false →
           let v := clearReqs w w.cur 0 0 (2 ^ 64)
           let z := drainReleased v v.cur
           (enginesQuiet v v.cur = false → PostedFrom (.tsub a b) s v (retire v.me))
           ∧ (enginesQuiet v v.cur = true → ∃ t, exec (.tsub a b) s = .next t ∧ t.me = retire z.me
             ∧ (∀ c, c ≠ z.cur → t.ctx c = z.ctx c)
             ∧ SameMemory (armRun (clusterOf z.cur) z.me.part y.toNat x (z.setMe (retire z.me))) t))
       ∧ (let trip := y.toNat
          let n := x.toNat
          ((n = 0 ∨ n > 128 ∨ trip ≥ 2 ^ 32) → NothingHeld s → Freezes (.lcap a b) s 0x05 s.me.pc)
          ∧ (∀ ws v, 1 ≤ n → n ≤ 128 → trip < 2 ^ 32 → captureBody s.cur n (s.me.pc + 8) s = .ok ws v →
             ∃ t, exec (.lcap a b) s = .next t ∧ t.me.body = ws ∧ t.me.bodyAt = v.me.pc + 8 ∧ t.me.lcnt.toNat = trip ∧ t.me.sc = 0
               ∧ (trip = 0 → t.me.bodyPos = none ∧ t.me.pc = v.me.pc + 8 + BitVec.ofNat 64 (8 * ws.length))
               ∧ (trip ≠ 0 → t.me.bodyPos = some 0 ∧ t.me.pc = v.me.pc + 8)
               ∧ t.me.s = v.me.s ∧ t.me.f = v.me.f ∧ t.me.c = v.me.c ∧ t.me.window = v.me.window
               ∧ (∀ z, z ≠ v.cur → t.ctx z = v.ctx z) ∧ SameMemory v t)))
     ∧ (Ready s [a, b] [d] →
       (x.toNat % 256 ≠ 0 → NothingHeld s → Freezes (.tdep d a b) s 0x0B x)
       ∧ (x.toNat % 256 = 0 → y.toNat % 256 ≠ 0 → NothingHeld s → Freezes (.tdep d a b) s 0x0B y)
       ∧ (∀ pa pb v w, x.toNat % 256 = 0 → y.toNat % 256 = 0 → scalarWaits s.me x 256 true = false →
           scalarWaits s.me y 256 true = false → depNode u x = .ok pa v → depNode v y = .ok pb w →
           let na := w.wordPA (pa.1 + 32)
           let nb := w.wordPA (pb.1 + 32)
           let r : Nat := if stState na = 4 then 1 else if stState na = 5 then 4 else if stState nb ≥ 2 then 3
             else if stNsucc na ≥ 11 then 2 else if nPred (w.wordPA pb.1) = 0xFFFF then 5 else 0
           ∃ t, exec (.tdep d a b) s = .next t ∧ t.me = retire (setS w.me d (BitVec.ofNat 64 r))
             ∧ (∀ z, z ≠ w.cur → t.ctx z = w.ctx z) ∧ (r ≠ 0 → SameMemory w t)
             ∧ (r = 0 → w.mem.wf = true → w.hostMem.wf = true → pa.1 % 256 = 0 → pb.1 % 256 = 0 → pa.1 < 2 ^ 52 → pb.1 < 2 ^ 52 →
                 pa.1 ≠ pb.1 → ∃ na' nb', stNsucc na' = stNsucc na + 1 ∧ stState na' = stState na ∧ na'.toNat % 2 ^ 57 = na.toNat % 2 ^ 57
                   ∧ nPred nb' = nPred (w.wordPA pb.1) + 1 ∧ nb'.toNat % 2 ^ 16 = (w.wordPA pb.1).toNat % 2 ^ 16
                   ∧ nb'.toNat / 2 ^ 32 = (w.wordPA pb.1).toNat / 2 ^ 32
                   ∧ WordsPut (setDirty (setDirty w w.me.part pa.2) w.me.part pb.2) t [(pa.1 + 8 * (5 + stNsucc na), y), (pa.1 + 32, na'), (pb.1, nb')])))
     ∧ (∃ t, exec .tyld s = .next t ∧ t.me = retire s.me ∧ (∀ z, z ≠ s.cur → t.ctx z = s.ctx z) ∧ SameMemory s t ∧ SamePools s t)
     ∧ (Ready s [] [d] →
       (∃ v : Word, Gives (.coord d 0) s d v ∧ v.toNat / 2 ^ 24 = s.me.part.toNat ∧ v.toNat / 2 ^ 20 % 16 = s.me.stage.toNat
         ∧ v.toNat / 2 ^ 19 % 2 = (if (clusterOf s.cur).toNat < 48 then 0 else 1) ∧ v.toNat / 2 ^ 12 % 2 ^ 7 = (clusterOf s.cur).toNat
         ∧ v.toNat / 2 ^ 10 % 4 = coreNo (coreOf s.cur) ∧ v.toNat / 2 ^ 7 % 8 = ctxNo s.cur ∧ v.toNat % 2 ^ 7 = 0)
       ∧ (s.me.node = none → Gives (.coord d 1) s d 0)
       ∧ (∀ p at_, s.me.node = some (.mem p at_) → Gives (.coord d 1) s d at_)
       ∧ (sel ≠ 0 → sel ≠ 1 → NothingHeld s → Freezes (.coord d sel) s 0x05 s.me.pc)))
  ∧ (∀ (s : State),
       let u := drainStores s s.cur
       (isHandlerCtx s.cur = true → NothingHeld s → Freezes .tend s 0x05 s.me.pc)
       ∧ (isHandlerCtx s.cur = false →
         ((s.me.window ≠ [] ∨ s.me.pendS ≠ [] ∨ s.me.pendF ≠ [] ∨ enginesQuiet s s.cur = false) → exec .tend s = .next s)
         ∧ (s.me.window = [] → s.me.pendS = [] → s.me.pendF = [] → enginesQuiet s s.cur = true → u.me.failed = none →
           ∃ t, exec .tend s = .next t ∧ t.me = Ctx.reset ∧ some s.cur ∉ (t.cluster (clusterOf s.cur)).groups
             ∧ (∀ b : BReg, (getBuf t (coreOf s.cur) b).stream = none → (getBuf t (coreOf s.cur) b).filler ≠ some s.cur)
             ∧ (∀ (b : BReg) st, (getBuf t (coreOf s.cur) b).stream = some st → st.ctx ≠ s.cur)
             ∧ (∀ y ∈ (t.core (coreOf s.cur)).admitted, y.1 ≠ s.cur) ∧ s.cur ∉ (t.core (coreOf s.cur)).waiting)))

/-! ## Frozen contexts and the system, major ops 0x40 and 0x41 -/

/-- R339, R341 to R346: what the instructions on a frozen context do with one that is resident; an empty capability is a
handle-misuse fault. A handler without a capability goes back to its sett; one that holds a capability is refused, and so is any
other context. -/
def Obligations.frozen_contexts : Prop :=
  (∀ (s : State) (d : SReg) (a : CapReg) (b c : Src),
     let m := (readSrc s.me b).toNat
     ((s.me.cap[a] = none ∨ ∃ k, s.me.cap[a] = some k ∧ findNamed s k = none) → Ready s [b, c] [d] →
       Gives (.frzInfo d a) s d 0
       ∧ (NothingHeld s → ∀ i ∈ [Instr.frzRd d a b, .frzWr a b c, .frzResRetry a, .frzResSkip a, .frzResPc a b, .frzKill a],
           Freezes i s 0x0E s.me.pc))
     ∧ (∀ k x, NamesCtx s a k x → isCorrupt (s.ctx x) = false → s.me.parked = none →
       let y := s.ctx x
       let u := drainReady s x
       let Reads := fun (v : Word) => Ends (.frzRd d a b) s u (retire (setS s.me d v))
       (Ready s [] [d] → ∃ v : Word, Gives (.frzInfo d a) s d v ∧ v.toNat / 2 ^ 44 = 0
         ∧ v.toNat / 2 ^ 43 % 2 = (if y.isHandler = true then 1 else 0) ∧ v.toNat / 2 ^ 40 % 8 = 1
         ∧ v.toNat / 2 ^ 36 % 16 = y.part.toNat ∧ v.toNat / 2 ^ 24 % 2 ^ 12 = k.ctx.toNat
         ∧ v.toNat % 2 ^ 24 = (recWord y 0).toNat % 2 ^ 24)
       ∧ (repliesDue s (.resident x) = true → (Ready s [b] [d] → exec (.frzRd d a b) s = .next s)
           ∧ (Ready s [b, c] [] → exec (.frzWr a b c) s = .next s))
       ∧ (Ready s [b] [d] → repliesDue s (.resident x) = false →
         (∀ r : SReg, m = r.val → Reads (getS y r))
         ∧ (m = 2 ^ 60 → ∃ v, Reads v ∧ v.toNat < 2 ^ 16 ∧ ∀ f : FReg, v.getLsbD f.val = y.f[f])
         ∧ (∀ h : HReg, m = 5 * 2 ^ 60 + h.val → Reads (y.h[h]).w0)
         ∧ (∀ h : HReg, m = 5 * 2 ^ 60 + 64 + h.val → Reads (y.h[h]).w1)
         ∧ (∀ n, n < 64 → m = 7 * 2 ^ 60 + n → Reads (recWord y n))
         ∧ (9 * 2 ^ 60 ≤ m → NothingHeld s → exec (.frzRd d a b) s = .next (freeze u s.cur
             { cause := 0x05, elem := 0, addr := s.me.pc, pc := s.me.pc, word := s.ir, nc := true, async := false })))
       ∧ (Ready s [b, c] [] → repliesDue s (.resident x) = false → ∀ r : SReg, m = r.val → ∃ t, exec (.frzWr a b c) s = .next t ∧ t.me = retire s.me
           ∧ t.ctx x = setS (u.ctx x) r (readSrc s.me c) ∧ (∀ z, z ≠ x → z ≠ s.cur → t.ctx z = u.ctx z) ∧ SameMemory u t)
       ∧ (enginesQuiet s s.cur = true →
         Resumes (.frzResRetry a) s k x y
         ∧ (recAsync y = false → recNc y = true → y.bodyPos = none → Resumes (.frzResSkip a) s k x { y with pc := y.pc + 8 })
         ∧ (Ready s [b] [] → m % 8 = 0 → m < 2 ^ 57 → Resumes (.frzResPc a b) s k x { y with pc := readSrc s.me b, window := [] }))
       ∧ (NothingHeld s →
         (recAsync y = true → FreezesSomewhere (.frzResSkip a) s 0x05)
         ∧ (Ready s [b] [] → (m % 8 ≠ 0 ∨ 2 ^ 57 ≤ m) → FreezesSomewhere (.frzResPc a b) s 0x05))
       ∧ (∃ t, exec (.frzKill a) s = .next t ∧ Ended (t.ctx x))))
  ∧ (∀ (s : State), NothingHeld s →
       (isHandlerCtx s.cur = false → Freezes .hret s 0x04 s.me.pc)
       ∧ (isHandlerCtx s.cur = true → (∃ j : CapReg, s.me.cap[j] ≠ none) → FreezesSomewhere .hret s 0x05)
       ∧ (isHandlerCtx s.cur = true → (∀ j : CapReg, s.me.cap[j] = none) →
         ((s.me.window ≠ [] ∨ s.me.pendS ≠ [] ∨ s.me.pendF ≠ [] ∨ enginesQuiet s s.cur = false) → exec .hret s = .next s)
         ∧ (s.me.window = [] → s.me.pendS = [] → s.me.pendF = [] → enginesQuiet s s.cur = true →
           (drainStores s s.cur).me.failed = none → ∃ t, exec .hret s = .next t ∧ t.me = Ctx.reset
             ∧ (∀ x, x ≠ s.cur → t.ctx x = s.ctx x) ∧ SameMemory (drainStores s s.cur) t)))

/-- R119, R120, R142, R17: special registers read and written; a number that R119 does not list is refused, and so is a value
outside the limits. -/
def Obligations.special_registers : Prop :=
  ∀ (s : State) (d : SReg) (sr : BitVec 12) (a : Src),
    let v := readSrc s.me a
    (Ready s [] [d] →
      (∀ p ∈ srValues s, sr.toNat = p.1 → Gives (.mfs d sr) s d p.2)
      ∧ (∀ n, (h : n < 15) → sr.toNat = 0x050 + n → Gives (.mfs d sr) s d s.me.bb[n])
      ∧ (sr = 0x009 → allYielded s.me = true → Gives (.mfs d sr) s d (s.me.yl.setWidth 64))
      ∧ (sr = 0x009 → allYielded s.me = false → exec (.mfs d sr) s = .next s)
      ∧ (0x010 ≤ sr.toNat → sr.toNat ≤ 0x015 → s.me.window ≠ [] → exec (.mfs d sr) s = .next s)
      ∧ (0x010 ≤ sr.toNat → sr.toNat ≤ 0x015 → s.me.window = [] → s.me.kv = none → Gives (.mfs d sr) s d 0)
      ∧ (isHandlerCtx s.cur = true → ∀ k x n, s.me.cap[(0 : CapReg)] = some k → findNamed s k = some (.resident x) → n < 64 →
          sr.toNat = 0x100 + n → Gives (.mfs d sr) s d (recWord (s.ctx x) n))
      ∧ (NothingHeld s → (sr.toNat ∈ [4, 7, 0x00C, 0x017, 0x023, 0x032, 0x042, 0x05F, 0x066] ∨ isHandlerCtx s.cur = false ∧ 0x100 ≤ sr.toNat) →
          Freezes (.mfs d sr) s 0x05 s.me.pc))
    ∧ (Ready s [a] [] →
      (∀ c, SrWritten s sr.toNat v c → Ends (.mts sr a) s s (retire c))
      ∧ (NothingHeld s → s.me.window = [] → SrRefused sr.toNat v → FreezesSomewhere (.mts sr a) s 0x05)
      ∧ ((sr = 0x018 ∨ sr = 0x019) → s.me.window ≠ [] → exec (.mts sr a) s = .next s))

/-- R143, R144, R147, R347, R370: `nop`, traps and breakpoints, and the removal of translations. `cyc` waits for the window and
for every access, then reads CYCLE; an `mfs` of CYCLE waits for nothing. `halt` waits for an empty window
and for every access; a context that no save area takes stays on its core, halted; a saved one leaves its position. The management
core hears of it. -/
def Obligations.system_instructions : Prop :=
  (∀ (s : State) (d : SReg) (a : Src) (n : BitVec 21) (count : BitVec 19),
     let u := drainStores s s.cur
     let v := drainReleased s s.cur
     let va := (readSrc s.me a).toNat
     Retires .nop s
     ∧ (Ready s [] [d] → s.me.window = [] → s.me.locks = [] → s.me.pendS = [] → s.me.pendF = [] → Loads (.cyc d) s u d u.cycle)
     ∧ ((s.me.window ≠ [] ∨ s.me.locks ≠ [] ∨ s.me.pendS ≠ [] ∨ s.me.pendF ≠ []) → exec (.cyc d) s = .next s)
     ∧ (Ready s [] [d] → Gives (.mfs d 0x040) s d s.cycle)
     ∧ (NothingHeld s →
       Freezes (.trap n) s 0x10 (n.setWidth 64)
       ∧ (s.ebrk = false → Freezes (.brk n) s 0x11 (n.setWidth 64))
       ∧ (s.ebrk = true → s.snap = none → exec (.brk n) s = .next (freeze
           { s with sntime := s.cycle, snap := some (snapshotOf s) } s.cur
           { cause := 0x11, elem := 0, addr := n.setWidth 64, pc := s.me.pc, word := s.ir, nc := true, async := false })))
     ∧ (enginesQuiet s s.cur = true → peersOwe s = false →
       Invalidated .tlbiAll s v (fun _ => True)
       ∧ (Ready s [a] [] → va < 2 ^ 57 →
         Invalidated (.tlbiPage a) s v (fun e => e.vbase ≤ va ∧ va < e.vbase + 2 ^ e.bits)
         ∧ (count ≠ 0 → Invalidated (.tlbiRange a count) s v (fun e => e.vbase < va / 4096 * 4096 + 4096 * count.toNat
             ∧ va / 4096 * 4096 < e.vbase + 2 ^ e.bits))))
     ∧ (enginesQuiet s s.cur = true → peersOwe s = true → ∃ t, exec .tlbiAll s = .next t ∧ t.me = v.me
         ∧ ∀ e, e ∈ t.tlb ↔ e ∈ s.tlb ∧ e.part ≠ s.me.part)
     ∧ (Ready s [a] [] → NothingHeld s → (2 ^ 57 ≤ va → Freezes (.tlbiPage a) s 0x05 s.me.pc ∧ Freezes (.tlbiRange a count) s 0x05 s.me.pc)
         ∧ (count = 0 → Freezes (.tlbiRange a count) s 0x05 s.me.pc)))
  ∧ (∀ (s : State) (n : BitVec 21),
       let u := drainStores s s.cur
       (s.me.window ≠ [] → exec (.halt n) s = .next s)
       ∧ (s.me.window = [] → contextQuiet u s.cur = true → u.me.failed = none →
         let c := { retire u.me with run := .halted, halt := n }
         (areasFree u s.me.part = 0 → Ends (.halt n) s u c)
         ∧ (areasFree u s.me.part ≠ 0 → MemForm s → ∃ t a, exec (.halt n) s = .next t ∧ t.me = Ctx.reset ∧ t.areas = u.areas ++ [a] ∧ a.st = .halted
             ∧ a.ctx = s.cur ∧ a.part = c.part ∧ a.halt = n ∧ a.saved.pc = s.me.pc + 8 ∧ a.saved.s = s.me.s ∧ a.saved.f = s.me.f
             ∧ (∀ x, x ≠ s.cur → t.ctx x = u.ctx x) ∧ OnlyAreas [a] u t)
         ∧ ∃ t, exec (.halt n) s = .next t ∧ (1 : Fin 32) ∈ t.msix))

/-- R230, R231: `pin` fills a free retention register within the partition's quota, `unpin` empties one. -/
def Obligations.retention : Prop :=
  ∀ (s : State) (f : FReg) (a : Src) (slot : Fin 8) (lines : BitVec 21),
    let base := (readSrc s.me a).toNat
    let n := lines.toNat
    let p := s.part s.me.part
    let fits := base % 128 = 0 ∧ n ≠ 0 ∧ base + 128 * n ≤ 2 ^ 57
    (Ready s [a] [] → FlagsReady s [f] →
      (¬ fits → NothingHeld s → FreezesSomewhere (.pin f a slot lines) s 0x05)
      ∧ (fits → (p.pins[slot] ≠ none ∨ pinnedBytes p + 128 * n > quotaOf s s.me.part) → Sets (.pin f a slot lines) s f false)
      ∧ (fits → p.pins[slot] = none → pinnedBytes p + 128 * n ≤ quotaOf s s.me.part →
          ∃ t, exec (.pin f a slot lines) s = .next t ∧ t.me = retire (setF s.me f true)
            ∧ (∀ x, x ≠ s.cur → t.ctx x = s.ctx x) ∧ SameMemory s t
            ∧ ∀ q (k : Fin 8), (t.part q).pins[k] = if q = s.me.part ∧ k = slot then some (base, n) else (s.part q).pins[k]))
    ∧ (∃ t, exec (.unpin slot) s = .next t ∧ t.me = retire s.me ∧ (∀ x, x ≠ s.cur → t.ctx x = s.ctx x) ∧ SameMemory s t
        ∧ (∀ q (k : Fin 8), (t.part q).pins[k] = if q = s.me.part ∧ k = slot then none else (s.part q).pins[k])
        ∧ ∀ l ∈ t.l2, l.owner ≠ some (s.me.part, slot))

/-- R45, R122, R333, R336 to R338, R348, R349: a freeze writes the record, leaves the context frozen in place with all it holds, and
its report enters the fault buffer of the cluster or is held unreported; where HENT.V is 0 or CAM masks the cause, the context is
killed. A handler context of the level-0 sett takes the oldest report of its cluster: it starts at HENT.ENTRY, of the partition of
the frozen context, which cap0 names, every other register as at launch. -/
def Obligations.faults_and_handlers : Prop :=
  (∀ (s : State) (x : CtxId) (i : FreezeInfo),
     let c := s.ctx x
     let p := s.part c.part
     let t := freeze s x i
     let k := s.cluster (clusterOf x)
     let cap : Capability := { ctx := x, ftime := s.cycle }
     isHandlerCtx x = false → i.cause < 0x13 →
     ((p.hent.toNat % 2 = 1 → p.cam.toNat / 2 ^ i.cause % 2 = 0 →
       (t.ctx x).run = .frozen ∧ (t.ctx x).parked = none ∧ (t.ctx x).s = c.s ∧ (t.ctx x).f = c.f ∧ (t.ctx x).h = c.h ∧ (t.ctx x).c = c.c
       ∧ (t.ctx x).pc = c.pc ∧ (t.ctx x).locks = c.locks ∧ (t.ctx x).members = c.members ∧ (t.ctx x).gmask = c.gmask
       ∧ (t.ctx x).window.map (fun e => (e.instr, e.pc, e.next, e.vs)) = c.window.map (fun e => (e.instr, e.pc, e.next, e.vs))
       ∧ (t.ctx x).record.length = 64 ∧ (recWord (t.ctx x) 0).toNat % 2 ^ 8 = i.cause
       ∧ (recWord (t.ctx x) 0).toNat / 2 ^ 17 % 2 = (if i.async = true then 1 else 0)
       ∧ (recWord (t.ctx x) 0).toNat / 2 ^ 18 % 2 = (if i.nc = true then 1 else 0)
       ∧ recWord (t.ctx x) 1 = i.pc ∧ recWord (t.ctx x) 2 = i.word ∧ recWord (t.ctx x) 3 = i.addr ∧ recWord (t.ctx x) 13 = s.cycle
       ∧ (recWord (t.ctx x) 12).toNat = x.toNat + c.part.toNat * 2 ^ 12 + c.stage.toNat * 2 ^ 16
       ∧ (∀ y, y ≠ x → t.ctx y = s.ctx y) ∧ SameMemory s t
       ∧ (k.faults.length < 64 → (t.cluster (clusterOf x)).faults = k.faults ++ [cap] ∧ (t.ctx x).reported = true
           ∧ (recWord (t.ctx x) 0).toNat / 2 ^ 16 % 2 = 0)
       ∧ (64 ≤ k.faults.length → (t.cluster (clusterOf x)).faults = k.faults ∧ (t.cluster (clusterOf x)).ovf = true
           ∧ (t.ctx x).reported = false ∧ (recWord (t.ctx x) 0).toNat / 2 ^ 16 % 2 = 1))
     ∧ ((p.hent.toNat % 2 = 0 ∨ p.cam.toNat / 2 ^ i.cause % 2 = 1) → Ended (t.ctx x))))
  ∧ (∀ (s : State) (cl : ClusterId) (k : Capability) (rest : List Capability) (x h : CtxId),
       cl ≠ 47 → cl ≠ 95 →
       ((s.cluster cl).faults = [] → exec (.handlerStart cl) s = .next s)
       ∧ ((s.cluster cl).faults = k :: rest → findNamed s k = some (.resident x) → capOf (s.ctx x) = k →
         (s.part (s.ctx x).part).frozen = false →
         (serverFor s cl k (s.ctx x).part = none → ∃ t, exec (.handlerStart cl) s = .next t ∧ (∀ y, t.ctx y = s.ctx y) ∧ SameMemory s t
           ∧ (t.cluster cl).faults = (k :: rest).filter (fun q => (findNamed s q).isSome))
         ∧ (serverFor s cl k (s.ctx x).part = some h →
           (s.ctx h).run = .idle ∧ isHandlerCtx h = true ∧ clusterOf h = cl
           ∧ ∃ t bank, exec (.handlerStart cl) s = .next t ∧ (t.core (coreOf h)).l1 = []
             ∧ t.ctx h = { Ctx.reset with run := .running, isHandler := true, part := (s.ctx x).part, bank := bank
                                          pc := BitVec.ofNat 64 ((s.part (s.ctx x).part).hent.toNat % 2 ^ 57 / 8 * 8)
                                          cap := (Vector.replicate 4 none).set 0 (some k) })))

/-- R107, R121, R122, R138, R294, R417: the word at the PC is fetched; a word refused freezes; a scalar store reaches memory when its
reply comes, or fails where it meets poison, and its context then freezes: with cause 0x12 at the next instruction boundary where a
release has left after it, else with cause 0x0C at the store; an uncorrectable error poisons its sector. -/
def Obligations.memory_and_fetch_events : Prop :=
  ∀ (s : State) (x : CtxId) (w : Word) (bad : Bool) (st : PendingStore) (rest : List PendingStore) (pa : BitVec 52),
    let sec := pa.toNat / 32
    (runnable s s.cur = true → ∀ v u, nextWord s s.cur = .ok v u → exec .instructionFetch s = .next { u with ir := v })
    ∧ (runnable s s.cur = true → s.me.script = [] → s.me.bodyPos = none → (2 ^ 57 ≤ s.me.pc.toNat) → NothingHeld s →
        ∃ t, exec .instructionFetch s = .next (freeze t s.cur
            { cause := 0x01, elem := 0, addr := s.me.pc, pc := s.me.pc, word := 0, nc := true, async := false }) ∧ (∀ y, t.ctx y = s.ctx y))
    ∧ (NothingHeld s → exec (.illegalInstruction w bad) s = .next (freeze { s with ir := w } s.cur
        { cause := if bad then 0x05 else 0x04, elem := 0, addr := s.me.pc, pc := s.me.pc, word := w, nc := true, async := false }))
    ∧ ((s.ctx x).window = [] → (s.ctx x).stores = st :: rest → s.mem.wf = true → s.hostMem.wf = true →
      ∃ t, exec (.memoryReply x) s = .next t ∧ (∀ y, y ≠ x → t.ctx y = s.ctx y)
        ∧ (s.writeMeets st.pa st.bytes.length = false → t.bytesPA st.pa st.bytes.length = st.bytes
            ∧ t.ctx x = { s.ctx x with stores := rest })
        ∧ (s.writeMeets st.pa st.bytes.length = true → SameMemory s t
            ∧ t.ctx x = { s.ctx x with stores := rest, failed := some ((s.ctx x).failed.getD st) }))
    ∧ (active (s.ctx x) = true → (s.ctx x).failed = some st → (∀ e ∈ (s.ctx x).window, e.held = []) → (s.ctx x).kv = none →
        freezeWaits s x = false → ∀ v u, nextWord s x = .ok v u → u.ctx x = s.ctx x →
        (st.released = true → exec (.storeFailedAfterRelease x) s = .next (freeze { u with ir := v } x
            { cause := 0x12, elem := 0, addr := st.va, pc := (s.ctx x).pc, word := v, nc := true, async := true }))
        ∧ (st.released = false → exec (.storeFailedAfterRelease x) s = .next (freeze
            ({ u with ir := v }.setCtx x { s.ctx x with failed := none }) x
            { cause := 0x0C, elem := 0, addr := st.va, pc := st.pc, word := st.word, nc := true, async := false })))
    ∧ (sec ∈ s.poison → exec (.uncorrectableError pa) s = .next s)
    ∧ (sec ∉ s.poison → ∃ t, exec (.uncorrectableError pa) s = .next t ∧ sec ∈ t.poison
        ∧ ((∀ y, ∀ p ∈ (s.ctx y).stores, p.released = false → sec ∉ sectorsOf p.pa p.bytes.length) →
            t = { s with poison := s.poison ++ [sec] }))

/-! ## Steps of the engines -/

/-- R34, R157, R419: a lane group of a context does one element group of its oldest entry there, at most 16 elements that begin at
a multiple of 16, each element from the sources' elements of the same number; a destination may be a source. -/
def Obligations.element_groups_compute : Prop :=
  ∀ (s : State) (x : CtxId) (g : Fin 4) (e : Entry) (d : CReg) (a b : Col) (f : Fmt) (m n : Nat) (D : Dest) (k : Nat),
    let i := laneNext e g.val
    let hi := min e.len (i / 16 * 16 + 16)
    let res := fun (j : Nat) => (laneForms d a b f (colElem s x a f j) (colElem s x b f j))[k]?
    Alone s x e → e.engine = .lanes → isInteger f = true → e.fmt = f → e.dests = [D] → D.reg = .c d → D.fmt = f →
    Reads e.srcA a f m → Reads e.srcB b f n → e.srcC = none → i < e.len → InSrf s x (.c d) f e.len → InSrf s x a f e.len → InSrf s x b f e.len →
    NoOverlap s x (.c d) a f e.len → NoOverlap s x (.c d) b f e.len → (∃ v, res i = some (e.instr, v)) →
    Produces (.elementGroup x g) s x (.c d) f i ((List.range (hi - i)).map (fun j => ((res (i + j)).map (·.2)).getD 0)) e.len

/-- R47, R176, R196, R200, R204, R264, R269, R270: a relational instruction goes on by a group of 16, `selb` listing the positions of the
elements that are not 0 and `prj` the elements at positions; `gath` by a batch of 64 indices, here in the local window; `macrd` by a
row of an accumulator; `xclr` by the xaccs that begin in 256 bytes. -/
def Obligations.engines_advance : Prop :=
  ∀ (s : State) (x : CtxId) (e : Entry) (p : PReg) (d : CReg) (r q : Col) (f : Fmt) (m n : Nat) (D : Dest) (a b : Src) (pol : SReg)
    (disp : BitVec 11) (acc : AReg),
    let k := s.core (coreOf x)
    Alone s x e → e.dests = [D] →
    (e.engine = .relational → e.fin = false → e.phase = .stream → e.srcC = none → e.vs < e.len →
      let hi := min (e.vs + 16) e.len
      let hits := (List.range' e.vs (hi - e.vs)).filter (fun j => colElem s x r f j != 0)
      let at_ := fun (j : Nat) => colElem s x q .n32 j
      (e.instr = .selb p r none → e.fmt = f → isInteger f = true → Reads e.srcA r f m → e.srcB = none → InSrf s x r f e.len → D.reg = .p p →
        D.fmt = .pos32 → InSrf s x (.p p) .pos32 (e.oc + hits.length) → e.oc + hits.length < 2 ^ 32 →
        Produces (.relationalGroupCommit x) s x (.p p) .pos32 e.oc hits (e.oc + hits.length))
      ∧ (e.instr = .prj d r q → e.fmt = f → Reads e.srcA r f m → Reads e.srcB q .n32 n → InSrf s x r f m → InSrf s x q .n32 e.len →
        (∀ j, e.vs ≤ j → j < hi → at_ j < m) → D.reg = .c d → D.fmt = f → InSrf s x (.c d) f e.len → e.oc = e.vs → e.len < 2 ^ 32 →
        Produces (.relationalGroupCommit x) s x (.c d) f e.vs ((List.range (hi - e.vs)).map (fun j => colElem s x r f (at_ (e.vs + j)))) e.len))
    ∧ (e.engine = .slice → e.fin = false → e.vs < e.len → e.instr = .gath d a r pol none disp → e.admitted = true →
      e.fmt = f → e.mfmt = some f → isInteger f = true → e.srcA = none → Reads e.srcB r .n32 n → e.srcC = none → InSrf s x r .n32 e.len → D.reg = .c d → D.fmt = f →
      InSrf s x (.c d) f e.len →
      let w := elemBytes f
      let ad := fun (j : Nat) => (e.opA + BitVec.ofInt 64 ((disp.toInt + colElem s x r .n32 j) * w)).toNat
      let c := min (e.vs + 64) e.len - e.vs
      (∀ j, j < c → ad (e.vs + j) % w = 0 ∧ InPool k (ad (e.vs + j)) w) →
      Produces (.indexBatch x) s x (.c d) f e.vs ((List.range c).map (fun j => winWord k (ad (e.vs + j)) w)) e.len)
    ∧ (e.engine = .matrix → e.fin = false → e.instr = .macrd d acc a b f → e.srcA = none → e.srcB = none → e.srcC = none → (f = .f32 ∨ f = .i32) →
      let bank := ((s.ctx x).acc[acc]).visible
      let col := e.opC.toNat % 2 ^ 9
      let w := e.opC.toNat / 2 ^ 16 % 2 ^ 9
      bank.tag = f → w ≠ 0 → D.reg = .c d → D.fmt = f → InSrf s x (.c d) f ((e.vs + 1) * w) →
      Produces (.activationRow x) s x (.c d) f (e.vs * w)
        ((List.range w).map (fun j => (mget bank.cells (e.opB.toNat + e.vs, col + j) 0).toNat)) ((e.vs + 1) * w))
    ∧ (e.engine = .exact → e.fin = false → e.instr = .xclr a b → e.srcA = none → e.srcB = none → e.srcC = none → e.mask = [] → k.spd.wf = true →
      let lo := (e.vs + 47) / 48
      let hi := min ((e.vs + 256 + 47) / 48) e.len
      let at_ := e.opA.toNat + 48 * lo
      lo < hi → e.opA.toNat % 16 = 0 → InPool k at_ (48 * (hi - lo)) →
      ∃ t, exec (.byteBatch x) s = .next t ∧ SameMemory s t ∧ (∀ y, y ≠ x → t.ctx y = s.ctx y)
        ∧ ∀ l c, windowBase ≤ c → winByte (t.core l) c =
          if l = coreOf x ∧ at_ ≤ c ∧ c < at_ + 48 * (hi - lo) then 0 else winByte (s.core l) c)

/-- R238, R239, R243, R245, R248 to R250: the bytes of a copy's segment, here within the local window; a strip of a stream, here from
the scratchpad; and the admission of a claim to a free entry. -/
def Obligations.copies_strips_and_claims_advance : Prop :=
  ∀ (s : State) (x : CtxId) (b : BReg),
    let k := coreOf x
    let c := s.core k
    let B := getBuf s k b
    PoolForm c →
    (∀ (e : Entry) (d : SReg) (p q : Src) (pol : SReg),
      Alone s x e → e.engine = .stream → e.fin = false → e.instr = .cpy d p q pol none { mode := 0, handle := 0 } → e.bind = none →
      e.strips = [] → 0 < e.len → e.len ≤ 4096 → e.len % 32 = 0 → e.vs = 0 → InPool c e.opA.toNat e.len → InPool c e.opB.toNat e.len →
      e.opA.toNat % 32 = 0 → e.opB.toNat % 32 = 0 → (e.opA.toNat - windowBase < 0x1000000 ↔ e.opB.toNat - windowBase < 0x1000000) →
      ∃ t, exec (.copySegment x) s = .next t ∧ SameMemory s t ∧ (∀ y, y ≠ x → t.ctx y = s.ctx y)
        ∧ ∀ l a, windowBase ≤ a → winByte (t.core l) a = if l = k ∧ e.opA.toNat ≤ a ∧ a < e.opA.toNat + e.len
            then winByte c (e.opB.toNat + (a - e.opA.toNat)) else winByte (s.core l) a)
    ∧ (∀ (st : Stream),
      B.stream = some st → st.ctx = x → B.st = .free → B.uses = 0 → st.fault = none → st.start < st.total → st.mfmt = some st.fmt →
      st.pol = 0 → isInteger st.fmt = true → (s.ctx x).run = .running → (s.ctx x).stopping = false →
      (s.ctx x).chk = false → (s.ctx x).stores = [] → fillWaits (s.ctx x) st = false → lockRoom (s.ctx x) st = true →
      quietBefore (s.ctx x) st.seq = true →
      let w := elemBytes st.fmt
      let n := min st.strip (st.total - st.start)
      let ad := fun (j : Nat) => (st.base + BitVec.ofInt 64 (((st.start + j : Nat) : Int) * st.stride.toInt * w)).toNat
      let at_ := windowBase + 256 * B.base
      (∀ j, j < n → ad j % w = 0 ∧ InPool c (ad j) w ∧ ad j - windowBase < 0x1000000) → 0x10000 ≤ B.base →
      256 * B.base + n * w ≤ 0x1000000 + poolSrf c.poolw * 65536 →
      ∃ t, exec (.stripFill k b) s = .next t ∧ SameMemory s t ∧ (∀ y, y ≠ x → t.ctx y = s.ctx y)
        ∧ getBuf t k b = { B with st := .full, filler := none } ∧ (∀ q, q ≠ b → getBuf t k q = getBuf s k q)
        ∧ ∀ j, j < n → winWord (t.core k) (at_ + j * w) w = winWord c (ad j) w)
    ∧ (∀ (at_ : Word), (s.ctx x).run = .running → (s.ctx x).stopping = false → (s.ctx x).window = [] →
      (s.ctx x).parked = some (.admission b at_) → enginesQuiet s x = true → (s.ctx x).stores = [] → B.st = .free → B.uses = 0 →
      (∀ n < 5, ctxOn k n ≠ x → (s.ctx (ctxOn k n)).window = [] ∧ ∀ q c, (s.ctx (ctxOn k n)).parked ≠ some (.admission q c)) →
      ∃ t, exec (.bufferAdmission x) s = .next t ∧ SameMemory s t ∧ (∀ y, y ≠ x → t.ctx y = s.ctx y)
        ∧ t.ctx x = retireWord { s.ctx x with parked := none }
        ∧ ∀ l q, getBuf t l q = if l = k ∧ q = b then { B with st := .filling, clm := true, filler := some x } else getBuf s l q)

/-! ## Stops, walkers and the issue of contexts -/

/-- R354, R356, R357, R359, R400: replies awaited 4,096 cycles after acceptance are abandoned: reads are dropped, stores and atomics keep
their tags; a stop whose contexts are all quiet, or whose replies are abandoned, saves each that holds a task, leaves its position
idle and reports to its command; of memory, only the new save areas change. -/
def Obligations.stops_complete : Prop :=
  ∀ (s : State) (r : StopReq) (pre post : List StopReq), s.stops = pre ++ r :: post →
    let Waits := fun (p : StopReq) => s.cycle.toNat < p.since.toNat + 4096 ∧ ∃ x ∈ p.targets, contextQuiet s x = false
    ((∀ p ∈ pre, s.cycle.toNat < p.since.toNat + 4096) → r.since.toNat + 4096 ≤ s.cycle.toNat →
      ∃ t, exec .stopAbandon s = .next t ∧ t = { s with reqs := t.reqs }
        ∧ ∀ q, q ∈ t.reqs ↔ q ∈ s.reqs ∧ ¬ (Awaited r q ∧ q.kind ∈ [.read, .segRead, .den]))
    ∧ ((∀ p ∈ s.stops, s.cycle.toNat < p.since.toNat + 4096) → exec .stopAbandon s = .next s)
    ∧ ((∀ p ∈ pre, Waits p) → ¬ Waits r → r.targets.Nodup → MemForm s →
      ∃ t, exec .stopComplete s = .next t ∧ t.stops = pre ++ post
        ∧ (∃ new, t.areas = s.areas ++ new ∧ OnlyAreas new s t
          ∧ new.length = (r.targets.filter (fun x => (s.ctx x).run ≠ .idle)).length
          ∧ ∀ x ∈ r.targets, (s.ctx x).run ≠ .idle → t.ctx x = Ctx.reset ∧ ∃ a ∈ new, Saves a x (s.ctx x))
        ∧ (∀ x, x ∉ r.targets → t.ctx x = s.ctx x)
        ∧ (r.byCmd = true → t.mstat = 0 ∧ (0 : Fin 32) ∈ t.msix) ∧ (r.byCmd = false → t.mstat = s.mstat ∧ t.msix = s.msix))
    ∧ ((∀ p ∈ s.stops, Waits p) → exec .stopComplete s = .next s)


/-- R17, R18, R219, R322, R323, R325 to R327: a decrement reaches its successor, whose state becomes leasing when it was the last; a node
without granules of local memory gets its lease at once and enters a ready queue; a core launches its oldest entry, or the last
one of a core that it has asked, on its lowest idle position; a core idle for 256 cycles asks five others. -/
def Obligations.tasks_arm_and_launch : Prop :=
  ∀ (s : State) (cl : ClusterId) (ref : NodeRef) (k v : CoreId) (x : CtxId) (r : Machine.Ready) (rest : List Machine.Ready),
    (∀ decs w st u p, (s.cluster cl).decs = ref :: decs →
      nodeWord (s.modCluster cl (fun c => { c with decs := decs })) cl ref 0 = .ok w p → nodeWord p cl ref 4 = .ok st u →
      (nPred w = 0 → exec (.successorDecrement cl) s = .next (failNode u cl ref 9))
      ∧ (nPred w ≠ 0 → ∀ q, nodePut u cl ref 0 (withBits w 16 16 (nPred w - 1)) = .ok () q →
        (¬ (nPred w = 1 ∧ stState st = 1) → exec (.successorDecrement cl) s = .next q)
        ∧ (nPred w = 1 → stState st = 1 → ∀ q', nodePut q cl ref 4 (withState st 2 0) = .ok () q' →
            ∃ t home, exec (.successorDecrement cl) s = .next t ∧ SameMemory q' t ∧ (∀ y, t.ctx y = q'.ctx y)
              ∧ (t.cluster home).leasing = (q'.cluster home).leasing ++ [ref] ∧ ref ∉ (t.cluster home).armed)))
    ∧ (∀ ws u q, (s.cluster cl).leasing = [ref] → nodeWords s.draw cl ref = .ok ws u → granulesOf u (nPart (wd ws 0)) (leasesOf ws) = [] →
      (stState (wd ws 4) ≠ 2 → ∃ t, exec (.leaseHeld cl) s = .next t ∧ (t.cluster cl).leasing = [] ∧ SameMemory u t
        ∧ (∀ y, t.ctx y = u.ctx y) ∧ ∀ c, (t.core c).ready = (u.core c).ready)
      ∧ (stState (wd ws 4) = 2 → (u.part (nPart (wd ws 0))).frozen = true → exec (.leaseHeld cl) s = .next u)
      ∧ (stState (wd ws 4) = 2 → (u.part (nPart (wd ws 0))).frozen = false → nChk (wd ws 0) = false →
        nodePut u.draw cl ref 4 (withState (wd ws 4) 3 0) = .ok () q → (q.cluster cl).leasing = [ref] →
        let w := wd ws 0
        ∃ t c, exec (.leaseHeld cl) s = .next t ∧ (t.cluster cl).leasing = [] ∧ SameMemory q t ∧ (∀ y, t.ctx y = q.ctx y)
          ∧ coreCluster c = coreCluster (coreAt cl 0) ∧ (nCoreAny w = false → c = coreAt cl (nCore w))
          ∧ (nCoreAny w = true → ∀ n < 4, (q.core c).ready.length ≤ (q.core (coreAt cl n)).ready.length)
          ∧ ∃ e, (t.core c).ready = (q.core c).ready ++ [e] ∧ e.node = ref ∧ e.part = nPart w ∧ e.pool = nPool w
            ∧ e.coreAny = nCoreAny w))
    ∧ (validCore k = true → (s.core k).ready = r :: rest → mayLaunch s k r = true → r.pool = (s.core k).poolw → idleUser s k = some x →
      ∀ ws u q, nodeWords s (coreCluster k) r.node = .ok ws u → PlainTask ws → stState (wd ws 4) = 3 → (∃ p a, r.node = .mem p a) → clusterOf x = coreCluster k →
        nodeWords (s.modCore k (fun c => { c with ready := rest, idle := 0 })) (coreCluster k) r.node = .ok ws q →
        ∃ t, exec (.taskLaunch k) s = .next t ∧ Launched s t x r ws ∧ (t.core k).ready = rest ∧ SameMemory q t)
    ∧ (validCore k = true →
      (coreIdle s k = false → ∃ t, exec (.idleSteal k) s = .next t ∧ t.core k = { s.core k with idle := 0, asks := [] }
        ∧ (∀ l, l ≠ k → t.core l = s.core l) ∧ (∀ y, t.ctx y = s.ctx y))
      ∧ (coreIdle s k = true → (s.core k).asks = [] →
        ∃ t, exec (.idleSteal k) s = .next t ∧ (∀ l, l ≠ k → t.core l = s.core l) ∧ (∀ y, t.ctx y = s.ctx y)
          ∧ ((s.core k).idle + 1 < 256 → t.core k = { s.core k with idle := (s.core k).idle + 1 })
          ∧ (256 ≤ (s.core k).idle + 1 → t.core k = { s.core k with idle := 0, asks :=
              let n := k.toNat % 4
              let cl := k.toNat / 4
              [.core (BitVec.ofNat 9 (4 * cl + (n + 1) % 4)), .core (BitVec.ofNat 9 (4 * cl + (n + 2) % 4))
               , .core (BitVec.ofNat 9 (4 * cl + (n + 3) % 4)), .walker (BitVec.ofNat 7 ((cl + 95) % 96))
               , .walker (BitVec.ofNat 7 ((cl + 1) % 96))] }))
      ∧ (∀ asks, coreIdle s k = true → (s.core k).asks = .core v :: asks → k ≠ v → (s.core v).ready = rest ++ [r] → idleUser s k = some x →
        (¬ (rest ≠ [] ∧ r.coreAny = true ∧ (coreCluster k = coreCluster v ∨ r.clAny = true) ∧ r.pool = (s.core k).poolw
            ∧ mayLaunch s k r = true) →
          ∃ t, exec (.stealRequest k v) s = .next t ∧ t.core k = { s.core k with asks := asks } ∧ (∀ l, l ≠ k → t.core l = s.core l)
            ∧ (∀ y, t.ctx y = s.ctx y))
        ∧ (rest ≠ [] → r.coreAny = true → (coreCluster k = coreCluster v ∨ r.clAny = true) → r.pool = (s.core k).poolw →
          mayLaunch s k r = true → ∀ ws q, PlainTask ws → stState (wd ws 4) = 3 → (∃ p a, r.node = .mem p a) →
          nodeWords ((s.setCore k { s.core k with asks := [], idle := 0 }).modCore v (fun c => { c with ready := rest })) (clusterOf x) r.node
            = .ok ws q →
          ∃ t, exec (.stealRequest k v) s = .next t ∧ Launched s t x r ws ∧ (t.core v).ready = rest ∧ (t.core k).asks = []
            ∧ SameMemory q t)))

/-- R312, R329, R330: in each cycle the entry of the slot table that the cycle selects gives the issue to a context of its partition,
the one after the last that issued; to the next partition that has one where the entry is not strict, and to nobody where it is. The
context admitted longest ago makes room after 64 cycles for one that waits. -/
def Obligations.contexts_take_turns : Prop :=
  ∀ (s : State) (k : CoreId), validCore k = true →
    (AllAdmitted s k →
      let e := mget (s.core k).slots (s.cycle.toNat % 64) 0
      let p : PartId := BitVec.ofNat 4 (e.toNat % 16)
      let last := mget (s.core k).lastIss p 4
      ∃ t, exec (.slotTableCycle k) s = .next t ∧ (∀ y, t.ctx y = s.ctx y) ∧ SameMemory s t
        ∧ ((∃ x, Able s k p x) → ∃ x, Able s k p x ∧ t.agenda = .run x :: s.agenda
            ∧ ((∃ y, Able s k p y ∧ last < ctxNo y) → last < ctxNo x ∧ ∀ y, Able s k p y → last < ctxNo y → ctxNo x ≤ ctxNo y)
            ∧ ((∀ y, Able s k p y → ctxNo y ≤ last) → ∀ y, Able s k p y → ctxNo x ≤ ctxNo y))
        ∧ ((¬ ∃ x, Able s k p x) → e.toNat / 16 % 2 = 1 → t.agenda = s.agenda)
        ∧ ((¬ ∃ x, Able s k p x) → e.toNat / 16 % 2 = 0 → (∃ q x, Able s k q x) → ∃ q x, Able s k q x ∧ t.agenda = .run x :: s.agenda))
    ∧ (∀ a w since, a ∈ ctxsOf k → w ∈ ctxsOf k → a ≠ w → isHandlerCtx a = false → isHandlerCtx w = false → (s.ctx a).part = (s.ctx w).part →
      (∀ x ∈ ctxsOf k, runnable s x = true ↔ x = a ∨ x = w) → shareOf s k (s.ctx a).part = 1 →
      (s.core k).admitted = [(a, since, true)] → (s.core k).waiting = [w] →
      ∃ t, exec (.admissionRotate k) s = .next t ∧ (∀ y, t.ctx y = s.ctx y) ∧ SameMemory s t
        ∧ (since + 64 ≤ s.cycle.toNat → (t.core k).admitted = [(w, s.cycle.toNat, false)] ∧ (t.core k).waiting = [a])
        ∧ (s.cycle.toNat < since + 64 → (t.core k).admitted = [(a, since, true)] ∧ (t.core k).waiting = [w]))

/-! ## Handle units, migrations and deadlines -/

/-- R372, R376, R383, R384, R418: a drop adds 2^E to RET of its record, which dies when RET reaches TOTAL: a proxy drops what it
holds, a tensor with a template waits for a finaliser slot; a drop that names no such record is discarded and counted. A migration
starts, switches the tier or is abandoned, and no byte of memory differs; the rows of a deadline load that have not come in time are
taken from their shadows. -/
def Obligations.handle_units_and_migrations : Prop :=
  ∀ (s : State) (cl : ClusterId) (g : Nat) (x : CtxId),
    (∀ d rest r, (s.cluster cl).drops = d :: rest → hDen d.handle = cl →
      let n := hRec d.handle
      let got := r.ret + 2 ^ hExp d.handle
      let y : DenRecord := { r with poison := r.poison || d.bad, clock := clockMax r.clock d.clock }
      ((∀ z, ¬ Takes s cl d z) → ∃ t, exec (.dropAtDen cl) s = .next t ∧ HandleError s t d.part ∧ (t.cluster cl).drops = rest)
      ∧ (Takes s cl d r → ∃ t, exec (.dropAtDen cl) s = .next t ∧ SameMemory s t ∧ (∀ z, t.ctx z = s.ctx z)
        ∧ (∀ f, d.fin = some f → (t.cluster cl).drops = rest ∧ RecordSet s t cl n { y with fin := f })
        ∧ (d.fin = none → 2 ^ 31 < got → (t.cluster cl).drops = rest ∧ HandleError s t d.part)
        ∧ (d.fin = none → got < 2 ^ 31 → (t.cluster cl).drops = rest ∧ RecordSet s t cl n { y with ret := got })
        ∧ (d.fin = none → got = 2 ^ 31 →
          RecordSet s t cl n { DenRecord.reset with gen := r.gen + 1 }
          ∧ (∀ h, r.held = some h → r.prx = true → hMod h = moduleNo s → ∀ k, (t.cluster k).drops = (if k = cl then rest else (s.cluster k).drops)
              ++ (if k = hDen h then [{ handle := h, part := r.part, bad := y.poison, clock := y.clock, fin := none }] else []))
          ∧ (r.held = none → r.fin = 0 → (t.cluster cl).deaths = (s.cluster cl).deaths)
          ∧ (r.held = none → r.fin ≠ 0 → (t.cluster cl).deaths = (s.cluster cl).deaths ++
              [{ part := r.part, tmpl := r.fin, base := BitVec.ofNat 64 (hBase d.handle), len := BitVec.ofNat 64 (hLen d.handle)
                 kindFmt := BitVec.ofNat 64 (r.kind * 256 + hFmtCode d.handle), poison := y.poison, clock := y.clock }]))))
    ∧ (∀ d rest, (s.cluster cl).deaths = d :: rest →
      ((∀ n < finSize s, mhas (s.cluster cl).finArea n = true) → exec (.finaliserArm cl) s = .next s)
      ∧ (∀ ws u, (∃ n < finSize s, mhas (s.cluster cl).finArea n = false) → cl ∉ s.up → ws.length = 32 →
        nodeWords (s.modCluster cl (fun k => { k with deaths := rest })) cl (.mem d.part d.tmpl) = .ok ws u →
        ∃ t n f, exec (.finaliserArm cl) s = .next t ∧ SameMemory u t ∧ (∀ z, t.ctx z = s.ctx z) ∧ n < finSize s
          ∧ mhas (s.cluster cl).finArea n = false ∧ (t.cluster cl).toArm = (u.cluster cl).toArm ++ [.fin cl n]
          ∧ (∀ e, (n, e) ∈ (t.cluster cl).finArea → e = f) ∧ mhas (t.cluster cl).finArea n = true
          ∧ f.part = d.part ∧ f.words.length = 35 ∧ nPred (wd f.words 0) = 0 ∧ stState (wd f.words 4) = 0
          ∧ wd f.words 32 = d.base ∧ wd f.words 33 = d.len ∧ wd f.words 34 = d.kindFmt
          ∧ ∀ i < 32, i ≠ 0 → i ≠ 4 → wd f.words i = wd ws i))
    ∧ ((s.phase ≠ 4 ∨ s.lsz < 4096 * g + 4096) → exec (.migrationStart g) s = .next s)
    ∧ (s.phase = 4 → 4096 * g + 4096 ≤ s.lsz → (∀ m ∈ s.migs, m.granule ≠ g) →
      (g ∉ s.inHbm → exec (.migrationStart g) s = .next { s with migs := s.migs ++
          [{ granule := g, toHbm := true, copying := true, byKvdem := false, byKvpro := false }] })
      ∧ (g ∈ s.inHbm → (∀ p ∈ s.cores, p.2.ready = []) → (∀ p ∈ s.ctxs, p.2.leases = none) → s.areas = [] →
          exec (.migrationStart g) s = .next { s with migs := s.migs ++
            [{ granule := g, toHbm := false, copying := true, byKvdem := false, byKvpro := false }] }))
    ∧ ((∀ m ∈ s.migs, m.granule = g → m.copying = false) → exec (.migrationSwitch g) s = .next s)
    ∧ (∀ m, m ∈ s.migs → m.granule = g → m.copying = true → (∀ m' ∈ s.migs, m'.granule = g → m' = m) →
      ∃ t, exec (.migrationSwitch g) s = .next t ∧ SameMemory s t ∧ (∀ z, t.ctx z = s.ctx z)
        ∧ (∀ m', m' ∈ t.migs ↔ m' ∈ s.migs ∧ m'.granule ≠ g) ∧ (∀ k, k ≠ g → (k ∈ t.inHbm ↔ k ∈ s.inHbm))
        ∧ (s.poisoned (4096 * g) 4096 = true → (g ∈ t.inHbm ↔ g ∈ s.inHbm) ∧ t.shadows = s.shadows)
        ∧ (s.poisoned (4096 * g) 4096 = false → (g ∈ t.inHbm ↔ m.toHbm = true)
            ∧ ∀ k, mhas t.shadows k = (mhas s.shadows k && !(m.toHbm && m.byKvpro && k == g))))
    ∧ (∃ t, exec (.migrationAbandon g) s = .next t ∧ t = { s with migs := t.migs } ∧ ∀ m, m ∈ t.migs ↔ m ∈ s.migs ∧ m.granule ≠ g)
    ∧ (∀ e d h a p, (s.ctx x).window = [e] → e.instr = .btld d h a p →
      let left := (List.range e.len).filter (fun i => decide (laneNext e (i / 16 % 4) ≤ i) && !e.late.contains i)
      ((polTier e.pol ≠ 3 ∨ s.cycle.toNat < e.issueAt.toNat + (tableWord e 28).toNat ∨ left = []) → exec (.deadlineExpiry x) s = .next s)
      ∧ (polTier e.pol = 3 → e.issueAt.toNat + (tableWord e 28).toNat ≤ s.cycle.toNat → left ≠ [] →
        ∃ t, exec (.deadlineExpiry x) s = .next t ∧ SameMemory s t ∧ (∀ z, z ≠ x → t.ctx z = s.ctx z)
          ∧ t.ctx x = { s.ctx x with window := [{ e with late := e.late ++ left }] }))

/-! ## Requests of peers and the link -/

/-- R294, R295, R402, R403, R405 to R408: a request of a peer is performed once, within the windows of its partition, and answered; a
repeated one gets its first answer again, one whose check fails nothing. A segment's data and its scale byte come in one request and are
written together (log entry 15). An acquire of a location that a release over a failed store has marked is answered with poison. -/
def Obligations.peer_requests : Prop :=
  ∀ (s : State) (f : Flit) (scale : Word), MemForm s →
    let n := f.len.toNat
    let pa := f.addr.toNat
    let crc := fun (bytes : List Byte) => crc64 (flitBytes f ++ leBytes 8 f.check.toNat ++ bytes)
    let forms := [(Instr.peerRead f, 1), (.peerWrite f, 2), (.peerAtomic f, 3), (.xaccAdd f, 4), (.peerDrop f, 5)
                  , (.segmentWrite f f.inline (crc f.inline), 7), (.segmentRead f, 8)]
    (∀ q ∈ forms, (f.type.toNat ≠ q.2 ∨ f.dest ≠ moduleNo s ∨ flitOk f = false) → exec q.1 s = .next s)
    ∧ (∀ q ∈ forms, ∀ a, f.type.toNat = q.2 → f.dest = moduleNo s → flitOk f = true → s.served = [((f.src, f.tag), a)] →
        exec q.1 s = .next { s with outbox := s.outbox ++ [replyFlit s f a] })
    ∧ (∀ q ∈ [(Instr.peerRead f, 1), (.segmentRead f, 8)], FreshFlit s f q.2 →
      ((n = 0 ∨ 4096 < n ∨ ¬ Allowed s f n false) → AnswersOnly q.1 s f .protection)
      ∧ (n ≠ 0 → n ≤ 4096 → Allowed s f n false →
          (s.poisoned pa n = true → AnswersOnly q.1 s f .poison)
          ∧ (peerMeets s f n = true → AnswersOnly q.1 s f .poison)
          ∧ (s.poisoned pa n = false → peerMeets s f n = false → AnswersOnly q.1 s f (.data (s.bytesPA pa n)))))
    ∧ (∀ bytes, ∀ q ∈ [(Instr.peerWrite f, 2, f.inline), (.segmentWrite f bytes (crc bytes), 7, bytes)], FreshFlit s f q.2.1 →
      (q.2.1 = 2 → f.opc.toNat % 16 ≠ 1) →
      let bs := q.2.2
      ((bs = [] ∨ 4096 < bs.length ∨ bs.length ≠ n ∨ ¬ Allowed s f bs.length true) → AnswersOnly q.1 s f .protection)
      ∧ (bs ≠ [] → bs.length ≤ 4096 → bs.length = n → Allowed s f n true →
          (s.writeMeets pa n = true → AnswersOnly q.1 s f .poison)
          ∧ (s.writeMeets pa n = false → AnswersWrite q.1 s f bs (.data []))))
    ∧ (FreshFlit s f 2 → f.opc.toNat % 16 = 1 → ∀ bs u, f.inline = bs ++ [u] ++ leBytes 8 scale.toNat → n = bs.length + 9 → bs ≠ [] →
      bs.length ≤ 4096 → scale.toNat < 2 ^ 51 → pa < 2 ^ 51 → (scale.toNat < pa ∨ pa + bs.length ≤ scale.toNat) →
      let g := { f with addr := scale.setWidth 52 }
      ((¬ Allowed s f bs.length true ∨ ¬ Allowed s g 1 true) → AnswersOnly (.peerWrite f) s f .protection)
      ∧ (Allowed s f bs.length true → Allowed s g 1 true → s.writeMeets pa bs.length = false → s.writeMeets scale.toNat 1 = false →
        ∃ t, exec (.peerWrite f) s = .next t ∧ Replied s t f (.data []) ∧ t.hostMem = s.hostMem ∧ (∀ x, t.ctx x = s.ctx x)
          ∧ ∀ a, t.mem.read a = if a = scale.toNat then u else if pa ≤ a ∧ a < pa + bs.length then bs[a - pa]?.getD 0 else s.mem.read a))
    ∧ (∀ bytes c, c ≠ crc bytes → (∀ p ∈ s.served, p.1 ≠ (f.src, f.tag)) →
        exec (.segmentWrite f bytes c) s = .next s)
    ∧ (FreshFlit s f 3 →
      ((¬ (n = 4 ∨ n = 8 ∨ n = 32) ∨ pa % n ≠ 0 ∨ ¬ Allowed s f n true) → AnswersOnly (.peerAtomic f) s f .protection)
      ∧ (n = 4 ∨ n = 8 → pa % n = 0 → Allowed s f n true →
          (s.poisoned pa n = true ∨ peerMeets s f n = true → AnswersOnly (.peerAtomic f) s f .poison)
          ∧ (∀ op, AtomOp.ofCode (f.opc.toNat % 16) = some op → s.poisoned pa n = false → peerMeets s f n = false →
              let arg := fun (k : Nat) => ofLe ((f.inline.drop (8 * k)).take 8) % 2 ^ (8 * n)
              AnswersWrite (.peerAtomic f) s f (leBytes n (atomNew op (8 * n) (ofLe (s.bytesPA pa n)) (arg 0) (arg 1)))
                (.data (s.bytesPA pa n)))))
    ∧ (FreshFlit s f 4 →
      ((n ≠ 48 ∨ ¬ Allowed s f 48 true) → AnswersOnly (.xaccAdd f) s f .protection)
      ∧ (n = 48 → Allowed s f 48 true → s.poisoned pa 48 = true → AnswersOnly (.xaccAdd f) s f .poison)
      ∧ (n = 48 → Allowed s f 48 true → s.poisoned pa 48 = false →
          AnswersWrite (.xaccAdd f) s f (leBytes 48 (xaccAdd (ofLe (s.bytesPA pa 48)) (xaccVal (ofLe (f.inline.take 48))))) (.data [])))
    ∧ (FreshFlit s f 5 → let h := handleOfBytes f.inline
      AnswersOnly (.peerDrop f) s f (.data [])
      ∧ ∃ t, exec (.peerDrop f) s = .next t
        ∧ (hMod h = moduleNo s → DropAdded s t (hDen h) { handle := h, part := f.part, bad := opcFailed f, clock := [], fin := none })
        ∧ (hMod h ≠ moduleNo s → HandleError s t f.part))

/-- R384, R386, R387, R402, R403, R405, R407: another module's questions to a den of this one; the answers and resends of this module's
own requests; flits that only pass through. -/
def Obligations.link_questions_and_replies : Prop :=
  ∀ (s : State) (f : Flit) (den : ClusterId) (n : BitVec 20) (gen : BitVec 17) (tag : Word) (a : PeerAnswer),
    let r := denRecord s den n.toNat
    let named : Prop := r.live = true ∧ r.gen = gen ∧ r.part = f.part
    let word := fun (v : Nat) => PeerAnswer.data (leBytes 8 v)
    (FreshFlit s f 0 →
      (named → AnswersOnly (.peerDenRequest f den n gen .outstanding) s f (word (2 ^ 31 - r.ret))
        ∧ AnswersOnly (.peerDenRequest f den n gen .fin) s f (word r.fin.toNat)
        ∧ ∀ e : BitVec 5, (2 ^ e.toNat ≠ 2 ^ 31 - r.ret → AnswersOnly (.peerDenRequest f den n gen (.exclusive e)) s f (word 0))
          ∧ (2 ^ e.toNat = 2 ^ 31 - r.ret → r.prx = false → r.poison = false →
              AnswersOnly (.peerDenRequest f den n gen (.exclusive e)) s f (word 1)))
      ∧ (¬ named → AnswersOnly (.peerDenRequest f den n gen .outstanding) s f (word 0)
        ∧ AnswersOnly (.peerDenRequest f den n gen .fin) s f (word 0)
        ∧ ∀ e, AnswersOnly (.peerDenRequest f den n gen (.exclusive e)) s f (word 0))
      ∧ ∀ t, ∃ u d, exec (.peerDenRequest f den n gen (.setFin t)) s = .next u ∧ Replied s u f (word 0) ∧ DropAdded s u den d
          ∧ hDen d.handle = den ∧ hRec d.handle = n.toNat ∧ hGen d.handle = gen ∧ d.part = f.part ∧ d.fin = some t)
    ∧ (∃ t, exec (.peerReply tag a) s = .next t ∧ t = { s with reqs := t.reqs }
        ∧ (∀ q ∈ s.reqs, q.tag ≠ tag → q ∈ t.reqs) ∧ (∀ q ∈ t.reqs, q.tag = tag → q.kind ≠ .drop ∧ q.st ≠ .waiting)
        ∧ (∀ q ∈ s.reqs, q.tag = tag → q.kind ≠ .drop → q.st = .waiting → { q with st := .answered a } ∈ t.reqs)
        ∧ ∀ q ∈ s.reqs, q.tag = tag → q.kind ≠ .drop → q.st ≠ .waiting → q ∈ t.reqs)
    ∧ ((∀ q ∈ s.reqs, q.tag ≠ tag ∨ q.st ≠ .waiting) → exec (.replyTimeout tag) s = .next s)
    ∧ (∀ q, s.reqs = [q] → q.tag = tag → q.st = .waiting →
      (q.kind ≠ .drop → 3 ≤ q.resent → exec (.replyTimeout tag) s = .next { s with reqs := [{ q with st := .failed }] })
      ∧ ((q.kind = .drop ∨ q.resent < 3) → ∃ t, exec (.replyTimeout tag) s = .next t ∧ t.reqs = [{ q with resent := q.resent + 1 }]
          ∧ t.outbox = s.outbox ++ [q.flit] ∧ (t.part q.flit.part).retries = satInc (s.part q.flit.part).retries
          ∧ (∀ p, p ≠ q.flit.part → t.part p = s.part p) ∧ SameMemory s t ∧ ∀ z, t.ctx z = s.ctx z))
    ∧ (f.dest ≠ moduleNo s → hasRoute s f.dest = true → exec (.flitForward f) s = .next { s with outbox := s.outbox ++ [f] })
    ∧ ((f.dest = moduleNo s ∨ hasRoute s f.dest = false) → exec (.flitForward f) s = .next s)
    ∧ exec (.flitReplay f) s = .next s

/-! ## The management window -/

/-- R354, R359 to R361, R400, R401: a command begins with GO 1 while none is running, and a reserved bit is refused; stops are accepted
where save areas suffice; restores, resumes, reclaims and kills act on a context in the state they ask for, else RESULT is 2. -/
def Obligations.commands_on_contexts : Prop :=
  ∀ (s : State) (c : Word),
    let x : CtxId := BitVec.ofNat 12 (c.toNat / 2 ^ 40)
    let part : PartId := BitVec.ofNat 4 (c.toNat / 2 ^ 52)
    (∀ i op, IsCommand c i op → (c.toNat / 2 ^ 56 ≠ op ∨ c.toNat % 2 = 0 ∨ s.mstat.toNat / 2 ^ 63 = 1 ∧ s.mcmd.toNat ≠ c.toNat / 2 ^ 37 * 2 ^ 37) →
        exec i s = .next s)
    ∧ (∀ i op, IsCommand c i op → c.toNat / 2 ^ 56 = op → c.toNat % 2 = 1 → c.toNat / 2 % 2 ^ 36 ≠ 0 → s.mstat.toNat / 2 ^ 63 = 0 →
        Refused i s c 1)
    ∧ (Starts s c 0x01 → (s.ctxs.map (·.1)).Nodup → (∀ y, (s.ctx y).run ≠ .idle → validCtx y = true) →
      let hit := fun (y : CtxId) => InScope s c y ∧ (s.ctx y).run ≠ .idle ∧ (s.ctx y).stopping = false
      (5 ≤ c.toNat / 2 ^ 37 % 8 → Refused (.stop c) s c 1)
      ∧ (c.toNat / 2 ^ 37 % 8 = 0 → validCtx x = true → ¬ hit x → Refused (.stop c) s c 2)
      ∧ (∀ ts : List CtxId, ts.Nodup → (∀ y, y ∈ ts ↔ hit y) → ts ≠ [] → c.toNat / 2 ^ 37 % 8 < 5 → validCtx x = true →
        ((∃ p, areasFree s p < (ts.filter (fun y => (s.ctx y).part = p)).length) → Refused (.stop c) s c 3)
        ∧ ((∀ p, (ts.filter (fun y => (s.ctx y).part = p)).length ≤ areasFree s p) →
          ∃ t r, exec (.stop c) s = .next t ∧ t.mstat.toNat = 2 ^ 63 ∧ t.stops = s.stops ++ [r] ∧ (∀ y, y ∈ r.targets ↔ hit y)
            ∧ r.byCmd = true ∧ r.freezes = none ∧ r.since = s.cycle ∧ SameMemory s t
            ∧ ∀ y, t.ctx y = if y ∈ ts then { s.ctx y with stopping := true } else s.ctx y)))
    ∧ (Starts s c 0x02 →
      ((∀ a ∈ s.areas, a.base ≠ s.marg.toNat) → Refused (.restore c) s c 2)
      ∧ (∀ pre a post, s.areas = pre ++ a :: post → (∀ b ∈ pre, b.base ≠ s.marg.toNat) → a.base = s.marg.toNat →
        (a.part ≠ part → Refused (.restore c) s c 1)
        ∧ (a.part = part → (∀ y, mayRestore s a y = false) → ∃ t, exec (.restore c) s = .next t ∧ t.mstat.toNat = 2 ^ 63
            ∧ t.areas = s.areas ∧ (∀ y, t.ctx y = s.ctx y))
        ∧ (a.part = part → a.ret = true → (∃ y, mayRestore s a y = true) → areaGood s a = true →
          ∃ t y, exec (.restore c) s = .next t ∧ Complete t c 0 ∧ t.areas = pre ++ post ∧ mayRestore s a y = true
            ∧ Restored a t y (match a.st with | .stopped | .resumable => .running | .frozen => .frozen | .halted => .halted)
            ∧ ∀ z, z ≠ y → t.ctx z = s.ctx z)
        ∧ (a.part = part → (∃ y, mayRestore s a y = true) → areaGood s a = false → (s.part part).hent.toNat % 2 = 1 →
            (s.part part).cam.toNat / 2 ^ 15 % 2 = 0 → isHandlerCtx a.ctx = false →
          ∃ t y, exec (.restore c) s = .next t ∧ Complete t c 0 ∧ t.areas = pre ++ post ∧ mayRestore s a y = true
            ∧ (t.ctx y).run = .frozen ∧ (recWord (t.ctx y) 0).toNat % 2 ^ 8 = 0x0F ∧ recWord (t.ctx y) 1 = 0 ∧ recWord (t.ctx y) 2 = 0
            ∧ recWord (t.ctx y) 3 = BitVec.ofNat 64 a.base ∧ (t.ctx y).part = part)))
    ∧ (Starts s c 0x03 →
      (validCtx x = false → Refused (.resumeHalted c) s c 1)
      ∧ (validCtx x = true → (s.ctx x).run ≠ .halted → (∀ a ∈ s.areas, a.ctx = x → a.st ≠ .halted) → Refused (.resumeHalted c) s c 2)
      ∧ (validCtx x = true → (s.ctx x).run = .halted → (s.ctx x).stopping = false → ∃ t, exec (.resumeHalted c) s = .next t
          ∧ Complete t c 0 ∧ t.ctx x = { s.ctx x with run := .running } ∧ (∀ y, y ≠ x → t.ctx y = s.ctx y) ∧ SameMemory s t))
    ∧ (Starts s c 0x04 →
      ((∀ a ∈ s.areas, a.base = s.marg.toNat → a.ret = false) → Refused (.reclaim c) s c 2)
      ∧ (∀ a, s.areas = [a] → a.base = s.marg.toNat → a.ret = true → MemForm s → ∃ t b, exec (.reclaim c) s = .next t ∧ Complete t c 0
          ∧ t.areas = [b] ∧ b.ret = false ∧ b.base = a.base ∧ b.st = a.st ∧ b.saved.s = a.saved.s ∧ b.saved.window = a.saved.window
          ∧ b.claims = [] ∧ b.streams = [] ∧ OnlyAreas [a] s t ∧ ∀ x, t.ctx x = s.ctx x))
    ∧ (Starts s c 0x05 →
      (validCtx x = false → Refused (.kill c) s c 1)
      ∧ (validCtx x = true → (s.ctx x).run ≠ .frozen → (s.ctx x).run ≠ .halted → (∀ a ∈ s.areas, a.ctx ≠ x) → Refused (.kill c) s c 2)
      ∧ (validCtx x = true → ((s.ctx x).run = .frozen ∨ (s.ctx x).run = .halted) → (s.ctx x).stopping = false → isHandlerCtx x = false →
          ∃ t, exec (.kill c) s = .next t ∧ Complete t c 0 ∧ Ended (t.ctx x)))
    ∧ (Starts s c 0x06 →
      ((s.part part).frozen = false → Refused (.resumePartition c) s c 2)
      ∧ ((s.part part).frozen = true → (∃ r ∈ s.stops, r.freezes = some part) → ∃ t, exec (.resumePartition c) s = .next t
          ∧ t.mstat.toNat = 2 ^ 63 ∧ (∀ y, t.ctx y = s.ctx y) ∧ ∀ p, t.part p = s.part p)
      ∧ ((s.part part).frozen = true → (∀ r ∈ s.stops, r.freezes ≠ some part) → (∀ a ∈ s.areas, a.part = part → a.byFreeze = false) →
          Performs (.resumePartition c) s c (fun t => PartSet s t part { s.part part with frozen := false })))
    ∧ (Starts s c 0x07 → (∀ y, (s.ctx y).part = part → (s.ctx y).run ≠ .idle → isHandlerCtx y = false) →
        s.areas = [] → (s.ctxs.map (·.1)).Nodup →
      ∃ t, exec (.killPartition c) s = .next t ∧ Complete t c 0 ∧ (t.part part).frozen = false
        ∧ (∀ y, (s.ctx y).part = part → (s.ctx y).run ≠ .idle → Ended (t.ctx y))
        ∧ (∀ y, (s.ctx y).part ≠ part → (s.ctx y).run = .running → (s.ctx y).parked = none →
            (∀ j : CapReg, (s.ctx y).cap[j] = none) → t.ctx y = s.ctx y)
        ∧ ∀ k r, r ∈ (t.core k).ready → r.part ≠ part)

/-- R328, R335, R363, R401, R406, R411 to R413, R415: the commands on registers of partitions, cores and windows, the counters,
snapshots, readback, margins and quotes. -/
def Obligations.commands_on_registers : Prop :=
  ∀ (s : State) (c : Word),
    let x : CtxId := BitVec.ofNat 12 (c.toNat / 2 ^ 40)
    let part : PartId := BitVec.ofNat 4 (c.toNat / 2 ^ 52)
    let p := s.part part
    let v := s.mval.toNat
    let a := s.marg.toNat
    (Starts s c 0x08 →
      (s.snap = none → Performs (.snap c) s c (fun t => t.sntime = s.cycle ∧ t.snap = some (snapshotOf s)))
      ∧ (∀ n, s.snap = some n → Performs (.snap c) s c (fun t => t.snap = s.snap ∧ t.miss.toNat = min 0xFFFF (s.miss.toNat + 1))))
    ∧ (Starts s c 0x09 →
      ((validCore (coreOf x) = false ∨ v / 32 % 8 ≠ 0) → Refused (.slotEntryWrite c) s c 1)
      ∧ (validCore (coreOf x) = true → v / 32 % 8 = 0 → Performs (.slotEntryWrite c) s c (fun t =>
          (t.core (coreOf x)).slots = (s.core (coreOf x)).slots ∧ mget (t.core (coreOf x)).slotPend (a % 64) 0 = s.mval.setWidth 8
          ∧ (∀ n, n ≠ a % 64 → mget (t.core (coreOf x)).slotPend n 0 = mget (s.core (coreOf x)).slotPend n 0)
          ∧ ∀ k, k ≠ coreOf x → t.core k = s.core k)))
    ∧ (Starts s c 0x0A →
      ((v / 2 ^ 52 ≠ 0 ∨ v / 2 % 2 ^ 8 ≠ 0) → Refused (.pageRootWrite c) s c 1)
      ∧ (v / 2 ^ 52 = 0 → v / 2 % 2 ^ 8 = 0 → Performs (.pageRootWrite c) s c (fun t => PartSet s t part { p with pgroot := s.mval }
          ∧ (v % 2 = 0 → ∀ e, e ∈ t.tlb ↔ e ∈ s.tlb ∧ e.part ≠ part) ∧ (v % 2 = 1 → t.tlb = s.tlb))))
    ∧ (Starts s c 0x0B →
      ((2 < a ∨ a = 0 ∧ (v / 2 ^ 57 ≠ 0 ∨ v / 2 % 4 ≠ 0) ∨ a = 1 ∧ (v / 2 ^ 57 ≠ 0 ∨ v % 8 ≠ 0) ∨ a = 2 ∧ (v / 2 ^ 19 ≠ 0 ∨ v % 2 ≠ 0)) →
          Refused (.handlerRegisterWrite c) s c 1)
      ∧ (a = 0 → v / 2 ^ 57 = 0 → v / 2 % 4 = 0 →
          Performs (.handlerRegisterWrite c) s c (fun t => PartSet s t part { p with hent := s.mval }))
      ∧ (a = 1 → v / 2 ^ 57 = 0 → v % 8 = 0 → Performs (.handlerRegisterWrite c) s c (fun t => PartSet s t part { p with hbank := s.mval }))
      ∧ (a = 2 → v / 2 ^ 19 = 0 → v % 2 = 0 → Performs (.handlerRegisterWrite c) s c (fun t => PartSet s t part { p with cam := s.mval })))
    ∧ (let counters := [p.overCnt, p.nodeErr, p.malform, p.hndErr, p.retries]
       let cleared := [{ p with overCnt := 0 }, { p with nodeErr := 0 }, { p with malform := 0 }, { p with hndErr := 0 }, { p with retries := 0 }]
      (Starts s c 0x0C → (5 ≤ a → Refused (.counterRead c) s c 1)
        ∧ ∀ w, counters[a]? = some w → Performs (.counterRead c) s c (fun t => t.mval = w ∧ ∀ q, t.part q = s.part q))
      ∧ (Starts s c 0x0D → (5 ≤ a → Refused (.counterClear c) s c 1)
        ∧ ∀ w y, counters[a]? = some w → cleared[a]? = some y →
            Performs (.counterClear c) s c (fun t => t.mval = w ∧ PartSet s t part y)))
    ∧ (Starts s c 0x0E →
      (v / 4 % 2 ^ 14 ≠ 0 → Refused (.peerWindowWrite c) s c 1)
      ∧ (v / 4 % 2 ^ 14 = 0 → Performs (.peerWindowWrite c) s c (fun t => ∀ n : Fin 16, t.windows[n] =
          if n.val = a % 16 then { base := BitVec.ofNat 40 (a / 2 ^ 12), val := s.mval } else s.windows[n])))
    ∧ (Starts s c 0x0F →
      let cls := a / 2 ^ 32 % 2 ^ 8
      let y : CtxId := BitVec.ofNat 12 (a / 2 ^ 40)
      ((5 ≤ cls ∧ cls < 0x80 ∨ cls = 0 ∧ (validCtx y = false ∨ a % 2 ^ 32 ≠ 0)) → Refused (.readback c) s c 1)
      ∧ (0x80 ≤ cls → s.snap = none → Refused (.readback c) s c 2)
      ∧ (∀ r : SReg, cls = 0 → validCtx y = true → a % 2 ^ 32 = 0 → (s.ctx y).run ≠ .idle → v = r.val →
          Performs (.readback c) s c (fun t => t.mval = getS (s.ctx y) r))
      ∧ (∀ (r : SReg) n, cls = 0x80 → validCtx y = true → a % 2 ^ 32 = 0 → s.snap = some n → (mget n.ctxs y Ctx.reset).run ≠ .idle →
          v = r.val → Performs (.readback c) s c (fun t => t.mval = getS (mget n.ctxs y Ctx.reset) r))
      ∧ (1 ≤ cls → cls ≤ 4 → (y.toNat < (if cls = 2 then 64 else if cls = 3 then 96 else 384) → Performs (.readback c) s c (fun _ => True))
          ∧ ((if cls = 2 then 64 else if cls = 3 then 96 else 384) ≤ y.toNat → Refused (.readback c) s c 1))
      ∧ (cls = 4 → y.toNat < 384 → Performs (.readback c) s c (fun t => match Config.catalogueSlots (a % 2 ^ 32) with
          | some n => ∀ i < 8, t.mval.toNat / 2 ^ (8 * i) % 2 ^ 8 = (mget (s.core (y.setWidth 9)).slots (8 * (n % 8) + i) 0).toNat
          | none => True)))
    ∧ (Starts s c 0x10 →
      let scope := c.toNat / 2 ^ 37 % 8
      ((scope ≠ 2 ∧ scope ≠ 4 ∨ scope = 2 ∧ 95 < (clusterOf x).toNat) → Refused (.marginWindow c) s c 1)
      ∧ ((scope = 2 ∧ (clusterOf x).toNat ≤ 95 ∨ scope = 4) → s.ctxs = [] →
          Performs (.marginWindow c) s c (fun t => (∀ k ∈ s.health, k ∈ t.health)
            ∧ ∀ k ∈ t.health, k ∉ s.health → (scope = 4 ∨ k = clusterOf x))))
    ∧ (Starts s c 0x11 →
      (2 ^ 52 ≤ a → Refused (.quote c) s c 1)
      ∧ (a < 2 ^ 52 → Config.leafIndexOk s.leaf = false → Refused (.quote c) s c 4)
      ∧ (a < 2 ^ 52 → Config.leafIndexOk s.leaf = true → s.hostMem.wf = true →
        ∃ (t : State) (q : List Byte), exec (.quote c) s = .next t ∧ Complete t c 0 ∧ t.leaf = s.leaf + 1 ∧ t.mem = s.mem ∧ (∀ z, t.ctx z = s.ctx z)
          ∧ q.length ≤ 4032 ∧ ∀ b, t.hostMem.read b = if a % 2 ^ 51 + 64 ≤ b ∧ b < a % 2 ^ 51 + 64 + q.length
              then q[b - (a % 2 ^ 51 + 64)]?.getD 0 else s.hostMem.read b))

/-- R2, R398 to R401, R412: the registers of the window, whose reserved fields read as zero. GARMB arms a run of nodes as `tsub` does, or sets RESULT 1; MCMD starts a command
with GO 1 and takes nothing while one runs; SNCTL enables triggers and releases the held snapshot, as REARM does; the pin triggers
where EPIN is 1; another offset takes nothing. -/
def Obligations.window_registers : Prop :=
  (∀ (s : State) (v : Word),
     let n := v.toNat
     (exec (.registerWrite 0x1000 v) s = .next { s with garma := BitVec.ofNat 64 (n / 16 * 16), garmaBad := decide (n % 16 ≠ 0) }
       ∧ exec (.registerWrite 0x2008 v) s = .next { s with marg := v }
       ∧ exec (.registerWrite 0x2010 v) s = .next { s with mval := v })
     ∧ (∀ off : BitVec 25, off.toNat ∉ [0x1000, 0x1008, 0x2000, 0x2008, 0x2010, 0x3000] → exec (.registerWrite off v) s = .next s)
     ∧ (s.mstat.toNat / 2 ^ 63 = 1 → exec (.registerWrite 0x2000 v) s = .next s)
     ∧ (s.mstat.toNat / 2 ^ 63 = 0 → n % 2 = 0 → exec (.registerWrite 0x2000 v) s = .next { s with mcmd := BitVec.ofNat 64 (n / 2 ^ 37 * 2 ^ 37) })
     ∧ (∀ i op, IsCommand v i op → s.mstat.toNat / 2 ^ 63 = 0 → n % 2 = 1 → n / 2 ^ 56 = op →
         exec (.registerWrite 0x2000 v) s = exec i s)
     ∧ (s.mstat.toNat / 2 ^ 63 = 0 → n % 2 = 1 → (n / 2 ^ 56 = 0 ∨ 0x11 < n / 2 ^ 56) → Refused (.registerWrite 0x2000 v) s v 1)
     ∧ (∃ t, exec (.registerWrite 0x3000 v) s = .next t ∧ t = { s with ebrk := t.ebrk, epin := t.epin, snap := t.snap, miss := t.miss }
         ∧ t.ebrk = decide (n / 2 % 2 = 1) ∧ t.epin = decide (n % 2 = 1)
         ∧ t.snap = (if n / 8 % 2 = 1 then none else s.snap) ∧ t.miss = (if n / 8 % 2 = 1 then 0 else s.miss)))
  ∧ (∀ (s : State) (v : Word),
     let a := s.garma.toNat
     let cl : ClusterId := BitVec.ofNat 7 (a / 2 ^ 57)
     let part : PartId := BitVec.ofNat 4 (a / 2 ^ 4)
     let node := a / 2 ^ 8 % 2 ^ 49 * 256
     let count := v.toNat % 2 ^ 16
     let Translates := fun (k : Nat) => node + 256 * k + 256 ≤ 2 ^ 57 ∧ ∃ pte w0 w1, walk s part (node + 256 * k) = .leaf pte w0 w1
     exec (.registerWrite 0x1008 v) s = exec (.graphArm v) s
     ∧ ((count = 0 ∨ 95 < a / 2 ^ 57 ∨ cl ∉ s.up ∨ s.garmaBad = true ∨ 2 ^ 16 ≤ v.toNat ∨ ∃ k, k < count ∧ ¬ Translates k) →
         (∀ k ∈ s.up, k.toNat ≤ 95) →
         ∃ t, exec (.graphArm v) s = .next t ∧ t = { s with garmb := 0, mstat := t.mstat, parts := t.parts }
           ∧ (∀ p, t.part p = { s.part p with malform := (t.part p).malform }) ∧ t.mstat.toNat / 2 ^ 48 % 2 ^ 8 = 1
           ∧ t.mstat.toNat % 2 ^ 48 = s.mstat.toNat % 2 ^ 48 ∧ t.mstat.toNat / 2 ^ 56 = s.mstat.toNat / 2 ^ 56)
     ∧ (count ≠ 0 → cl ∈ s.up → s.garmaBad = false → v.toNat < 2 ^ 16 → (∀ k, k < count → Translates k) →
         exec (.graphArm v) s = .next (armRun cl part count (BitVec.ofNat 64 node) { s with garmb := 0 })))
  ∧ (∀ s : State, exec .rearm s = .next { s with snap := none, miss := 0 }
     ∧ (s.epin = false → exec .snapTrig s = .next s)
     ∧ (s.epin = true → s.snap = none → exec .snapTrig s = .next { s with
          sntime := s.cycle, snap := some (snapshotOf s) })
     ∧ (∀ n, s.epin = true → s.snap = some n → ∃ t, exec .snapTrig s = .next t ∧ t = { s with miss := t.miss }
          ∧ t.miss.toNat = min 0xFFFF (s.miss.toNat + 1)))

/-- R395, R396, R417: the host reads and writes local memory by physical address in [0, LSZ); poison answers a read of it and a write
that covers a poisoned sector in part; a request that is not supported changes nothing; a snoop takes the device's copies of a line. -/
def Obligations.host_accesses : Prop :=
  ∀ (s : State) (addr : BitVec 52),
    let pa := addr.toNat
    let Answers := fun (i : Instr) (r : HostReply) => exec i s = .next { s with hostReply := some r }
    (∀ len : Fin 65, let n := len.val
      (s.lsz < pa + n → Answers (.cxlMemRead addr len) .unsupported)
      ∧ (pa + n ≤ s.lsz → (∃ b, b < n ∧ (pa + b) / 32 ∈ s.poison) → Answers (.cxlMemRead addr len) .poison)
      ∧ (pa + n ≤ s.lsz → pa + n ≤ 2 ^ 51 → (∀ b, b < n → (pa + b) / 32 ∉ s.poison) → ∃ bs : List Byte, bs.length = n
          ∧ (∀ i, i < n → bs[i]? = some (s.mem.read (pa + i))) ∧ Answers (.cxlMemRead addr len) (.data bs)))
    ∧ (∀ bs : List Byte, let n := bs.length
      let InPart := fun (x : Nat) => x ∈ s.poison ∧ 32 * x < pa + n ∧ pa < 32 * x + 32 ∧ (32 * x < pa ∨ pa + n < 32 * x + 32)
      (s.lsz < pa + n → Answers (.cxlMemWrite addr bs) .unsupported)
      ∧ (pa + n ≤ s.lsz → n ≠ 0 → (∃ x, InPart x) → Answers (.cxlMemWrite addr bs) .poison)
      ∧ (pa + n ≤ s.lsz → pa + n ≤ 2 ^ 51 → (∀ x, ¬ InPart x) → MemForm s →
          ∃ t, exec (.cxlMemWrite addr bs) s = .next t ∧ t.hostReply = some .done ∧ MemPut s t pa bs ∧ (∀ x, t.ctx x = s.ctx x)
            ∧ ∀ x, x ∈ t.poison ↔ x ∈ s.poison ∧ ¬ (pa ≤ 32 * x ∧ 32 * x + 32 ≤ pa + n)))
    ∧ (∀ tag, Answers (.unsupportedRequest tag) .unsupported)
    ∧ (let line := (2 ^ 51 + pa % 2 ^ 51) / 128
       ∃ t, exec (.cxlCacheSnoop addr) s = .next t ∧ t = { s with l2 := t.l2, cores := t.cores }
         ∧ (∀ l, l ∈ t.l2 ↔ l ∈ s.l2 ∧ l.line ≠ line)
         ∧ (∀ k l, l ∈ (t.core k).l1 ↔ l ∈ (s.core k).l1 ∧ l.line ≠ line)
         ∧ ∀ k, t.core k = { s.core k with l1 := (t.core k).l1 })

/-- R354, R398, R409, R410, R414, R416: what a module reset leaves, by the firmware slots and the configuration image; a firmware image is
taken in phase 1 alone; a cluster that comes up arms what was sent to it; training ends the reduced service; heat stops every
partition. -/
def Obligations.bring_up : Prop :=
  (∀ (s : State) (slots : List FirmwareSlot) (image : Option ImageData),
     let ok := fun n x => Verifies (slots.take 2) n x
     ((∀ n x, ¬ ok n x) → ∃ t, exec (.moduleReset slots image) s = .next t ∧ ResetTo s t slots 1 none none 0 ∧ t.lsz = 0 ∧ t.cores = [])
     ∧ ((∃ n x, ok n x) → ∃ t n x, exec (.moduleReset slots image) s = .next t ∧ ok n x ∧ (∀ m y, ok m y → y.version ≤ x.version)
         ∧ (image = none → ResetTo s t slots 1 (some n) none (BitVec.ofNat 64 (4 * 2 ^ 48)) ∧ t.lsz = 0 ∧ t.cores = [])
         ∧ (∀ i, image = some i → ResetTo s t slots 3 (some n) (some i) 0 ∧ t.lsz = 2112 * 2 ^ 30 - i.reserved
             ∧ (∀ k, k ∉ i.slots.map (·.1) → t.core k = Core.reset)
             ∧ ((i.slots.map (·.1)).Nodup → ∀ p ∈ i.slots, p.2.length = 64 → ∀ e, e < 64 →
                 some (mget (t.core p.1).slots e 0) = p.2[e]?
                   ∧ t.core p.1 = { Core.reset with slots := (t.core p.1).slots }))))
  ∧ (∀ (s : State) (x : FirmwareSlot),
     (s.phase = 1 → s.running = none → exec (.firmwareImageLoad x) s = .next { s with firmware := x :: s.firmware.drop 1 })
     ∧ ((s.phase ≠ 1 ∨ s.running ≠ none) → exec (.firmwareImageLoad x) s = .next s))
  ∧ (∀ (s : State) (cl : ClusterId),
     ((s.phase.toNat < 3 ∨ 95 < cl.toNat ∨ cl ∈ s.up) → exec (.clusterUp cl) s = .next s)
     ∧ (3 ≤ s.phase.toNat → cl.toNat ≤ 95 → cl ∉ s.up → ∃ u, u = { s with up := s.up ++ [cl], clusters := u.clusters }
         ∧ u.cluster cl = { s.cluster cl with toArm := [] } ∧ (∀ k, k ≠ cl → u.cluster k = s.cluster k)
         ∧ ((s.cluster cl).toArm = [] → exec (.clusterUp cl) s = .next u)
         ∧ ∀ r, (s.cluster cl).toArm = [r] → exec (.clusterUp cl) s = .next (armNode u cl (refPart s r) r)))
  ∧ (∀ s : State,
     (s.phase ≠ 3 → exec .hbmTrainingComplete s = .next s)
     ∧ (s.phase = 3 → EnoughAreas s → ∃ t, exec .hbmTrainingComplete s = .next t ∧ t.phase = 4 ∧ (2 : Fin 32) ∈ t.msix
         ∧ Paused s t (fun _ => True) ∧ t = { s with ctxs := t.ctxs, phase := 4, msix := t.msix })
     ∧ (EnoughAreas s → ∃ t, exec .thermalStop s = .next t ∧ (1 : Fin 32) ∈ t.msix
         ∧ (∀ p : PartId, t.part p = { s.part p with frozen := true })
         ∧ (∀ x, (Holding s x → t.ctx x = { s.ctx x with stopping := true }) ∧ (¬ Holding s x → t.ctx x = s.ctx x))
         ∧ t = { s with parts := t.parts, ctxs := t.ctxs, stops := t.stops, msix := t.msix }
         ∧ ∀ p : PartId, ∃ r ∈ t.stops, r.freezes = some p ∧ r.since = s.cycle
             ∧ ∀ x, x ∈ r.targets ↔ Holding s x ∧ (s.ctx x).part = p))

/-! ## Words, steps and reset -/

/-- R115 to R123: words written out from the encodings stand for these instructions; all-zero and all-one major ops, the listed H
registers in a user context and nonzero unused fields are illegal. -/
def Obligations.words_decode : Prop :=
  (∀ p ∈ ([ (0x0200680382200000, .add 3 (.s 1) (.lit 17)), (0x02D8880A80C00002, .csel 4 (.s 5) (.s 6) 2)
          , (0x02E0680280400030, .addsh 3 (.s 1) (.s 2) 3), (0x0440200012345678, .ldi 1 0x12345678)
          , (0x1200000000000014, .fenceRel .system), (0x32003A0000000060, .calloc (.c 1) (.lit 256) .i32)
          , (0x5010030600000020, .bfwait 3 true), (0x7000080980600000, .barInit (.s 4) (.lit 3))
          , (0x7208A81080C50400, .qenq 5 (.s 8) 6 2), (0x8240000000000015, .halt 21), (0x8220000000000001, .tlbiAll)
          , (0x8238000000000000, .nop) ] : List (Word × Instr)), decodeUser p.1 = .ok p.2)
  ∧ ∀ w ∈ ([0, 0xFE00000000000000, 0x0450000000000000, 0x221060820040000F, 0x221060020040001F, 0x32003A000000006F] : List Word),
      decodeUser w = .error .illegal

/-- R115 to R125: every well-formed instruction has a word, and the decode of that word is the instruction, every operand with it. -/
def Obligations.decode_of_encode : Prop :=
  ∀ i : Instr, i.WF → decode { handler := true, attached := true } (encode i) = .ok i

/-- R20, R21, R105, R107, R121, R122, R294, R330: a step takes the agenda's first action, else the arbiter's; a context's turn executes
the instruction that its next word decodes to, refuses a word that is illegal or reserved, faults at a word that cannot be fetched, and
freezes for a store that failed. (The agenda and the arbiter are the model's: log entry 3.) -/
def Obligations.step_runs_decoded : Prop :=
  (∀ s : State,
     (∀ x rest, s.agenda = .run x :: rest → step s = runContext (tick { s with agenda := rest }) x)
     ∧ (∀ i rest, s.agenda = .event i :: rest → step s = exec i (tick { s with agenda := rest }))
     ∧ (∀ x, s.agenda = [] → Config.arbiter s.fresh = .run x → step s = exec (.slotTableCycle (coreOf x)) (tick s.draw))
     ∧ (∀ i, s.agenda = [] → Config.arbiter s.fresh = .event i → step s = exec i (tick s.draw)))
  ∧ (∀ (s : State) (x : CtxId),
     let v := { s with cur := x }
     let c := s.ctx x
     (validCtx x = false → runContext s x = .fault .noSuchContext)
     ∧ (validCtx x = true → runnable v x = false → runContext s x = .next v)
     ∧ (validCtx x = true → runnable v x = true → c.failed ≠ none → appending c = false → runContext s x = .next (failAtBoundary v x))
     ∧ (validCtx x = true → runnable v x = true → c.failed = none ∨ appending c = true →
       (∀ i rest, c.script = i :: rest → nextWord v x = .ok (encode i) v)
       ∧ (∀ k w, c.script = [] → c.bodyPos = some k → c.body[k]? = some w → ∃ u, nextWord v x = .ok w u ∧ u.ctx x = c ∧ u.cur = x
           ∧ SameMemory v u ∧ (k ≠ 0 → u = v))
       ∧ (∀ w u, c.script = [] → c.bodyPos = none → fetchWord v x c.pc = .ok w u →
           nextWord v x = .ok w (clearReqs u x 0 (2 ^ 32) (2 ^ 64)))
       ∧ (∀ w u, nextWord v x = .ok w u →
         (∀ i, decodeFor u x w = .ok i → Ran x (exec i { u with ir := w }) (runContext s x))
         ∧ (∀ e, decodeFor u x w = .error e → u.cur = x → (∀ y ∈ (u.ctx x).window, y.held = []) → freezeWaits u x = false → runContext s x = .next (freeze
             { u with ir := w } x { cause := if e = .reserved then 0x05 else 0x04, elem := 0, addr := (u.ctx x).pc, pc := (u.ctx x).pc
                                    word := w, nc := true, async := false })))
       ∧ (∀ cause a u, nextWord v x = .fault cause a u → u.cur = x → (∀ y ∈ (u.ctx x).window, y.held = []) → freezeWaits u x = false →
           runContext s x = .next (freeze { clearReqs u x 0 (2 ^ 32) (2 ^ 64) with ir := 0 } x
             { cause := cause, elem := 0, addr := (u.ctx x).pc, pc := (u.ctx x).pc, word := 0, nc := true, async := false }))))

/-- Memory keeps its canonical form through every step: addresses strictly rising, and no byte listed that reads as an unlisted one does
(log entry 1). -/
def Obligations.step_keeps_memory_form : Prop :=
  ∀ s t : State, MemForm s → step s = .next t → MemForm t

/-- R13, R18, R25, R218, R237, R306, R328, R335, R363, R378, R398 to R400, R412, R416: the module right after reset, its memory in its
canonical form; where the rules give no value, the one of log entries 1 and 2. -/
def Obligations.reset_state : Prop :=
  let s := State.reset
  MemForm s ∧ (∀ a, s.mem.read a = 0 ∧ s.hostMem.read a = 0)
  ∧ s.phase = 0 ∧ s.up = [] ∧ s.health = [] ∧ s.garma = 0 ∧ s.garmb = 0 ∧ s.mcmd = 0 ∧ s.marg = 0 ∧ s.mval = 0 ∧ s.mstat = 0
  ∧ s.snap = none ∧ s.miss = 0 ∧ s.ebrk = false ∧ s.epin = false ∧ s.cycle = 0 ∧ s.areas = [] ∧ s.stops = [] ∧ s.msix = []
  ∧ (∀ x, (s.ctx x).run = .idle ∧ (s.ctx x).window = [] ∧ (s.ctx x).pold = 0x000FFF00 ∧ (s.ctx x).vl = 0
      ∧ (∀ r, getS (s.ctx x) r = 0) ∧ (∀ f : FReg, (s.ctx x).f[f] = false) ∧ (∀ h : HReg, (s.ctx x).h[h] = Handle.empty)
      ∧ (∀ k : CapReg, (s.ctx x).cap[k] = none) ∧ ∀ r, (getCol (s.ctx x) r).len = 0 ∧ (getCol (s.ctx x) r).cap = 0)
  ∧ (∀ k, poolSrf (s.core k).poolw = 20 ∧ poolSpd (s.core k).poolw = 0 ∧ poolAcs (s.core k).poolw = 4 ∧ (∀ n, mget (s.core k).slots n 0 = 0)
      ∧ (∀ b, (getBuf s k b).st = .free ∧ (getBuf s k b).size = 0) ∧ (s.core k).ready = [] ∧ ∀ q, (queueOf s k q).st = .free)
  ∧ (∀ cl, (s.cluster cl).faults = [] ∧ (s.cluster cl).ovf = false ∧ (s.cluster cl).dens = [] ∧ (s.cluster cl).armed = [])
  ∧ (∀ p, (s.part p).pgroot = 0 ∧ (s.part p).hent = 0 ∧ (s.part p).hbank = 0 ∧ (s.part p).cam = 8 ∧ (s.part p).frozen = false)
  ∧ ∀ n : Fin 16, s.windows[n].val = 0
end

