-- ==== Sys2Proof/Laws/State.lean ====
section
/-! SUPPORT. The small lemmas of the state: maps, the parts of the state by name, and what each update leaves. -/

namespace Sys2Proof.Laws

open Machine

/-! ## Maps -/

theorem mget_mset {κ α : Type} [DecidableEq κ] (m : Map κ α) (k k' : κ) (v d : α) :
    mget (mset m k v) k' d = if k = k' then v else mget m k' d := by
  induction m with
  | nil => simp [mset, mget]
  | cons p t ih =>
    obtain ⟨a, w⟩ := p
    by_cases h : a = k <;> by_cases h' : k = k' <;> simp_all [mset, mget]

@[simp] theorem mget_mset_same {κ α : Type} [DecidableEq κ] (m : Map κ α) (k : κ) (v d : α) : mget (mset m k v) k d = v := by
  simp [mget_mset]

theorem mget_mset_ne {κ α : Type} [DecidableEq κ] (m : Map κ α) {k k' : κ} (h : k ≠ k') (v d : α) :
    mget (mset m k v) k' d = mget m k' d := by
  simp [mget_mset, h]

/-- A second write of a key replaces the first. -/
@[simp] theorem mset_mset {κ α : Type} [DecidableEq κ] (m : Map κ α) (k : κ) (v w : α) : mset (mset m k v) k w = mset m k w := by
  induction m with
  | nil => simp [mset]
  | cons p t ih =>
    obtain ⟨a, u⟩ := p
    by_cases h : a = k <;> simp_all [mset]

/-! ## Contexts -/

variable (s : State) (x : CtxId) (c : Ctx)

@[simp] theorem ctx_setCtx_same : (s.setCtx x c).ctx x = c := by simp [State.ctx, State.setCtx]

theorem ctx_setCtx_ne {y : CtxId} (h : x ≠ y) : (s.setCtx x c).ctx y = s.ctx y := by simp [State.ctx, State.setCtx, mget_mset_ne _ h]

@[simp] theorem setCtx_setCtx (d : Ctx) : (s.setCtx x c).setCtx x d = s.setCtx x d := by simp [State.setCtx]

@[simp] theorem me_setMe : (s.setMe c).me = c := ctx_setCtx_same s s.cur c
@[simp] theorem setMe_setMe (d : Ctx) : (s.setMe c).setMe d = s.setMe d := setCtx_setCtx s s.cur c d
@[simp] theorem setMe_cur : (s.setMe c).cur = s.cur := rfl
@[simp] theorem setCtx_cur : (s.setCtx x c).cur = s.cur := rfl
@[simp] theorem setCtx_ir : (s.setCtx x c).ir = s.ir := rfl
@[simp] theorem setCtx_fresh : (s.setCtx x c).fresh = s.fresh := rfl
@[simp] theorem setCtx_agenda : (s.setCtx x c).agenda = s.agenda := rfl
@[simp] theorem setCtx_mem : (s.setCtx x c).mem = s.mem := rfl
@[simp] theorem setCtx_hostMem : (s.setCtx x c).hostMem = s.hostMem := rfl
@[simp] theorem setCtx_cores : (s.setCtx x c).cores = s.cores := rfl
@[simp] theorem setCtx_core (k : CoreId) : (s.setCtx x c).core k = s.core k := rfl
@[simp] theorem setCtx_clusters : (s.setCtx x c).clusters = s.clusters := rfl
@[simp] theorem setCtx_cluster (k : ClusterId) : (s.setCtx x c).cluster k = s.cluster k := rfl
@[simp] theorem setCtx_parts : (s.setCtx x c).parts = s.parts := rfl
@[simp] theorem setCtx_part (p : PartId) : (s.setCtx x c).part p = s.part p := rfl
@[simp] theorem setCtx_cycle : (s.setCtx x c).cycle = s.cycle := rfl
@[simp] theorem setCtx_areas : (s.setCtx x c).areas = s.areas := rfl
@[simp] theorem setCtx_reqs : (s.setCtx x c).reqs = s.reqs := rfl
@[simp] theorem setCtx_poison : (s.setCtx x c).poison = s.poison := rfl
@[simp] theorem setCtx_image : (s.setCtx x c).image = s.image := rfl
@[simp] theorem setCtx_phase : (s.setCtx x c).phase = s.phase := rfl

/-! ## Cores, clusters and partitions -/

@[simp] theorem core_setCore_same (k : CoreId) (v : Core) : (s.setCore k v).core k = v := by simp [State.core, State.setCore]
theorem core_setCore_ne {k l : CoreId} (h : k ≠ l) (v : Core) : (s.setCore k v).core l = s.core l := by
  simp [State.core, State.setCore, mget_mset_ne _ h]
@[simp] theorem setCore_ctx (k : CoreId) (v : Core) : (s.setCore k v).ctx x = s.ctx x := rfl
@[simp] theorem setCore_cur (k : CoreId) (v : Core) : (s.setCore k v).cur = s.cur := rfl
@[simp] theorem setCore_mem (k : CoreId) (v : Core) : (s.setCore k v).mem = s.mem := rfl
@[simp] theorem setCore_hostMem (k : CoreId) (v : Core) : (s.setCore k v).hostMem = s.hostMem := rfl
@[simp] theorem setCore_ctxs (k : CoreId) (v : Core) : (s.setCore k v).ctxs = s.ctxs := rfl
@[simp] theorem setCore_ir (k : CoreId) (v : Core) : (s.setCore k v).ir = s.ir := rfl
@[simp] theorem cluster_setCluster_same (k : ClusterId) (v : Cluster) : (s.setCluster k v).cluster k = v := by
  simp [State.cluster, State.setCluster]
theorem cluster_setCluster_ne {k l : ClusterId} (h : k ≠ l) (v : Cluster) : (s.setCluster k v).cluster l = s.cluster l := by
  simp [State.cluster, State.setCluster, mget_mset_ne _ h]
@[simp] theorem setCluster_ctx (k : ClusterId) (v : Cluster) : (s.setCluster k v).ctx x = s.ctx x := rfl
@[simp] theorem setCluster_cur (k : ClusterId) (v : Cluster) : (s.setCluster k v).cur = s.cur := rfl
@[simp] theorem setCluster_mem (k : ClusterId) (v : Cluster) : (s.setCluster k v).mem = s.mem := rfl
@[simp] theorem part_setPart_same (p : PartId) (v : Partition) : (s.setPart p v).part p = v := by simp [State.part, State.setPart]
theorem part_setPart_ne {p q : PartId} (h : p ≠ q) (v : Partition) : (s.setPart p v).part q = s.part q := by
  simp [State.part, State.setPart, mget_mset_ne _ h]
@[simp] theorem setPart_ctx (p : PartId) (v : Partition) : (s.setPart p v).ctx x = s.ctx x := rfl
@[simp] theorem setPart_cur (p : PartId) (v : Partition) : (s.setPart p v).cur = s.cur := rfl
@[simp] theorem setPart_mem (p : PartId) (v : Partition) : (s.setPart p v).mem = s.mem := rfl

/-! ## Free values -/

@[simp] theorem draw_ctx : s.draw.ctx x = s.ctx x := rfl
@[simp] theorem draw_cur : s.draw.cur = s.cur := rfl
@[simp] theorem draw_mem : s.draw.mem = s.mem := rfl
@[simp] theorem draw_hostMem : s.draw.hostMem = s.hostMem := rfl
@[simp] theorem draw_core (k : CoreId) : s.draw.core k = s.core k := rfl
@[simp] theorem draw_cluster (k : ClusterId) : s.draw.cluster k = s.cluster k := rfl
@[simp] theorem draw_part (p : PartId) : s.draw.part p = s.part p := rfl

/-! ## Registers of a context -/

theorem getS_setS (d r : SReg) (v : Word) : getS (setS c d v) r = if r = 0 then 0 else if r = d then v else getS c r := by
  unfold getS setS
  by_cases hr : r = 0
  · simp [hr]
  · by_cases hd : d = 0
    · have : ¬ r = d := fun e => hr (e.trans hd)
      simp [hr, hd]
    · by_cases hrd : r = d
      · subst hrd
        simp [hr]
      · have : d.val ≠ r.val := fun e => hrd (Fin.ext e.symm)
        simp [hr, hd, hrd, this]

@[simp] theorem setS_pc (d : SReg) (v : Word) : (setS c d v).pc = c.pc := by unfold setS; split <;> rfl
@[simp] theorem setS_f (d : SReg) (v : Word) : (setS c d v).f = c.f := by unfold setS; split <;> rfl
@[simp] theorem setS_retired (d : SReg) (v : Word) : (setS c d v).retired = c.retired := by unfold setS; split <;> rfl
@[simp] theorem setS_script (d : SReg) (v : Word) : (setS c d v).script = c.script := by unfold setS; split <;> rfl
@[simp] theorem setS_window (d : SReg) (v : Word) : (setS c d v).window = c.window := by unfold setS; split <;> rfl

/-- `setS` writes nothing but the scalar registers. -/
theorem setS_frame (d : SReg) (v : Word) : { c with s := (setS c d v).s } = setS c d v := by unfold setS; split <;> rfl

@[simp] theorem setF_pc (f : FReg) (v : Bool) : (setF c f v).pc = c.pc := rfl
@[simp] theorem setF_s (f : FReg) (v : Bool) : (setF c f v).s = c.s := rfl
@[simp] theorem setF_retired (f : FReg) (v : Bool) : (setF c f v).retired = c.retired := rfl
@[simp] theorem setF_window (f : FReg) (v : Bool) : (setF c f v).window = c.window := rfl
@[simp] theorem retireTo_pc (p : Word) : (retireTo c p).pc = p := rfl
@[simp] theorem retireTo_s (p : Word) : (retireTo c p).s = c.s := rfl
@[simp] theorem retireTo_f (p : Word) : (retireTo c p).f = c.f := rfl
@[simp] theorem retireTo_retired (p : Word) : (retireTo c p).retired = c.retired + 1 := rfl
@[simp] theorem retireTo_window (p : Word) : (retireTo c p).window = c.window := rfl
@[simp] theorem retire_pc : (retire c).pc = c.pc + 8 := rfl
@[simp] theorem retire_s : (retire c).s = c.s := rfl
@[simp] theorem retire_f : (retire c).f = c.f := rfl
@[simp] theorem retire_retired : (retire c).retired = c.retired + 1 := rfl
@[simp] theorem retire_window : (retire c).window = c.window := rfl
@[simp] theorem getS_retireTo (p : Word) (r : SReg) : getS (retireTo c p) r = getS c r := rfl
@[simp] theorem getS_retire (r : SReg) : getS (retire c) r = getS c r := rfl
@[simp] theorem getS_setF (f : FReg) (v : Bool) (r : SReg) : getS (setF c f v) r = getS c r := rfl

/-- s0 reads zero (R13). -/
@[simp] theorem getS_zero : getS c 0 = 0 := by simp [getS]

end Sys2Proof.Laws
end

