-- ==== Sys2Proof/Laws/Memory.lean ====
section
/-! SUPPORT. Memory: a read after a write, the canonical form kept, and what the stores of the machine do to it. -/

namespace Sys2Proof.Laws

open Machine

/-! ## Bytes of a canonical memory -/

/-- Every address of a memory in canonical form lies above its head's. -/
theorem wf_tail {x : Nat} {b : Byte} {t : Memory} (h : Memory.wf ((x, b) :: t) = true) : Memory.wf t = true := by
  cases t with
  | nil => rfl
  | cons p t => obtain ⟨y, c⟩ := p; simp_all [Memory.wf]

theorem wf_head {x : Nat} {b : Byte} {t : Memory} (h : Memory.wf ((x, b) :: t) = true) : b ≠ 0 := by
  cases t with
  | nil => simpa [Memory.wf] using h
  | cons p t => obtain ⟨y, c⟩ := p; simp_all [Memory.wf]

theorem read_below {x a : Nat} {b : Byte} {t : Memory} (h : Memory.wf ((x, b) :: t) = true) (ha : a ≤ x) : Memory.read t a = 0 := by
  induction t generalizing x b with
  | nil => rfl
  | cons p t ih =>
    obtain ⟨y, c⟩ := p
    have hxy : x < y := by simp_all [Memory.wf]
    have hn : y ≠ a := by omega
    simp only [Memory.read, hn, ↓reduceIte]
    exact ih (wf_tail h) (by omega)

/-- A read after a write of one byte. -/
theorem read_write {m : Memory} (h : m.wf = true) (a a' : Nat) (b : Byte) :
    (m.write a b).read a' = if a' = a then b else m.read a' := by
  induction m with
  | nil =>
    by_cases h' : a' = a
    · subst h'; by_cases hb : b = 0 <;> simp only [Memory.write, Memory.read, hb, ↓reduceIte]
    · have h2 : ¬ a = a' := fun e => h' e.symm
      by_cases hb : b = 0 <;> simp only [Memory.write, Memory.read, hb, h', h2, ↓reduceIte]
  | cons p t ih =>
    obtain ⟨x, c⟩ := p
    have ih := ih (wf_tail h)
    have low : a ≤ x → Memory.read t a = 0 := read_below h
    simp only [Memory.write]
    by_cases h' : a' = a
    · subst h'
      by_cases hx : a' < x
      · have hne : ¬ x = a' := by omega
        have hl := low (by omega)
        simp only [hx, ↓reduceIte]
        split <;> simp_all [Memory.read]
      · by_cases he : a' = x
        · subst he
          simp only [Nat.lt_irrefl, ↓reduceIte]
          split <;> simp_all [Memory.read]
        · have hne : ¬ x = a' := fun e => he e.symm
          simp only [hx, he, Memory.read, hne, ↓reduceIte] at ih ⊢
          exact ih
    · have h2 : ¬ a = a' := fun e => h' e.symm
      by_cases hx : a < x
      · simp only [hx, ↓reduceIte]
        split <;> simp [Memory.read, h2]
      · by_cases he : a = x
        · subst he
          simp only [Nat.lt_irrefl, ↓reduceIte]
          split <;> simp [Memory.read, h2]
        · simp only [h', ↓reduceIte] at ih
          simp only [hx, he, Memory.read, h', ↓reduceIte, ih]

/-- The lowest address of a written memory. -/
theorem wf_cons_write {x : Nat} {c : Byte} {t : Memory} (h : Memory.wf ((x, c) :: t) = true) {a : Nat} (ha : x < a) (b : Byte)
    (ht : Memory.wf (t.write a b) = true) : Memory.wf ((x, c) :: t.write a b) = true := by
  cases t with
  | nil =>
    have := wf_head h
    by_cases hb : b = 0 <;> simp_all [Memory.write, Memory.wf]
  | cons p t =>
    obtain ⟨y, d⟩ := p
    have hxy : x < y := by simp_all [Memory.wf]
    have hc := wf_head h
    by_cases h1 : a < y
    · by_cases hb : b = 0 <;> simp_all [Memory.write, Memory.wf]
    · by_cases h2 : a = y
      · subst h2
        by_cases hb : b = 0
        · subst hb
          cases t with
          | nil => simp_all [Memory.write, Memory.wf]
          | cons q t =>
            obtain ⟨z, e⟩ := q
            have : a < z := by simp_all [Memory.wf]
            have : x < z := by omega
            simp_all [Memory.write, Memory.wf]
        · simp_all [Memory.write, Memory.wf]
      · simp only [Memory.write, h1, h2, ↓reduceIte] at ht ⊢
        simp_all [Memory.wf]

/-- A write keeps the canonical form. -/
theorem write_wf {m : Memory} (h : m.wf = true) (a : Nat) (b : Byte) : (m.write a b).wf = true := by
  induction m with
  | nil =>
    simp only [Memory.write]
    split
    · rfl
    · simpa [Memory.wf] using ‹¬ b = 0›
  | cons p t ih =>
    obtain ⟨x, c⟩ := p
    have ih := ih (wf_tail h)
    by_cases hx : a < x
    · by_cases hb : b = 0 <;> simp_all [Memory.write, Memory.wf]
    · by_cases he : a = x
      · subst he
        by_cases hb : b = 0
        · subst hb; simpa [Memory.write] using wf_tail h
        · cases t with
          | nil => simp_all [Memory.write, Memory.wf]
          | cons q t => obtain ⟨z, e⟩ := q; simp_all [Memory.write, Memory.wf]
      · have : x < a := by omega
        have hw := wf_cons_write h this b ih
        simpa [Memory.write, hx, he] using hw

/-- Stored bytes keep the canonical form. -/
theorem put_wf {m : Memory} (h : m.wf = true) (a : Nat) (bs : List Byte) : (m.put a bs).wf = true := by
  induction bs generalizing m a with
  | nil => exact h
  | cons b bs ih => exact ih (write_wf h a b) (a + 1)

/-- A read after stored bytes: one of them, or what was there. -/
theorem read_put {m : Memory} (h : m.wf = true) (a a' : Nat) (bs : List Byte) :
    (m.put a bs).read a' = if a ≤ a' ∧ a' < a + bs.length then bs[a' - a]?.getD 0 else m.read a' := by
  induction bs generalizing m a with
  | nil =>
    simp only [Memory.put, List.length_nil, Nat.add_zero]
    have : ¬ (a ≤ a' ∧ a' < a) := by omega
    simp only [this, ↓reduceIte]
  | cons b bs ih =>
    simp only [Memory.put]
    rw [ih (write_wf h a b) (a + 1), read_write h]
    by_cases h1 : a' = a
    · subst h1; simp
    · by_cases h2 : a ≤ a'
      · obtain ⟨n, rfl⟩ : ∃ n, a' = a + 1 + n := ⟨a' - (a + 1), by omega⟩
        have e1 : a + 1 + n - (a + 1) = n := by omega
        have e2 : a + 1 + n - a = n + 1 := by omega
        simp only [e1, e2, List.getElem?_cons_succ, List.length_cons, h1, ↓reduceIte]
        by_cases h3 : n < bs.length
        · have hh : a + 1 + n < a + 1 + bs.length := by omega
          have hl : a + 1 ≤ a + 1 + n := by omega
          have hr : a + 1 + n < a + (bs.length + 1) := by omega
          simp [h3, hl, h2, hr]
        · have hr : ¬ a + 1 + n < a + (bs.length + 1) := by omega
          simp [h3, hr]
      · have hn : ¬ a + 1 ≤ a' := by omega
        simp [h1, h2, hn]

/-- Bytes outside a store read as before. -/
theorem read_put_outside {m : Memory} (h : m.wf = true) {a a' : Nat} {bs : List Byte} (ho : a' < a ∨ a + bs.length ≤ a') :
    (m.put a bs).read a' = m.read a' := by
  rw [read_put h]
  have : ¬ (a ≤ a' ∧ a' < a + bs.length) := by omega
  simp [this]

/-- Memory at reset is in canonical form. -/
theorem reset_mem_wf : State.reset.mem.wf = true ∧ State.reset.hostMem.wf = true := ⟨rfl, rfl⟩

/-! ## The machine's stores -/

/-- What aborting a migration leaves alone. -/
@[simp] theorem abortMigration_mem (s : State) (g : Nat) : (abortMigration s g).mem = s.mem := by
  unfold abortMigration; simp only; split <;> rfl
@[simp] theorem abortMigration_hostMem (s : State) (g : Nat) : (abortMigration s g).hostMem = s.hostMem := by
  unfold abortMigration; simp only; split <;> rfl

/-- Local memory after a store of bytes. -/
theorem storePA_mem (s : State) (pa : Nat) (bs : List Byte) :
    (storePA s pa bs).mem = if isHost pa then s.mem else s.mem.put pa bs := by
  unfold storePA
  by_cases h : isHost pa <;> by_cases hb : bs = [] <;> simp [h, hb, Memory.put]

/-- Host memory after a store of bytes. -/
theorem storePA_hostMem (s : State) (pa : Nat) (bs : List Byte) :
    (storePA s pa bs).hostMem = if isHost pa then s.hostMem.put (pa % 2 ^ 51) bs else s.hostMem := by
  unfold storePA
  by_cases h : isHost pa <;> by_cases hb : bs = [] <;> simp [h, hb]

/-- A store keeps both memories in canonical form. -/
theorem storePA_wf {s : State} (h : s.mem.wf = true ∧ s.hostMem.wf = true) (pa : Nat) (bs : List Byte) :
    (storePA s pa bs).mem.wf = true ∧ (storePA s pa bs).hostMem.wf = true := by
  rw [storePA_mem, storePA_hostMem]
  split
  · exact ⟨h.1, put_wf h.2 _ _⟩
  · exact ⟨put_wf h.1 _ _, h.2⟩

/-- A write to a pool part leaves both memories alone. -/
@[simp] theorem poolPut_mem (s : State) (k : CoreId) (p : PoolPart) (off : Nat) (bs : List Byte) :
    (poolPut s k p off bs).mem = s.mem := by cases p <;> rfl
@[simp] theorem poolPut_hostMem (s : State) (k : CoreId) (p : PoolPart) (off : Nat) (bs : List Byte) :
    (poolPut s k p off bs).hostMem = s.hostMem := by cases p <;> rfl

/-- A write to a pool part keeps the part in canonical form. -/
theorem poolPut_wf {s : State} {k : CoreId} (h : (s.core k).srf.wf = true ∧ (s.core k).spd.wf = true) (p : PoolPart) (off : Nat)
    (bs : List Byte) : ((poolPut s k p off bs).core k).srf.wf = true ∧ ((poolPut s k p off bs).core k).spd.wf = true := by
  cases p
  · simpa [poolPut, State.modCore] using ⟨h.1, put_wf h.2 _ _⟩
  · simpa [poolPut, State.modCore] using ⟨put_wf h.1 _ _, h.2⟩

end Sys2Proof.Laws
end

