-- ==== Sys2Proof/Laws/Scalar.lean ====
section
/-! SUPPORT. The shapes of scalar instructions: what the end of an instruction writes, and what holds one back. -/

namespace Sys2Proof.Laws

open Machine

/-- Without a hazard an instruction goes on to its effect. -/
theorem onReady_of {s : State} {srcs : List Src} {regs : List SReg} (h : hazard s.me srcs regs = false) (k : Out) :
    onReady s srcs regs k = k := by simp [onReady, h]

/-- With one it is tried again. -/
theorem onReady_waits {s : State} {srcs : List Src} {regs : List SReg} (h : hazard s.me srcs regs = true) (k : Out) :
    onReady s srcs regs k = .next s := by simp [onReady, h]

/-- Without a writer on its way a predicate is read or written. -/
theorem onFlags_of {s : State} {fs : List FReg} (h : ∀ f ∈ fs, busyF s.me f = false) (k : Out) : onFlags s fs k = k := by
  have : fs.any (busyF s.me) = false := by simpa using h
  simp [onFlags, this]

/-- Only the executing context of `s.setMe c` differs from `s`. -/
theorem setMe_other {s : State} {x : CtxId} (h : x ≠ s.cur) (c : Ctx) : (s.setMe c).ctx x = s.ctx x :=
  ctx_setCtx_ne s s.cur c (Ne.symm h)

/-- What a scalar result writes: one register, the PC and RETIRED. -/
theorem writeBack_spec (s : State) (d : SReg) (v : Word) :
    ∃ t, writeBack s d v = .next t
      ∧ (∀ r, getS t.me r = if r = 0 then 0 else if r = d then v else getS s.me r)
      ∧ t.me.pc = s.me.pc + 8 ∧ t.me.retired = s.me.retired + 1 ∧ t.me.f = s.me.f
      ∧ t.me = { s.me with s := t.me.s, f := t.me.f, pc := t.me.pc, retired := t.me.retired, script := t.me.script }
      ∧ t = s.setMe t.me := by
  refine ⟨_, rfl, ?_, ?_, ?_, ?_, ?_, ?_⟩
  · intro r; simp [getS_setS]
  · simp
  · simp
  · simp
  · simp only [me_setMe]
    unfold retire retireTo setS
    split <;> rfl
  · simp only [me_setMe]

/-- What a predicate result writes. -/
theorem writeFlag_spec (s : State) (d : FReg) (v : Bool) :
    ∃ t, writeFlag s d v = .next t
      ∧ (∀ g : FReg, t.me.f[g] = if g = d then v else s.me.f[g])
      ∧ t.me.pc = s.me.pc + 8 ∧ t.me.retired = s.me.retired + 1 ∧ t.me.s = s.me.s
      ∧ t.me = { s.me with s := t.me.s, f := t.me.f, pc := t.me.pc, retired := t.me.retired, script := t.me.script }
      ∧ t = s.setMe t.me := by
  refine ⟨_, rfl, ?_, ?_, ?_, ?_, ?_, ?_⟩
  · intro g
    simp only [me_setMe, retire_f, setF]
    by_cases h : g = d
    · subst h; simp
    · have : d.val ≠ g.val := fun e => h (Fin.ext e.symm)
      simp [h, this]
  · simp
  · simp
  · simp
  · simp only [me_setMe]; rfl
  · simp only [me_setMe]

/-- A jump to a multiple of 8. -/
theorem jumpTo_aligned {s : State} {t : Word} (h : t.toNat % 8 = 0) (c : Ctx) : jumpTo s c t = .next (s.setMe (retireTo c t)) := by
  simp [jumpTo, h]

/-- A jump to another address freezes at the jump (R106). -/
theorem jumpTo_misaligned {s : State} {t : Word} (h : t.toNat % 8 ≠ 0) (c : Ctx) : jumpTo s c t = .next (freezeHere s 0x0B 0 t) := by
  simp [jumpTo, h]

/-- A fault of a non-column instruction, with nothing held in flight and nothing to await. -/
theorem freezeHere_of {s : State} (h : ∀ e ∈ s.me.window, e.held = []) (hw : freezeWaits s s.cur = false) (cause elem : Nat)
    (addr : Word) :
    freezeHere s cause elem addr
      = freeze s s.cur { cause := cause, elem := elem, addr := addr, pc := s.me.pc, word := s.ir, nc := true, async := false } := by
  have : s.me.window.any (fun e => e.held != []) = false := by simpa using h
  simp [freezeHere, this, hw]

/-- While a column-class fault is held, the instruction is tried again (R45). -/
theorem freezeHere_held {s : State} {e : Entry} (he : e ∈ s.me.window) (hh : e.held ≠ []) (cause elem : Nat) (addr : Word) :
    freezeHere s cause elem addr = s := by
  have : s.me.window.any (fun e => e.held != []) = true := by simpa using ⟨e, he, hh⟩
  simp [freezeHere, this]

/-- Accesses in sequence: the second goes on from the first. -/
theorem bind_ok {α β : Type} (a : α) (s : State) (k : α → State → Acc β) : (Acc.ok a s).bind k = k a s := rfl
theorem bind_fault {α β : Type} (cause : Nat) (addr : Word) (s : State) (k : α → State → Acc β) :
    (Acc.fault cause addr s).bind k = .fault cause addr s := rfl

/-- The end of an instruction whose accesses are done, and of one that met a fault. -/
theorem finish_ok {α : Type} (a : α) (s : State) (k : α → State → State) :
    finish (.ok a s) k = .next (k a (clearReqs s s.cur 0 0 (2 ^ 64))) := rfl
theorem finish_fault {α : Type} (cause : Nat) (addr : Word) (s : State) (k : α → State → State) :
    finish (.fault cause addr s) k = .next (freezeHere (clearReqs s s.cur 0 0 (2 ^ 64)) cause 0 addr) := rfl

end Sys2Proof.Laws
end

