-- ==== Sys2Proof/Laws/Access.lean ====
section
/-! SUPPORT. Scalar accesses: what the caches, the dirty bits and the hints leave alone, and an access of the local window. -/

namespace Sys2Proof.Laws

open Machine

/-- No context, no byte of memory or of the pools differs: what the caches may do. -/
structure Unseen (s t : State) : Prop where
  ctx  : ∀ x, t.ctx x = s.ctx x
  cur  : t.cur = s.cur
  mem  : t.mem = s.mem
  host : t.hostMem = s.hostMem
  pool : ∀ k, (t.core k).srf = (s.core k).srf ∧ (t.core k).spd = (s.core k).spd ∧ (t.core k).poolw = (s.core k).poolw
  ir   : t.ir = s.ir

theorem Unseen.rfl {s : State} : Unseen s s := ⟨fun _ => Eq.refl _, Eq.refl _, Eq.refl _, Eq.refl _, fun _ => ⟨Eq.refl _, Eq.refl _, Eq.refl _⟩, Eq.refl _⟩

theorem Unseen.trans {s t u : State} (a : Unseen s t) (b : Unseen t u) : Unseen s u :=
  ⟨fun x => (b.ctx x).trans (a.ctx x), b.cur.trans a.cur, b.mem.trans a.mem, b.host.trans a.host,
   fun k => ⟨(b.pool k).1.trans (a.pool k).1, (b.pool k).2.1.trans (a.pool k).2.1, (b.pool k).2.2.trans (a.pool k).2.2⟩, b.ir.trans a.ir⟩

theorem Unseen.me {s t : State} (h : Unseen s t) : t.me = s.me := by simp [State.me, h.ctx, h.cur]
theorem Unseen.bytesPA {s t : State} (h : Unseen s t) (pa n : Nat) : t.bytesPA pa n = s.bytesPA pa n := by
  simp [State.bytesPA, h.mem, h.host]

/-- A change of one core that keeps its pools. -/
theorem unseen_modCore (s : State) (k : CoreId) (g : Core → Core)
    (h : ∀ c, (g c).srf = c.srf ∧ (g c).spd = c.spd ∧ (g c).poolw = c.poolw) : Unseen s (s.modCore k g) := by
  refine ⟨fun _ => rfl, rfl, rfl, rfl, fun l => ?_, rfl⟩
  by_cases e : k = l
  · subst e; simp only [State.modCore, core_setCore_same]; exact h _
  · simp [State.modCore, core_setCore_ne _ e]

theorem unseen_l1DropAll (s : State) (k : CoreId) : Unseen s (l1DropAll s k) := unseen_modCore s k _ (fun _ => ⟨rfl, rfl, rfl⟩)
theorem unseen_l1Touch (s : State) (k : CoreId) (l : L1Line) : Unseen s (l1Touch s k l) :=
  unseen_modCore s k _ (fun _ => ⟨rfl, rfl, rfl⟩)
theorem unseen_l1Update (s : State) (k : CoreId) (pa n : Nat) : Unseen s (l1Update s k pa n) := by
  unfold l1Update
  refine unseen_modCore s k _ ?_
  exact fun _ => ⟨rfl, rfl, rfl⟩

/-- A change of the L2, of the partitions, of the TLB or of the migrations only. -/
theorem unseen_of {s t : State} (h : t = { s with l2 := t.l2, parts := t.parts, fresh := t.fresh, migs := t.migs, tlb := t.tlb }) :
    Unseen s t := by rw [h]; exact ⟨fun _ => rfl, rfl, rfl, rfl, fun _ => ⟨rfl, rfl, rfl⟩, rfl⟩

theorem unseen_withL2 (s : State) (l : List L2Line) : Unseen s { s with l2 := l } := ⟨fun _ => rfl, rfl, rfl, rfl, fun _ => ⟨rfl, rfl, rfl⟩, rfl⟩

theorem unseen_l1Fill (s : State) (k : CoreId) (pa : Nat) : Unseen s (l1Fill s k pa) := by
  unfold l1Fill; dsimp only
  refine Unseen.trans ?_ (unseen_withL2 _ _)
  refine unseen_modCore s k _ ?_
  exact fun _ => ⟨rfl, rfl, rfl⟩

theorem unseen_promoteHint (s : State) (p : BitVec 32) (pa : Nat) : Unseen s (promoteHint s p pa) := unseen_of rfl

theorem unseen_l2Touch (s : State) (part : PartId) (pol : BitVec 32) (va pa : Nat) : Unseen s (l2Touch s part pol va pa) := by
  have key : ∀ (b : Bool) (g : Partition → Partition), Unseen s (if b = true then s.modPart part g else s) := by
    intro b g; cases b
    · exact Unseen.rfl
    · exact ⟨fun _ => rfl, rfl, rfl, rfl, fun _ => ⟨rfl, rfl, rfl⟩, rfl⟩
  unfold l2Touch; dsimp only
  repeat' first
    | exact Unseen.trans (key _ _) (unseen_withL2 _ _)
    | exact key _ _
    | split

theorem abortMigration_frame (s : State) (g : Nat) : (abortMigration s g).ctxs = s.ctxs ∧ (abortMigration s g).cur = s.cur
    ∧ (abortMigration s g).cores = s.cores ∧ (abortMigration s g).ir = s.ir := by
  unfold abortMigration; dsimp only; split <;> exact ⟨rfl, rfl, rfl, rfl⟩

/-- The memories after a store are the only thing a reader of registers or pools could see of it. -/
theorem storePA_ctxs (s : State) (pa : Nat) (bs : List Byte) :
    (storePA s pa bs).ctxs = s.ctxs ∧ (storePA s pa bs).cur = s.cur ∧ (storePA s pa bs).cores = s.cores ∧ (storePA s pa bs).ir = s.ir := by
  unfold storePA
  dsimp only
  split
  · exact ⟨rfl, rfl, rfl, rfl⟩
  · split
    · exact ⟨rfl, rfl, rfl, rfl⟩
    · exact abortMigration_frame _ _

theorem setDirty_ctxs (s : State) (part : PartId) (p : Page) :
    (setDirty s part p).ctxs = s.ctxs ∧ (setDirty s part p).cur = s.cur ∧ (setDirty s part p).cores = s.cores
      ∧ (setDirty s part p).ir = s.ir := by
  unfold setDirty setDirtyPte orPte; dsimp only
  split
  · exact ⟨rfl, rfl, rfl, rfl⟩
  · split
    · exact ⟨rfl, rfl, rfl, rfl⟩
    · exact storePA_ctxs _ _ _

/-- A context written with its own value. -/
theorem unseen_setCtx_self (s : State) (x : CtxId) : Unseen s (s.setCtx x (s.ctx x)) := by
  refine ⟨fun y => ?_, rfl, rfl, rfl, fun _ => ⟨rfl, rfl, rfl⟩, rfl⟩
  by_cases h : x = y
  · subst h; simp
  · exact ctx_setCtx_ne _ _ _ h

/-! ## Outside a checked group -/

theorem ownCtx_set (s : State) (x : CtxId) : (s.modCtx x id).ctx x = s.ctx x := by simp [State.modCtx]

theorem noteRead_unchecked {s : State} {x : CtxId} (h : (s.ctx x).chk = false) (pa : Nat) : noteRead s x pa = s := by
  simp [noteRead, h]

theorem fenceWrite_unchecked {s : State} {x : CtxId} (h : (s.ctx x).chk = false) (pa : Nat) : fenceWrite s x pa = s := by
  simp [fenceWrite, releaseClock, h]

theorem raceCheck_unchecked {s : State} {x : CtxId} (h : (s.ctx x).chk = false) (ph : Nat) (w : Bool) (ps : List Piece) :
    raceCheck s x ph w ps = some s := by
  induction ps with
  | nil => rfl
  | cons p ps ih => unfold raceCheck; split <;> simp [h, ih]

theorem raceCheck_pool (s : State) (x : CtxId) (ph : Nat) (w : Bool) {p : Piece} {q : PoolPart} {off : Nat} (h : p.place = .pool q off) :
    raceCheck s x ph w [p] = some s := by
  unfold raceCheck; rw [h]; rfl

theorem raceStep_pool (s : State) (pol : BitVec 32) (w : Bool) {p : Piece} {q : PoolPart} {off : Nat} (h : p.place = .pool q off) :
    raceStep s pol w [p] = some s := by
  unfold raceStep; split
  · exact raceCheck_pool s _ _ w h
  · rfl

theorem raceStep_unchecked {s : State} (h : s.me.chk = false) (pol : BitVec 32) (w : Bool) (ps : List Piece) :
    raceStep s pol w ps = some s := by
  unfold raceStep; split
  · exact raceCheck_unchecked h _ _ _
  · rfl

/-! ## The local window -/

/-- An aligned access of a power of two up to 8 bytes lies in one sector. -/
theorem one_sector {a n : Nat} (hn : n = 1 ∨ n = 2 ∨ n = 4 ∨ n = 8) (ha : a % n = 0) : min n (32 - a % 32) = n := by
  rcases hn with rfl | rfl | rfl | rfl <;> omega

/-- An access of the window that lies in one sector lies at one place of the pool. -/
theorem resolve_sector {s : State} {w : Who} (k : Kind) {a : Word} {n : Nat} (hne : n ≠ 0) (hs : min n (32 - a.toNat % 32) = n)
    (hlo : windowBase ≤ a.toNat) (hhi : a.toNat < 2 ^ 57) {q : PoolPart} {off : Nat}
    (hp : poolAt (s.core (coreOf w.ctx)) (a.toNat - windowBase) n = some (q, off)) :
    resolve s w k a n = .ok [{ at_ := 0, len := n, va := a.toNat, place := .pool q off }] s := by
  have hw : inWindow a.toNat = true := by simp only [inWindow, hlo, hhi, decide_true, Bool.and_self]
  have hplace : ∀ u, placePiece s w k a.toNat n u = .ok (.pool q off) s := by
    intro u; unfold placePiece; simp only [hw, if_true, hp]
  have hr : resolve s w k a n = (placePieces w k a n s 0 a.toNat n).bind fun ps s => .ok (if n ≤ 48 then mergePeers ps else ps) s :=
    if_neg (Nat.not_le.2 hhi)
  have hlast : ∀ f, placePieces w k a f s n (a.toNat + n) 0 = .ok [] s := by
    intro f; cases f <;> rfl
  have hone : placePieces w k a n s 0 a.toNat n = .ok [{ at_ := 0, len := n, va := a.toNat, place := .pool q off }] s := by
    have step : ∀ f, placePieces w k a (f + 1) s 0 a.toNat n = .ok [{ at_ := 0, len := n, va := a.toNat, place := .pool q off }] s := by
      intro f
      show (if n = 0 then _ else _) = _
      rw [if_neg hne]
      dsimp only
      rw [hs, hplace]
      simp only [Acc.bind, Nat.zero_add, Nat.sub_self, hlast]
    cases h : n with
    | zero => exact absurd h hne
    | succ m => rw [h] at step; exact step m
  rw [hr, hone]
  simp [Acc.bind, mergePeers]

/-- An aligned access of the window lies at one place of the pool. -/
theorem resolve_window {s : State} {w : Who} (k : Kind) {a : Word} {n : Nat} (hn : n = 1 ∨ n = 2 ∨ n = 4 ∨ n = 8) (ha : a.toNat % n = 0)
    (hlo : windowBase ≤ a.toNat) (hhi : a.toNat < 2 ^ 57) {q : PoolPart} {off : Nat}
    (hp : poolAt (s.core (coreOf w.ctx)) (a.toNat - windowBase) n = some (q, off)) :
    resolve s w k a n = .ok [{ at_ := 0, len := n, va := a.toNat, place := .pool q off }] s :=
  resolve_sector k (by omega) (one_sector hn ha) hlo hhi hp

/-- A sector of the window. -/
theorem resolve_window32 {s : State} {w : Who} (k : Kind) {a : Word} (ha : a.toNat % 32 = 0)
    (hlo : windowBase ≤ a.toNat) (hhi : a.toNat < 2 ^ 57) {q : PoolPart} {off : Nat}
    (hp : poolAt (s.core (coreOf w.ctx)) (a.toNat - windowBase) 32 = some (q, off)) :
    resolve s w k a 32 = .ok [{ at_ := 0, len := 32, va := a.toNat, place := .pool q off }] s :=
  resolve_sector k (by decide) (by rw [ha]; rfl) hlo hhi hp

end Sys2Proof.Laws
end

