-- ==== Sys2Proof/Laws/Issue.lean ====
section
/-! SUPPORT. Issue of column-class instructions: what enters the window, and what issue leaves as it was. -/

namespace Sys2Proof.Laws

open Machine

/-! ## Registers of columns -/

theorem getCol_setCol (c : Ctx) (r r' : Col) (x : Column) : getCol (setCol c r x) r' = if r' = r then x else getCol c r' := by
  cases r with
  | c n => cases r' with
    | c m =>
      by_cases h : m = n
      · subst h; simp [getCol, setCol]
      · have : n.val ≠ m.val := fun e => h (Fin.ext e.symm)
        simp [getCol, setCol, h, this]
    | p m => simp [getCol, setCol]
  | p n => cases r' with
    | c m => simp [getCol, setCol]
    | p m =>
      by_cases h : m = n
      · subst h; simp [getCol, setCol]
      · have : n.val ≠ m.val := fun e => h (Fin.ext e.symm)
        simp [getCol, setCol, h, this]

/-- `setCol` writes nothing but the registers of columns. -/
theorem setCol_frame (c : Ctx) (r : Col) (x : Column) : setCol c r x = { c with c := (setCol c r x).c, p := (setCol c r x).p } := by
  cases r <;> rfl

theorem setFmt_frame (c : Ctx) (r : Col) (f : Fmt) : setFmt c r f = { c with c := (setFmt c r f).c, p := (setFmt c r f).p } :=
  setCol_frame c r _

theorem getCol_setFmt_ne (c : Ctx) {r r' : Col} (h : r' ≠ r) (f : Fmt) : getCol (setFmt c r f) r' = getCol c r' := by
  simp [setFmt, getCol_setCol, h]

theorem getCol_setFmt_fmt (c : Ctx) (r : Col) (f : Fmt) : (getCol (setFmt c r f) r).fmt = f := by
  simp [setFmt, getCol_setCol]

/-- The formats of destinations written at issue (R150). -/
def setFmts (c : Ctx) (ds : List (Col × Fmt × Option Nat)) : Ctx := ds.foldl (fun c d => setFmt c d.1 d.2.1) c

theorem setFmts_frame (ds : List (Col × Fmt × Option Nat)) (c : Ctx) :
    setFmts c ds = { c with c := (setFmts c ds).c, p := (setFmts c ds).p } := by
  induction ds generalizing c with
  | nil => rfl
  | cons d ds ih =>
    have h : setFmts c (d :: ds) = setFmts (setFmt c d.1 d.2.1) ds := rfl
    rw [h, ih (setFmt c d.1 d.2.1), setFmt_frame c d.1 d.2.1]

theorem setFmts_other (ds : List (Col × Fmt × Option Nat)) (c : Ctx) {r : Col} (h : r ∉ ds.map (·.1)) :
    getCol (setFmts c ds) r = getCol c r := by
  induction ds generalizing c with
  | nil => rfl
  | cons d ds ih =>
    have h' : r ≠ d.1 ∧ r ∉ ds.map (·.1) := by simpa using h
    have e : setFmts c (d :: ds) = setFmts (setFmt c d.1 d.2.1) ds := rfl
    rw [e, ih _ h'.2, getCol_setFmt_ne _ h'.1]

theorem setFmts_fmt (ds : List (Col × Fmt × Option Nat)) (c : Ctx) (hd : (ds.map (·.1)).Nodup) {d : Col × Fmt × Option Nat}
    (h : d ∈ ds) : (getCol (setFmts c ds) d.1).fmt = d.2.1 := by
  induction ds generalizing c with
  | nil => simp at h
  | cons e ds ih =>
    have hn : e.1 ∉ ds.map (·.1) ∧ (ds.map (·.1)).Nodup := by simpa using hd
    have he : setFmts c (e :: ds) = setFmts (setFmt c e.1 e.2.1) ds := rfl
    rw [he]
    rcases List.mem_cons.1 h with rfl | h
    · rw [setFmts_other _ _ hn.1, getCol_setFmt_fmt]
    · exact ih _ hn.2 h

/-! ## What `push` leaves -/

theorem popStrip_ctxs (x : CtxId) (s : State) (o : ColOperand) : (popStrip x s o).ctxs = s.ctxs := by
  unfold popStrip; dsimp only; split <;> rfl
theorem popStrip_cur (x : CtxId) (s : State) (o : ColOperand) : (popStrip x s o).cur = s.cur := by
  unfold popStrip; dsimp only; split <;> rfl
theorem popStrip_mem (x : CtxId) (s : State) (o : ColOperand) : (popStrip x s o).mem = s.mem := by
  unfold popStrip; dsimp only; split <;> rfl
theorem popStrip_hostMem (x : CtxId) (s : State) (o : ColOperand) : (popStrip x s o).hostMem = s.hostMem := by
  unfold popStrip; dsimp only; split <;> rfl

theorem pops_frame (x : CtxId) (os : List ColOperand) (s : State) :
    (os.foldl (popStrip x) s).ctxs = s.ctxs ∧ (os.foldl (popStrip x) s).cur = s.cur ∧ (os.foldl (popStrip x) s).mem = s.mem
      ∧ (os.foldl (popStrip x) s).hostMem = s.hostMem := by
  induction os generalizing s with
  | nil => exact ⟨rfl, rfl, rfl, rfl⟩
  | cons o os ih =>
    obtain ⟨a, b, c, d⟩ := ih (popStrip x s o)
    exact ⟨a.trans (popStrip_ctxs x s o), b.trans (popStrip_cur x s o), c.trans (popStrip_mem x s o),
      d.trans (popStrip_hostMem x s o)⟩

/-- Of a context, `bumpPhase` writes only its clock and SAT. -/
theorem bumpPhase_frame (c : Ctx) : bumpPhase c = { c with vc := (bumpPhase c).vc, sat := (bumpPhase c).sat } := by
  unfold bumpPhase; split
  · rfl
  · split <;> rfl

theorem pastWord_frame (c : Ctx) : pastWord c =
    { c with pc := (pastWord c).pc, script := (pastWord c).script, bodyPos := (pastWord c).bodyPos, lcnt := (pastWord c).lcnt
             sc := (pastWord c).sc } := by
  unfold pastWord; split
  · rfl
  · split
    · rfl
    · dsimp only; split <;> rfl

/-- An entry entering the window writes nothing that `pastWord` reads. -/
theorem pastWord_with (c : Ctx) (cs : Vector Column 32) (ps : Vector Column 16) (w : List Entry) (n : Nat) (l : List Interlock)
    (v : Clock) (b a : Bool) :
    pastWord { c with c := cs, p := ps, window := w, seq := n, locks := l, vc := v, sat := b, awaited := a } =
      { pastWord c with c := cs, p := ps, window := w, seq := n, locks := l, vc := v, sat := b, awaited := a } := by
  unfold pastWord
  cases c.bodyPos with
  | none => rfl
  | some i =>
    dsimp only
    split
    · rfl
    · split <;> rfl

theorem push_cur (s : State) (p : Plan) (e : Entry) : (push s p e).cur = s.cur := (pops_frame s.cur (poppedOf p) s).2.1
theorem push_mem (s : State) (p : Plan) (e : Entry) : (push s p e).mem = s.mem := (pops_frame s.cur (poppedOf p) s).2.2.1
theorem push_hostMem (s : State) (p : Plan) (e : Entry) : (push s p e).hostMem = s.hostMem :=
  (pops_frame s.cur (poppedOf p) s).2.2.2

theorem push_other (s : State) (p : Plan) (e : Entry) {x : CtxId} (h : x ≠ s.cur) : (push s p e).ctx x = s.ctx x := by
  obtain ⟨hctxs, hcur, -, -⟩ := pops_frame s.cur (poppedOf p) s
  have : (push s p e).ctx x = ((poppedOf p).foldl (popStrip s.cur) s).ctx x := by
    unfold push
    exact setMe_other (by rw [hcur]; exact h) _
  rw [this]
  exact congrArg (fun m => mget m x Ctx.reset) hctxs

/-- The context after issue, before anything settles: its window and interlock table one longer, the destinations' formats
written, the PC past the word. -/
theorem push_me (s : State) (p : Plan) (e : Entry) : ∃ (l : List Interlock) (v : Clock) (b : Bool),
    (push s p e).me = { pastWord s.me with
      c := (setFmts s.me p.dests).c, p := (setFmts s.me p.dests).p, window := s.me.window ++ [e], seq := s.me.seq + 1
      locks := l, vc := v, sat := b, awaited := false } := by
  obtain ⟨hctxs, hcur, -, -⟩ := pops_frame s.cur (poppedOf p) s
  have hme : ((poppedOf p).foldl (popStrip s.cur) s).me = s.me := by
    show mget ((poppedOf p).foldl (popStrip s.cur) s).ctxs ((poppedOf p).foldl (popStrip s.cur) s).cur _ = _
    rw [hctxs, hcur]; rfl
  have hf : ∀ c, p.dests.foldl (fun c d => setFmt c d.1 d.2.1) c = setFmts c p.dests := fun _ => rfl
  unfold push
  simp only [me_setMe, hme, hf]
  rw [setFmts_frame]
  split
  · rw [bumpPhase_frame]
    exact ⟨_, _, _, pastWord_with s.me _ _ _ _ _ _ _ _⟩
  · exact ⟨_, s.me.vc, s.me.sat, pastWord_with s.me _ _ _ _ _ _ _ _⟩

/-! ## What issue does -/

/-- An instruction that may issue, and whose checks pass, enters the window with the positions `l` its qualifier lists; what is
complete then retires. -/
theorem issue_goes {s v : State} {cols : List Col} {srcs : List Src} {regs : List SReg} {q : Qual} {l : Option (List Nat)} (p : Plan)
    (more : State → Entry → Entry) (hw : s.me.window.length < 8) (hl : s.me.locks.length < 16)
    (hh : hazard s.me srcs regs = false) (hc : ∀ r ∈ cols, (capture s s.cur r).known = true) (hq : qualReady s.me q = true)
    (hr : ∀ k, listed s q k = k l v) (hm : ∀ d ∈ p.dests, widthMoves s.me d = false) :
    issue s cols srcs regs q (.ok p) more =
      .next (settle (prepare (push v p (more v (makeEntry v p l))) v.cur s.me.window (more v (makeEntry v p l))).state v.cur) := by
  have h1 : ¬ 8 ≤ s.me.window.length := by omega
  have h2 : ¬ 16 ≤ s.me.locks.length := by omega
  have h3 : cols.all (fun r => (capture s s.cur r).known) = true := by simpa using hc
  have h4 : p.dests.any (widthMoves s.me) = false := by simpa using hm
  unfold issue
  simp only [ge_iff_le, h1, h2, hh, h3, hq, h4, hr, decide_false, Bool.or_false, Bool.not_true, Bool.false_eq_true, ↓reduceIte]

/-- One whose checks fail is refused (R153). -/
theorem issue_refused {s : State} {cols : List Col} {srcs : List Src} {regs : List SReg} {q : Qual} (cause : Nat)
    (more : State → Entry → Entry) (hw : s.me.window.length < 8) (hl : s.me.locks.length < 16)
    (hh : hazard s.me srcs regs = false) (hc : ∀ r ∈ cols, (capture s s.cur r).known = true) (hq : qualReady s.me q = true) :
    issue s cols srcs regs q (.error cause) more = .next (refuse s cause) := by
  have h1 : ¬ 8 ≤ s.me.window.length := by omega
  have h2 : ¬ 16 ≤ s.me.locks.length := by omega
  have h3 : cols.all (fun r => (capture s s.cur r).known) = true := by simpa using hc
  unfold issue
  simp only [ge_iff_le, h1, h2, hh, h3, hq, decide_false, Bool.or_false, Bool.not_true, Bool.false_eq_true, ↓reduceIte]

/-- A full window holds issue back (R43). -/
theorem issue_full {s : State} {cols : List Col} {srcs : List Src} {regs : List SReg} {q : Qual} (plan : Except Nat Plan)
    (more : State → Entry → Entry) (hw : 8 ≤ s.me.window.length) : issue s cols srcs regs q plan more = .next s := by
  unfold issue
  simp [hw]

/-- Only column memory fixes anything before its first element. -/
theorem prepare_other {s : State} {x : CtxId} {older : List Entry} {e : Entry} (h : isColMem e.instr = false) :
    prepare s x older e = .ok e s := by simp [prepare, h]

end Sys2Proof.Laws
end

