-- ==== Sys2Proof/Laws/Buffers.lean ====
section
/-! SUPPORT. The buffer table: what a new state of an entry leaves, the wake of its waiters included. -/

namespace Sys2Proof.Laws

open Machine

@[simp] theorem l1DropAll_ctx (s : State) (k : CoreId) (x : CtxId) : (l1DropAll s k).ctx x = s.ctx x := rfl
@[simp] theorem l1DropAll_cur (s : State) (k : CoreId) : (l1DropAll s k).cur = s.cur := rfl
@[simp] theorem l1DropAll_mem (s : State) (k : CoreId) : (l1DropAll s k).mem = s.mem := rfl
@[simp] theorem l1DropAll_hostMem (s : State) (k : CoreId) : (l1DropAll s k).hostMem = s.hostMem := rfl

theorem modCore_core (s : State) (k l : CoreId) (g : Core → Core) : (s.modCore k g).core l = if k = l then g (s.core k) else s.core l := by
  unfold State.modCore
  by_cases h : k = l
  · subst h; simp
  · simp [h, core_setCore_ne]

@[simp] theorem getBuf_l1DropAll (s : State) (k l : CoreId) (b : BReg) : getBuf (l1DropAll s k) l b = getBuf s l b := by
  unfold getBuf l1DropAll
  rw [modCore_core]
  split
  · next h => subst h; rfl
  · rfl

/-- A property of states that an entry's change has and that waking a waiter keeps holds of `setBuf`. -/
theorem setBuf_ind {P : State → Prop} (s : State) (k : CoreId) (b : BReg) (e : BufEntry)
    (h0 : P (s.modCore k (fun c => { c with bufs := c.bufs.set b e })))
    (hw : ∀ (u : State) (x : CtxId) (full : Bool), P u → (u.ctx x).parked = some (.buffer b full) →
      P (l1DropAll (u.setCtx x (retireWord { u.ctx x with parked := none })) k)) : P (setBuf s k b e) := by
  unfold setBuf
  generalize s.modCore k (fun c => { c with bufs := c.bufs.set b e }) = u at h0
  generalize List.range 5 = l
  induction l generalizing u with
  | nil => exact h0
  | cons n l ih =>
    refine ih _ ?_
    dsimp only
    split
    · next b' full hp =>
      split
      · next hb =>
        have hbb : b' = b := by simp only [Bool.and_eq_true, decide_eq_true_eq] at hb; exact hb.1
        subst hbb
        exact hw u _ full h0 hp
      · exact h0
    · exact h0

theorem getBuf_setBuf (s : State) (k l : CoreId) (b b' : BReg) (e : BufEntry) :
    getBuf (setBuf s k b e) l b' = if k = l ∧ b' = b then e else getBuf s l b' := by
  refine setBuf_ind (P := fun u => getBuf u l b' = if k = l ∧ b' = b then e else getBuf s l b') s k b e ?_ ?_
  · unfold getBuf
    rw [modCore_core]
    by_cases h : k = l
    · subst h
      by_cases hb : b' = b
      · subst hb; simp
      · have : b.val ≠ b'.val := fun e => hb (Fin.ext e.symm)
        simp [hb, this]
    · simp [h]
  · intro u x full hu _
    rw [getBuf_l1DropAll]
    exact hu

@[simp] theorem getBuf_setCtx (s : State) (k : CoreId) (b : BReg) (x : CtxId) (c : Ctx) : getBuf (s.setCtx x c) k b = getBuf s k b := rfl
@[simp] theorem getBuf_setMe (s : State) (k : CoreId) (b : BReg) (c : Ctx) : getBuf (s.setMe c) k b = getBuf s k b := rfl

@[simp] theorem setBuf_cur (s : State) (k : CoreId) (b : BReg) (e : BufEntry) : (setBuf s k b e).cur = s.cur :=
  setBuf_ind (P := fun u => u.cur = s.cur) s k b e rfl (fun _ _ _ h _ => h)
@[simp] theorem setBuf_mem (s : State) (k : CoreId) (b : BReg) (e : BufEntry) : (setBuf s k b e).mem = s.mem :=
  setBuf_ind (P := fun u => u.mem = s.mem) s k b e rfl (fun _ _ _ h _ => h)
@[simp] theorem setBuf_hostMem (s : State) (k : CoreId) (b : BReg) (e : BufEntry) : (setBuf s k b e).hostMem = s.hostMem :=
  setBuf_ind (P := fun u => u.hostMem = s.hostMem) s k b e rfl (fun _ _ _ h _ => h)
@[simp] theorem setBuf_cycle (s : State) (k : CoreId) (b : BReg) (e : BufEntry) : (setBuf s k b e).cycle = s.cycle :=
  setBuf_ind (P := fun u => u.cycle = s.cycle) s k b e rfl (fun _ _ _ h _ => h)

/-- A context that does not wait for a buffer is as before. -/
theorem setBuf_ctx (s : State) (k : CoreId) (b : BReg) (e : BufEntry) (x : CtxId) (h : ∀ f, (s.ctx x).parked ≠ some (.buffer b f)) :
    (setBuf s k b e).ctx x = s.ctx x := by
  refine setBuf_ind (P := fun u => u.ctx x = s.ctx x) s k b e rfl ?_
  intro u y full hu hp
  rw [l1DropAll_ctx]
  by_cases hy : y = x
  · subst hy; rw [hu] at hp; exact absurd hp (h full)
  · rw [ctx_setCtx_ne _ _ _ hy, hu]

theorem setBuf_me (s : State) (k : CoreId) (b : BReg) (e : BufEntry) (h : s.me.parked = none) : (setBuf s k b e).me = s.me := by
  unfold State.me
  rw [setBuf_cur]
  exact setBuf_ctx s k b e s.cur (fun f => by rw [show (s.ctx s.cur).parked = none from h]; exact fun e => by cases e)

end Sys2Proof.Laws
end

