-- ==== Sys2Proof/Laws/Claims.lean ====
section
/-! SUPPORT. The words of the statements: which shape of a meaning gives each of them. -/

namespace Sys2Proof.Laws

open Machine Claims

/-- A state that differs in the executing context only. -/
theorem onlyMe {s t : State} (h : t = s.setMe t.me) : OnlyMe s t := by
  refine ⟨h, ?_, ?_⟩
  · intro x hx; rw [h]; exact setMe_other hx _
  · intro a; rw [h]; exact ⟨rfl, rfl⟩

/-- The shape `writeBack` gives its value. -/
theorem gives_of {i : Instr} {s : State} {d : SReg} {v : Word} (h : exec i s = writeBack s d v) : Gives i s d v := by
  obtain ⟨t, ht, a, b, c, e, f, g⟩ := writeBack_spec s d v
  exact ⟨t, h.trans ht, a, b, c, e, f, onlyMe g⟩

/-- The shape `writeFlag` sets its predicate. -/
theorem sets_of {i : Instr} {s : State} {d : FReg} {v : Bool} (h : exec i s = writeFlag s d v) : Sets i s d v := by
  obtain ⟨t, ht, a, b, c, e, f, g⟩ := writeFlag_spec s d v
  exact ⟨t, h.trans ht, a, b, c, e, f, onlyMe g⟩

theorem goes_of {i : Instr} {s : State} {p : Word} (h : exec i s = .next (s.setMe (retireTo s.me p))) : Goes i s p := by
  refine ⟨_, h, ?_, ?_, ?_, ?_, ?_, onlyMe ?_⟩ <;> simp only [me_setMe, KeepsRest] <;> rfl

theorem links_of {i : Instr} {s : State} {p : Word} (h : exec i s = .next (s.setMe (retireTo (setS s.me 62 (s.me.pc+8)) p))) : Links i s p := by
  refine ⟨_, h, ?_, ?_, ?_, ?_, ?_, onlyMe ?_⟩
  · simp
  · intro r; simp [getS_setS]
  · simp
  · simp
  · simp only [me_setMe, KeepsRest]; unfold setS retireTo; split <;> rfl
  · simp

theorem exec_alu2 {s d a b g} (h : Ready s [a, b] [d]) : alu2 d a b g s = writeBack s d (g (readSrc s.me a) (readSrc s.me b)) := onReady_of h _

theorem exec_alu1 {s d a g} (h : Ready s [a] [d]) : alu1 d a g s = writeBack s d (g (readSrc s.me a)) := onReady_of h _

theorem freezes_somewhere {s : State} (h : NothingHeld s) (cause : Nat) {i} (hi : exec i s = .next (openFreeze s cause 0)) : FreezesSomewhere i s cause :=
  ⟨_, hi.trans (congrArg _ (freezeHere_of (s := s.draw) h.1 h.2 _ _ _))⟩

/-- What an instruction adds to its entry keeps the fields that `Enters` names. -/
structure Keep (s : State) (more : State → Entry → Entry) : Prop where
  k : ∀ e0, let e := more s e0
    e.instr = e0.instr ∧ e.engine = e0.engine ∧ e.pc = e0.pc ∧ e.word = e0.word ∧ e.seq = e0.seq ∧ e.fmt = e0.fmt ∧ e.len = e0.len ∧ e.qual = e0.qual
    ∧ e.opA = e0.opA ∧ e.opB = e0.opB ∧ e.opC = e0.opC ∧ e.srcA = e0.srcA ∧ e.srcB = e0.srcB ∧ e.srcC = e0.srcC ∧ e.sdest = e0.sdest ∧ e.pol = e0.pol
    ∧ e.dests.map (fun d => (d.reg, d.fmt)) = e0.dests.map (fun d => (d.reg, d.fmt))

theorem keep_plain (s) : Keep s plain := ⟨fun e0 => by simp [plain]⟩

/-- An instruction that issues under `MayIssue` with writable destinations enters the window. -/
theorem enters {i : Instr} {s : State} {cols : List Col} {srcs : List Src} {regs : List SReg} {x : Queued} (p : Plan) (more)
    (hm : MayIssue s cols srcs regs x.qual) (hex : exec i s = issue s cols srcs regs x.qual (.ok p) more)
    (hk : ∀ v : State, Keep v more)
    (hp : p.instr = i ∧ p.engine = x.engine ∧ p.fmt = x.fmt ∧ p.len = x.len ∧ p.dests.map (fun d => (d.1, d.2.1)) = x.dests ∧ p.sdest = x.sdest ∧ p.a = x.a ∧ p.b = x.b ∧ p.c = x.c ∧ p.pol = x.pol)
    (cs : List Col) (hw : Writable s x.dests cs) : Enters i s x := by
  obtain ⟨p1, p2, p3, p4, p5, p6, p7, p8, p9, p10⟩ := hp
  have hwm : ∀ d ∈ p.dests, widthMoves s.me d = false := by
    intro d hd
    have hd' : (d.1, d.2.1) ∈ x.dests := by rw [← p5]; exact List.mem_map_of_mem hd
    have := (hw.2 _ hd').2.2
    unfold widthMoves colFmt at *
    rcases this with h | h <;> simp [h]
  obtain ⟨hm1, hm2, hm3, hm4, hm5, l, v, hl⟩ := hm
  have hi := hex.trans (issue_goes p more hm1 hm2 hm3 hm4 hm5 hl.1 hwm)
  obtain ⟨-, vcur, vir, vme, voth, vmem⟩ := id hl
  obtain ⟨k1,k2,k3,k4,k5,k6,k7,k8,k9,k10,k11,k12,k13,k14,k15,k16,k17⟩ := (hk v).k (makeEntry v p l)
  generalize he : more v (makeEntry v p l) = e at *
  rw [vcur] at hi
  obtain ⟨lk, vc, b, hme⟩ := push_me v p e
  rw [vme] at hme
  have hnod : (p.dests.map (·.1)).Nodup := by
    have := hw.1; rw [← p5, List.map_map] at this; exact this
  have hmap : x.dests.map (·.1) = p.dests.map (·.1) := by rw [← p5]; simp
  have hcol : ∀ r, getCol (push v p e).me r = getCol (setFmts s.me p.dests) r := by
    intro r; rw [hme]; cases r <;> rfl
  refine ⟨l, v, _, e, hl, hi, k1.trans p1, k2.trans p2, k3.trans (congrArg Ctx.pc vme), k4.trans vir, k5.trans (congrArg Ctx.seq vme), k6.trans p3, k7.trans p4, k8, k9.trans (congrArg Operand.val p7), k10.trans (congrArg Operand.val p8), k11.trans (congrArg Operand.val p9), k12.trans (congrArg Operand.col p7), k13.trans (congrArg Operand.col p8), k14.trans (congrArg Operand.col p9), k15.trans p6, k16.trans p10, ?_, ?_, ?_, ?_, ?_, ?_, ?_, ?_, ?_, ?_⟩
  · rw [k17, ← p5]; simp [makeEntry]
  · rw [hme]
  · rw [hme]
  · rw [hme]
  · intro d hd
    rw [← p5] at hd
    obtain ⟨d', hd', rfl⟩ := List.mem_map.1 hd
    show (getCol (push v p e).me d'.1).fmt = d'.2.1
    rw [hcol]; exact setFmts_fmt _ _ hnod hd'
  · intro r hr; rw [hcol]; exact setFmts_other _ _ (by rwa [hmap] at hr)
  · intro r; rw [hcol]
    have : ∀ (ds : List (Col × Fmt × Option Nat)) c, (getCol (setFmts c ds) r).len = (getCol c r).len := by
      intro ds; induction ds with
      | nil => intro c; rfl
      | cons d ds ih => intro c; refine (ih (setFmt c d.1 d.2.1)).trans ?_; rw [setFmt, getCol_setCol]; split <;> simp_all
    exact this _ _
  · rw [hme]
    rw [pastWord_frame]
  · intro y hy; exact (push_other v p e (vcur ▸ hy)).trans (voth y hy)
  · intro a; rw [push_mem, push_hostMem]; exact vmem a

/-- No qualifier is read. -/
theorem listRead_none (s : State) : ListRead s none none s :=
  ⟨fun _ => rfl, rfl, rfl, rfl, fun _ _ => rfl, fun _ => ⟨rfl, rfl⟩⟩

/-- Reading values that are there changes nothing. -/
theorem collect_ok {val : Nat → State → Acc Nat} {s : State} {g : Nat → Nat} : ∀ (n i : Nat) (k : List Nat → State → UnitRes),
    (∀ j, i ≤ j → j < i + n → val j s = .ok (g j) s) → collect val n i s k = k ((List.range' i n).map g) s := by
  intro n
  induction n with
  | zero => intro i k _; rfl
  | succ n ih =>
    intro i k h
    unfold collect
    rw [h i (by omega) (by omega)]
    dsimp only
    rw [ih (i + 1) _ (fun j h1 h2 => h j (by omega) (by omega)), List.range'_succ, List.map_cons]

/-- A qualifier's list that lies in its window is read without an effect. -/
theorem listRead_resident (s : State) (n : Fin 15)
    (h : (capture s s.cur (.p ⟨n.val, by omega⟩)).len ≤ (getCol s.me (.p ⟨n.val, by omega⟩)).cap) :
    ∃ l, ListRead s (some n) (some l) s := by
  generalize hr : (Col.p ⟨n.val, by omega⟩ : Col) = r at h
  refine ⟨(List.range' 0 (capture s s.cur r).len).map (fun j => elemFrom .pos32 j (colElemBytes s s.cur (getCol s.me r) .pos32 j)),
    fun k => ?_, rfl, rfl, rfl, fun _ _ => rfl, fun _ => ⟨rfl, rfl⟩⟩
  unfold listed
  dsimp only
  rw [hr]
  refine collect_ok _ _ _ ?_
  intro j _ hj
  have : j + 1 ≤ (getCol (s.ctx s.cur) r).cap := by unfold State.me at h; omega
  unfold readRaw readBytes arenaCheck
  simp only [this, if_true, Acc.bind]

theorem overlap_of {s d f cols} (h : Writable s [(.c d, f)] cols) : overlapOk s.me [(d, f)] cols = true ∧ destsOk s.me [d] = true := by
  have := h.2 (.c d, f) (by simp)
  constructor
  · simp only [overlapOk, List.all_cons, List.all_nil, Bool.and_true, Bool.or_eq_true, Bool.not_eq_true', List.contains_eq_mem, decide_eq_false_iff_not]
    by_cases hc : Col.c d ∈ cols
    · exact .inr (this.2.1 hc)
    · exact .inl hc
  · simp [destsOk, this.1]

theorem sources_of {s f xs} (h : Agree s f xs) : sourcesOk s.me f xs = true := by
  simp only [sourcesOk, Bool.and_eq_true, Bool.or_eq_true, List.all_eq_true, decide_eq_true_eq, List.isEmpty_iff]
  refine ⟨h.1, ?_⟩
  by_cases hs : scsOf xs = []
  · exact .inl hs
  · exact .inr (h.2 hs)

theorem elementwise_enters {i : Instr} {d out accept xs own a b c q s}
   (hex : exec i s = elementwise i d out accept xs own a b c q s)
   (hm : MayIssue s [] (scsOf (xs ++ own.map (·.1))) [] q)
   (ha : Agree s (opFmt s.me d xs) xs) (hacc : accept (opFmt s.me d xs) = true)
   (hown : ∀ o ∈ own, ∀ r ∈ colsOf [o.1], o.2 (colFmt s.me r) = true)
   (hw : Writable s [(.c d, out (opFmt s.me d xs))] (colsOf (xs ++ own.map (·.1)))) :
   Enters i s { qual := q, fmt := opFmt s.me d xs, len := commonLen s.me [a, b, c], dests := [(.c d, out (opFmt s.me d xs))], a := a, b := b, c := c } := by
  have hok : (accept (opFmt s.me d xs) && sourcesOk s.me (opFmt s.me d xs) xs && own.all (fun o => (colsOf [o.1]).all (fun r => o.2 (colFmt s.me r)))
    && overlapOk s.me [(d, out (opFmt s.me d xs))] (colsOf (xs ++ own.map (·.1))) && destsOk s.me [d]) = true := by
    rw [hacc, sources_of ha, (overlap_of hw).1, (overlap_of hw).2]
    simpa using hown
  refine enters (lanePlan i (opFmt s.me d xs) (commonLen s.me [a,b,c]) [(.c d, out (opFmt s.me d xs))] a b c) plain hm ?_ keep_plain ?_ _ hw
  · rw [hex]; unfold elementwise; dsimp only; rw [hok]; rfl
  · simp [lanePlan]

theorem commonLen_none1 (c : Ctx) (a : Operand) : commonLen c [a, Operand.none, Operand.none] = commonLen c [a] := by
  simp [commonLen, Operand.none, List.filterMap_cons]

theorem commonLen_none2 (c : Ctx) (a b : Operand) : commonLen c [a, b, Operand.none] = commonLen c [a, b] := by
  simp [commonLen, Operand.none, List.filterMap_cons]

theorem vec1_enters {i : Instr} {d a accept out q s} (hex : exec i s = vec1 i d a accept out q s)
   (hm : MayIssue s [] (scsOf [a]) [] q) (ha : Agree s (opFmt s.me d [a]) [a]) (hacc : accept (opFmt s.me d [a]) = true)
   (hw : Writable s [(.c d, out (opFmt s.me d [a]))] (colsOf [a])) :
   Enters i s { qual := q, fmt := opFmt s.me d [a], len := commonLen s.me [operandOf s a], dests := [(.c d, out (opFmt s.me d [a]))], a := operandOf s a } := by
  have := elementwise_enters (own := []) hex (by simpa using hm) ha hacc (by simp) (by simpa using hw)
  rwa [commonLen_none1] at this

theorem vec2_enters {i : Instr} {d a b accept out q s} (hex : exec i s = vec2 i d a b accept out q s)
   (hm : MayIssue s [] (scsOf [a,b]) [] q) (ha : Agree s (opFmt s.me d [a,b]) [a,b]) (hacc : accept (opFmt s.me d [a,b]) = true)
   (hw : Writable s [(.c d, out (opFmt s.me d [a,b]))] (colsOf [a,b])) :
   Enters i s { qual := q, fmt := opFmt s.me d [a,b], len := commonLen s.me [operandOf s a, operandOf s b], dests := [(.c d, out (opFmt s.me d [a,b]))], a := operandOf s a, b := operandOf s b } := by
  have := elementwise_enters (own := []) hex (by simpa using hm) ha hacc (by simp) (by simpa using hw)
  rwa [commonLen_none2] at this

theorem vec3_enters {i : Instr} {d a b c accept q s} (hex : exec i s = vec3 i d a b c accept q s)
   (hm : MayIssue s [] (scsOf [a,b,c]) [] q) (ha : Agree s (opFmt s.me d [a,b,c]) [a,b,c]) (hacc : accept (opFmt s.me d [a,b,c]) = true)
   (hw : Writable s [(.c d, opFmt s.me d [a,b,c])] (colsOf [a,b,c])) :
   Enters i s { qual := q, fmt := opFmt s.me d [a,b,c], len := commonLen s.me [operandOf s a, operandOf s b, operandOf s c], dests := [(.c d, opFmt s.me d [a,b,c])], a := operandOf s a, b := operandOf s b, c := operandOf s c } :=
  elementwise_enters (own := []) (out := id) hex (by simpa using hm) ha hacc (by simp) (by simpa using hw)

theorem overlap2_of {s d e f g cols} (h : Writable s [(.c d, f), (.c e, g)] cols) : overlapOk s.me [(d, f), (e, g)] cols = true ∧ destsOk s.me [d, e] = true := by
  have h1 := h.2 (.c d, f) (by simp)
  have h2 := h.2 (.c e, g) (by simp)
  constructor
  · simp only [overlapOk, List.all_cons, List.all_nil, Bool.and_true, Bool.or_eq_true, Bool.and_eq_true, Bool.not_eq_true', List.contains_eq_mem, decide_eq_false_iff_not]
    constructor
    · by_cases hc : Col.c d ∈ cols
      · exact .inr (h1.2.1 hc)
      · exact .inl hc
    · by_cases hc : Col.c e ∈ cols
      · exact .inr (h2.2.1 hc)
      · exact .inl hc
  · simp [destsOk, h1.1, h2.1]

theorem agree1 {s} (r : Col) : Agree s (colFmt s.me r) [.col r] := by simp [Agree, colsOf, scsOf]

theorem nodests {s cols} : Writable s [] cols := ⟨by simp, by simp⟩

theorem reduce_enters {i : Instr} {d : SReg} {xs : List Col} {ok : Bool} {q s f a b} (hex : exec i s = reduce i d xs ok q s)
   (hm : MayIssue s [] [] [d] q) (hok : ok = true)
   (ha : a = xs.head?.elim Operand.none (colOperand s)) (hb : b = (xs.drop 1).head?.elim Operand.none (colOperand s)) (hf : f = (xs.head?.map (colFmt s.me)).getD .n8) :
   Enters i s { qual := q, fmt := f, len := commonLen s.me [a, b], sdest := some d, a := a, b := b } := by
  subst ha hb hf hok
  have h := hex
  unfold reduce at h; simp only [if_true] at h
  exact enters _ plain hm h keep_plain (by simp [lanePlan]) [] nodests

theorem reduceColumn_enters {i : Instr} {d a} {b : Option Col} {fixed s} (hex : exec i s = reduceColumn i d a b fixed s)
   (hm : MayIssue s [] [] [] none) (hr : redOk (colFmt s.me a) = true) (hb : ∀ r ∈ b, colFmt s.me r = .bool1)
   (hw : Writable s [(.c d, redFmt (colFmt s.me a))] (a :: b.toList)) :
   Enters i s { fmt := colFmt s.me a, len := commonLen s.me [colOperand s a, b.elim Operand.none (colOperand s)], dests := [(.c d, redFmt (colFmt s.me a))], a := colOperand s a, b := b.elim Operand.none (colOperand s) } := by
  have h := hex
  have : (b.all (fun r => decide (colFmt s.me r = .bool1))) = true := by cases b <;> simp_all
  unfold reduceColumn at h; simp only [hr, this, (overlap_of hw).1, (overlap_of hw).2, Bool.and_self, if_true] at h
  exact enters _ plain hm h keep_plain (by simp [lanePlan]) _ hw

theorem refused_at {i s cols srcs regs q cause more} (hn : NothingHeld s) (hm : MayIssue s cols srcs regs q) (hex : exec i s = issue s cols srcs regs q (.error cause) more) : Freezes i s cause s.me.pc :=
  hex.trans ((issue_refused cause more hm.1 hm.2.1 hm.2.2.1 hm.2.2.2.1 hm.2.2.2.2.1).trans (congrArg _ (freezeHere_of hn.1 hn.2 _ _ _)))

theorem vec2_refused {i : Instr} {d a b accept out q s} (hn : NothingHeld s) (hex : exec i s = vec2 i d a b accept out q s)
   (hm : MayIssue s [] (scsOf [a,b]) [] q) (h : accept (opFmt s.me d [a,b]) = false ∨ sourcesOk s.me (opFmt s.me d [a,b]) [a, b] = false) : Freezes i s 0x05 s.me.pc := by
  refine refused_at (more := plain) hn hm (hex.trans ?_)
  unfold vec2 elementwise
  rcases h with h | h <;> simp [h]

theorem keep_handle (s h) : Keep s (withHandle h) := ⟨fun e0 => by simp [withHandle]⟩

theorem colPolOk_of {p load} (h : PolicyOk p load) : colPolBad p load = false := by
  cases load <;> simp_all [PolicyOk, colPolBad]

theorem colPolBad_of {p load} (h : ¬ PolicyOk p load) : colPolBad p load = true := by
  cases load <;> simp_all [PolicyOk, colPolBad]
  · by_cases hb : polBad p = true <;> simp_all
  · by_cases hb : polBad p = true <;> simp_all

theorem same_fmt (f : Fmt) : sameWidth f f = true := by cases f <;> rfl

/-- The shape `managed` leaves its context. -/
theorem managed_of {i : Instr} {s s' : State} {c : Ctx} (hex : exec i s = managed s' c) (hcur : s'.cur = s.cur)
   (hseq : c.seq = s.me.seq) (hret : c.retired = s.me.retired) (ho : ∀ x, x ≠ s.cur → s'.ctx x = s.ctx x) (hmem : s'.mem = s.mem) (hhost : s'.hostMem = s.hostMem) : Manages i s c := by
  refine ⟨_, hex, ?_, ?_, ?_⟩
  · simp only [me_setMe, retireWord, ← hseq, ← hret]
    unfold pastWord; dsimp only; repeat' split
    all_goals rfl
  · intro x hx; rw [setMe_other (by rw [hcur]; exact hx)]; exact ho x hx
  · intro a; simp [hmem, hhost]

theorem managed_self {i : Instr} {s : State} {c : Ctx} (hex : exec i s = managed s c)
   (hseq : c.seq = s.me.seq) (hret : c.retired = s.me.retired) : Manages i s c :=
  managed_of hex rfl hseq hret (fun _ _ => rfl) rfl rfl

@[simp] theorem setCol_seq (c : Ctx) (r : Col) (x : Column) : (setCol c r x).seq = c.seq := by cases r <;> rfl

@[simp] theorem setCol_retired (c : Ctx) (r : Col) (x : Column) : (setCol c r x).retired = c.retired := by cases r <;> rfl

@[simp] theorem setCol_setCol (c : Ctx) (r : Col) (x y : Column) : setCol (setCol c r x) r y = setCol c r y := by
  cases r <;> simp [setCol]

theorem placeWindow_fits {s : State} {k : CoreId} {bytes u : Nat} (h : placeWindow s k bytes = some u) :
   256 * u + bytes ≤ poolSrf (s.core k).poolw * 65536 ∧ ∀ w ∈ takenOn s k, 256 * u + bytes ≤ w.1 ∨ w.2 ≤ 256 * u := by
  have fits : ∀ u, (256 * u + bytes ≤ poolSrf (s.core k).poolw * granuleBytes && rangeFree (takenOn s k) (256 * u) (256 * u + bytes)) = true → 
     256 * u + bytes ≤ poolSrf (s.core k).poolw * 65536 ∧ ∀ w ∈ takenOn s k, 256 * u + bytes ≤ w.1 ∨ w.2 ≤ 256 * u := by
    intro u h
    simp only [rangeFree, granuleBytes, Bool.and_eq_true] at h
    refine ⟨of_decide_eq_true h.1, fun w hw => ?_⟩
    have := (List.all_eq_true.1 h.2) w hw
    simpa using this
  unfold placeWindow at h
  dsimp only at h
  split at h
  · cases h; rename_i hf; exact fits _ hf
  · have : ∀ (l : List Nat) (b : Option Nat), (∀ v, b = some v → (256 * v + bytes ≤ poolSrf (s.core k).poolw * granuleBytes && rangeFree (takenOn s k) (256 * v) (256 * v + bytes)) = true) →
        ∀ v, l.foldl (fun best u =>
    if (256 * u + bytes ≤ poolSrf (s.core k).poolw * granuleBytes && rangeFree (takenOn s k) (256 * u) (256 * u + bytes)) = true then (match best with | some b => some (min b u) | none => some u) else best) b = some v → (256 * v + bytes ≤ poolSrf (s.core k).poolw * granuleBytes && rangeFree (takenOn s k) (256 * v) (256 * v + bytes)) = true := by
      intro l
      induction l with
      | nil => intro b hb v hv; exact hb v hv
      | cons x xs ih =>
        intro b hb v hv
        refine ih _ ?_ v hv
        intro w hw
        dsimp only at hw
        split at hw
        · rename_i hf
          cases b with
          | none => cases hw; exact hf
          | some c => 
            simp only [Option.some.injEq] at hw
            rcases Nat.le_total c x with hc | hc
            · rw [Nat.min_eq_left hc] at hw; subst hw; exact hb _ rfl
            · rw [Nat.min_eq_right hc] at hw; subst hw; exact hf
        · exact hb w hw
    exact fits u (this _ none (by simp) u h)

theorem relEnd_dests (e : Entry) : (relationalEnd e).dests.map (fun d => (d.reg, d.fmt)) = e.dests.map (fun d => (d.reg, d.fmt)) := by
  unfold relationalEnd; dsimp only
  rcases hd : e.dests with _ | ⟨a, _ | ⟨b, _ | ⟨c, t⟩⟩⟩ <;> simp

/-- A phase's step keeps the fields that `Enters` names. -/
theorem keep_phase (s) : Keep s (fun _ e => phaseStep e) := by
  constructor
  intro e
  dsimp only
  unfold phaseStep
  dsimp only
  repeat' split
  all_goals first
    | exact ⟨rfl, rfl, rfl, rfl, rfl, rfl, rfl, rfl, rfl, rfl, rfl, rfl, rfl, rfl, rfl, rfl, rfl⟩
    | exact ⟨rfl, rfl, rfl, rfl, rfl, rfl, rfl, rfl, rfl, rfl, rfl, rfl, rfl, rfl, rfl, rfl, relEnd_dests _⟩

theorem keep_rel (s) : Keep s relationalStart := by
  constructor
  intro e0
  unfold relationalStart
  split
  · exact (keep_phase s).k _
  · exact ⟨rfl, rfl, rfl, rfl, rfl, rfl, rfl, rfl, rfl, rfl, rfl, rfl, rfl, rfl, rfl, rfl, rfl⟩

theorem targets_writable {s ds cols q} (h : RelTargets s ds cols q) : Writable s ds cols := by
  refine ⟨h.1, fun d hd => ⟨(h.2 d hd).2.1, fun hc => absurd hc (h.2 d hd).1, (h.2 d hd).2.2.2⟩⟩

theorem targets_ok {s cols q} {ds : List (Col × Fmt × Option Nat)} (h : RelTargets s (ds.map (fun d => (d.1, d.2.1))) cols q) : relDestsOk s.me (ds.map (·.1)) cols q = true := by
  simp only [relDestsOk, List.all_eq_true, List.mem_map]
  rintro c ⟨d, hd, rfl⟩
  obtain ⟨h1, h2, h3, -⟩ := h.2 (d.1, d.2.1) (List.mem_map_of_mem (f := fun d : Col × Fmt × Option Nat => (d.1, d.2.1)) hd)
  cases q with
  | none => simp [h1, h2]
  | some n => simp [h1, h2, h3 n rfl]

/-- A relational instruction with allowed targets enters the window. -/
theorem rel_enters {i : Instr} {f n cols srcs a b c q s} (ds : List (Col × Fmt × Option Nat)) {ok : Bool} (hex : exec i s = relIssue i f n ds cols srcs a b c q ok s)
   (hm : MayIssue s [] srcs [] q) (hok : ok = true) (ht : RelTargets s (ds.map (fun d => (d.1, d.2.1))) cols q) :
   Enters i s { qual := q, engine := .relational, fmt := f, len := n, dests := ds.map (fun d => (d.1, d.2.1)), a := a, b := b, c := c } := by
  subst hok
  unfold relIssue at hex
  rw [targets_ok ht] at hex
  simp only [Bool.and_self, if_true] at hex
  exact enters _ _ hm hex keep_rel (by simp) _ (targets_writable ht)

end Sys2Proof.Laws
end

