-- ==== Sys2Proof/Laws/Window.lean ====
section
/-! SUPPORT. The local window byte by byte, loads that end, and scalar stores that reach memory. -/

namespace Sys2Proof.Laws

open Machine Claims

theorem pool_at {c : Core} {x n : Nat} (h3 : x + n ≤ poolSpd c.poolw * 65536 ∨ 0x1000000 ≤ x ∧ x + n ≤ 0x1000000 + poolSrf c.poolw * 65536) :
    ∃ q off, poolAt c x n = some (q, off) ∧ (q = .spd ∧ off = x ∧ off + n ≤ 2031616 ∨ q = .srf ∧ 0x1000000 ≤ x ∧ off = x - 0x1000000) := by
  have hs : poolSpd c.poolw ≤ 31 := by unfold poolSpd bitsAt; omega
  unfold poolAt granuleBytes
  split
  · next hle => exact ⟨.spd, x, rfl, .inl ⟨rfl, rfl, hle.trans (Nat.mul_le_mul_right 65536 hs)⟩⟩
  · next hn =>
    rcases h3 with h3 | h3
    · exact absurd h3 hn
    · rw [if_pos (by simpa using h3)]
      exact ⟨.srf, x - 0x1000000, rfl, .inr ⟨rfl, h3.1, rfl⟩⟩

theorem inPool_at {c : Core} {a n : Nat} (h : InPool c a n) : ∃ q off, poolAt c (a - windowBase) n = some (q, off) ∧
    (q = .spd ∧ off = a - windowBase ∧ off + n ≤ 2031616 ∨ q = .srf ∧ 0x1000000 ≤ a - windowBase ∧ off = a - windowBase - 0x1000000) :=
  pool_at h.2.2

def offByte (c : Core) (x : Nat) : Byte := if x < 0x1000000 then c.spd.read x else c.srf.read (x - 0x1000000)

theorem winByte_off (c : Core) (a : Nat) : winByte c a = offByte c (a - windowBase) := rfl

theorem bytes_eq (m : Memory) (a n : Nat) : m.bytes a n = (List.range n).map (fun i => m.read (a + i)) := by
  induction n generalizing a with
  | zero => rfl
  | succ n ih =>
    rw [List.range_succ_eq_map, List.map_cons, List.map_map]
    unfold Memory.bytes
    rw [ih]
    congr 1
    apply List.map_congr_left
    intro i _; show _ = m.read (a + (i + 1)); congr 1; omega

theorem pool_word' {s : State} {x n : Nat} {k : CoreId} {q off} (h : q = .spd ∧ off = x ∧ off + n ≤ 2031616 ∨ q = .srf ∧ 0x1000000 ≤ x ∧ off = x - 0x1000000) :
    poolBytes s k q off n = (List.range n).map (fun i => offByte (s.core k) (x + i)) := by
  rcases h with ⟨hq, ho, h⟩ | ⟨hq, h, ho⟩ <;> rw [hq]
  · rw [ho] at h ⊢
    show Memory.bytes _ _ _ = _
    rw [bytes_eq]
    apply List.map_congr_left
    intro i hi; have hi' := List.mem_range.1 hi
    unfold offByte; rw [if_pos (Nat.lt_of_lt_of_le (Nat.add_lt_add_left hi' _) (h.trans (by decide)))]
  · rw [ho]
    show Memory.bytes _ _ _ = _
    rw [bytes_eq]
    apply List.map_congr_left
    intro i hi; have hi' := List.mem_range.1 hi
    have e : x + i - 0x1000000 = x - 0x1000000 + i := Nat.sub_add_comm h
    unfold offByte; rw [if_neg (Nat.not_lt.2 (h.trans (Nat.le_add_right _ _))), e]

theorem pool_word {s : State} {a n : Nat} {k : CoreId} {q off} (hw : windowBase ≤ a) (h : q = .spd ∧ off = a - windowBase ∧ off + n ≤ 2031616 ∨ q = .srf ∧ 0x1000000 ≤ a - windowBase ∧ off = a - windowBase - 0x1000000) :
    ofLe (poolBytes s k q off n) = winWord (s.core k) a n := by
  unfold winWord
  rw [pool_word' h]
  refine congrArg ofLe (List.map_congr_left fun i _ => ?_)
  have e : a + i - windowBase = a - windowBase + i := Nat.sub_add_comm hw
  exact congrArg (offByte _) e.symm

theorem keepsRest_write (s : State) (d v) (u : State) (hu : u.me = s.me) : KeepsRest s (u.setMe (retire (setS s.me d v))) := by
  unfold KeepsRest; rw [me_setMe]; unfold retire retireTo setS; split <;> rfl

/-- The end of a load. -/
theorem loads_of {i : Instr} {s u w : State} {d : SReg} {v : Word} (h : Unseen u w) (hr : exec i s = .next ((clearReqs w w.cur 0 0 (2 ^ 64)).setMe (retire (setS (clearReqs w w.cur 0 0 (2^64)).me d v)))) :
    Loads i s u d v := by
  have hme : (clearReqs w w.cur 0 0 (2 ^ 64)).me = u.me := h.me
  rw [hme] at hr
  refine ⟨_, hr, ?_, ?_, ?_, ?_, keepsRest_write u d v _ hme, ?_, ?_, ?_⟩
  · intro r; rw [me_setMe]; simp [getS_setS]
  · rw [me_setMe]; simp
  · rw [me_setMe]; simp
  · rw [me_setMe]; simp
  · intro x hx; rw [setMe_other (by show x ≠ w.cur; rw [h.cur]; exact hx)]; exact h.ctx x
  · intro a; exact ⟨congrArg (Memory.read · a) h.mem, congrArg (Memory.read · a) h.host⟩
  · intro k; exact ⟨(h.pool k).1, (h.pool k).2.1⟩

theorem ext_signed {n v : Nat} (hn : n = 1 ∨ n = 2 ∨ n = 4) (hv : v < 2 ^ (8 * n)) : signExt n v = extended true n v := by
  unfold signExt signExt.signedWord extended
  apply BitVec.eq_of_toInt_eq
  rw [if_pos rfl, BitVec.toInt_signExtend_of_le (by omega), BitVec.toInt_ofNat']
  rcases hn with rfl | rfl | rfl <;> (simp only [Nat.reduceMul, Nat.reduceSub, Nat.reducePow] at *; split <;> simp [BitVec.toInt_ofInt, BitVec.toInt_ofNat', Int.bmod] <;> omega)

theorem ext_zero {n v : Nat} (hn : n = 1 ∨ n = 2 ∨ n = 4 ∨ n = 8) (hv : v < 2 ^ (8 * n)) : zeroExt v = extended false n v := by
  unfold zeroExt extended
  apply BitVec.eq_of_toNat_eq
  simp [Nat.mod_eq_of_lt hv]

theorem ofLe_lt (bs : List Byte) : ofLe bs < 2 ^ (8 * bs.length) := by
  induction bs with
  | nil => simp [ofLe]
  | cons b bs ih =>
    unfold ofLe
    have := b.isLt
    rw [List.length_cons, Nat.mul_succ, Nat.pow_add]
    omega

theorem l2Touch_poison (s : State) (part : PartId) (pol : BitVec 32) (va pa : Nat) : (l2Touch s part pol va pa).poison = s.poison := by
  have key : ∀ (b : Bool) (g : Partition → Partition), (if b = true then s.modPart part g else s).poison = s.poison := by intro b g; cases b <;> rfl
  unfold l2Touch; dsimp only
  repeat' first
    | exact key _ _
    | split

theorem l2Touch_sync (s : State) (part : PartId) (pol : BitVec 32) (va pa : Nat) : (l2Touch s part pol va pa).syncBad = s.syncBad := by
  have key : ∀ (b : Bool) (g : Partition → Partition), (if b = true then s.modPart part g else s).syncBad = s.syncBad := by intro b g; cases b <;> rfl
  unfold l2Touch; dsimp only
  repeat' first
    | exact key _ _
    | split

theorem leBytes_length (n v : Nat) : (leBytes n v).length = n := by
  induction n generalizing v with
  | zero => rfl
  | succ n ih => unfold leBytes; rw [List.length_cons, ih]

theorem drain_none {s : State} {x : CtxId} (h : (s.ctx x).stores = []) : drainStores s x = s := by simp [drainStores, h, drainFuel]

/-- What a store to the core's lines shows of the state before it. -/
theorem unseen_store (s : State) (k : CoreId) (pa : Nat) (bs : List Byte) :
    (l1Update (storePA s pa bs) k pa bs.length).ctxs = s.ctxs ∧ (l1Update (storePA s pa bs) k pa bs.length).cur = s.cur :=
  storePA_ctxs s pa bs |>.imp_right And.left

theorem poolPut_ctx (s : State) (k : CoreId) (q : PoolPart) (off : Nat) (bs : List Byte) : (poolPut s k q off bs).ctxs = s.ctxs ∧ (poolPut s k q off bs).cur = s.cur := by
  cases q <;> exact ⟨rfl, rfl⟩

theorem poolPut_core_ne {s : State} {k l : CoreId} (h : k ≠ l) (q : PoolPart) (off : Nat) (bs : List Byte) : (poolPut s k q off bs).core l = s.core l := by
  cases q <;> exact core_setCore_ne _ h _

theorem offByte_put {s : State} {k : CoreId} {x n : Nat} {q off} {bs : List Byte} (hl : bs.length = n) (h1 : (s.core k).spd.wf = true) (h2 : (s.core k).srf.wf = true)
   (h : q = .spd ∧ off = x ∧ off + n ≤ 2031616 ∨ q = .srf ∧ 0x1000000 ≤ x ∧ off = x - 0x1000000) (y : Nat) :
    offByte ((poolPut s k q off bs).core k) y = if x ≤ y ∧ y < x + bs.length then bs[y - x]?.getD 0 else offByte (s.core k) y := by
  have hlit : (2031616 : Nat) ≤ 0x1000000 := by decide
  rcases h with ⟨hq, ho, h⟩ | ⟨hq, h, ho⟩ <;> subst hq
  · have hc : ((poolPut s k .spd off bs).core k) = { s.core k with spd := (s.core k).spd.put off bs, rawTiles := (s.core k).rawTiles.filter (· ≠ off / 4096) } := by
      refine (core_setCore_same _ _ _).trans ?_; rfl
    rw [hc]; unfold offByte; dsimp only
    rw [ho] at h ⊢
    split
    · rw [read_put h1]
    · next hy =>
      rw [if_neg]; rw [hl]; intro hc; exact hy (Nat.lt_of_lt_of_le hc.2 (h.trans hlit))
  · have hc : ((poolPut s k .srf off bs).core k) = { s.core k with srf := (s.core k).srf.put off bs } := by
      refine (core_setCore_same _ _ _).trans ?_; rfl
    rw [hc]; unfold offByte; dsimp only
    rw [ho]
    split
    · next hy =>
      rw [if_neg]; intro hc; exact absurd (h.trans hc.1) (Nat.not_le.2 hy)
    · next hy =>
      have hy' := Nat.not_lt.1 hy
      rw [read_put h2]
      generalize (0x1000000 : Nat) = L at *
      have : (x - L ≤ y - L ∧ y - L < x - L + bs.length) ↔ (x ≤ y ∧ y < x + bs.length) := by omega
      simp only [this]
      congr 2; congr 1; omega

theorem clear_ctx (s : State) (x n lo hi y) : (clearReqs s x n lo hi).ctx y = s.ctx y := rfl

theorem clear_me (s : State) (x n lo hi) : (clearReqs s x n lo hi).me = s.me := rfl

theorem storedAt_of {s t : State} {a n : Nat} {q off} {bs : List Byte} (hl : bs.length = n) (hw : windowBase ≤ a)
   (hcore : ∀ k, t.core k = (poolPut s (coreOf s.cur) q off bs).core k)
   (h1 : (s.core (coreOf s.cur)).spd.wf = true) (h2 : (s.core (coreOf s.cur)).srf.wf = true)
   (h : q = .spd ∧ off = a - windowBase ∧ off + n ≤ 2031616 ∨ q = .srf ∧ 0x1000000 ≤ a - windowBase ∧ off = a - windowBase - 0x1000000) :
   StoredAt s t a bs := by
  intro k b hb
  rw [winByte_off, winByte_off, hcore]
  by_cases hk : coreOf s.cur = k
  · rw [← hk, offByte_put hl h1 h2 h]
    generalize windowBase = B at *
    have : (a - B ≤ b - B ∧ b - B < a - B + bs.length) ↔ (a ≤ b ∧ b < a + bs.length) := by omega
    have e : b - B - (a - B) = b - a := by omega
    simp only [this, e, true_and]
  · rw [poolPut_core_ne hk, if_neg (fun h => hk h.1.symm)]

theorem bump_unchecked {c : Ctx} (h : c.chk = false) : bumpPhase c = c := by simp [bumpPhase, h]

theorem drain_cur (s : State) (x : CtxId) : ∀ n, (drainFuel x n s).cur = s.cur := by
  intro n; induction n generalizing s with
  | zero => rfl
  | succ n ih =>
    unfold drainFuel; rw [ih]
    unfold performStore; dsimp only
    split
    · rfl
    · split
      · rfl
      · exact (unseen_store _ _ _ _).2

theorem perform_stores (s : State) (x : CtxId) : ((performStore s x).ctx x).stores = (s.ctx x).stores.tail := by
  unfold performStore; dsimp only
  split
  · next h => rw [h]; rfl
  · next st rest h =>
    rw [h]
    split
    · unfold State.modCtx; rw [ctx_setCtx_same, ctx_setCtx_same]; rfl
    · show Ctx.stores (mget _ _ _) = _
      rw [(unseen_store _ _ _ _).1]
      have := ctx_setCtx_same s x { s.ctx x with stores := rest }
      exact congrArg Ctx.stores this

theorem drain_stores (s : State) (x : CtxId) : ∀ n, (s.ctx x).stores.length ≤ n → ((drainFuel x n s).ctx x).stores = [] := by
  intro n; induction n generalizing s with
  | zero => intro h; unfold drainFuel; simpa using h
  | succ n ih =>
    intro h; unfold drainFuel; apply ih
    rw [perform_stores, List.length_tail]; omega

theorem perform_locks (s : State) (x : CtxId) : ((performStore s x).ctx x).locks = (s.ctx x).locks := by
  unfold performStore; dsimp only
  split
  · rfl
  · next st rest h =>
    split
    · unfold State.modCtx; rw [ctx_setCtx_same, ctx_setCtx_same]
    · show Ctx.locks (mget _ _ _) = _
      rw [(unseen_store _ _ _ _).1]
      show ((s.setCtx x _).ctx x).locks = _
      rw [ctx_setCtx_same]

theorem drain_locks (s : State) (x : CtxId) : ∀ n, ((drainFuel x n s).ctx x).locks = (s.ctx x).locks := by
  intro n; induction n generalizing s with
  | zero => rfl
  | succ n ih => unfold drainFuel; rw [ih, perform_locks]

theorem drain_cur' (s : State) (x) : (drainStores s x).cur = s.cur := drain_cur _ _ _

end Sys2Proof.Laws
end

