-- ==== Sys2Proof/Laws/Areas.lean ====
section
/-! SUPPORT. Save areas as memory holds them: an area verifies as the device has written it (R359, R360). -/

namespace Sys2Proof.Laws

open Machine

/-- Reading back what was put. -/
theorem bytes_put {m : Memory} (h : m.wf = true) (a i n : Nat) (bs : List Byte) (hn : i + n ≤ bs.length) :
    (m.put a bs).bytes (a + i) n = (bs.drop i).take n := by
  rw [bytes_eq]
  apply List.ext_getElem
  · rw [List.length_map, List.length_range, List.length_take, List.length_drop]; omega
  · intro j h1 h2
    have hj : j < n := by simpa using h1
    have hb : i + j < bs.length := by omega
    have e : a + i + j - a = i + j := by omega
    rw [List.getElem_map, List.getElem_range, List.getElem_take, List.getElem_drop, read_put h,
      if_pos ⟨by omega, by omega⟩, e, List.getElem?_eq_getElem hb]
    rfl

theorem ofLe_leBytes (n x : Nat) : ofLe (leBytes n x) = x % 256 ^ n := by
  induction n generalizing x with
  | zero => simp [leBytes, ofLe, Nat.mod_one]
  | succ n ih =>
    rw [leBytes, ofLe, ih, BitVec.toNat_ofNat, Nat.pow_succ' (m := 256) (n := n), Nat.mod_mul]

theorem areaRest_length (s : State) (a : SaveArea) : (areaRest s a).length = areaSize - 8 := by
  unfold areaRest
  dsimp only
  rw [List.length_append, List.length_append, leBytes_length, leBytes_length, List.length_append, List.length_take, List.length_replicate]
  unfold areaSize
  omega

/-- The poison that a store of whole sectors leaves in them: none (R417). -/
theorem storePA_poisoned {s : State} {a : Nat} {bs : List Byte} (h : a % 32 = 0) (hl : bs.length % 32 = 0) :
    (storePA s a bs).poisoned a bs.length = false := by
  unfold State.poisoned
  rw [List.any_eq_false]
  intro x hx
  have e : (storePA s a bs).poison = s.poison.filter (fun x => !((sectorsOf a bs.length).contains x && (decide (a ≤ 32 * x) && decide (32 * x + 32 ≤ a + bs.length)))) := by
    unfold storePA
    dsimp only
    split
    · rfl
    · split
      · rfl
      · unfold abortMigration; dsimp only; split <;> rfl
  have hw : (decide (a ≤ 32 * x) && decide (32 * x + 32 ≤ a + bs.length)) = true := by
    unfold sectorsOf at hx
    split at hx
    · cases hx
    · obtain ⟨i, hi, rfl⟩ := List.mem_map.1 hx
      have := List.mem_range.1 hi
      rw [Bool.and_eq_true, decide_eq_true_eq, decide_eq_true_eq]
      omega
  rw [e]
  intro hc
  have hm := List.contains_iff_mem.1 hc
  have hf := (List.mem_filter.1 hm).2
  rw [List.contains_iff_mem.2 hx, hw] at hf
  cases hf

/-- An area verifies as the device has written it. -/
theorem areaGood_seal {s : State} {a : SaveArea} (hf : s.mem.wf = true) (hb : a.base % 32 = 0) (ht : isHost a.base = false) (ht8 : isHost (a.base + 8) = false) :
    areaGood (sealArea s a) a = true := by
  have hl := areaRest_length s a
  unfold areaGood sealArea
  dsimp only
  generalize areaRest s a = r at hl ⊢
  generalize hw : Config.hmac64 s.devKey r = t
  have hbs : (leBytes 8 t.toNat ++ r).length = areaSize := by
    rw [List.length_append, leBytes_length, hl]; rfl
  have hp := storePA_poisoned (s := s.draw) (a := a.base) (bs := leBytes 8 t.toNat ++ r) hb (by rw [hbs]; rfl)
  rw [hbs] at hp
  have hk : (storePA s.draw a.base (leBytes 8 t.toNat ++ r)).devKey = s.devKey := by
    unfold storePA
    rw [if_neg (by rw [ht]; decide)]
    dsimp only
    split
    · rfl
    · unfold abortMigration; dsimp only; split <;> rfl
  have hm : (storePA s.draw a.base (leBytes 8 t.toNat ++ r)).mem = s.mem.put a.base (leBytes 8 t.toNat ++ r) := by
    rw [storePA_mem, if_neg (by rw [ht]; decide)]; rfl
  have h1 : (storePA s.draw a.base (leBytes 8 t.toNat ++ r)).bytesPA (a.base + 8) (areaSize - 8) = r := by
    unfold State.bytesPA
    rw [if_neg (by rw [ht8]; decide), hm, bytes_put hf _ _ _ _ (by rw [hbs]; decide), List.drop_left' (leBytes_length 8 _), ← hl, List.take_length]
  have h2 : (storePA s.draw a.base (leBytes 8 t.toNat ++ r)).wordPA a.base = t := by
    unfold State.wordPA State.bytesPA
    have := bytes_put hf a.base 0 8 (leBytes 8 t.toNat ++ r) (by rw [hbs]; decide)
    rw [Nat.add_zero, List.drop_zero, List.take_left' (leBytes_length 8 _)] at this
    rw [if_neg (by rw [ht]; decide), hm, this, ofLe_leBytes]
    have hlt := t.isLt
    apply BitVec.eq_of_toNat_eq
    rw [BitVec.toNat_ofNat, Nat.mod_eq_of_lt (a := t.toNat) (by omega), Nat.mod_eq_of_lt (by omega)]
  rw [hp, hk, h1, h2, hw]
  simp

end Sys2Proof.Laws
end

