-- ==== Sys2Proof/Laws/Drain.lean ====
section
/-! SUPPORT. What draining the scalar stores of a context may write. -/

namespace Sys2Proof.Laws

open Machine Claims

/-- A store to memory writes memory and its bookkeeping, nothing else. -/
theorem storePA_frame (s : State) (pa : Nat) (bs : List Byte) : storePA s pa bs = { s with
    mem := (storePA s pa bs).mem, hostMem := (storePA s pa bs).hostMem, poison := (storePA s pa bs).poison
    syncBad := (storePA s pa bs).syncBad, stale := (storePA s pa bs).stale, migs := (storePA s pa bs).migs
    shadows := (storePA s pa bs).shadows, fresh := (storePA s pa bs).fresh } := by
  unfold storePA abortMigration
  dsimp only
  split
  · rfl
  · split
    · rfl
    · split <;> rfl

/-- What a drain may write. -/
structure Drained (x : CtxId) (s t : State) : Prop where
  me    : ∃ ss fl, t.ctx x = { s.ctx x with stores := ss, failed := fl }
  other : ∀ y, y ≠ x → t.ctx y = s.ctx y
  core  : ∀ k, t.core k = { s.core k with l1 := (t.core k).l1 }
  rest  : t = { s with ctxs := t.ctxs, cores := t.cores, mem := t.mem, hostMem := t.hostMem, poison := t.poison, syncBad := t.syncBad
                       stale := t.stale, migs := t.migs, shadows := t.shadows, fresh := t.fresh }

theorem Drained.rfl {x s} : Drained x s s := ⟨⟨_, _, Eq.refl _⟩, fun _ _ => Eq.refl _, fun _ => Eq.refl _, Eq.refl _⟩
theorem Drained.trans {x s t u} (a : Drained x s t) (b : Drained x t u) : Drained x s u := by
  obtain ⟨ss, fl, h⟩ := a.me
  obtain ⟨ss', fl', h'⟩ := b.me
  refine ⟨⟨ss', fl', ?_⟩, fun y hy => (b.other y hy).trans (a.other y hy), fun k => ?_, ?_⟩
  · rw [h', h]
  · rw [b.core k, a.core k]
  · rw [b.rest, a.rest]

theorem drained_perform (s : State) (x : CtxId) : Drained x s (performStore s x) := by
  unfold performStore; dsimp only
  split
  · exact Drained.rfl
  · next st rest h =>
    split
    · refine ⟨⟨_, _, by unfold State.modCtx; rw [ctx_setCtx_same, ctx_setCtx_same]⟩, fun y hy => ?_, fun k => rfl, rfl⟩
      unfold State.modCtx; rw [ctx_setCtx_ne _ _ _ (Ne.symm hy), ctx_setCtx_ne _ _ _ (Ne.symm hy)]
    · generalize hu : s.setCtx x { s.ctx x with stores := rest } = u
      have hx : u.ctx x = { s.ctx x with stores := rest } := by rw [← hu, ctx_setCtx_same]
      have ho : ∀ y, y ≠ x → u.ctx y = s.ctx y := fun y hy => by rw [← hu, ctx_setCtx_ne _ _ _ (Ne.symm hy)]
      have hr : u = { s with ctxs := u.ctxs } := by rw [← hu]; rfl
      generalize hv : storePA u st.pa st.bytes = v
      have hvf := storePA_frame u st.pa st.bytes
      rw [hv] at hvf
      have hc : ∀ y, v.ctx y = u.ctx y := fun y => by rw [hvf]; rfl
      have hk : ∀ k, v.core k = s.core k := fun k => by rw [hvf, hr]; rfl
      have hl := unseen_l1Update v (coreOf x) st.pa st.bytes.length
      refine ⟨⟨rest, (s.ctx x).failed, by rw [hl.ctx, hc, hx]⟩, fun y hy => by rw [hl.ctx, hc, ho y hy], fun k => ?_, ?_⟩
      · rw [← hk]
        unfold l1Update; dsimp only
        rw [modCore_core]
        split
        · next e => rw [← e]
        · rfl
      · show { v with cores := _ } = _
        rw [hvf, hr]; rfl

theorem drained (s : State) (x : CtxId) : Drained x s (drainStores s x) := by
  have : ∀ n s, Drained x s (drainFuel x n s) := by
    intro n; induction n with
    | zero => intro s; exact Drained.rfl
    | succ n ih => intro s; unfold drainFuel; exact (drained_perform s x).trans (ih _)
  exact this _ _

theorem drained_me (s : State) : ∃ ss fl, (drainStores s s.cur).me = { s.me with stores := ss, failed := fl } := by
  obtain ⟨ss, fl, h⟩ := (drained s s.cur).me
  exact ⟨ss, fl, by unfold State.me; rw [drain_cur']; exact h⟩

/-- A second drain finds nothing. -/
theorem drain_twice (s : State) (x : CtxId) : drainStores (drainStores s x) x = drainStores s x :=
  drain_none (drain_stores s x _ (le_refl _))

end Sys2Proof.Laws
end

