-- ==== Sys2Proof/Laws/Pool.lean ====
section
/-! SUPPORT. Accesses of any length to the local window: where they lie, what they read, what they write. -/

namespace Sys2Proof.Laws

open Machine Claims

/-- The pieces of an access of the window: one after the other, each in the pool. -/
def WinPieces (c : Core) : List Piece → Nat → Nat → Nat → Prop
  | [], _, _, n => n = 0
  | p :: ps, i, va, n => ∃ m q off, m ≠ 0 ∧ m ≤ n ∧ p = { at_ := i, len := m, va := va, place := .pool q off }
      ∧ InPool c va m ∧ poolAt c (va - windowBase) m = some (q, off) ∧ WinPieces c ps (i + m) (va + m) (n - m)

theorem pool_top (c : Core) : poolSpd c.poolw * 65536 ≤ 2031616 ∧ 0x1000000 + poolSrf c.poolw * 65536 ≤ 18808832 := by
  have h1 : poolSpd c.poolw ≤ 31 := by unfold poolSpd bitsAt; omega
  have h2 : poolSrf c.poolw ≤ 31 := by unfold poolSrf bitsAt; omega
  constructor <;> omega

theorem sub_arith {B T a j m n p q : Nat} (h1 : B ≤ a) (hj : j + m ≤ n) (hp : p ≤ 2031616) (hq : 0x1000000 + q ≤ 18808832)
    (hT : B + 18808832 < T) (h3 : a - B + n ≤ p ∨ 0x1000000 ≤ a - B ∧ a - B + n ≤ 0x1000000 + q) :
    B ≤ a + j ∧ a + j < T ∧ (a + j - B + m ≤ p ∨ 0x1000000 ≤ a + j - B ∧ a + j - B + m ≤ 0x1000000 + q) := by omega

theorem inPool_sub {c : Core} {a n j m : Nat} (h : InPool c a n) (hj : j + m ≤ n) : InPool c (a + j) m := by
  have ht := pool_top c
  exact sub_arith h.1 hj ht.1 ht.2 (by decide) h.2.2

theorem place_window {s : State} {w : Who} {k : Kind} {ea : Word} {va m : Nat} (h : InPool (s.core (coreOf w.ctx)) va m) :
    ∃ q off, poolAt (s.core (coreOf w.ctx)) (va - windowBase) m = some (q, off) ∧ placePiece s w k va m ea = .ok (.pool q off) s := by
  obtain ⟨q, off, hq, -⟩ := inPool_at h
  refine ⟨q, off, hq, ?_⟩
  have hw : inWindow va = true := by simp only [inWindow, h.1, h.2.1, decide_true, Bool.and_self]
  unfold placePiece; simp only [hw, if_true, hq]

theorem place_pieces {s : State} {w : Who} {k : Kind} {ea : Word} : ∀ (fuel i va n : Nat), n ≤ fuel → InPool (s.core (coreOf w.ctx)) va n →
    ∃ ps, placePieces w k ea fuel s i va n = .ok ps s ∧ WinPieces (s.core (coreOf w.ctx)) ps i va n := by
  intro fuel
  induction fuel with
  | zero => intro i va n hn _; exact ⟨[], rfl, Nat.le_zero.1 hn⟩
  | succ fuel ih =>
    intro i va n hn h
    show ∃ ps, (if n = 0 then _ else _) = _ ∧ _
    by_cases h0 : n = 0
    · rw [if_pos h0]; exact ⟨[], rfl, h0⟩
    · rw [if_neg h0]
      dsimp only
      generalize hm : min n (32 - va % 32) = m
      have hm0 : m ≠ 0 := by omega
      have hmn : m ≤ n := by omega
      have h1 : InPool (s.core (coreOf w.ctx)) va m := by have := inPool_sub (j := 0) (m := m) h (by omega); simpa using this
      obtain ⟨q, off, hq, hp⟩ := place_window (w := w) (k := k) (ea := ea) h1
      obtain ⟨ps, hps, hw⟩ := ih (i + m) (va + m) (n - m) (by omega) (inPool_sub h (by omega))
      rw [hp]; simp only [Acc.bind, hps]
      exact ⟨_, rfl, m, q, off, hm0, hmn, rfl, h1, hq, hw⟩

theorem winPieces_places {c : Core} {ps : List Piece} {i va n : Nat} (h : WinPieces c ps i va n) : ∀ p ∈ ps, ∃ q off, p.place = .pool q off := by
  induction ps generalizing i va n with
  | nil => simp
  | cons p ps ih =>
    obtain ⟨m, q, off, -, -, hp, -, -, hr⟩ := h
    intro x hx
    rcases List.mem_cons.1 hx with rfl | hx
    · exact ⟨q, off, by rw [hp]⟩
    · exact ih hr x hx

/-- Pieces of the window are not a peer's: none follows another in one request. -/
theorem mergePeers_window {ps : List Piece} (h : ∀ p ∈ ps, ∃ q off, p.place = .pool q off) : mergePeers ps = ps := by
  induction ps with
  | nil => rfl
  | cons p ps ih =>
    obtain ⟨q, off, e⟩ := h p (by simp)
    unfold mergePeers
    rw [e, ih (fun p hp => h p (by simp [hp]))]

theorem resolve_pool {s : State} {w : Who} (k : Kind) {a : Word} {n : Nat} (h : InPool (s.core (coreOf w.ctx)) a.toNat n) :
    ∃ ps, resolve s w k a n = .ok ps s ∧ WinPieces (s.core (coreOf w.ctx)) ps 0 a.toNat n := by
  obtain ⟨ps, hp, hw⟩ := place_pieces (w := w) (k := k) (ea := a) n 0 a.toNat n (le_refl _) h
  refine ⟨ps, ?_, hw⟩
  unfold resolve
  rw [if_neg (Nat.not_le.2 h.2.1), hp]
  simp [Acc.bind, mergePeers_window (winPieces_places hw)]

theorem writePoison_window {s : State} {ps : List Piece} (h : ∀ p ∈ ps, ∃ q off, p.place = .pool q off) : writePoison s ps = false := by
  unfold writePoison
  rw [List.any_eq_false]
  intro p hp; obtain ⟨q, off, e⟩ := h p hp; simp [e]

theorem raceCheck_window {s : State} {x : CtxId} {ph : Nat} {w : Bool} {ps : List Piece} (h : ∀ p ∈ ps, ∃ q off, p.place = .pool q off) : raceCheck s x ph w ps = some s := by
  induction ps with
  | nil => rfl
  | cons p ps ih =>
    obtain ⟨q, off, e⟩ := h p (by simp)
    simp only [raceCheck, e]; exact ih (fun p hp => h p (by simp [hp]))

theorem range_split {α : Type} (g : Nat → α) (a m n : Nat) (h : m ≤ n) :
    (List.range n).map (fun i => g (a + i)) = (List.range m).map (fun i => g (a + i)) ++ (List.range (n - m)).map (fun i => g (a + m + i)) := by
  obtain ⟨k, rfl⟩ := Nat.exists_eq_add_of_le h
  rw [Nat.add_sub_cancel_left, List.range_add, List.map_append, List.map_map]
  refine congrArg (_ ++ ·) (List.map_congr_left fun i _ => ?_)
  show g (a + (m + i)) = _; rw [Nat.add_assoc]

theorem pool_winBytes {s : State} {k : CoreId} {a m : Nat} {q off} (h : InPool (s.core k) a m) (hq : poolAt (s.core k) (a - windowBase) m = some (q, off)) :
    poolBytes s k q off m = (List.range m).map (fun i => winByte (s.core k) (a + i)) := by
  obtain ⟨q', off', hq', hc⟩ := inPool_at h
  rw [hq] at hq'
  obtain ⟨rfl, rfl⟩ := Prod.mk.inj (Option.some.inj hq')
  rw [pool_word' hc]
  apply List.map_congr_left
  intro i _
  have e : a + i - windowBase = a - windowBase + i := Nat.sub_add_comm h.1
  exact congrArg (offByte _) e.symm

theorem readPieces_window {s : State} {w : Who} {key : Nat × Nat} {ea : Word} {ps : List Piece} {i va n : Nat}
    (h : WinPieces (s.core (coreOf w.ctx)) ps i va n) (hc : (s.ctx w.ctx).chk = false) :
    readPieces w key ea ps s = .ok ((List.range n).map (fun i => winByte (s.core (coreOf w.ctx)) (va + i))) s := by
  induction ps generalizing i va n with
  | nil => rw [show n = 0 from h]; rfl
  | cons p ps ih =>
    obtain ⟨m, q, off, h0, hm, hp, hi, hq, hr⟩ := h
    unfold readPieces
    rw [hp]
    simp only [Acc.bind, noteRead_unchecked hc, ih hr]
    rw [pool_winBytes hi hq, range_split (winByte _) va m n hm]

theorem readAt_window {s : State} {w : Who} {k : Kind} {key : Nat × Nat} {a : Word} {n : Nat} (h : InPool (s.core (coreOf w.ctx)) a.toNat n)
    (hc : (s.ctx w.ctx).chk = false) :
    readAt s w k key a n = .ok ((List.range n).map (fun i => winByte (s.core (coreOf w.ctx)) (a.toNat + i))) s := by
  obtain ⟨ps, hr, hp⟩ := resolve_pool (w := w) k h
  unfold readAt; rw [hr]; exact readPieces_window hp hc

theorem readWord_window {s : State} {w : Who} {key : Nat × Nat} {a : Word} (h : InPool (s.core (coreOf w.ctx)) a.toNat 8)
    (hc : (s.ctx w.ctx).chk = false) :
    readWord s w key a = .ok (BitVec.ofNat 64 (winWord (s.core (coreOf w.ctx)) a.toNat 8)) s := by
  unfold readWord; rw [readAt_window h hc]; rfl

/-- What a write of the pool leaves. -/
structure PoolWrite (k : CoreId) (a : Nat) (bs : List Byte) (s t : State) : Prop where
  rest : t = { s with cores := t.cores, syncBad := t.syncBad }
  core : ∀ l, t.core l = { s.core l with spd := (t.core l).spd, srf := (t.core l).srf, rawTiles := (t.core l).rawTiles }
  byte : ∀ l b, windowBase ≤ b → winByte (t.core l) b = if l = k ∧ a ≤ b ∧ b < a + bs.length then bs[b - a]?.getD 0 else winByte (s.core l) b
  form : PoolForm (s.core k) → PoolForm (t.core k)

theorem poolWrite_one {s : State} {k : CoreId} {a m : Nat} {q off} {bs : List Byte} (hl : bs.length = m) (h : InPool (s.core k) a m)
    (hq : poolAt (s.core k) (a - windowBase) m = some (q, off)) (hf : PoolForm (s.core k)) : PoolWrite k a bs s (poolPut s k q off bs) := by
  obtain ⟨q', off', hq', hc⟩ := inPool_at h
  rw [hq] at hq'
  obtain ⟨rfl, rfl⟩ := Prod.mk.inj (Option.some.inj hq')
  refine ⟨?_, ?_, ?_, ?_⟩
  · cases q <;> rfl
  · intro l
    by_cases e : k = l
    · subst e; cases q <;> (unfold poolPut; dsimp only; rw [modCore_core, if_pos rfl]; rfl)
    · rw [poolPut_core_ne e]
  · intro l b hb
    rw [winByte_off, winByte_off]
    by_cases e : k = l
    · subst e
      rw [offByte_put hl hf.1 hf.2 hc]
      have hw := h.1
      generalize windowBase = B at *
      have : (a - B ≤ b - B ∧ b - B < a - B + bs.length) ↔ (a ≤ b ∧ b < a + bs.length) := by omega
      have e : b - B - (a - B) = b - a := by omega
      simp only [this, e, true_and]
    · rw [poolPut_core_ne e, if_neg (fun h => e h.1.symm)]
  · intro _
    have := poolPut_wf (s := s) (k := k) ⟨hf.2, hf.1⟩ q off bs
    exact ⟨this.2, this.1⟩

theorem PoolWrite.poolw {k a bs s t} (h : PoolWrite k a bs s t) (l : CoreId) : (t.core l).poolw = (s.core l).poolw := by rw [h.core l]

theorem inPool_congr {c d : Core} (h : d.poolw = c.poolw) {a n : Nat} : InPool d a n ↔ InPool c a n := by unfold InPool; rw [h]
theorem poolAt_congr {c d : Core} (h : d.poolw = c.poolw) (x n : Nat) : poolAt d x n = poolAt c x n := by unfold poolAt; rw [h]
theorem winPieces_congr {c d : Core} (h : d.poolw = c.poolw) {ps i va n} (hp : WinPieces c ps i va n) : WinPieces d ps i va n := by
  induction ps generalizing i va n with
  | nil => exact hp
  | cons p ps ih =>
    obtain ⟨m, q, off, h0, hm, hp, hi, hq, hr⟩ := hp
    exact ⟨m, q, off, h0, hm, hp, (inPool_congr h).2 hi, (poolAt_congr h _ _).trans hq, ih hr⟩

theorem PoolWrite.refl {k a s} : PoolWrite k a [] s s := ⟨rfl, fun _ => rfl, fun l b hb => by rw [if_neg]; simp only [List.length_nil]; omega, id⟩

theorem PoolWrite.trans {k a bs cs s t u} (x : PoolWrite k a bs s t) (y : PoolWrite k (a + bs.length) cs t u) : PoolWrite k a (bs ++ cs) s u := by
  refine ⟨by rw [y.rest, x.rest], fun l => by rw [y.core l, x.core l], fun l b hb => ?_, fun h => y.form (x.form h)⟩
  rw [y.byte l b hb, x.byte l b hb, List.length_append]
  by_cases hl : l = k
  · by_cases h1 : a ≤ b ∧ b < a + bs.length
    · rw [if_neg (by omega), if_pos ⟨hl, h1⟩, if_pos ⟨hl, by omega⟩, List.getElem?_append_left (by omega)]
    · by_cases h2 : a + bs.length ≤ b ∧ b < a + bs.length + cs.length
      · rw [if_pos ⟨hl, h2⟩, if_pos ⟨hl, by omega⟩, List.getElem?_append_right (by omega)]
        congr 2; omega
      · rw [if_neg (fun h => h2 h.2), if_neg (fun h => h1 h.2), if_neg (by omega)]
  · rw [if_neg (fun h => hl h.1), if_neg (fun h => hl h.1), if_neg (fun h => hl h.1)]

theorem writePieces_window {w : Who} {key : Nat × Nat} {ea : Word} {bs : List Byte} {ps : List Piece} : ∀ {s : State} {i va n : Nat},
    WinPieces (s.core (coreOf w.ctx)) ps i va n → PoolForm (s.core (coreOf w.ctx)) → (s.ctx w.ctx).chk = false → i + n = bs.length →
    ∃ t, writePieces w key ea bs ps s = .ok () t ∧ PoolWrite (coreOf w.ctx) va (bs.drop i) s t := by
  induction ps with
  | nil =>
    intro s i va n h hf hc hi
    have h : n = 0 := h
    refine ⟨s, rfl, ?_⟩
    rw [List.drop_of_length_le (by omega)]; exact PoolWrite.refl
  | cons p ps ih =>
    intro s i va n h hf hc hi
    obtain ⟨m, q, off, h0, hm, hp, hin, hq, hr⟩ := h
    have hlen : (pieceBytes p bs).length = m := by
      rw [hp]; unfold pieceBytes; dsimp only; rw [List.length_take, List.length_drop]; omega
    have hone := poolWrite_one hlen hin hq hf
    obtain ⟨t, ht, hw⟩ := ih (winPieces_congr (hone.poolw _) hr) (hone.form hf)
      ((congrArg (fun v : State => (v.ctx w.ctx).chk) hone.rest).trans hc) (by omega)
    refine ⟨t, ?_, ?_⟩
    · unfold writePieces
      rw [hp] at ht ⊢
      simp only [Acc.bind, fenceWrite_unchecked hc]
      exact ht
    · have e : bs.drop i = pieceBytes p bs ++ bs.drop (i + m) := by
        rw [hp]; unfold pieceBytes; dsimp only
        rw [← List.drop_drop, List.take_append_drop]
      rw [e]
      refine hone.trans ?_
      rw [hlen]; exact hw

end Sys2Proof.Laws
end

