-- ==== Sys2Proof/Tests/Slice0.lean ====
section
/-! SUPPORT. Tests: ill-formed terms, a word for every constructor's decoding, and states that meet the premises of the statements. -/

open Sys2Proof Sys2Proof.Machine Sys2Proof.Claims

section

-- one theorem after another: each evaluation in the kernel would otherwise hold a thread, with its stack, while it waits
set_option Elab.async false

/-! ## Well-formedness -/

/-- One ill-formed term for each check: shift counts (R129), `flog.not` (R125), even registers (R112), position lists as sources of major
op 0x11 (R159), the scale column of `mldw` (R236), special registers (R119), an empty range (R370). -/
theorem test_ill_formed : (
    [.shli 1 (.s 2) 64, .shri 1 (.s 2) 64, .srai 1 (.s 2) 0x1FFFFFFFF, .flog 1 2 3 .not
     , .acas 3 { base := .s 1, idx := .s 0, pol := 0, disp := 0 } false
     , .fadd 1 (.col (.p 2)) (.col (.c 3)) { rnd := .rne, sat := false, ftz := false } none
     , .ffma 1 (.col (.c 2)) (.col (.c 3)) (.col (.p 3)) { rnd := .rne, sat := false, ftz := false } none
     , .fabs 1 (.col (.p 2)) { rnd := .rne, sat := false, ftz := false } none
     , .cvt42 5 (.c 2) { rnd := .rne, sat := false, ftz := false }, .btld 7 1 (.c 4) 0, .segst 1 (.s 4) 0 0
     , .joinH 1 (.c 6) (.c 7), .joinM 3 (.c 6) (.c 7), .semi 5 (.c 6) (.c 7), .anti 15 (.c 6) (.c 7), .grp 31 (.c 1)
     , .mldw (.col (.c 3)) 0 (some (.c 4)) .f16, .mldw (.col (.c 3)) 1 none .f16
     , .qenq 5 (.s 8) 7 2, .qdeq 63 (.s 8) 2, .mfs 1 0x004, .mts 0x140 (.s 1), .tlbiRange (.s 5) 0] : List Instr).all
    (fun i => i.encoded && !i.wf) = true := by decide +kernel

/-- A step of another agent has no encoding. -/
theorem test_event_not_encoded : ¬ (Instr.instructionFetch).WF ∧ ¬ (Instr.taskLaunch 0).WF ∧ (Instr.nop).WF := by decide

/-! ## Decoding: words written out from the forms of R109, the kind tags of R111 and the grid of R117 -/

/-- The decode of a handler context that is attached to a row group. -/
def both : DecodeCtx := { handler := true, attached := true }

theorem test_decode_scalar_integer : (
    [(0x02012817FFA00000, .add 9 (.s 11) (.lit 1021)), (0x02092817FFA00000, .sub 9 (.s 11) (.lit 1021)),
     (0x02112817FFA00000, .mul 9 (.s 11) (.lit 1021)), (0x02192817FFA00000, .mulh 9 (.s 11) (.lit 1021)),
     (0x02212817FFA00000, .mulhn 9 (.s 11) (.lit 1021)), (0x02292817FFA00000, .div 9 (.s 11) (.lit 1021)),
     (0x02312817FFA00000, .divn 9 (.s 11) (.lit 1021)), (0x02392817FFA00000, .rem 9 (.s 11) (.lit 1021)),
     (0x02412817FFA00000, .remn 9 (.s 11) (.lit 1021)), (0x02492817FFA00000, .and 9 (.s 11) (.lit 1021)),
     (0x02512817FFA00000, .or 9 (.s 11) (.lit 1021)), (0x02592817FFA00000, .xor 9 (.s 11) (.lit 1021)),
     (0x02612817FFA00000, .andn 9 (.s 11) (.lit 1021)), (0x02692817FFA00000, .shl 9 (.s 11) (.lit 1021)),
     (0x02712817FFA00000, .shr 9 (.s 11) (.lit 1021)), (0x02792817FFA00000, .sra 9 (.s 11) (.lit 1021)),
     (0x02812817FFA00000, .rotl 9 (.s 11) (.lit 1021)), (0x02892817FFA00000, .min 9 (.s 11) (.lit 1021)),
     (0x02912817FFA00000, .max 9 (.s 11) (.lit 1021)), (0x02992817FFA00000, .minn 9 (.s 11) (.lit 1021)),
     (0x02A12817FFA00000, .maxn 9 (.s 11) (.lit 1021)), (0x02AFD61200000000, .popc 62 (.k 777)),
     (0x02B7D61200000000, .clz 62 (.k 777)), (0x02BFD61200000000, .ctz 62 (.k 777)),
     (0x02C1287F80B00200, .bfx 9 (.s 63) (.lit 5) (.k 1)), (0x02C9287F80B00200, .bfxn 9 (.s 63) (.lit 5) (.k 1)),
     (0x02D1287F80B00200, .bfi 9 (.s 63) (.lit 5) (.k 1)), (0x02D8880A80C00002, .csel 4 (.s 5) (.s 6) 2),
     (0x02E06802804001F0, .addsh 3 (.s 1) (.s 2) 31)] : List (Word × Instr)).all (fun p => decode both p.1 == .ok p.2 && encode p.2 == p.1) = true := by decide +kernel

theorem test_decode_immediate : (
    [(0x0400E811FFFFFFFE, .addi 7 (.s 8) 0x1FFFFFFFE), (0x0408E811FFFFFFFE, .andi 7 (.s 8) 0x1FFFFFFFE),
     (0x0410E811FFFFFFFE, .ori 7 (.s 8) 0x1FFFFFFFE), (0x0418E811FFFFFFFE, .xori 7 (.s 8) 0x1FFFFFFFE),
     (0x0438E811FFFFFFFE, .muli 7 (.s 8) 0x1FFFFFFFE), (0x0420F0120000003F, .shli 7 (.k 9) 63),
     (0x0428F0120000003F, .shri 7 (.k 9) 63), (0x0430F0120000003F, .srai 7 (.k 9) 63),
     (0x0440200012345678, .ldi 1 0x12345678), (0x0448200100000005, .ldhi 1 0x100000005)] : List (Word × Instr)).all (fun p => decode both p.1 == .ok p.2 && encode p.2 == p.1) = true := by decide +kernel

theorem test_decode_predicate_and_branch : (
    [(0x0601E817FFA00090, .scmp 15 (.s 11) (.lit 1021) .gen), (0x0600480B85000060, .scmp 2 (.s 5) (.lit 40) .ltn),
     (0x0608250451E00030, .flog 1 2 15 .andn), (0x0608250400000040, .flog 1 2 0 .not), (0x0610680800000000, .fset 3 (.s 4)),
     (0x061D051C00000000, .ftos 40 14), (0x08055FFFFFFFFFFD, .br true 5 0x1FFFFFFFFFFD), (0x0808000000000023, .bra 35),
     (0x08101FFFFFFFFFFF, .call 0x1FFFFFFFFFFF), (0x081C000000000005, .bryl true 5), (0x0A00081800000000, .jr (.s 12)),
     (0x0A08100600000000, .callr (.k 3)), (0x0A10000000000000, .ret)] : List (Word × Instr)).all (fun p => decode both p.1 == .ok p.2 && encode p.2 == p.1) = true := by decide +kernel

theorem test_decode_scalar_memory : (
    [(0x0C010815FFE607FF, .ldb 8 { base := .s 10, idx := .lit 1023, pol := 12, disp := 0x7FF }),
     (0x0C090815FFE607FF, .ldbn 8 { base := .s 10, idx := .lit 1023, pol := 12, disp := 0x7FF }),
     (0x0C110815FFE607FF, .ldh 8 { base := .s 10, idx := .lit 1023, pol := 12, disp := 0x7FF }),
     (0x0C190815FFE607FF, .ldhn 8 { base := .s 10, idx := .lit 1023, pol := 12, disp := 0x7FF }),
     (0x0C210815FFE607FF, .ldw 8 { base := .s 10, idx := .lit 1023, pol := 12, disp := 0x7FF }),
     (0x0C290815FFE607FF, .ldwn 8 { base := .s 10, idx := .lit 1023, pol := 12, disp := 0x7FF }),
     (0x0C310815FFE607FF, .ldd 8 { base := .s 10, idx := .lit 1023, pol := 12, disp := 0x7FF }),
     (0x0E010815FFE607FF, .stb 8 { base := .s 10, idx := .lit 1023, pol := 12, disp := 0x7FF }),
     (0x0E090815FFE607FF, .sth 8 { base := .s 10, idx := .lit 1023, pol := 12, disp := 0x7FF }),
     (0x0E110815FFE607FF, .stw 8 { base := .s 10, idx := .lit 1023, pol := 12, disp := 0x7FF }),
     (0x0E190815FFE607FF, .std 8 { base := .s 10, idx := .lit 1023, pol := 12, disp := 0x7FF }),
     (0x10010815FFE607FF, .aadd 8 { base := .s 10, idx := .lit 1023, pol := 12, disp := 0x7FF } false),
     (0x10090815FFE60FFF, .aand 8 { base := .s 10, idx := .lit 1023, pol := 12, disp := 0x7FF } true),
     (0x10110815FFE607FF, .aor 8 { base := .s 10, idx := .lit 1023, pol := 12, disp := 0x7FF } false),
     (0x10190815FFE60FFF, .axor 8 { base := .s 10, idx := .lit 1023, pol := 12, disp := 0x7FF } true),
     (0x10210815FFE607FF, .amin 8 { base := .s 10, idx := .lit 1023, pol := 12, disp := 0x7FF } false),
     (0x10290815FFE60FFF, .amax 8 { base := .s 10, idx := .lit 1023, pol := 12, disp := 0x7FF } true),
     (0x10310815FFE607FF, .aminn 8 { base := .s 10, idx := .lit 1023, pol := 12, disp := 0x7FF } false),
     (0x10390815FFE60FFF, .amaxn 8 { base := .s 10, idx := .lit 1023, pol := 12, disp := 0x7FF } true),
     (0x10410815FFE607FF, .axchg 8 { base := .s 10, idx := .lit 1023, pol := 12, disp := 0x7FF } false),
     (0x10490815FFE60FFF, .acas 8 { base := .s 10, idx := .lit 1023, pol := 12, disp := 0x7FF } true),
     (0x1200000000000004, .fenceFull .system), (0x120000000000000A, .fenceAcq .cluster),
     (0x1200000000000013, .fenceRel .module)] : List (Word × Instr)).all (fun p => decode both p.1 == .ok p.2 && encode p.2 == p.1) = true := by decide +kernel

theorem test_decode_column_integer : (
    [(0x2000A00E8100004E, .vadd 5 (.col (.c 7)) (.sc (.s 8)) true (some 14)),
     (0x2008A00E8100004E, .vsub 5 (.col (.c 7)) (.sc (.s 8)) true (some 14)),
     (0x2010A00E8100004E, .vmul 5 (.col (.c 7)) (.sc (.s 8)) true (some 14)),
     (0x201BE00E81000000, .vmulh 31 (.col (.c 7)) (.sc (.s 8)) (some 0)),
     (0x2023E00E81000000, .vmin 31 (.col (.c 7)) (.sc (.s 8)) (some 0)),
     (0x202BE00E81000000, .vmax 31 (.col (.c 7)) (.sc (.s 8)) (some 0)),
     (0x2043E00E81000000, .vand 31 (.col (.c 7)) (.sc (.s 8)) (some 0)),
     (0x204BE00E81000000, .vor 31 (.col (.c 7)) (.sc (.s 8)) (some 0)),
     (0x2053E00E81000000, .vxor 31 (.col (.c 7)) (.sc (.s 8)) (some 0)),
     (0x205BE00E81000000, .vshl 31 (.col (.c 7)) (.sc (.s 8)) (some 0)),
     (0x2063E00E81000000, .vshr 31 (.col (.c 7)) (.sc (.s 8)) (some 0)),
     (0x206BE00E81000000, .vsra 31 (.col (.c 7)) (.sc (.s 8)) (some 0)),
     (0x2030A03E0000000F, .vabs 5 (.col (.c 31)) false none), (0x2038A03E0000000F, .vneg 5 (.col (.c 31)) false none),
     (0x2070A1060000000F, .vpopc 5 (.col (.p 3)) none), (0x2078A1060000000F, .vclz 5 (.col (.p 3)) none),
     (0x2080A1060000000F, .vmov 5 (.col (.p 3)) none), (0x2088D0088040000F, .vbcast 6 (.k 4) (.s 2)),
     (0x2090D0088058124F, .viota 6 (.k 4) (.s 2) (.lit 9) true),
     (0x2098C00380410803, .vsel 6 (.col (.c 1)) (.sc (.lit 2)) (.p 4) (some 3)),
     (0x20A0C0038040000F, .vmulw 6 (.col (.c 1)) (.sc (.lit 2))),
     (0x20A8C0038040124F, .vmad 6 (.col (.c 1)) (.sc (.lit 2)) (.col (.c 9)) true none)] : List (Word × Instr)).all (fun p => decode both p.1 == .ok p.2 && encode p.2 == p.1) = true := by decide +kernel

theorem test_decode_column_float : (
    [(0x2200600E810001C7, .fadd 3 (.col (.c 7)) (.sc (.s 8)) { rnd := .rup, sat := true, ftz := false } (some 7)),
     (0x2208600E810001C7, .fsub 3 (.col (.c 7)) (.sc (.s 8)) { rnd := .rup, sat := true, ftz := false } (some 7)),
     (0x2210600E810001C7, .fmul 3 (.col (.c 7)) (.sc (.s 8)) { rnd := .rup, sat := true, ftz := false } (some 7)),
     (0x2220600E810001C7, .fmin 3 (.col (.c 7)) (.sc (.s 8)) { rnd := .rup, sat := true, ftz := false } (some 7)),
     (0x2228600E810001C7, .fmax 3 (.col (.c 7)) (.sc (.s 8)) { rnd := .rup, sat := true, ftz := false } (some 7)),
     (0x2240600E810001C7, .fdiv 3 (.col (.c 7)) (.sc (.s 8)) { rnd := .rup, sat := true, ftz := false } (some 7)),
     (0x2260600E810001C7, .fscl 3 (.col (.c 7)) (.sc (.s 8)) { rnd := .rup, sat := true, ftz := false } (some 7)),
     (0x2218600200500AAF, .ffma 3 (.col (.c 1)) (.col (.c 2)) (.sc (.k 5)) { rnd := .rtz, sat := false, ftz := true } none),
     (0x2230603C000000AF, .fabs 3 (.col (.c 30)) { rnd := .rtz, sat := false, ftz := true } none),
     (0x2238603C000000AF, .fneg 3 (.col (.c 30)) { rnd := .rtz, sat := false, ftz := true } none),
     (0x2248603C000000AF, .fsqrt 3 (.col (.c 30)) { rnd := .rtz, sat := false, ftz := true } none),
     (0x2250603C000000AF, .fexp2 3 (.col (.c 30)) { rnd := .rtz, sat := false, ftz := true } none),
     (0x2258603C000000AF, .flog2 3 (.col (.c 30)) { rnd := .rtz, sat := false, ftz := true } none)] : List (Word × Instr)).all (fun p => decode both p.1 == .ok p.2 && encode p.2 == p.1) = true := by decide +kernel

theorem test_decode_tests_conversions_reductions : (
    [(0x2400600E8100005F, .vcmp 3 (.col (.c 7)) (.sc (.s 8)) .ge), (0x240860080000000F, .vnz 3 (.c 4)),
     (0x241060080000000F, .vnan 3 (.c 4)),
     (0x26008005814001CF, .cvtn 4 (.c 2) 10 { rnd := .rup, sat := true, ftz := false }),
     (0x26088005814001CF, .cvtw 4 (.c 2) 10 { rnd := .rup, sat := true, ftz := false }),
     (0x26188005814001CF, .cvtif 4 (.c 2) 10 { rnd := .rup, sat := true, ftz := false }),
     (0x26208005814001CF, .cvtfi 4 (.c 2) 10 { rnd := .rup, sat := true, ftz := false }),
     (0x26108004000000AF, .cvt42 4 (.c 2) { rnd := .rtz, sat := false, ftz := true }), (0x262880040000000F, .unpk3 4 (.c 2)),
     (0x263080040000000F, .pk3 4 (.c 2)),
     (0x26388004006000AF, .cvts 4 (.c 2) (.c 3) { rnd := .rtz, sat := false, ftz := true }),
     (0x28058004000000A9, .redSum 44 (.c 2) { rnd := .rtz, sat := false, ftz := true } (some 9)),
     (0x280D8004000000A9, .redMin 44 (.c 2) { rnd := .rtz, sat := false, ftz := true } (some 9)),
     (0x28158004000000A9, .redMax 44 (.c 2) { rnd := .rtz, sat := false, ftz := true } (some 9)),
     (0x281D8004000000A9, .redCnt 44 (.c 2) { rnd := .rtz, sat := false, ftz := true } (some 9)),
     (0x2822A004000000AF, .scanInc 21 (.c 2) { rnd := .rtz, sat := false, ftz := true }),
     (0x282AA004000000AF, .scanExc 21 (.c 2) { rnd := .rtz, sat := false, ftz := true }),
     (0x2832A004106000AF, .segred 21 (.c 2) (.p 3) { rnd := .rtz, sat := false, ftz := true }),
     (0x283D80040060004F, .tdot 44 (.c 2) (.c 3) true),
     (0x28458004006001C1, .redDot 44 (.c 2) (.c 3) { rnd := .rup, sat := true, ftz := false } (some 1))] : List (Word × Instr)).all (fun p => decode both p.1 == .ok p.2 && encode p.2 == p.1) = true := by decide +kernel

theorem test_decode_column_memory : (
    [(0x300048098064F801, .ldc 2 (.s 4) (.lit 3) 9 none 1), (0x300848098064F801, .stc 2 (.s 4) (.lit 3) 9 none 1),
     (0x3010C80800E4AFFF, .gath 6 (.s 4) (.c 7) 9 (some 5) 0x7FF),
     (0x3018C80800E4AFFF, .scat 6 (.s 4) (.c 7) 9 (some 5) 0x7FF), (0x3020C21E80E4F800, .ldt 6 15 (.sc (.s 7)) 9),
     (0x3028C21E80E4F800, .stt 6 15 (.sc (.s 7)) 9), (0x3030C2020084F800, .btld 6 1 (.c 4) 9),
     (0x3038C8080004FA01, .segst 6 (.s 4) 9 0x201), (0x3040C80800E48F00, .catom 6 (.s 4) (.c 7) 9 true 7)] : List (Word × Instr)).all (fun p => decode both p.1 == .ok p.2 && encode p.2 == p.1) = true := by decide +kernel

theorem test_decode_column_management : (
    [(0x32003A0000000060, .calloc (.c 1) (.lit 256) .i32), (0x3200182010200110, .calloc (.p 1) (.lit 16) .pos32),
     (0x3209200000000000, .cfree (.c 9)), (0x3208000011200000, .cfree (.p 9)), (0x3211200000000140, .cfmt 9 .xacc),
     (0x3219211000000000, .len 9 (.p 8)), (0x3221281000000000, .trunc (.c 9) (.s 8)),
     (0x3228001000000000, .setvl (.col (.c 8))), (0x3231211000000000, .cdesc 9 (.p 8))] : List (Word × Instr)).all (fun p => decode both p.1 == .ok p.2 && encode p.2 == p.1) = true := by decide +kernel

theorem test_decode_relational : (
    [(0x4000800E8100004F, .sel 4 (.col (.c 7)) (.sc (.s 8)) .gt none),
     (0x4008800380601002, .selr 4 (.col (.c 1)) (.sc (.lit 3)) (.col (.c 8)) (some 2)),
     (0x401080020000000F, .selb 4 (.c 1) none), (0x4018C10810A0000F, .pand 6 (.p 4) (.p 5)),
     (0x4020C10810A0000F, .por 6 (.p 4) (.p 5)), (0x4028C10810A0000F, .pdiff 6 (.p 4) (.p 5)),
     (0x4030C10810A0000F, .prjp 6 (.p 4) (.p 5)), (0x420120141080000F, .prj 9 (.c 10) (.p 4)),
     (0x420920141080000F, .plc 9 (.c 10) (.p 4)), (0x421121068360000F, .pcol 9 (.p 3) (.s 27)),
     (0x4400400C00E0000F, .joinH 2 (.c 6) (.c 7)), (0x4408400C00E0000F, .joinM 2 (.c 6) (.c 7)),
     (0x4410400C00E0000F, .semi 2 (.c 6) (.c 7)), (0x4418400C00E0000F, .anti 2 (.c 6) (.c 7)),
     (0x460080020000000F, .grp 4 (.c 1)),
     (0x4608C00400880AAF, .aggSum 6 (.c 2) (.c 4) (.sc (.s 5)) { rnd := .rtz, sat := false, ftz := true }),
     (0x4610C00400880AAF, .aggMin 6 (.c 2) (.c 4) (.sc (.s 5)) { rnd := .rtz, sat := false, ftz := true }),
     (0x4618C00400880AAF, .aggMax 6 (.c 2) (.c 4) (.sc (.s 5)) { rnd := .rtz, sat := false, ftz := true }),
     (0x4620C00400880AAF, .aggCnt 6 (.c 2) (.c 4) (.sc (.s 5)) { rnd := .rtz, sat := false, ftz := true }),
     (0x480060020000000F, .sort 3 (.c 1)), (0x480860020000000F, .sortd 3 (.c 1)), (0x482060020000000F, .uniq 3 (.c 1)),
     (0x481060038040000F, .topk 3 (.c 1) (.lit 2)), (0x481860028040000F, .srch 3 (.c 1) (.sc (.s 2)))] : List (Word × Instr)).all (fun p => decode both p.1 == .ok p.2 && encode p.2 == p.1) = true := by decide +kernel

theorem test_decode_streams_and_copies : (
    [(0x5000A30680880CA0, .strm 5 3 (.s 4) (.s 6) .f32), (0x5008A00000000000, .unstrm 5),
     (0x5010033E00000020, .bfwait 31 true), (0x5018E30600000030, .bftry 7 3 3),
     (0x5020030681881A00, .bfsetCfg 3 (.s 12) (.s 13)), (0x5020030681881A10, .bfsetCfga 3 (.s 12) (.s 13)),
     (0x5020030600000020, .bfsetClaim 3), (0x5020030600000030, .bfsetFull 3), (0x5020030600000040, .bfsetRel 3),
     (0x5028E30600000000, .bfinfo 7 3), (0x5200E81081251230, .cpy 7 (.s 8) (.s 9) 10 (some 2) { mode := 1, handle := 3 }),
     (0x5208E81081251230, .cpyx 7 (.s 8) (.s 9) 10 (some 2) { mode := 1, handle := 3 }),
     (0x5210E81081251230, .cpyc 7 (.s 8) (.s 9) 10 (some 2) { mode := 1, handle := 3 }),
     (0x5218E81000057800, .txc 7 (.s 8) 10 none), (0x5220E81000057800, .txe 7 (.s 8) 10 none)] : List (Word × Instr)).all (fun p => decode both p.1 == .ok p.2 && encode p.2 == p.1) = true := by decide +kernel

theorem test_decode_matrix_and_exact : (
    [(0x5400180400000000, .matt (.lit 2)), (0x5408000000000000, .mdet), (0x5418000000000000, .mflip),
     (0x5410000780400AC0, .mldw (.col (.c 3)) 2 (some (.c 5)) .e4m3), (0x5410080780000080, .mldw (.sc (.s 3)) 0 none .f16),
     (0x5420600F80000000, .mmul 3 (.c 7) (.lit 0)), (0x5428600E01101800, .mmuls 3 (.c 7) (.c 8) (.k 12)),
     (0x5430400000000000, .macswp 2), (0x54394407800802A0, .macrd 10 3 (.lit 0) (.s 1) .f32),
     (0x5440200000000060, .macclr 1 .i32), (0x5600080800C00020, .xred (.s 4) (.c 6) true),
     (0x5608E809810001C0, .xfin 7 (.s 4) (.lit 8) { rnd := .rup, sat := true, ftz := false }),
     (0x5610080981000000, .xclr (.s 4) (.lit 8))] : List (Word × Instr)).all (fun p => decode both p.1 == .ok p.2 && encode p.2 == p.1) = true := by decide +kernel

theorem test_decode_handles_and_cache : (
    [(0x6000280880A80C80, .hmk 1 (.s 4) (.s 5) (.s 6) .f16), (0x6008420200000000, .hcpy 2 1), (0x6010020400000000, .hdrop 2),
     (0x6018020280C00000, .hfin 1 (.s 6)), (0x6020620200000000, .hexcl 3 1), (0x6028681000000000, .hld 3 (.s 8)),
     (0x6030081020400000, .hst (.s 8) 2), (0x6038A20380800000, .hinfo 5 1 4),
     (0x60408814000812A0, .hsp 4 (.s 10) (.s 9) .f32), (0x6200020200800000, .kvapp 1 4),
     (0x6208420281200000, .kvdem 2 1 (.s 9)), (0x6210020281200000, .kvpro 1 (.s 9)), (0x6218E20281200000, .kvinfo 7 1 (.s 9))] : List (Word × Instr)).all (fun p => decode both p.1 == .ok p.2 && encode p.2 == p.1) = true := by decide +kernel

theorem test_decode_synchronisation : (
    [(0x7000080980600000, .barInit (.s 4) (.lit 3)), (0x7008080880E00000, .barPost (.s 4) (.s 7)),
     (0x7010C80800000000, .barArr 6 (.s 4)), (0x7018280880C00000, .barWait 1 (.s 4) (.s 6)),
     (0x7027880880C00000, .barTry 60 (.s 4) (.s 6)), (0x7200A81000000000, .qmk 5 (.s 8)),
     (0x7208A81080C50400, .qenq 5 (.s 8) 6 2), (0x7210C81000050400, .qdeq 6 (.s 8) 2),
     (0x7218A81180200000, .qrm 5 (.s 8) (.lit 1)), (0x7220A81000000000, .qinfo 5 (.s 8)),
     (0x7400081180200000, .tsub (.s 8) (.lit 1)), (0x7408A81081200000, .tdep 5 (.s 8) (.s 9)), (0x7410000000000000, .tend),
     (0x7418000000000000, .tyld), (0x7420180880E00000, .lcap (.lit 4) (.s 7)), (0x7428B80200000000, .coord 5 1)] : List (Word × Instr)).all (fun p => decode both p.1 == .ok p.2 && encode p.2 == p.1) = true := by decide +kernel

theorem test_decode_frozen_and_system : (
    [(0x8000C60680E00000, .frzRd 6 3 (.s 7)), (0x8008060080E81000, .frzWr 0 (.s 7) (.s 8)),
     (0x8010060200000000, .frzResRetry 1), (0x8010060200000010, .frzResSkip 1), (0x8010060281200020, .frzResPc 1 (.s 9)),
     (0x8018060400000000, .frzKill 2), (0x8020A60400000000, .frzInfo 5 2), (0x8028000000000000, .hret),
     (0x8200C00001200000, .mfs 6 0x009), (0x8208180601400000, .mts 0x00A (.lit 3)), (0x82100000001ABCDE, .trap 0x1ABCDE),
     (0x8218000000000001, .brk 1), (0x8220080A00000000, .tlbiPage (.s 5)), (0x8220000000000001, .tlbiAll),
     (0x8220080A00000042, .tlbiRange (.s 5) 16), (0x8228280A00600040, .pin 1 (.s 5) 3 64), (0x8230000000600000, .unpin 3),
     (0x8238000000000000, .nop), (0x8240000000000015, .halt 21), (0x8248A00000000000, .cyc 5)] : List (Word × Instr)).all (fun p => decode both p.1 == .ok p.2 && encode p.2 == p.1) = true := by decide +kernel
/-! ## States of the witnesses

Context 0 runs a task; scalar registers, predicates and columns as each witness needs. -/

/-- The machine with context 0 running as `f` makes it. -/
def task (f : Ctx → Ctx) : State :=
  { State.reset with ctxs := [(0, f { Ctx.reset with run := .running, pc := 0x10000, retired := 41 })] }

def withS (l : List (SReg × Word)) (c : Ctx) : Ctx := l.foldl (fun c p => setS c p.1 p.2) c

/-- A column of `n` elements, with a window for `cap` of them at granule `base` of the SRF. -/
def colAt (f : Fmt) (n base cap : Nat) : Column := { Column.empty f with len := n, base := base, cap := cap }

def withCols (l : List (Col × Column)) (c : Ctx) : Ctx := l.foldl (fun c p => setCol c p.1 p.2) c

/-- One column of each format that the witnesses use. -/
def formats : State :=
  task (withS [(4, 0x40000), (9, 0x000FFF00), (10, 0x00000018)] ∘ withCols
    [(.c 1, colAt .i32 8 0 8), (.c 2, colAt .i32 5 1 8), (.c 3, colAt .f32 8 2 8), (.c 4, colAt .f32 8 3 8), (.c 5, colAt .bool1 8 4 8)
     , (.c 6, colAt .e4m3 8 5 8), (.c 7, colAt .ue8m0 1 6 8), (.c 8, colAt .i8 8 7 8), (.c 9, colAt .tern5 8 8 8)
     , (.c 10, colAt .i64 8 9 8), (.c 11, colAt .n32 8 10 8), (.p 1, colAt .pos32 3 11 8), (.p 2, colAt .pos32 8 12 8)])

/-- An entry of the window that holds `i`, with nothing done. -/
def mkEntry (i : Instr) : Entry :=
  { seq := 0, pc := 0x10000, word := 0, instr := i, engine := .lanes, opA := 0, opB := 0, opC := 0, srcA := none, srcB := none, srcC := none
    dests := [], sdest := none, pol := 0, ph := 0, clock := [], bind := none, qual := none, fmt := .i32, mfmt := none, len := 8, issueAt := 0
    next := [0, 0, 0, 0], oc := 0, vs := 0, phase := .absorb, absA := [], absB := [], work := [], mask := [], admitted := false, realign := false
    consumed := false, strips := [], table := [], late := [], fin := false, acked := false, held := [] }

/-- A qualifier whose list lies in its window is read. -/
theorem listable {s : State} {q : Qual}
    (h : q.all (fun n => (capture s s.cur (.p ⟨n.val, by omega⟩)).len ≤ (getCol s.me (.p ⟨n.val, by omega⟩)).cap) = true) :
    ∃ l v, ListRead s q l v := by
  cases q with
  | none => exact ⟨_, _, Laws.listRead_none s⟩
  | some n => obtain ⟨l, hl⟩ := Laws.listRead_resident s n (by simpa using h); exact ⟨_, _, hl⟩

/-! ## Premises met: scalar instructions -/

theorem test_premises_scalar_integer_results :
    Ready formats [.s 63, .lit 1023] [63] ∧ FlagsReady formats [15] ∧ Ready formats [.k 1023] [0] := by
  unfold Claims.Ready FlagsReady; decide +kernel

/-- Division by the literal −1; a field of one bit at bit 63 and one of 64 at bit 0; the first values that freeze. -/
theorem test_premises_division_and_bit_fields :
    (Ready formats [.s 4, .lit 1023] [1] ∧ readSrc formats.me (.lit 1023) ≠ 0)
    ∧ (Ready formats [.s 4, .lit 63, .lit 1] [1] ∧ (readSrc formats.me (.lit 63)).toNat ≤ 63 ∧ (readSrc formats.me (.lit 1)).toNat ≤ 1)
    ∧ (Ready formats [.s 4, .lit 0, .lit 64] [1] ∧ (readSrc formats.me (.lit 64)).toNat ≤ 64)
    ∧ NothingHeld formats ∧ (Ready formats [.s 4, .lit 0] [1] ∧ readSrc formats.me (.lit 0) = 0)
    ∧ (readSrc formats.me (.lit 64)).toNat > 63 ∧ (readSrc formats.me (.lit 2)).toNat > 64 - (readSrc formats.me (.lit 63)).toNat := by
  unfold Claims.Ready NothingHeld; decide +kernel

theorem test_premises_immediates_and_predicates :
    Ready formats [.s 63] [0] ∧ Ready formats [] [63] ∧ Ready formats [.s 4, .k 0] [] ∧ FlagsReady formats [0, 15, 7] := by
  unfold Claims.Ready FlagsReady; decide +kernel

/-- Jumps: to a multiple of 8, to the first address outside the address space, and to a misaligned one. -/
theorem test_premises_branches_and_jumps :
    let out := task (withS [(4, 0x200000000000000), (62, 0x10001)])
    FlagsReady formats [15] ∧ Ready formats [] [62] ∧ (∀ e ∈ formats.me.window, e.dests = [])
    ∧ Ready formats [.s 4] [62] ∧ (readSrc formats.me (.s 4)).toNat % 8 = 0 ∧ (readSrc formats.me (.s 4)).toNat < 2 ^ 57
    ∧ (readSrc out.me (.s 4)).toNat % 8 = 0 ∧ (readSrc out.me (.s 4)).toNat ≥ 2 ^ 57 ∧ (getS formats.me 62).toNat % 8 = 0
    ∧ NothingHeld out ∧ Ready out [.lit 7] [] ∧ (readSrc out.me (.lit 7)).toNat % 8 ≠ 0 ∧ (getS out.me 62).toNat % 8 ≠ 0 := by
  unfold FlagsReady Claims.Ready NothingHeld; dsimp only; and_intros <;> decide +kernel

/-! ## Premises met: column arithmetic -/

/-- A destination that is also a source, a broadcast, a qualifier. -/
theorem test_premises_column_integer_issue :
    let a : ColSrc := .col (.c 1)
    let b : ColSrc := .sc (.lit 7)
    let c : ColSrc := .col (.c 2)
    let s := formats
    (MayIssue s (colsOf [a]) (scsOf [a]) [] (some 1) ∧ Agree s (opFmt s.me 1 [a]) [a] ∧ Writable s [(.c 1, opFmt s.me 1 [a])] (colsOf [a])
      ∧ isIntOrPos (opFmt s.me 1 [a]) = true)
    ∧ (MayIssue s (colsOf [a, b]) (scsOf [a, b]) [] none ∧ Agree s (opFmt s.me 31 [a, b]) [a, b]
      ∧ Writable s [(.c 31, opFmt s.me 31 [a, b])] (colsOf [a, b]) ∧ isIntOrPos (opFmt s.me 31 [a, b]) = true)
    ∧ (MayIssue s (colsOf [a, b, c]) (scsOf [a, b, c]) [] none ∧ Agree s (opFmt s.me 3 [a, b, c]) [a, b, c]
      ∧ Writable s [(.c 3, opFmt s.me 3 [a, b, c])] (colsOf [a, b, c]) ∧ isIntOrPos (opFmt s.me 3 [a, b, c]) = true) := by
  unfold Agree Writable; dsimp only; and_intros <;> first | exact listable (by decide +kernel) | decide +kernel

theorem test_premises_column_special_issue :
    let a : ColSrc := .col (.c 3)
    let b : ColSrc := .sc (.s 4)
    let i : ColSrc := .col (.c 8)
    let s := formats
    (MayIssue s (colsOf [a, b, .col (.c 5)]) (scsOf [a, b]) [] none ∧ Agree s (opFmt s.me 4 [a, b]) [a, b] ∧ colFmt s.me (.c 5) = .bool1
      ∧ Writable s [(.c 4, opFmt s.me 4 [a, b])] (colsOf [a, b, .col (.c 5)]))
    ∧ (MayIssue s (colsOf [i, i]) (scsOf [i, i]) [] none ∧ Agree s (opFmt s.me 20 [i, i]) [i, i]
      ∧ opFmt s.me 20 [i, i] ∈ [Fmt.i8, .i16, .i32, .n8, .n16, .n32] ∧ Writable s [(.c 20, widerInt (opFmt s.me 20 [i, i]))] (colsOf [i, i]))
    ∧ (MayIssue s [] [.lit 3, .lit 8] [] none ∧ hasBroadcast (colFmt s.me (.c 1)) = true ∧ Writable s [(.c 1, colFmt s.me (.c 1))] []
      ∧ (readSrc s.me (.lit 8)).toNat < 2 ^ 32)
    ∧ (MayIssue s [] [.lit 3, .lit 1, .lit 0] [] none ∧ isIntOrPos (colFmt s.me (.c 1)) = true
      ∧ (readSrc s.me (.lit 0)).toNat < 2 ^ 32) := by
  unfold Agree Writable; dsimp only; and_intros <;> first | exact listable (by decide +kernel) | decide +kernel

theorem test_premises_column_float_issue :
    let a : ColSrc := .col (.c 3)
    let b : ColSrc := .sc (.s 4)
    let c : ColSrc := .col (.c 4)
    let i : ColSrc := .col (.c 1)
    let s := formats
    (MayIssue s (colsOf [a]) (scsOf [a]) [] none ∧ Agree s (opFmt s.me 3 [a]) [a] ∧ Writable s [(.c 3, opFmt s.me 3 [a])] (colsOf [a])
      ∧ isFloat (opFmt s.me 3 [a]) = true)
    ∧ (MayIssue s (colsOf [a, b]) (scsOf [a, b]) [] (some 2) ∧ Agree s (opFmt s.me 30 [a, b]) [a, b]
      ∧ Writable s [(.c 30, opFmt s.me 30 [a, b])] (colsOf [a, b]) ∧ isFloat (opFmt s.me 30 [a, b]) = true)
    ∧ (MayIssue s (colsOf [a, b, c]) (scsOf [a, b, c]) [] none ∧ Agree s (opFmt s.me 4 [a, b, c]) [a, b, c]
      ∧ Writable s [(.c 4, opFmt s.me 4 [a, b, c])] (colsOf [a, b, c]) ∧ isFloat (opFmt s.me 4 [a, b, c]) = true)
    ∧ (MayIssue s (colsOf [a, i]) (scsOf [a, i]) [] none ∧ Agree s (opFmt s.me 20 [a]) [a]
      ∧ (∀ r ∈ colsOf [i], isInteger (colFmt s.me r) = true) ∧ Writable s [(.c 20, opFmt s.me 20 [a])] (colsOf [a, i])) := by
  unfold Agree Writable; dsimp only; and_intros <;> first | exact listable (by decide +kernel) | decide +kernel

theorem test_premises_tests_and_conversions_issue :
    let a : ColSrc := .col (.c 1)
    let b : ColSrc := .sc (.lit 7)
    let s := formats
    (MayIssue s (colsOf [a, b]) (scsOf [a, b]) [] none ∧ Agree s (opFmt s.me 5 [a, b]) [a, b] ∧ testOk .ge (opFmt s.me 5 [a, b]) = true
      ∧ Writable s [(.c 5, .bool1)] (colsOf [a, b]))
    ∧ (MayIssue s [.c 3] [] [] none ∧ Writable s [(.c 5, .bool1)] [.c 3] ∧ isFloat (colFmt s.me (.c 3)) = true)
    ∧ (Fmt.ofCode 8 = some .f16 ∧ Writable s [(.c 20, .f16)] [.c 3] ∧ widens .f16 (colFmt s.me (.c 3)) = true)
    ∧ (Fmt.ofCode 11 = some .f64 ∧ Writable s [(.c 20, .f64)] [.c 3] ∧ widens (colFmt s.me (.c 3)) .f64 = true)
    ∧ (MayIssue s [.c 1] [] [] none ∧ isIntOrPos (colFmt s.me (.c 1)) = true ∧ isWideFloat .f32 = true ∧ Writable s [(.c 1, .f32)] [.c 1])
    ∧ (isWideFloat (colFmt s.me (.c 3)) = true ∧ isInteger .i32 = true ∧ Writable s [(.c 20, .i32)] [.c 3])
    ∧ (MayIssue s [.c 9] [] [] none ∧ colFmt s.me (.c 9) = .tern5 ∧ Writable s [(.c 20, .i8)] [.c 9])
    ∧ (MayIssue s [.c 8] [] [] none ∧ colFmt s.me (.c 8) = .i8 ∧ Writable s [(.c 20, .tern5)] [.c 8])
    ∧ (colFmt s.me (.c 3) = .f32 ∧ Writable s [(.c 30, .e2m1), (.c (nextC 30), .ue8m0)] [.c 3])
    ∧ (MayIssue s [.c 6, .c 7] [] [] none ∧ isMini (colFmt s.me (.c 6)) = true ∧ colFmt s.me (.c 7) = .ue8m0
      ∧ Writable s [(.c 20, .f32)] [.c 6, .c 7]) := by
  unfold Agree Writable; dsimp only; and_intros <;> first | exact listable (by decide +kernel) | decide +kernel

theorem test_premises_reduction_issue :
    let s := formats
    (MayIssue s [.c 5] [] [63] (some 1) ∧ MayIssue s [.c 3] [] [0] none ∧ redOk (colFmt s.me (.c 3)) = true)
    ∧ (MayIssue s [.c 3, .c 4] [] [5] none ∧ colFmt s.me (.c 3) ≠ .bool1 ∧ colFmt s.me (.c 4) = colFmt s.me (.c 3))
    ∧ (MayIssue s [.c 9, .c 8] [] [5] none ∧ colFmt s.me (.c 9) = .tern5 ∧ colFmt s.me (.c 8) = .i8)
    ∧ (MayIssue s [.c 3] [] [] none ∧ Writable s [(.c 3, redFmt (colFmt s.me (.c 3)))] [.c 3])
    ∧ (MayIssue s [.c 3, .c 5] [] [] none ∧ colFmt s.me (.c 5) = .bool1 ∧ Writable s [(.c 20, redFmt (colFmt s.me (.c 3)))] [.c 3, .c 5]) := by
  unfold Writable; dsimp only; and_intros <;> first | exact listable (by decide +kernel) | decide +kernel

/-- Eight instructions in flight. -/
def fullWindow : State := task fun c => { c with window := List.replicate 8 (mkEntry .nop) }

/-- Formats that a group refuses, a policy word with its T1 above its T2, an empty handle, a full window. -/
theorem test_premises_issue_refused_or_waiting :
    let s := formats
    let i : ColSrc := .col (.c 1)
    let f : ColSrc := .col (.c 3)
    NothingHeld s
    ∧ (MayIssue s (colsOf [f, f]) (scsOf [f, f]) [] none ∧ isIntOrPos (opFmt s.me 20 [f, f]) = false)
    ∧ (MayIssue s (colsOf [i, i]) (scsOf [i, i]) [] none ∧ isFloat (opFmt s.me 20 [i, i]) = false)
    ∧ (MayIssue s (colsOf [i, f]) (scsOf [i, f]) [] none ∧ colFmt s.me (.c 3) ≠ opFmt s.me 20 [i, f])
    ∧ (MayIssue s (colsOf [f, f, f]) [] [] none ∧ isIntOrPos (opFmt s.me 20 [f, f, f]) = false
      ∧ MayIssue s (colsOf [i, i, i]) [] [] none ∧ isFloat (opFmt s.me 20 [i, i, i]) = false)
    ∧ (MayIssue s (colsOf [i]) (scsOf [i]) [9] none ∧ PolicyOk (policyOf s.me 9) true ∧ packed (colFmt s.me (.c 20)) = false
      ∧ (∀ u ∈ colsOf [i], isIntOrPos (colFmt s.me u) = true) ∧ Writable s [(.c 20, colFmt s.me (.c 20))] (colsOf [i])
      ∧ hKind s.me.h[(15 : HReg)] = 0)
    ∧ (MayIssue s [] [.s 4, .lit 1] [10] none ∧ ¬ PolicyOk (policyOf s.me 10) true ∧ ¬ PolicyOk (policyOf s.me 10) false
      ∧ MayIssue s [.c 3] [.s 4, .lit 1] [10] none ∧ MayIssue s [.c 3, .c 1] [.s 4] [10] none)
    ∧ fullWindow.me.window.length = 8 := by
  unfold NothingHeld PolicyOk Writable; dsimp only; and_intros <;> first | exact listable (by decide +kernel) | decide +kernel

/-! ## Premises met: column memory and management -/

theorem test_premises_column_memory_issue :
    let s := formats
    let f := fun (r : CReg) => colFmt s.me (.c r)
    (MayIssue s [.c 3] [.s 4, .lit 2] [9] (some 1) ∧ MayIssue s [] [.s 4, .lit 1] [0] none ∧ PolicyOk (policyOf s.me 9) true
      ∧ (getCol s.me (.c 5)).strm = false ∧ packed (f 5) = true ∧ readSrc s.me (.lit 1) = 1)
    ∧ (MayIssue s [.c 9] [.s 4, .lit 1] [9] none ∧ PolicyOk (policyOf s.me 9) false ∧ packed (f 9) = true)
    ∧ (packed (f 3) = false ∧ indexFmt (colFmt s.me (.c 11)) = true
      ∧ MayIssue s [.c 11] [.s 4] [9] none ∧ Writable s [(.c 3, f 3)] [.c 11] ∧ MayIssue s [.c 3, .c 11] [.s 4] [9] (some 1))
    ∧ (MayIssue s [.c 1, .c 11] [.s 4] [9] none ∧ polBad (policyOf s.me 9) = false ∧ f 1 = .i32 ∧ f 10 = .i64
      ∧ MayIssue s [.c 10, .c 11] [.s 4] [9] none) := by
  unfold PolicyOk Writable; dsimp only; and_intros <;> first | exact listable (by decide +kernel) | decide +kernel

/-- A handle of kind k with element format code n, and nothing else (R378). -/
def bareHandle (k n : Nat) : Handle := { Handle.empty with w0 := BitVec.ofNat 64 (k * 2 ^ 60), w2 := BitVec.ofNat 64 n }

/-- `formats` with handles of kinds 1 and 3. -/
def tensors : State :=
  task (withCols [(.c 1, colAt .i32 8 0 8), (.c 2, colAt .f32 8 1 8), (.c 6, colAt .e4m3 32 2 32), (.c 7, colAt .ue8m0 1 3 8)
      , (.c 3, colAt .v256 4 4 8), (.c 11, colAt .n32 8 10 8), (.p 1, colAt .pos32 3 11 8)]
    ∘ fun c => { c with h := (c.h.set 1 (bareHandle 1 10)).set 15 (bareHandle 3 18) })

theorem test_premises_tensor_memory_issue :
    let s := tensors
    let i : ColSrc := .col (.c 1)
    let n : ColSrc := .sc (.lit 5)
    (packed (colFmt s.me (.c 2)) = false ∧ (∀ u ∈ colsOf [i], isIntOrPos (colFmt s.me u) = true)
      ∧ tensorBad s.me.h[(1 : HReg)] (colFmt s.me (.c 2)) = none
      ∧ MayIssue s (colsOf [i]) (scsOf [i]) [9] none ∧ PolicyOk (policyOf s.me 0) true ∧ Writable s [(.c 2, colFmt s.me (.c 2))] (colsOf [i])
      ∧ MayIssue s (.c 2 :: colsOf [n]) (scsOf [n]) [0] none ∧ PolicyOk (policyOf s.me 0) false)
    ∧ (packed (colFmt s.me (.c 3)) = false ∧ tensorBad s.me.h[(15 : HReg)] (colFmt s.me (.c 3)) = none)
    ∧ (MayIssue s [.p 1] [] [0] none ∧ colFmt s.me (.p 1) ∈ [Fmt.pos32, .n32, .n64] ∧ hKind s.me.h[(1 : HReg)] = 1
      ∧ Writable s [(.c 30, .v256), (.c (nextC 30), .bool1)] [.p 1])
    ∧ (MayIssue s [.c 6, .c (nextC 6)] [.s 4] [0] none ∧ isMini (colFmt s.me (.c 6)) = true ∧ colFmt s.me (.c (nextC 6)) = .ue8m0) := by
  unfold PolicyOk Writable; dsimp only; and_intros <;> first | exact listable (by decide +kernel) | decide +kernel

/-- A window of the largest capacity, one of none, and a position list. -/
theorem test_premises_calloc_places_a_window :
    let s := task (withS [(4, 0xFFFFFF)])
    s.me.window.length < 8 ∧ hazard s.me [.s 4] [] = false ∧ inFlight s.me (.c 1) = false ∧ (getCol s.me (.c 1)).strm = false ∧ (readSrc s.me (.s 4)).toNat ≤ 2 ^ 24 - 1
    ∧ hazard s.me [.lit 0] [] = false ∧ (readSrc s.me (.lit 0)).toNat ≤ 2 ^ 24 - 1 ∧ inFlight s.me (.p 15) = false := by
  decide +kernel

theorem test_premises_column_management :
    let s := formats
    (inFlight s.me (.c 1) = false ∧ (getCol s.me (.c 1)).strm = false ∧ hazard s.me [.lit 0] [] = false ∧ allYielded s.me = true
      ∧ s.me.window.length < 8 ∧ (readSrc s.me (.lit 0)).toNat < 2 ^ 24)
    ∧ (inFlight s.me (.c 3) = false ∧ sameWidth (getCol s.me (.c 3)).fmt .i32 = true ∧ (getCol s.me (.c 20)).len = 0)
    ∧ (readLen s (.p 1) = some 3 ∧ hazard s.me [] [63] = false ∧ MayIssue s [] [] [] none ∧ Writable s [(.c 20, .n64)] [.p 1])
    ∧ (getCol s.me (.c 9)).strm = false := by
  unfold Writable; dsimp only; and_intros <;> first | exact listable (by decide +kernel) | decide +kernel

theorem test_premises_selection_issue :
    let s := formats
    let a : ColSrc := .col (.c 1)
    let b : ColSrc := .sc (.lit 7)
    let c : ColSrc := .col (.c 2)
    (MayIssue s (colsOf [a, b]) (scsOf [a, b]) [] (some 1) ∧ Agree s (selFmt s.me [a, b]) [a, b] ∧ selOk .ge (selFmt s.me [a, b]) = true
      ∧ RelTargets s [(.p 15, .pos32)] (colsOf [a, b]) (some 1))
    ∧ (MayIssue s (colsOf [a, b, c]) (scsOf [a, b, c]) [] none ∧ Agree s (selFmt s.me [a, b, c]) [a, b, c]
      ∧ selOk .lt (selFmt s.me [a, b, c]) = true ∧ RelTargets s [(.p 0, .pos32)] (colsOf [a, b, c]) none)
    ∧ (MayIssue s [.c 5] [] [] none ∧ RelTargets s [(.p 3, .pos32)] [.c 5] none)
    ∧ (MayIssue s [.p 1, .p 2] [] [] none ∧ positionOk s.me (.p 1) = true ∧ positionOk s.me (.p 2) = true
      ∧ RelTargets s [(.p 3, .pos32)] [.p 1, .p 2] none)
    ∧ (MayIssue s [.c 3, .p 2] [] [] none ∧ RelTargets s [(.c 4, colFmt s.me (.c 3))] [.c 3, .p 2] none
      ∧ colFmt s.me (.c 4) = colFmt s.me (.c 3) ∧ (capture s s.cur (.c 4)).known = true)
    ∧ (MayIssue s [.p 1] [.lit 8] [] none ∧ (readSrc s.me (.lit 8)).toNat ≤ 2 ^ 32 - 1 ∧ RelTargets s [(.c 5, .bool1)] [.p 1] none) := by
  unfold Agree RelTargets; dsimp only; and_intros <;> first | exact listable (by decide +kernel) | decide +kernel

theorem test_premises_joins_and_sorting_issue :
    let s := formats
    let n : ColSrc := .sc (.lit 4)
    let k : ColSrc := .sc (.lit 9)
    (keyOk (colFmt s.me (.c 1)) = true ∧ MayIssue s [.c 1, .c 2] [] [] none ∧ colFmt s.me (.c 2) = colFmt s.me (.c 1)
      ∧ RelTargets s [(.p 14, .pos32), (.p (nextP 14), .pos32)] [.c 1, .c 2] none)
    ∧ (MayIssue s [.c 1] [] [] none ∧ RelTargets s [(.c 30, .n32), (.c (nextC 30), colFmt s.me (.c 1))] [.c 1] none)
    ∧ (RelTargets s [(.p 3, .pos32)] [.c 1] none ∧ MayIssue s [.c 1] [.lit 0] [] none)
    ∧ (MayIssue s (.c 1 :: colsOf [k]) (scsOf [k]) [] none ∧ Agree s (colFmt s.me (.c 1)) [.col (.c 1), k]
      ∧ RelTargets s [(.p 3, .pos32)] (.c 1 :: colsOf [k]) none)
    ∧ (MayIssue s ([.c 1, .c 11] ++ colsOf [n]) (scsOf [n]) [] none ∧ positionOk s.me (.p 2) = true
      ∧ MayIssue s ([.c 3, .p 2] ++ colsOf [n]) (scsOf [n]) [] none ∧ (readSrc s.me (.lit 4)).toNat ≤ 2 ^ 32 - 1
      ∧ RelTargets s [(.c 20, .n64)] ([.c 3, .p 2] ++ colsOf [n]) none ∧ redOk (colFmt s.me (.c 3)) = true
      ∧ RelTargets s [(.c 20, redFmt (colFmt s.me (.c 3)))] ([.c 3, .p 2] ++ colsOf [n]) none
      ∧ RelTargets s [(.c 20, colFmt s.me (.c 3))] ([.c 3, .p 2] ++ colsOf [n]) none
      ∧ readLen s (.c 11) = some 8) := by
  unfold Agree RelTargets; dsimp only; and_intros <;> first | exact listable (by decide +kernel) | decide +kernel

/-! ## Premises met: buffers, copies, the matrix array, exact reductions -/

def withCore (f : Core → Core) (s : State) : State := { s with cores := [(0, f Core.reset)] }

/-- The executing context with an access of an engine outstanding: a release leaves the core and waits at its home (R279). -/
def busy (s : State) : State := s.setMe { s.me with locks := [{ seq := 0, ranges := [] }] }

/-- Buffer entries: 0 free and empty, 1 free of 4 KiB in the SRF, 2 claimed by context 0, 3 full and in use, 4 of partition 1, 5 a stream
entry that column 7 reads. -/
def buffers : State :=
  let e : BufEntry := { BufEntry.reset with size := 16 }
  let st : Stream := { ctx := 0, seq := 0, ph := 0, pol := 0, base := 0x40000, stride := 1, fmt := .f32, mfmt := none, total := 0, strip := 1024
                       start := 0, next := 0, fault := none }
  withCore (fun k => { k with
    poolw := 0x4424
    bufs := ((((k.bufs.set 1 { e with base := 0x10000 }).set 2 { e with base := 0x10010, st := .filling, clm := true, filler := some 0 }).set 3
      { e with base := 0x10020, st := .full, uses := 511 }).set 4 { e with base := 0x10030, part := 1 }).set 31
      { e with base := 0x10040, strm := true, auto := true, creg := 7, stream := some st } })
    (task (withS [(1, 0x20000), (2, 0x40000), (3, 4096), (4, 0x01FFFFFF01000000), (5, 0x01FFFFFF00000000), (6, 65536), (7, 32), (8, 0x80001)
        , (9, 1 * 2 ^ 20)]
      ∘ withCols [(.c 7, { colAt .f32 0 0 0 with strm := true, buf := 31 })] ∘ fun c => { c with bb := c.bb.set 14 0x40001 }))

/-- An entry that is as a wait asks, or not; a range of the SRF and the whole scratchpad; a claimed and a full entry; the misuses. -/
theorem test_premises_buffer_instructions :
    let s := buffers
    let e := fun (b : BReg) => getBuf s (coreOf s.cur) b
    (s.me.parked = none ∧ s.me.window.length < 8 ∧ (∀ b ∈ ([1, 2, 3, 31] : List BReg), bufPending s.me b = false) ∧ Quiet s ∧ OwnEntry s (e 1)
      ∧ bufMatches false (e 1).st = true ∧ bufMatches true (e 1).st = false ∧ FlagsReady s [15]
      ∧ Claims.Ready s [] [63] ∧ OwnEntry s (e 3) ∧ (e 3).uses < 512 ∧ (e 3).size < 65536 ∧ (e 3).base < 2 ^ 17)
    ∧ (Claims.Ready s [.s 4, .s 3] [] ∧ (e 1).strm = false ∧ (e 1).st = .free ∧ (e 1).uses = 0 ∧ bufWaited s (coreOf s.cur) 1 = false
      ∧ (readSrc s.me (.s 4)).toNat % 256 = 0 ∧ (readSrc s.me (.s 3)).toNat % 256 = 0 ∧ readSrc s.me (.s 3) ≠ 0
      ∧ InPool (s.core (coreOf s.cur)) (readSrc s.me (.s 4)).toNat (readSrc s.me (.s 3)).toNat)
    ∧ (Claims.Ready s [.s 5, .s 6] [] ∧ InPool (s.core (coreOf s.cur)) (readSrc s.me (.s 5)).toNat (readSrc s.me (.s 6)).toNat)
    ∧ (OwnEntry s (e 2) ∧ (e 2).strm = false ∧ (e 2).size ≠ 0 ∧ (e 2).st = .filling ∧ (e 2).clm = true)
    ∧ ((e 3).strm = false ∧ (e 3).size ≠ 0 ∧ (e 3).st = .full)
    ∧ (let u := busy s
       let d := fun (b : BReg) => getBuf u (coreOf u.cur) b
       enginesQuiet u u.cur = false ∧ u.me.parked = none ∧ u.me.window.length < 8 ∧ OwnEntry u (d 2) ∧ OwnEntry u (d 3) ∧ (d 2).strm = false
       ∧ (d 2).size ≠ 0 ∧ bufPending u.me 2 = false ∧ (d 2).st = .filling ∧ (d 2).clm = true ∧ (d 3).strm = false ∧ (d 3).size ≠ 0
       ∧ bufPending u.me 3 = false ∧ (d 3).st = .full)
    ∧ (s.me.run = .running ∧ s.me.stopping = false ∧ (∀ x ∈ s.me.window, bufNeeds s.me x = []) ∧ mayFill s s.cur 1 s.cycle = true)
    ∧ NothingHeld s ∧ ((e 4).size ≠ 0 ∧ (e 4).part ≠ s.me.part) ∧ ((e 0).size = 0) ∧ ((e 31).part = s.me.part ∧ (e 31).strm = true)
    ∧ ¬ ((e 1).st = .filling ∧ (e 1).clm = true) ∧ (e 1).st ≠ .full := by
  unfold OwnEntry FlagsReady Claims.Ready InPool NothingHeld Quiet; dsimp only; and_intros <;> decide +kernel

theorem test_premises_streams_bind_and_end :
    let s := buffers
    let e := getBuf s (coreOf s.cur) 1
    (s.me.parked = none ∧ s.me.window.length < 8 ∧ s.me.locks.length < 16 ∧ Quiet s ∧ bufPending s.me 1 = false ∧ Claims.Ready s [.s 2, .lit 1] [] ∧ columnUsed s.me (.c 1) = false ∧ OwnEntry s e ∧ packed .f32 = false
      ∧ 0x1000000 ≤ 256 * e.base ∧ 2048 * e.size / fmtBits .f32 ≠ 0 ∧ e.st = .free ∧ e.uses = 0 ∧ e.stream = none
      ∧ (getCol s.me (.c 1)).strm = false)
    ∧ ((getCol s.me (.c 7)).strm = true ∧ columnUsed s.me (.c 7) = false ∧ (getBuf s (coreOf s.cur) (getCol s.me (.c 7)).buf).st = .free
      ∧ (getBuf s (coreOf s.cur) (getCol s.me (.c 7)).buf).creg = 7
      ∧ (getBuf s (coreOf s.cur) (getCol s.me (.c 7)).buf).stream.map (·.ctx) = some s.cur) := by
  unfold Claims.Ready OwnEntry Quiet; dsimp only; and_intros <;> decide +kernel

/-- The three buffer modes and a binding; then each check that refuses, in its order. -/
theorem test_premises_copies_issue :
    let s := buffers
    let p := policyOf s.me 0
    let n : Word := 4096
    (MayIssue s [] [.s 1, .s 2] [3, 0] none ∧ getS s.me 3 = n ∧ CopyOk s p n 0x20000 0x40000 (some 14) { mode := 0, handle := 0 }
      ∧ CopyOk s p n 0 0x40000 none { mode := 1, handle := 2 } ∧ CopyOk s p n 0x20000 0 none { mode := 2, handle := 3 }
      ∧ CopyOk s p 0 0x20000 0x20000 none { mode := 0, handle := 0 })
    ∧ (MayIssue s [] [.s 5] [6, 0] none ∧ polBad p = false ∧ (readSrc s.me (.s 5)).toNat % 4096 = 0 ∧ (getS s.me 6).toNat % 4096 = 0
      ∧ InPool (s.core (coreOf s.cur)) (readSrc s.me (.s 5)).toNat (getS s.me 6).toNat ∧ s.me.bb[(14 : Fin 15)].toNat % 2 = 1)
    ∧ (NothingHeld s ∧ polBad (policyOf s.me 9) = true ∧ (readSrc s.me (.s 8)).toNat % 32 ≠ 0 ∧ (readSrc s.me (.s 8)).toNat % 4096 ≠ 0)
    ∧ ((32 : Nat) + 4096 > 256 * (getBuf s (coreOf s.cur) 2).size ∧ (getBuf s (coreOf s.cur) 4).part ≠ s.me.part
      ∧ OwnEntry s (getBuf s (coreOf s.cur) 31) ∧ (getBuf s (coreOf s.cur) 31).strm = true ∧ (getBuf s (coreOf s.cur) 0).size = 0
      ∧ ¬ InPool (s.core (coreOf s.cur)) (readSrc s.me (.s 2)).toNat 4096) := by
  unfold CopyOk InPool NothingHeld OwnEntry copyDst copySrc; dsimp only; and_intros <;> first | exact listable (by decide +kernel) | decide +kernel

/-- A context with row groups 0 and 1, an active plane of f16 weights and a shadow plane, on a core with accumulator storage. -/
def matrix : State :=
  let plane : Plane := { fmt := .f16, mode := 0, rows := [], scales := [] }
  withCore (fun k => { k with poolw := 0x5004 })
    (task ((fun c => { c with gmask := 3, active := some plane, shadow := some plane, vl := 4 })
      ∘ withCols [(.c 3, colAt .v256 4 0 8), (.c 7, colAt .ue8m0 8 1 8), (.c 8, colAt .f32 8 2 8)]))

def matrixMx : State :=
  matrix.setMe { matrix.me with active := some { fmt := .e4m3, mode := 1, rows := [], scales := [] } }

theorem test_premises_matrix_instructions :
    let s := matrix
    let c := s.me
    (c.window.length < 8 ∧ matrixBusy c = false ∧ c.gmask ≠ 0 ∧ c.shadow = some { fmt := .f16, mode := 0, rows := [], scales := [] })
    ∧ (matrixBusy formats.me = false ∧ hazard formats.me [.lit 8] [] = false ∧ formats.me.gmask = 0 ∧ readSrc formats.me (.lit 8) ≠ 0
      ∧ (readSrc formats.me (.lit 8)).toNat ≤ 8 ∧ coreAttached formats formats.cur = false
      ∧ poolAcs (formats.core (coreOf formats.cur)).poolw ≠ 0 ∧ freeGroups formats (clusterOf formats.cur) ≠ [])
    ∧ (∀ k ∈ c.window, usesAcc k 3 = false)
    ∧ (MayIssue s (colsOf [.col (.c 3)]) [] [] none ∧ grantCount c ≠ 0 ∧ s.phase ≠ 3
      ∧ MayIssue s (colsOf [.col (.c 3)] ++ [.c 7]) [] [] none ∧ colFmt c (.c 3) = .v256 ∧ colFmt c (.c 7) = .ue8m0)
    ∧ (c.active = some { fmt := .f16, mode := 0, rows := [], scales := [] } ∧ c.acc[(0 : AReg)].working.tag = tileTag .f16 0
      ∧ MayIssue s [.c 3] [.lit 0] [] none)
    ∧ (matrixMx.me.active = some { fmt := .e4m3, mode := 1, rows := [], scales := [] } ∧ matrixMx.me.acc[(0 : AReg)].working.tag = tileTag .e4m3 1
      ∧ MayIssue matrixMx [.c 3, .c 7] [.lit 0] [] none)
    ∧ (MayIssue s [] [.lit 0, .lit 0] [] none ∧ (getCol c (.c 8)).strm = false ∧ sameWidth (colFmt c (.c 8)) .f32 = true
      ∧ c.acc[(0 : AReg)].visible.tag = .f32
      ∧ (readSrc c (.lit 0)).toNat + c.vl.toNat ≤ 64 * poolAcs (s.core (coreOf s.cur)).poolw / grantCount c) := by
  dsimp only; and_intros <;> first | exact listable (by decide +kernel) | decide +kernel

theorem test_tiles : TileOk .f16 0 ∧ TileOk .e4m3 1 ∧ TileOk .i8 2 ∧ TileOk .tern5 0 ∧ ¬ TileOk .i8 1 := by
  unfold TileOk; decide

theorem test_premises_exact_reductions_issue :
    let s := formats
    (MayIssue s [.c 3] [.s 4] [] none ∧ colFmt s.me (.c 3) = .f32 ∧ MayIssue s [.c 1] [.s 4] [] none ∧ isInteger (colFmt s.me (.c 1)) = true)
    ∧ (MayIssue s [] [.s 4, .lit 0] [] none ∧ (readSrc s.me (.lit 0)).toNat ≤ 2 ^ 32 - 1 ∧ (getCol s.me (.c 3)).strm = false) := by
  dsimp only; and_intros <;> first | exact listable (by decide +kernel) | decide +kernel

/-! ## Premises met: scalar memory and fences -/

/-- The result of an access is ok, and `p` holds of it. -/
def okAnd {α : Type} (x : Acc α) (p : α → State → Bool) : Bool := match x with | .ok v u => p v u | _ => false

/-- A machine whose partition 0 maps the first 64 GiB to themselves, context 0 running as `f` makes it. -/
def mapped (f : Ctx → Ctx) : State :=
  let s := State.reset.withFetchWord 64 0x8238000000000000
  s.setCtx 0 (f (s.ctx 0))

/-- One piece of memory, unpoisoned, at the address itself. -/
def plainPiece (a n : Nat) (ps : List Piece) (u : State) : Bool :=
  match ps with
  | [x] => x.at_ == 0 && x.len == n && x.va == a && !u.me.chk && !u.me.fenced
    && (match x.place with | .mem pa _ => pa == a && !u.poisoned pa n && !u.writeMeets pa n && (lineBytes u pa n).length == n | _ => false)
  | _ => false

/-- Where no release has marked a sector. -/
theorem unmarked_none {s : State} {a n : Nat} (h : s.syncBad = []) : Unmarked s a n := fun _ _ _ _ _ => by rw [h]; rfl

/-- Addresses at the edges: the last byte of the scratchpad, the first of the SRF, bytes of memory, the first outside the space. -/
def scalars : State :=
  withCore (fun k => { k with poolw := 0x4424, spd := [(0xFFFF, 0x80)] })
    (mapped (withS [(1, 0x01FFFFFF0000FFFF), (2, 0x01FFFFFF01000000), (3, 0x40001), (4, 0x0200000000000000), (5, 0x0000000000000018), (6, 0x000000E0)]))

def mrefTo (r : SReg) (d : BitVec 11) (pol : SReg) : MemRef := { base := .s r, idx := .lit 0, pol := pol, disp := d }

theorem test_premises_scalar_loads :
    let s := scalars
    (Claims.Ready s [.s 1, .lit 0] [63, 0] ∧ polBad (policyOf s.me 0) = false ∧ polRel (policyOf s.me 0) = false
      ∧ (ea s (mrefTo 1 0 0) 1).toNat % 1 = 0 ∧ scalarWaits s.me (ea s (mrefTo 1 0 0) 1) 1 false = false
      ∧ InPool (s.core (coreOf s.cur)) (ea s (mrefTo 1 0 0) 1).toNat 1)
    ∧ ((ea s (mrefTo 2 2047 0) 8).toNat % 8 = 0 ∧ (ea s (mrefTo 2 0 0) 8).toNat % 8 = 0
      ∧ InPool (s.core (coreOf s.cur)) (ea s (mrefTo 2 0 0) 8).toNat 8 ∧ s.me.chk = false ∧ Unmarked s (ea s (mrefTo 2 0 0) 8).toNat 8)
    ∧ (ea s (mrefTo 3 0x7FF 0) 1 = 0x40000 ∧ okAnd (resolve s (meWho s (policyOf s.me 0)) .read 0x40000 1) (plainPiece 0x40000 1) = true) := by
  unfold Claims.Ready InPool; dsimp only; and_intros <;> first | decide +kernel | exact unmarked_none rfl

theorem test_premises_scalar_stores :
    let s := scalars
    (Claims.Ready s [.s 1, .lit 0] [63, 0] ∧ polAcq (policyOf s.me 0) = false ∧ scalarWaits s.me (ea s (mrefTo 1 0 0) 1) 1 true = false
      ∧ InPool (s.core (coreOf s.cur)) (ea s (mrefTo 1 0 0) 1).toNat 1 ∧ ReleaseNow s (policyOf s.me 0) ∧ s.me.fenced = false
      ∧ (s.core (coreOf s.cur)).spd.wf = true ∧ (s.core (coreOf s.cur)).srf.wf = true)
    ∧ (okAnd (resolve s (meWho s (policyOf s.me 0)) .write 0x40008 8) (plainPiece 0x40008 8) = true ∧ polRel (policyOf s.me 0) = false) := by
  unfold Claims.Ready InPool ReleaseNow Quiet; dsimp only; and_intros <;> decide +kernel

theorem test_premises_atomics_update :
    let s := scalars
    (Claims.Ready s [.s 2, .lit 0] [62, nextS 62, 0] ∧ polBad (policyOf s.me 0) = false ∧ (ea s (mrefTo 2 0 0) 4).toNat % 4 = 0
      ∧ scalarWaits s.me (ea s (mrefTo 2 0 0) 8) 8 true = false ∧ InPool (s.core (coreOf s.cur)) (ea s (mrefTo 2 0 0) 8).toNat 8
      ∧ ReleaseNow s (policyOf s.me 0) ∧ s.me.stores = [] ∧ s.me.chk = false ∧ s.me.fenced = false
      ∧ Unmarked s (ea s (mrefTo 2 0 0) 8).toNat 8)
    ∧ (s.core (coreOf s.cur)).spd.wf = true ∧ (s.core (coreOf s.cur)).srf.wf = true := by
  unfold Claims.Ready InPool ReleaseNow Quiet; dsimp only; and_intros <;> first | decide +kernel | exact unmarked_none rfl

/-- A release on a load and an acquire on a store, a scope that does not exist, a misaligned address, the first one outside. -/
theorem test_premises_scalar_access_faults :
    let s := scalars
    NothingHeld s ∧ Claims.Ready s [.s 3, .lit 0] [62, nextS 62, 5] ∧ polRel (policyOf s.me 5) = true ∧ polAcq (policyOf s.me 5) = true
    ∧ polBad (policyOf s.me 6) = true ∧ (ea s (mrefTo 3 0 0) 8).toNat % 8 ≠ 0
    ∧ ((ea s (mrefTo 4 0 0) 8).toNat % 8 = 0 ∧ scalarWaits s.me (ea s (mrefTo 4 0 0) 8) 8 true = false
      ∧ scalarWaits s.me (ea s (mrefTo 4 0 0) 8) 8 false = false ∧ 2 ^ 57 ≤ (ea s (mrefTo 4 0 0) 8).toNat ∧ enginesQuiet s s.cur = true) := by
  unfold Claims.Ready NothingHeld; dsimp only; and_intros <;> decide +kernel

theorem test_premises_fences :
    enginesQuiet scalars scalars.cur = true ∧ enginesQuiet (task fun c => { c with locks := [{ seq := 0, ranges := [] }] }) 0 = false := by
  decide +kernel

/-! ## Premises met: handles and the key-value cache -/

/-- The settings of an image: module 7, a route to module 9. -/
def settings : ImageData :=
  { moduleNo := 7, routes := [(9, 3)], timeout := 100, quotas := [(0, 1)], savePools := [(0, 2)], shadowPool := 1, denSize := 2, finSize := 1
    reserved := 0, thermal := 100, slots := [] }

def record (gen : BitVec 17) : DenRecord := { DenRecord.reset with live := true, kind := 1, gen := gen }

/-- h1 names record 0 of den 5 of this module with all its weight, h2 a proxy record 1 of den 5 of weight 1, h3 is of module 9, h4 of
module 8, to which no route leads. Record 0 holds FIN; record 1 stands before record 0 with the weight 2^30 of it. -/
def handles : State :=
  let g := handleOf 1 false 30 7 5 0 3 0x40000 64 10
  let proxy : DenRecord := { record 4 with prx := true, ret := 2 ^ 31 - 1, held := some g }
  let s := withCore (fun k => { k with poolw := 0x4424 })
    (mapped ((fun c => { c with h := (((c.h.set 1 (handleOf 1 false 31 7 5 0 3 0x40000 64 10)).set 2 (handleOf 1 true 0 7 5 1 4 0x40000 64 10)).set 3
        (handleOf 1 false 5 9 5 0 3 0x40000 64 10)).set 4 (handleOf 1 false 5 8 5 0 3 0x40000 64 10) })
      ∘ withS [(1, 0x40000), (2, 0x01FFFFFF00000000), (3, 0x200), (4, 0x01FFFFFFFFFFFFFF), (5, 0xFFFFFFFFFFFF)]))
  { s with image := some settings, clusters := [(5, { Cluster.reset with dens := [(0, record 3), (1, proxy)] })] }

theorem test_premises_tensors_are_made :
    let s := handles
    hKind s.me.h[(0 : HReg)] = 0 ∧ (readSrc s.me (.s 3)).toNat % 256 = 0 ∧ Claims.Ready s [.s 4, .s 5, .s 3] []
    ∧ (readSrc s.me (.s 4)).toNat < 2 ^ 57 ∧ (readSrc s.me (.s 5)).toNat < 2 ^ 48 ∧ 1 ≤ (readSrc s.me (.s 5)).toNat
    ∧ (let t := withCore (fun k => { k with poolw := 0x4424
                                            spd := (Memory.put [] 0 (leBytes 8 1)).put 64 (leBytes 8 (2 ^ 40)) }) s;
       scalarWaits t.me (readSrc t.me (.s 2)) 192 false = false ∧ loadsReturned t.me.window = true ∧ t.me.chk = false ∧ InPool ((drainStores t t.cur).core (coreOf t.cur)) (readSrc t.me (.s 2)).toNat 96
       ∧ winWord ((drainStores t t.cur).core (coreOf t.cur)) (readSrc t.me (.s 2)).toNat 8 = 1
       ∧ winWord ((drainStores t t.cur).core (coreOf t.cur)) ((readSrc t.me (.s 2)).toNat + 64) 8 = 2 ^ 40) := by
  unfold Claims.Ready InPool; dsimp only; and_intros <;> decide +kernel

theorem test_premises_handle_weights :
    let s := handles
    let h := fun (r : HReg) => s.me.h[r]
    (hKind (h 1) ≠ 0 ∧ hKind (h 0) = 0 ∧ 1 ≤ hExp (h 1) ∧ hExp (h 2) = 0 ∧ hKind (h 2) ≠ 0)
    ∧ (denSize s = 2 ∧ ¬ (denRecord s (clusterOf s.cur) 1).live = true ∧ denSize formats = 0)
    ∧ (enginesQuiet s s.cur = true ∧ hMod (h 1) = moduleNo s)
    ∧ (let u := busy s; enginesQuiet u u.cur = false ∧ hKind u.me.h[(1 : HReg)] ≠ 0 ∧ Claims.Ready u [.s 3] [] ∧ (readSrc u.me (.s 3)).toNat % 256 = 0
      ∧ hPrx u.me.h[(1 : HReg)] = false)
    ∧ (hMod (h 3) ≠ moduleNo s ∧ hasRoute s (hMod (h 3)) = true) ∧ (hMod (h 4) ≠ moduleNo s ∧ hasRoute s (hMod (h 4)) = false)
    ∧ (Claims.Ready s [.s 3] [] ∧ (readSrc s.me (.s 3)).toNat % 256 = 0 ∧ hPrx (h 1) = false ∧ hPrx (h 4) = false)
    ∧ (Claims.Ready s [] [63] ∧ (denRecord s (hDen (h 1)) (hRec (h 1))).live = true) := by
  unfold Claims.Ready; dsimp only; and_intros <;> decide +kernel

theorem test_premises_exclusivity :
    let s := handles
    let h := fun (r : HReg) => s.me.h[r]
    let r := fun (x : Handle) => denRecord s (hDen x) (hRec x)
    FlagsReady s [15] ∧ (hKind (h 1) ≠ 0 ∧ hMod (h 1) = moduleNo s ∧ (r (h 1)).live = true ∧ (r (h 1)).gen = hGen (h 1) ∧ (r (h 1)).part = s.me.part)
    ∧ (2 ^ hExp (h 1) = 2 ^ 31 - (r (h 1)).ret ∧ (r (h 1)).poison = false ∧ (r (h 1)).prx = false)
    ∧ (2 ^ 5 ≠ 2 ^ 31 - (r (h 1)).ret) ∧ (hMod (h 4) ≠ moduleNo s ∧ hasRoute s (hMod (h 4)) = false)
    ∧ (hGen (h 2) = (r (h 2)).gen ∧ 2 ^ hExp (h 2) = 2 ^ 31 - (r (h 2)).ret ∧ (r (h 2)).prx = true
      ∧ (r (h 2)).held = some (handleOf 1 false 30 7 5 0 3 0x40000 64 10))
    ∧ (denRecord s 6 0).live = false := by
  unfold FlagsReady; dsimp only; and_intros <;> decide +kernel

/-- `handles` with a handle, live or not, in the first slot of the scratchpad. -/
def slotted (live : Bool) : State :=
  withCore (fun k => { k with poolw := 0x4424, spd := Memory.put [] 0 (handleBytes (setLive (handleOf 1 false 31 7 5 0 3 0x40000 64 10) live)) }) handles

theorem test_premises_handle_slots :
    (∀ v : Bool, let s := slotted v
      let u := drainStores s s.cur
      let old := winHandle (u.core (coreOf s.cur)) (readSrc s.me (.s 2)).toNat
      Claims.Ready s [.s 2] [] ∧ (readSrc s.me (.s 2)).toNat % 32 = 0 ∧ scalarWaits s.me (readSrc s.me (.s 2)) 32 true = false
      ∧ InPool (u.core (coreOf s.cur)) (readSrc s.me (.s 2)).toNat 32 ∧ PoolForm (u.core (coreOf s.cur)) ∧ hKind s.me.h[(0 : HReg)] = 0
      ∧ isLive old = v ∧ 1 ≤ hKind old ∧ hKind old ≤ 3 ∧ NothingHeld s ∧ hKind s.me.h[(1 : HReg)] ≠ 0 ∧ enginesQuiet s s.cur = true
      ∧ s.me.chk = false ∧ Unmarked u (readSrc s.me (.s 2)).toNat 32) := by
  unfold Claims.Ready InPool PoolForm NothingHeld; intro v; cases v <;> dsimp only <;> and_intros <;> first | decide +kernel | exact unmarked_none rfl

/-- A block table in the scratchpad with one block of one row, and two rows of v256 to append: the first row ends the block's row 1. -/
def tables : State :=
  let t := handleOf 1 false 31 7 5 0 3 0x01FFFFFF00000000 0 18
  let e := setLive (handleOf 3 false 31 7 5 1 4 0x01FFFFFF00001000 0 18) true
  let s := slotted true
  let s := withCore (fun k => { k with
      poolw := 0x4424
      spd := (Memory.put [] 0 (leBytes 4 1 ++ leBytes 4 1)).put 64 (handleBytes e) }) s
  let s := s.setMe { withCols [(.c 1, colAt .v256 2 0 8)] s.me with h := s.me.h.set 1 t }
  { s with clusters := [(5, { Cluster.reset with dens := [(0, record 3), (1, record 4)] })] }

theorem test_premises_rows_are_appended :
    let s := tables
    let c := (drainReleased s s.cur).core (coreOf s.cur)
    let h := s.me.h[(1 : HReg)]
    let x := getCol s.me (.c 1)
    let e := winHandle c (hBase h + 64)
    x.fmt = .v256 ∧ hKind h = 1 ∧ (∀ y ∈ s.me.window, entryWrites y (.c 1) = false) ∧ tableHeld s (tableKey h) = false
    ∧ enginesQuiet s s.cur = true ∧ (s.me.kv.map (·.row)).getD 0 = 0 ∧ x.len = 2 ∧ 0 < x.cap ∧ hBase h % 64 = 0
    ∧ winWord c (hBase h) 4 = 1 ∧ winWord c (hBase h + 4) 4 = 1 ∧ InPool c (hBase h) 96 ∧ isLive e = true
    ∧ hMod (setLive e false) = moduleNo s ∧ (denRecord s 5 1).gen = hGen (setLive e false) ∧ hDen e = 5 ∧ hRec e = 1
    ∧ 2 ^ hExp e = 2 ^ 31 - (denRecord s 5 1).ret ∧ InPool c (hBase e + 256) 256 ∧ PoolForm c ∧ s.me.chk = false
    ∧ (getCol s.me (.c 2)).len ≤ 0 := by
  unfold InPool PoolForm; dsimp only; and_intros <;> decide +kernel

/-- A table in the scratchpad; its block, of f16 rows with a shadow (GEOM 4, SHD 1), lies in HBM or in LPDDR6 at 0x80000, with a shadow or
without one. -/
def cached (hbm shadow : Bool) : State :=
  let e := setLive (handleOf 3 false 31 7 5 1 4 0x80000 0 18) true
  let s := withCore (fun k => { k with
      poolw := 0x4424
      spd := (Memory.put [] 0 (leBytes 4 1 ++ leBytes 4 1)).put 64 (handleBytes e) }) tables
  { s with
      mem := s.mem.put 0x3008 (leBytes 8 0x14440000000), inHbm := if hbm then [0x80] else [], shadows := if shadow then [(0x80, .v256)] else [] }

theorem test_premises_blocks_move_between_tiers :
    ∀ hbm shadow : Bool, let s := cached hbm shadow
      let h := s.me.h[(1 : HReg)]
      hKind h = 1 ∧ Claims.Ready s [.lit 0] [63] ∧ FlagsReady s [15] ∧ loadsReturned s.me.window = true ∧ scalarWaits s.me (BitVec.ofNat 64 (hBase h)) 64 false = false
      ∧ scalarWaits s.me (BitVec.ofNat 64 (hBase h) + 64) 32 false = false ∧ enginesQuiet s s.cur = true
      ∧ okAnd (blockOf (drainStores s s.cur) h 0) (fun x w =>
          w.cur == s.cur && x.granule == some 0x80 && w.phase != 3 && mhas w.shadows 0x80 == shadow && w.shadows.length ≤ shadowSlots w
          && !w.migs.any (fun m => m.granule == 0x80) && w.inHbm.contains 0x80 == hbm && (denRecord w 5 1).gen == hGen (setLive x.entry false)
          && okAnd (exclusiveOf w false 32 (setLive x.entry false)) (fun _ _ => true)) = true := by
  unfold Claims.Ready FlagsReady; intro hbm shadow; cases hbm <;> cases shadow <;> dsimp only <;> and_intros <;> decide +kernel

/-! ## Premises met: barriers, queues and tasks -/

/-- A barrier object at the first word of the scratchpad, and context 1 parked on it at generation 5. -/
def barred (b : Bar) : State :=
  let s := withCore (fun k => { k with poolw := 0x4424, spd := Memory.put [] 0 (leBytes 32 b.toNat) })
    (task (withS [(2, 0x01FFFFFF00000000), (3, 65536), (4, 0x01FFFFFF00000010), (5, 0x01FFFFFF01000000), (6, 0x0200000000000000)
      , (7, 0xFFFFFFFFFFFFFE)]))
  { s with ctxs := s.ctxs ++ [(1, { Ctx.reset with run := .running, parked := some (.barrier 0 true 0x01FFFFFF00000000 5 3) })] }

def bar (broken psn : Bool) (pend arr : Nat) : Bar := { broken := broken, psn := psn, pend := pend, gen := 5, exp := 3, arr := arr, rest := 0 }

/-- Arrivals from none to EXP, with and without pending bytes, broken and poisoned, the largest sum of pending bytes, every bad address. -/
theorem test_premises_barriers :
    (∀ b ∈ [bar false false 0 2, bar false false 1 2, bar false false 0 0, bar false false 0 3, bar true false 0 0, bar false true 0 0],
      let s := barred b
      BarAt (s.core (coreOf s.cur)) (readSrc s.me (.s 2)).toNat ∧ s.me.parked = none ∧ s.me.chk = false
      ∧ winBar (s.core (coreOf s.cur)) (readSrc s.me (.s 2)).toNat = b ∧ Claims.Ready s [.s 2, .lit 5] [63] ∧ FlagsReady s [15]
      ∧ enginesQuiet s s.cur = true ∧ NothingHeld s ∧ ObjectFree s (readSrc s.me (.s 2)))
    ∧ (let s := busy (barred (bar false false 0 0))
       BarAt (s.core (coreOf s.cur)) (readSrc s.me (.s 2)).toNat ∧ s.me.parked = none ∧ s.me.chk = false ∧ Claims.Ready s [.s 2, .lit 5] []
       ∧ enginesQuiet s s.cur = false ∧ ObjectFree s (readSrc s.me (.s 2)))
    ∧ (let s := barred (bar false false 1 0)
       (∀ r ∈ ([4, 5, 6] : List SReg), ObjectFree s (readSrc s.me (.s r))) ∧
       let n := fun (a : Src) => (readSrc s.me a).toNat
       n (.lit 0) = 0 ∧ n (.s 3) > 65535 ∧ 1 ≤ n (.lit 3) ∧ n (.lit 3) ≤ 65535 ∧ 1 + n (.s 7) ≤ 2 ^ 56 - 1 ∧ 2 + n (.s 7) > 2 ^ 56 - 1
       ∧ (bar false false 0 0).gen = BitVec.ofNat 32 (n (.lit 5)) ∧ (bar false false 0 0).gen ≠ BitVec.ofNat 32 (n (.lit 4))
       ∧ (s.ctx 1).parked = some (.barrier 0 true 0x01FFFFFF00000000 5 3)
       ∧ n (.s 4) % 32 ≠ 0 ∧ (n (.s 5) % 32 = 0 ∧ windowBase + 0x1000000 ≤ n (.s 5) ∧ n (.s 5) < windowBase + 0x2000000)
       ∧ n (.s 6) % 32 = 0 ∧ 2 ^ 57 ≤ n (.s 6)) := by
  unfold BarAt PoolForm Claims.Ready FlagsReady NothingHeld ObjectFree; dsimp only; constructor
  · decide +kernel
  · and_intros <;> decide +kernel

/-- Queues of core 0: identifier 1 resident with one entry, 2 with a poisoned one, 3 swapped, 4 full, 5 resident and empty; identifier 1
of core 5; a handle of another generation; a request and a reply on their way. -/
def queueWorld : State :=
  let q : HwQueue := { gen := 1, st := .resident, image := 0x40000, entries := [(7, 8, false)] }
  let op : QueueOp := { ctx := 0, handle := queueHandle 1 0 0 5, lo := 1, hi := 2, bad := false, d := 9, f := 4, reply := true, reason := 1 }
  let s := withCore (fun k => { k with
      qin := [op]
      queues := [(1, q), (2, { q with entries := [(7, 8, true)] }), (3, { q with st := .swapped }), (4, { q with entries := List.replicate 64 (1, 2, false) })
        , (5, { q with entries := [] })] })
    (task ((fun c => { c with replies := [op], pendS := [9], pendF := [4] })
      ∘ withS [(10, queueHandle 1 0 0 1), (11, queueHandle 1 0 0 2), (12, queueHandle 1 0 0 3), (13, queueHandle 1 0 0 4), (14, queueHandle 1 0 0 5)
        , (15, queueHandle 2 0 0 1), (16, queueHandle 1 0 5 1), (17, queueHandle 1 3 0 1), (18, queueHandle 1 0 0 1 + 1), (19, 0x40040)]))
  s

/-- A core whose 16 resident queues are in use; queue 200 is swapped out. -/
def residentFull : State :=
  let held := (List.range 16).map (fun n => (BitVec.ofNat 8 n, { HwQueue.reset with st := .resident }))
  withCore (fun k => { k with queues := (200, { HwQueue.reset with st := .swapped }) :: held }) (task (withS [(10, queueHandle 1 0 0 200)]))

theorem test_premises_queues :
    let s := queueWorld
    let h := fun (r : SReg) => readSrc s.me (.s r)
    let x := fun (r : SReg) => queueOf s (qCore (h r)) (qId (h r))
    (Claims.Ready s [.s 19] [1] ∧ (h 19).toNat % 64 = 0 ∧ (h 18).toNat % 64 ≠ 0 ∧ NothingHeld s ∧ (queueOf s (coreOf s.cur) 0).st = .free)
    ∧ (Claims.Ready s [.s 10, .lit 2] [2, nextS 2, 6, nextS 6] ∧ FlagsReady s [15] ∧ (h 18).toNat % 2 ^ 23 ≠ 0
      ∧ (qPart (h 17) ≠ s.me.part ∧ qGen (h 17) ≠ 0 ∧ (h 17).toNat % 2 ^ 23 = 0 ∧ qCluster (h 17) ≤ 95))
    ∧ (GoodQueue s (h 10) ∧ GoodQueue s (h 16) ∧ qCore (h 16) ≠ coreOf s.cur ∧ qCore (h 10) = coreOf s.cur ∧ enginesQuiet s s.cur = true)
    ∧ (¬ Gone (x 10) (h 10) ∧ (x 10).entries = [(7, 8, false)] ∧ ¬ Gone (x 11) (h 11) ∧ (x 11).entries = [(7, 8, true)] ∧ Gone (x 15) (h 15)
      ∧ (x 14).entries = [] ∧ (x 13).entries.length = 64)
    ∧ ((x 12).st = .swapped ∧ ¬ Gone (x 12) (h 12) ∧ residents s (coreOf s.cur) < 16 ∧ (x 10).st = .resident ∧ (readSrc s.me (.lit 3)).toNat ≥ 3
      ∧ residents residentFull 0 ≥ 16 ∧ (queueOf residentFull 0 200).st = .swapped)
    ∧ (∀ r ∈ ([10, 11, 12, 13, 14, 15] : List SReg), queuePosted s.me (h r) = false)
    ∧ (let u := busy s; GoodQueue u (readSrc u.me (.s 10)) ∧ enginesQuiet u u.cur = false ∧ Claims.Ready u [.s 10] [1, 2, nextS 2] ∧ FlagsReady u [15])
    ∧ ((s.core 0).qin.length = 1 ∧ (s.core 1).qin = [] ∧ (s.ctx 0).replies.length = 1 ∧ (s.ctx 1).replies = []) := by
  unfold Claims.Ready FlagsReady NothingHeld GoodQueue Gone; dsimp only; and_intros <;> decide +kernel

/-- A task of a node at 0x40000, with the word of `fmul c3, c1, c2` after its PC. -/
def tasked : State :=
  let s := mapped ((fun c => { c with node := some (.mem 0 0x40000) }) ∘ withS [(1, 0x40000), (2, 0x40100), (3, 0x40101), (4, 65535), (5, 0x100000000)])
  { s with mem := s.mem.put 0x10008 (leBytes 8 0x221060020040000F) }

/-- (The translation of all 256 bytes of a node rests on what the TLB still holds, log entry 14, which the kernel does not evaluate: here
that of the node's first word.) -/
theorem test_premises_tasks :
    let s := tasked
    let u := drainStores s s.cur
    (Claims.Ready s [.s 1, .lit 1] [9] ∧ (readSrc s.me (.s 1)).toNat % 256 = 0 ∧ (readSrc s.me (.s 3)).toNat % 256 ≠ 0 ∧ NothingHeld s
      ∧ enginesQuiet s s.cur = true ∧ enginesQuiet (busy s) (busy s).cur = false ∧ s.me.chk = false
      ∧ okAnd (resolve s (meWho s s.me.pold) .read 0x40000 8) (plainPiece 0x40000 8) = true)
    ∧ (readSrc s.me (.lit 0) = 0 ∧ (readSrc s.me (.s 5)).toNat > 65535 ∧ (readSrc s.me (.s 4)).toNat ≤ 65535)
    ∧ (okAnd (captureBody s.cur 1 (s.me.pc + 8) s) (fun ws _ => ws == [0x221060020040000F]) = true ∧ (readSrc s.me (.s 5)).toNat ≥ 2 ^ 32
      ∧ (readSrc s.me (.lit 129)).toNat > 128)
    ∧ (scalarWaits s.me (readSrc s.me (.s 1)) 256 true = false ∧ scalarWaits s.me (readSrc s.me (.s 2)) 256 true = false
      ∧ okAnd (resolve u (meWho u u.me.pold) .atomic 0x40000 8) (plainPiece 0x40000 8) = true)
    ∧ (formats.me.node = none ∧ s.me.node = some (.mem 0 0x40000))
    ∧ (isHandlerCtx s.cur = false ∧ s.me.window = [] ∧ s.me.pendS = [] ∧ s.me.pendF = [] ∧ u.me.failed = none)
    ∧ queueWorld.me.pendS ≠ [] ∧ isHandlerCtx 4 = true := by
  unfold Claims.Ready NothingHeld; dsimp only; and_intros <;> decide +kernel

/-! ## Premises met: frozen contexts and the system -/

def frozenRecord (cause : Nat) (async nc : Bool) (x : Nat) : List Word :=
  (BitVec.ofNat 64 (cause + async.toNat * 2 ^ 17 + nc.toNat * 2 ^ 18)) :: (List.replicate 11 0 ++ [BitVec.ofNat 64 x, 77] ++ List.replicate 50 0)

/-- Handler context 4 of core 0 executes; cap0 names context 1, frozen with the cause, cap1 names nothing, cap2 and cap3 are empty. -/
def served (cause : Nat) (async : Bool) : State :=
  { State.reset with
      cur := 4
      ctxs := [(4, withS [(1, 63), (2, 2 ^ 60), (3, 5 * 2 ^ 60 + 15), (4, 5 * 2 ^ 60 + 79), (5, 7 * 2 ^ 60 + 63), (6, 9 * 2 ^ 60), (7, 0x20000), (8, 0x20001)
            , (9, 0x0200000000000000)]
          { Ctx.reset with run := .running, pc := 0x10000, isHandler := true
                           cap := (((Ctx.reset.cap.set 0 (some { ctx := 1, ftime := 77 })).set 1 (some { ctx := 2, ftime := 5 }))) })
        , (1, { Ctx.reset with run := .frozen, pc := 0x8000, record := frozenRecord cause async true 1 })] }

theorem test_premises_frozen_contexts :
    (∀ async : Bool, let s := served 5 async
      s.me.cap[(0 : CapReg)] = some { ctx := 1, ftime := 77 } ∧ findNamed s { ctx := 1, ftime := 77 } = some (.resident 1) ∧ (s.ctx 1).run = .frozen
      ∧ capOf (s.ctx 1) = { ctx := 1, ftime := 77 } ∧ isCorrupt (s.ctx 1) = false ∧ recAsync (s.ctx 1) = async ∧ recNc (s.ctx 1) = true
      ∧ (s.ctx 1).bodyPos = none ∧ repliesDue s (.resident 1) = false)
    ∧ (let s := served 5 false
       let m := fun (r : SReg) => (readSrc s.me (.s r)).toNat
       s.me.cap[(3 : CapReg)] = none ∧ s.me.cap[(1 : CapReg)] = some { ctx := 2, ftime := 5 } ∧ findNamed s { ctx := 2, ftime := 5 } = none
       ∧ Claims.Ready s [.s 1, .s 2] [63] ∧ NothingHeld s ∧ s.me.parked = none ∧ m 1 = 63 ∧ m 2 = 2 ^ 60 ∧ m 3 = 5 * 2 ^ 60 + 15
       ∧ m 4 = 5 * 2 ^ 60 + 64 + 15 ∧ m 5 = 7 * 2 ^ 60 + 63 ∧ 9 * 2 ^ 60 ≤ m 6 ∧ enginesQuiet s s.cur = true ∧ m 7 % 8 = 0 ∧ m 7 < 2 ^ 57
       ∧ m 8 % 8 ≠ 0 ∧ 2 ^ 57 ≤ m 9)
    ∧ (isHandlerCtx formats.cur = false ∧ NothingHeld formats ∧ isHandlerCtx (served 5 false).cur = true)
    ∧ (let s : State := { State.reset with cur := 4 }
       isHandlerCtx s.cur = true ∧ (∀ j : CapReg, s.me.cap[j] = none) ∧ s.me.window = [] ∧ s.me.pendS = [] ∧ s.me.pendF = []
       ∧ enginesQuiet s s.cur = true ∧ (drainStores s s.cur).me.failed = none) := by
  unfold Claims.Ready NothingHeld; dsimp only; and_intros <;> decide +kernel

theorem test_premises_special_registers :
    (let s := formats
     Claims.Ready s [] [63] ∧ Claims.Ready s [.s 4] [] ∧ ((0x041 : Nat), (41 : Word)) ∈ srValues s ∧ allYielded s.me = true ∧ s.me.window = [] ∧ s.me.kv = none
     ∧ NothingHeld s ∧ isHandlerCtx s.cur = false)
    ∧ (let s := fullWindow
       s.me.window ≠ [] ∧ allYielded (task fun c => { c with window := [{ mkEntry .nop with dests := [{ reg := .c 1, fmt := .i32, len := none, oldLen := 0 }] }] }).me = false)
    ∧ (let s := served 5 false
       isHandlerCtx s.cur = true ∧ s.me.cap[(0 : CapReg)] = some { ctx := 1, ftime := 77 } ∧ findNamed s { ctx := 1, ftime := 77 } = some (.resident 1)) := by
  unfold Claims.Ready NothingHeld; dsimp only; and_intros <;> decide +kernel

/-- The largest values that are written, and the first that are refused. -/
theorem test_premises_special_register_writes :
    (∃ c, SrWritten formats 0x008 0xFFFFFFFF c) ∧ (∃ c, SrWritten formats 0x00A 7 c) ∧ (∃ c, SrWritten formats 0x018 0x01FFFFFFFFFFF000 c)
    ∧ (∃ c, SrWritten formats 0x019 0xFFFFFFFFFFFFFFFF c) ∧ (∃ c, SrWritten formats 0x020 0x000FFF80 c) ∧ (∃ c, SrWritten formats 0x021 0 c)
    ∧ (∃ c, SrWritten formats 0x05E 0x40001 c)
    ∧ SrRefused 0x008 0x100000000 ∧ SrRefused 0x00A 8 ∧ SrRefused 0x018 1 ∧ SrRefused 0x018 0x0200000000000000 ∧ SrRefused 0x020 0x000000A0
    ∧ SrRefused 0x021 0x100000000 ∧ SrRefused 0x05E 2 := by
  refine ⟨⟨_, .inl ⟨rfl, by decide, rfl⟩⟩, ⟨_, .inr (.inl ⟨rfl, by decide, by decide +kernel, rfl⟩)⟩
    , ⟨_, .inr (.inr (.inl ⟨rfl, by decide, by decide, by decide +kernel, by decide +kernel, rfl⟩))⟩
    , ⟨_, .inr (.inr (.inr (.inl ⟨rfl, by decide +kernel, rfl⟩)))⟩
    , ⟨_, .inr (.inr (.inr (.inr (.inl ⟨rfl, by decide, by decide, rfl⟩))))⟩, ⟨_, .inr (.inr (.inr (.inr (.inr (.inl ⟨rfl, by decide, rfl⟩)))))⟩
    , ⟨_, .inr (.inr (.inr (.inr (.inr (.inr ⟨by decide, by decide, by decide, by decide, rfl⟩)))))⟩, ?_⟩
  unfold SrRefused; and_intros <;> decide

theorem test_premises_system_instructions :
    (let s := scalars
     Claims.Ready s [] [63] ∧ s.me.window = [] ∧ s.me.locks = [] ∧ s.me.pendS = [] ∧ s.me.pendF = [] ∧ NothingHeld s ∧ s.ebrk = false ∧ s.snap = none
     ∧ enginesQuiet s s.cur = true ∧ peersOwe s = false ∧ MemForm s ∧ Claims.Ready s [.s 3] [] ∧ (readSrc s.me (.s 3)).toNat < 2 ^ 57 ∧ 2 ^ 57 ≤ (readSrc s.me (.s 4)).toNat)
    ∧ (let s := scalars
       contextQuiet (drainStores s s.cur) s.cur = true ∧ (drainStores s s.cur).me.failed = none ∧ areasFree (drainStores s s.cur) s.me.part = 0
       ∧ areasFree (drainStores handles handles.cur) handles.me.part ≠ 0)
    ∧ fullWindow.me.window ≠ [] := by
  unfold Claims.Ready NothingHeld MemForm; dsimp only; and_intros <;> decide +kernel

/-- Partition 0 with a quota of 256 bytes, register 7 holding one line of it. -/
def pinned : State :=
  { task (withS [(1, 0x40000), (2, 0x40001)]) with
      image := some { settings with quotas := [(0, 256)] }
      parts := [(0, { Partition.reset with pins := Partition.reset.pins.set 7 (some (0x80000, 1)) })] }

theorem test_premises_retention :
    let s := pinned
    let p := s.part s.me.part
    Claims.Ready s [.s 1] [] ∧ FlagsReady s [15] ∧ (readSrc s.me (.s 1)).toNat % 128 = 0 ∧ (readSrc s.me (.s 2)).toNat % 128 ≠ 0 ∧ NothingHeld s
    ∧ p.pins[(7 : Fin 8)] ≠ none ∧ p.pins[(0 : Fin 8)] = none ∧ pinnedBytes p + 128 * 1 ≤ quotaOf s s.me.part
    ∧ pinnedBytes p + 128 * 2 > quotaOf s s.me.part := by
  unfold Claims.Ready FlagsReady NothingHeld; dsimp only; and_intros <;> decide +kernel

/-- Partition 0 has a handler; the fault buffer of cluster 0 holds `n` reports, of context 1. -/
def faulty (n : Nat) : State :=
  { served 5 false with
      cur := 0
      ctxs := [(0, { Ctx.reset with run := .running, pc := 0x10000 }), (1, { Ctx.reset with run := .frozen, record := frozenRecord 5 false true 1 })]
      parts := [(0, { Partition.reset with hent := 0x20001 })], clusters := [(0, { Cluster.reset with faults := List.replicate n { ctx := 1, ftime := 77 } })] }

theorem test_premises_faults_and_handlers :
    (let s := faulty 63
     isHandlerCtx 0 = false ∧ (s.part (s.ctx 0).part).hent.toNat % 2 = 1 ∧ (s.part (s.ctx 0).part).cam.toNat / 2 ^ 0x12 % 2 = 0
     ∧ (s.cluster 0).faults.length < 64 ∧ 64 ≤ ((faulty 64).cluster 0).faults.length ∧ (s.part 1).hent.toNat % 2 = 0
     ∧ (s.part 0).cam.toNat / 2 ^ 3 % 2 = 1)
    ∧ (let s := faulty 1
       (s.cluster 0).faults = [{ ctx := 1, ftime := 77 }] ∧ findNamed s { ctx := 1, ftime := 77 } = some (.resident 1)
       ∧ capOf (s.ctx 1) = { ctx := 1, ftime := 77 } ∧ serverFor s 0 { ctx := 1, ftime := 77 } (s.ctx 1).part = some 4
       ∧ (s.part (s.ctx 1).part).frozen = false ∧ (s.cluster 5).faults = [])
    ∧ (let busy : Ctx := { Ctx.reset with run := .running }
       serverFor { faulty 1 with ctxs := [(4, busy), (12, busy), (20, busy), (28, busy)] } 0 { ctx := 1, ftime := 77 } 0 = none) := by
  dsimp only; and_intros <;> decide +kernel

theorem test_premises_memory_and_fetch_events :
    let s := tasked
    let far := task fun c => { c with pc := 0x0200000000000000 }
    let st : Bool → PendingStore := fun gone =>
      { seq := 0, pc := 0xFFF8, word := 0x8238000000000000, released := gone, va := 0x40000, pa := 0x40000, bytes := [1, 2] }
    let stores := task fun c => { c with stores := [st false] }
    (runnable s s.cur = true ∧ okAnd (nextWord s s.cur) (fun v u => v == 0x8238000000000000 && u.cur == s.cur) = true)
    ∧ (runnable far far.cur = true ∧ far.me.script = [] ∧ far.me.bodyPos = none ∧ 2 ^ 57 ≤ far.me.pc.toNat ∧ NothingHeld far)
    ∧ ((stores.ctx 0).window = [] ∧ (stores.ctx 0).stores = [st false] ∧ stores.mem.wf = true
      ∧ stores.hostMem.wf = true ∧ stores.writeMeets 0x40000 2 = false ∧ { stores with poison := [0x2000] }.writeMeets 0x40000 2 = true)
    ∧ (∀ gone : Bool, let f := task fun c => { c with failed := some (st gone), bodyPos := some 0, body := [0x8238000000000000] }
       active (f.ctx 0) = true ∧ (f.ctx 0).failed = some (st gone) ∧ (st gone).released = gone ∧ freezeWaits f 0 = false ∧ (∀ e ∈ (f.ctx 0).window, e.held = []) ∧ (f.ctx 0).kv = none
       ∧ okAnd (nextWord f 0) (fun v u => v == 0x8238000000000000 && u.ctx 0 == f.ctx 0) = true)
    ∧ ((0x40000 : Nat) / 32 ∈ { stores with poison := [0x2000] }.poison ∧ (0x40000 : Nat) / 32 ∉ stores.poison ∧ (0x50000 : Nat) / 32 ∉ stores.poison
      ∧ (0x50000 : Nat) / 32 ∉ sectorsOf (st false).pa (st false).bytes.length) := by
  unfold NothingHeld; dsimp only; and_intros <;> decide +kernel


/-! ## Premises met: engines, copies, stops, walkers -/

/-- Context 0 with one instruction in flight, and columns 1, 12 and 20 of n elements of format f in the SRF. -/
def flying (f : Fmt) (n : Nat) (e : Entry) : State :=
  withCore (fun k => { k with poolw := 0x4424 })
    (task (withCols [(.c 1, colAt f n 0 n), (.c 12, colAt f n 8 n), (.c 20, colAt f n 16 n), (.c 11, colAt .n32 n 24 n), (.p 1, colAt .pos32 0 32 n)]
      ∘ fun c => { c with window := [e], locks := [{ seq := 0, ranges := [] }] }))

def reads (r : Col) (f : Fmt) (n : Nat) : Option ColOperand := some { reg := r, fmt := f, len := n, stream := false, known := true }

def writes (r : Col) (f : Fmt) : List Dest := [{ reg := r, fmt := f, len := none, oldLen := 0 }]

/-- The part group of group 2 of 40 elements, for each of the instructions. -/
theorem test_premises_element_groups_compute :
    ∀ k : Fin 12,
      let i := (((laneForms 20 (.c 1) (.c 12) .i32 0 0)[k.val]?).map (·.1)).getD .nop
      let e : Entry := { mkEntry i with
            srcA := reads (.c 1) .i32 40, srcB := reads (.c 12) .i32 40, dests := writes (.c 20) .i32, len := 40
            next := [0, 16, 32, 48] }
      let s := flying .i32 40 e
      let j := laneNext e 2
      Alone s 0 e ∧ e.engine = .lanes ∧ isInteger .i32 = true ∧ Reads e.srcA (.c 1) .i32 40 ∧ Reads e.srcB (.c 12) .i32 40 ∧ e.srcC = none ∧ j = 32 ∧ j < e.len
      ∧ InSrf s 0 (.c 20) .i32 e.len ∧ InSrf s 0 (.c 1) .i32 e.len ∧ InSrf s 0 (.c 12) .i32 e.len ∧ NoOverlap s 0 (.c 20) (.c 1) .i32 e.len
      ∧ NoOverlap s 0 (.c 20) (.c 12) .i32 e.len
      ∧ ((laneForms 20 (.c 1) (.c 12) .i32 (colElem s 0 (.c 1) .i32 j) (colElem s 0 (.c 12) .i32 j))[k.val]?).map (·.1) = some e.instr := by
  unfold Alone Reads InSrf NoOverlap; decide +kernel

/-- The last group of a selection that has found 16; positions 0; a batch of indices 0 in the SRF; row 1 of an accumulator; an xacc that
begins at the last byte of the batch. -/
theorem test_premises_engines_advance :
    (let e : Entry := { mkEntry (.selb 1 (.c 1) none) with
            engine := .relational, phase := .stream, vs := 16, oc := 0, len := 20, fmt := .i32
            srcA := reads (.c 1) .i32 20, dests := writes (.p 1) .pos32 }
     let s := flying .i32 20 e
     Alone s 0 e ∧ e.vs < e.len ∧ Reads e.srcA (.c 1) .i32 20 ∧ e.srcB = none ∧ e.srcC = none ∧ InSrf s 0 (.c 1) .i32 e.len ∧ InSrf s 0 (.p 1) .pos32 (e.oc + 4))
    ∧ (let e : Entry := { mkEntry (.prj 20 (.c 1) (.c 11)) with
            engine := .relational, phase := .stream, vs := 0, oc := 0, len := 20, fmt := .i32
            srcA := reads (.c 1) .i32 20, srcB := reads (.c 11) .n32 20
            dests := writes (.c 20) .i32 }
       let s := flying .i32 20 e
       Alone s 0 e ∧ e.srcC = none ∧ Reads e.srcA (.c 1) .i32 20 ∧ Reads e.srcB (.c 11) .n32 20 ∧ InSrf s 0 (.c 1) .i32 20 ∧ InSrf s 0 (.c 11) .n32 20
       ∧ InSrf s 0 (.c 20) .i32 20 ∧ ∀ j, j < 16 → colElem s 0 (.c 11) .n32 j < 20)
    ∧ (let e : Entry := { mkEntry (.gath 20 (.s 4) (.c 11) 0 none 0) with
            engine := .slice, vs := 0, len := 20, fmt := .i32, mfmt := some .i32
            admitted := true, opA := 0x01FFFFFF01000000
            srcB := reads (.c 11) .n32 20, dests := writes (.c 20) .i32 }
       let s := flying .i32 20 e
       Alone s 0 e ∧ e.srcA = none ∧ e.srcC = none ∧ Reads e.srcB (.c 11) .n32 20 ∧ InSrf s 0 (.c 11) .n32 20 ∧ InSrf s 0 (.c 20) .i32 20
       ∧ ∀ j, j < 20 → (e.opA + BitVec.ofInt 64 (((0 : BitVec 11).toInt + colElem s 0 (.c 11) .n32 j) * (4 : Nat))).toNat % 4 = 0
          ∧ InPool (s.core 0) (e.opA + BitVec.ofInt 64 (((0 : BitVec 11).toInt + colElem s 0 (.c 11) .n32 j) * (4 : Nat))).toNat 4)
    ∧ (let e : Entry := { mkEntry (.macrd 20 0 (.lit 0) (.lit 0) .f32) with
            engine := .matrix, vs := 1, len := 2, opB := 0, opC := 4 * 2 ^ 16, fmt := .f32
            dests := writes (.c 20) .f32 }
       let s := flying .f32 8 e
       Alone s 0 e ∧ e.srcA = none ∧ e.srcB = none ∧ e.srcC = none ∧ ((s.ctx 0).acc[(0 : AReg)]).visible.tag = .f32 ∧ e.opC.toNat / 2 ^ 16 % 2 ^ 9 = 4 ∧ InSrf s 0 (.c 20) .f32 ((e.vs + 1) * 4))
    ∧ (let e : Entry := { mkEntry (.xclr (.s 4) (.lit 7)) with engine := .exact, vs := 240, len := 7, opA := 0x01FFFFFF00000010 }
       let s := flying .i32 8 e
       Alone s 0 e ∧ e.srcA = none ∧ e.srcB = none ∧ e.srcC = none ∧ (s.core 0).spd.wf = true ∧ (e.vs + 47) / 48 = 5 ∧ min ((e.vs + 256 + 47) / 48) e.len = 7 ∧ e.opA.toNat % 16 = 0
       ∧ InPool (s.core 0) (e.opA.toNat + 48 * 5) (48 * (7 - 5))) := by
  unfold Alone Reads InSrf InPool; dsimp only; and_intros <;> decide +kernel

/-- A copy of 4,096 bytes within the scratchpad; the last strip, one element, of a stream of the scratchpad; a claim of a free entry. -/
theorem test_premises_copies_strips_and_claims_advance :
    (let e : Entry := { mkEntry (.cpy 0 (.s 1) (.s 2) 0 none { mode := 0, handle := 0 }) with
                         engine := .stream, len := 4096, opA := 0x01FFFFFF00001000, opB := 0x01FFFFFF00002000 }
     let s := flying .i32 8 e
     PoolForm (s.core 0) ∧ Alone s 0 e ∧ InPool (s.core 0) e.opA.toNat 4096 ∧ InPool (s.core 0) e.opB.toNat 4096)
    ∧ (let st : Stream := { ctx := 0, seq := 0, ph := 0, pol := 0, base := 0x01FFFFFF00000000, stride := 1, fmt := .i32, mfmt := some .i32
                            total := 33, strip := 32, start := 32, next := 32, fault := none }
       let s := withCore (fun k => { k with
         poolw := 0x4424
         bufs := k.bufs.set 3 { BufEntry.reset with size := 1, base := 0x10000, strm := true, stream := some st } }) (task id)
       let B := getBuf s 0 3
       PoolForm (s.core 0) ∧ B.stream = some st ∧ B.st = .free ∧ B.uses = 0 ∧ (s.ctx 0).run = .running ∧ (s.ctx 0).stopping = false
       ∧ (s.ctx 0).chk = false ∧ (s.ctx 0).stores = [] ∧ fillWaits (s.ctx 0) st = false ∧ lockRoom (s.ctx 0) st = true
       ∧ quietBefore (s.ctx 0) st.seq = true ∧ (0x01FFFFFF00000080 : Word) = st.base + BitVec.ofInt 64 (((st.start : Nat) : Int) * st.stride.toInt * (4 : Nat))
       ∧ InPool (s.core 0) 0x01FFFFFF00000080 4 ∧ 256 * B.base + 4 ≤ 0x1000000 + poolSrf (s.core 0).poolw * 65536)
    ∧ (let s := task fun c => { c with parked := some (.admission 1 9) }
       (s.ctx 0).run = .running ∧ (s.ctx 0).window = [] ∧ (s.ctx 0).parked = some (.admission 1 9) ∧ enginesQuiet s 0 = true
       ∧ (s.ctx 0).stores = [] ∧ (getBuf s 0 1).st = .free
       ∧ (getBuf s 0 1).uses = 0 ∧ ∀ n < 5, ctxOn 0 n ≠ 0 → (s.ctx (ctxOn 0 n)).window = [] ∧ (s.ctx (ctxOn 0 n)).parked = none) := by
  unfold Alone PoolForm InPool; dsimp only; and_intros <;> decide +kernel

def aRequest (tag : Word) (kind : RequestKind) : Request :=
  { tag := tag, ctx := 1, va := 0, pte := 0, key := (0, 0, 0), kind := kind, resent := 3, st := .waiting
    flit := flitSeal { type := 2, dest := 9, src := 7, part := 0, tag := tag, addr := 0x40000, len := 8, opc := 0, inline := leBytes 8 1, check := 0 } }

/-- A stop of contexts 0, 1 and 2, of which `r` is the oldest since cycle 4: the last cycle at which it waits for its replies, and the
next. -/
def stopped (cycle : Word) (reqs : List Request) : State :=
  { State.reset with
      cycle := cycle, reqs := reqs, image := some settings, mstat := 2 ^ 63
      ctxs := [(0, { Ctx.reset with run := .running, stopping := true }), (1, { Ctx.reset with run := .frozen, stopping := true, part := 1 })]
      stops := [{ targets := [0, 1, 2], byCmd := true, freezes := none, since := 4 }] }

theorem test_premises_stops_complete :
    (let s := stopped 4100 [aRequest 5 .write, aRequest 6 .read]
     s.stops = [] ++ { targets := [0, 1, 2], byCmd := true, freezes := none, since := 4 } :: []
     ∧ (4 : Word).toNat + 4096 ≤ s.cycle.toNat ∧ (∀ q ∈ s.reqs, Awaited { targets := [0, 1, 2], byCmd := true, freezes := none, since := 4 } q)
     ∧ (∃ x ∈ ([0, 1, 2] : List CtxId), contextQuiet s x = false))
    ∧ MemForm (stopped 4099 [])
    ∧ (let s := stopped 4099 [aRequest 5 .write]
       ∀ p ∈ s.stops, s.cycle.toNat < p.since.toNat + 4096 ∧ ∃ x ∈ p.targets, contextQuiet s x = false)
    ∧ (∀ p ∈ (stopped 4099 []).stops, (stopped 4099 []).cycle.toNat < p.since.toNat + 4096)
    ∧ (let s := stopped 4099 []
       (∀ x ∈ ([0, 1, 2] : List CtxId), contextQuiet s x = true) ∧ ([0, 1, 2] : List CtxId).Nodup
       ∧ (s.ctx 0).run ≠ .idle ∧ (s.ctx 2).run = .idle) := by
  unfold Awaited MemForm; dsimp only; and_intros <;> decide +kernel

/-- A request of context 1 is on its way: what its frozen context holds, and a removed translation, wait for it. -/
theorem test_premises_replies_are_awaited :
    (let s := { served 5 false with reqs := [aRequest 5 .read] }
     repliesDue s (.resident 1) = true ∧ s.me.cap[(0 : CapReg)] = some { ctx := 1, ftime := 77 }
     ∧ findNamed s { ctx := 1, ftime := 77 } = some (.resident 1) ∧ isCorrupt (s.ctx 1) = false ∧ s.me.parked = none
     ∧ Claims.Ready s [.s 1, .s 2] [63])
    ∧ (let s := { scalars with reqs := [aRequest 5 .read] }
       peersOwe s = true ∧ enginesQuiet s s.cur = true) := by
  unfold Claims.Ready; dsimp only; and_intros <;> decide +kernel

/-- Cluster 0 with a node in its finaliser area: words 0 and 4 as given, in the lists as given. -/
def walking (w0 w4 : Word) (armed leasing decs : List NodeRef) : State :=
  let ws := (((List.replicate 35 (0 : Word)).set 0 w0).set 4 w4).set 1 0x20000
  { State.reset with
      clusters := [(0, { Cluster.reset with finArea := [(0, { part := 0, words := ws, poison := false, clock := [] })]
                                            armed := armed, leasing := leasing, decs := decs })] }

/-- A node in memory with an empty kind, and core 0 with it in its ready queue; core 1 idle, and asking core 0. -/
def launching : State :=
  let s := mapped fun c => { c with run := .idle }
  let r : Machine.Ready := { node := .mem 0 0x40000, part := 0, pool := 0x5004, clAny := true, coreAny := true }
  { s with
      mem := (s.mem.put 0x40008 (leBytes 8 0x20000)).put 0x40020 (leBytes 8 (withState 0 3 0).toNat)
      cores := [(0, { Core.reset with ready := [r, r] }), (1, { Core.reset with asks := [.core 0], idle := 255 })] }

/-- Predecessors 0, 1 and 2; a state other than armed; a frozen partition; a node for any core. -/
theorem test_premises_tasks_arm_and_launch :
    (∀ n : Fin 3, ∀ st ∈ ([1, 4] : List Nat),
      let s := walking (BitVec.ofNat 64 (n.val * 2 ^ 16)) (withState 0 st 0) [.fin 0 0] [] [.fin 0 0]
      (s.cluster 0).decs = .fin 0 0 :: []
      ∧ okAnd (nodeWord (s.modCluster 0 (fun c => { c with decs := [] })) 0 (.fin 0 0) 0) (fun w p => nPred w == n.val
          && okAnd (nodeWord p 0 (.fin 0 0) 4) (fun x u => stState x == st && okAnd (nodePut u 0 (.fin 0 0) 0 0) (fun _ q =>
            okAnd (nodePut q 0 (.fin 0 0) 4 0) (fun _ _ => true)))) = true)
    ∧ (let s := walking 0 (withState 0 2 0) [] [.fin 0 0] []
       (s.cluster 0).leasing = [.fin 0 0] ∧ (s.part 0).frozen = false
       ∧ okAnd (nodeWords s.draw 0 (.fin 0 0)) (fun ws u => granulesOf u (nPart (wd ws 0)) (leasesOf ws) == [] && nPart (wd ws 0) == 0
           && nChk (wd ws 0) == false && stState (wd ws 4) == 2 && okAnd (nodePut u.draw 0 (.fin 0 0) 4 (withState (wd ws 4) 3 0)) (fun _ q =>
             (q.cluster 0).leasing == [.fin 0 0])) = true
       ∧ ({ s with parts := [(0, { Partition.reset with frozen := true })] }.part 0).frozen = true
       ∧ (let t := walking 0 (withState 0 5 9) [] [.fin 0 0] []
          okAnd (nodeWords t.draw 0 (.fin 0 0)) (fun ws u => granulesOf u (nPart (wd ws 0)) (leasesOf ws) == [] && stState (wd ws 4) != 2) = true))
    ∧ (let s := launching
       let r : Machine.Ready := { node := .mem 0 0x40000, part := 0, pool := 0x5004, clAny := true, coreAny := true }
       validCore 0 = true ∧ (s.core 0).ready = [r] ++ [r] ∧ mayLaunch s 0 r = true ∧ r.pool = (s.core 0).poolw ∧ idleUser s 0 = some 0
       ∧ clusterOf 0 = coreCluster 0
       ∧ okAnd (nodeWords s (coreCluster 0) r.node) (fun ws _ => wd ws 1 == 0x20000 && wd ws 2 == 0 && wd ws 3 == 0 && nKind (wd ws 0) == 0
           && nChk (wd ws 0) == false && stState (wd ws 4) == 3) = true
       ∧ okAnd (nodeWords (s.modCore 0 (fun c => { c with ready := [r], idle := 0 })) (coreCluster 0) r.node) (fun ws _ => wd ws 1 == 0x20000) = true
       ∧ validCore 1 = true ∧ coreIdle s 1 = true ∧ coreIdle s 0 = false ∧ (s.core 1).asks = .core 0 :: [] ∧ (s.core 2).asks = []
       ∧ coreIdle s 2 = true ∧ mayLaunch s 1 r = true ∧ idleUser s 1 = some 8 ∧ r.pool = (s.core 1).poolw
       ∧ okAnd (nodeWords ((s.setCore 1 { s.core 1 with asks := [], idle := 0 }).modCore 0 (fun c => { c with ready := [r] })) (clusterOf 8) r.node)
           (fun ws _ => wd ws 1 == 0x20000) = true) := by
  dsimp only; and_intros <;> decide +kernel

/-- Contexts 0 and 1 of core 0 admitted, the slot of the cycle strict or not, for partition 0 or 1, context 1 having issued last. -/
def taking (slot : BitVec 8) : State :=
  let c : Ctx := { Ctx.reset with run := .running }
  { State.reset with
      cycle := 63, ctxs := [(0, c), (1, c)]
      cores := [(0, { Core.reset with slots := [(63, slot)], admitted := [(0, 0, true), (1, 0, false)], lastIss := [(0, 1)] })] }

theorem test_premises_contexts_take_turns :
    (∀ slot ∈ ([0x00, 0x10, 0x01, 0x11] : List (BitVec 8)), let s := taking slot
      AllAdmitted s 0 ∧ Able s 0 0 0 ∧ Able s 0 0 1 ∧ (∀ x ∈ ctxsOf 0, ¬ Able s 0 1 x) ∧ mget (s.core 0).slots (s.cycle.toNat % 64) 0 = slot
      ∧ mget (s.core 0).lastIss 0 4 = 1)
    ∧ (let c : Ctx := { Ctx.reset with run := .running }
       let slots := (3, 0) :: (List.range 64).filterMap (fun n => if n = 3 then none else some (n, 1))
       let s : State := { State.reset with
         cycle := 64, ctxs := [(0, c), (3, c)], cores := [(0, { Core.reset with slots := slots, admitted := [(0, 0, true)], waiting := [3] })] }
       (∀ x ∈ ctxsOf 0, runnable s x = true ↔ x = 0 ∨ x = 3) ∧ shareOf s 0 (s.ctx 0).part = 1 ∧ (s.core 0).admitted = [(0, 0, true)]
       ∧ (s.core 0).waiting = [3] ∧ 0 + 64 ≤ s.cycle.toNat ∧ isHandlerCtx 0 = false ∧ isHandlerCtx 3 = false ∧ (s.ctx 0).part = (s.ctx 3).part) := by
  unfold AllAdmitted Able; dsimp only; and_intros <;> decide +kernel

/-- A drop of weight 2^30 at record 0 of den 5, of which `ret` has come back. -/
def dropping (ret : Nat) (fin : Option Word) (prx : Bool) : State :=
  let h := handleOf 1 prx 30 7 5 0 3 0x40000 64 10
  let r : DenRecord := { record 3 with ret := ret, prx := prx, fin := if prx then 0 else 0x80000
                                       held := if prx then some (handleOf 1 false 29 7 5 1 4 0x40000 64 10) else none }
  { State.reset with
      image := some settings
      clusters := [(5, { Cluster.reset with dens := [(0, r)], drops := [{ handle := h, part := 0, bad := false, clock := [], fin := fin }] })] }

theorem test_premises_drops :
    (∀ p ∈ ([(2 ^ 30 - 1, none, false), (2 ^ 30, none, false), (2 ^ 30 + 1, none, false), (2 ^ 30, none, true), (0, some 0x80000, false)]
        : List (Nat × Option Word × Bool)),
      let s := dropping p.1 p.2.1 p.2.2
      ∃ d, (s.cluster 5).drops = d :: [] ∧ hDen d.handle = 5 ∧ Takes s 5 d (denRecord s 5 (hRec d.handle)) ∧ d.fin = p.2.1
        ∧ (denRecord s 5 (hRec d.handle)).ret + 2 ^ hExp d.handle = p.1 + 2 ^ 30)
    ∧ (let s := dropping 0 none false
       ∃ d, ({ s with clusters := [(5, { s.cluster 5 with dens := [(0, record 4)] })] }.cluster 5).drops = d :: [] ∧ hGen d.handle ≠ 4) := by
  unfold Takes; constructor
  · simp only [List.mem_cons, List.not_mem_nil, or_false, forall_eq_or_imp, forall_eq]
    and_intros <;> exact ⟨_, rfl, by decide +kernel⟩
  · exact ⟨_, rfl, by decide +kernel⟩

/-- A death with a template in memory; the finaliser area has one slot, free or taken. -/
theorem test_premises_finalisers_and_migrations :
    (let s := { mapped id with image := some settings, clusters := [(5, { Cluster.reset with
                 deaths := [{ part := 0, tmpl := 0x40000, base := 1, len := 2, kindFmt := 3, poison := false, clock := [] }] })] }
     (s.cluster 5).deaths = { part := 0, tmpl := 0x40000, base := 1, len := 2, kindFmt := 3, poison := false, clock := [] } :: []
     ∧ (∃ n < finSize s, mhas (s.cluster 5).finArea n = false)
     ∧ (5 : ClusterId) ∉ s.up
     ∧ okAnd (nodeWords (s.modCluster 5 (fun k => { k with deaths := [] })) 5 (.mem 0 0x40000)) (fun ws _ => ws.length == 32) = true)
    ∧ (let s := { walking 0 0 [] [] [] with image := some settings }
       ∀ n < finSize s, mhas (s.cluster 0).finArea n = true)
    ∧ (let m := fun (up : Bool) => ({ granule := 3, toHbm := up, copying := true, byKvdem := false, byKvpro := false } : Migration)
       let s : State := { State.reset with phase := 4, lsz := 0x10000, inHbm := [5], migs := [m true] }
       s.phase = 4 ∧ 4096 * 15 + 4096 ≤ s.lsz ∧ s.lsz < 4096 * 16 + 4096 ∧ (∀ x ∈ s.migs, x.granule ≠ 15) ∧ 15 ∉ s.inHbm ∧ 5 ∈ s.inHbm
       ∧ (∀ p ∈ s.cores, p.2.ready = []) ∧ (∀ p ∈ s.ctxs, p.2.leases = none) ∧ s.areas = [] ∧ m true ∈ s.migs ∧ s.poisoned (4096 * 3) 4096 = false
       ∧ { s with poison := [3 * 128] }.poisoned (4096 * 3) 4096 = true)
    ∧ (let e : Entry := { mkEntry (.btld 0 1 (.p 1) 0) with engine := .slice, pol := 3, len := 8, issueAt := 100, next := [4, 0, 0, 0]
                                                            table := List.replicate 28 0 ++ [50] }
       let s := task fun c => { c with window := [e] }
       (s.ctx 0).window = [e] ∧ polTier e.pol = 3 ∧ e.issueAt.toNat + (tableWord e 28).toNat = 150
       ∧ (List.range e.len).filter (fun i => decide (laneNext e (i / 16 % 4) ≤ i) && !e.late.contains i) = [4, 5, 6, 7]) := by
  dsimp only; and_intros <;> decide +kernel

/-! ## Premises met: peers, links, the window, bring-up -/

/-- A flit of module 9 for module 7. -/
def aFlit (type : BitVec 8) (addr : BitVec 52) (n : BitVec 32) (inl : List Byte) : Flit :=
  { type := type, dest := 7, src := 9, part := 0, tag := 5, addr := addr, len := n, opc := 1, inline := inl, check := 0 }

/-- Module 7 with a window of one page for partition 0 at 0x40000, from modules 9 to 9, with the writes as given. -/
def peers (wr : Bool) (poison : List Nat) : State :=
  let v : Word := BitVec.ofNat 64 (1 + wr.toNat * 2 + 9 * 2 ^ 20 + 9 * 2 ^ 30 + 1 * 2 ^ 40)
  { State.reset with
      image := some settings, windows := State.reset.windows.set 3 { base := 0x40, val := v }, poison := poison, mem := Memory.put [] 0x40000 [1, 2, 3] }

theorem test_premises_flits (type : BitVec 8) (addr : BitVec 52) (n : BitVec 32) (inl : List Byte) (w : Bool) (p : List Nat) :
    FreshFlit (peers w p) (flitSeal (aFlit type addr n inl)) type.toNat :=
  ⟨rfl, rfl, by simp only [flitSeal, flitOk, flitBytes]; exact beq_self_eq_true _, by simp [peers, State.reset]⟩

theorem test_premises_sealed_flits (s : State) (f : Flit) (n : Nat) (w : Bool) : Allowed s (flitSeal f) n w ↔ Allowed s f n w := Iff.rfl

/-- The last bytes of the window and those past it; a window without writes; a poisoned sector; a request served before. -/
theorem test_premises_peer_requests :
    (∀ w : Bool, ∀ p ∈ ([[], [0x2000]] : List (List Nat)), MemForm (peers w p))
    ∧ Allowed (peers true []) (aFlit 1 0x40FC0 0x40 []) 0x40 true ∧ Allowed (peers false []) (aFlit 1 0x40FC0 0x40 []) 0x40 false
    ∧ Allowed (peers true []) (aFlit 2 0x40000 0x1000 []) 0x1000 true ∧ Allowed (peers true []) (aFlit 3 0x40020 0x20 []) 0x20 true
    ∧ Allowed (peers true []) (aFlit 4 0x40030 0x30 []) 0x30 true
    ∧ ¬ Allowed (peers true []) (aFlit 1 0x40FC0 0x41 []) 0x41 false ∧ ¬ Allowed (peers false []) (aFlit 1 0x40FC0 1 []) 1 true :=
  ⟨by unfold MemForm; decide +kernel, ⟨3, by decide +kernel⟩, ⟨3, by decide +kernel⟩, ⟨3, by decide +kernel⟩, ⟨3, by decide +kernel⟩
    , ⟨3, by decide +kernel⟩, by unfold Allowed; decide +kernel, by unfold Allowed; decide +kernel⟩

theorem test_premises_peer_poison :
    (peers true [0x2000]).poisoned 0x40000 8 = true ∧ (peers true []).poisoned 0x40000 8 = false ∧ (peers true [0x2000]).writeMeets 0x40000 8 = true
    ∧ (peers true [0x2000]).writeMeets 0x40000 32 = false ∧ (AtomOp.ofCode 1).isSome = true ∧ (aFlit 3 0x40021 8 []).addr.toNat % 8 ≠ 0 := by
  decide +kernel

/-- A segment of 32 bytes and its scale byte elsewhere in the window, or outside it; an acquire of a sector that a release has marked. -/
theorem test_premises_peer_segments :
    (let s := peers true []
     let f := aFlit 2 0x40000 41 (List.replicate 32 7 ++ [9] ++ leBytes 8 0x40800)
     f.opc.toNat % 16 = 1 ∧ f.len.toNat = (List.replicate 32 (7 : Byte)).length + 9 ∧ s.writeMeets 0x40000 32 = false ∧ s.writeMeets 0x40800 1 = false
     ∧ (0x40800 : Word).toNat < 2 ^ 51 ∧ f.addr.toNat + 32 ≤ (0x40800 : Word).toNat)
    ∧ Allowed (peers true []) (aFlit 2 0x40000 41 []) 32 true ∧ Allowed (peers true []) { aFlit 2 0x40000 41 [] with addr := 0x40800 } 1 true
    ∧ ¬ Allowed (peers true []) { aFlit 2 0x40000 41 [] with addr := 0x41000 } 1 true
    ∧ ({ aFlit 2 0x40000 41 [] with opc := 0 } : Flit).opc.toNat % 16 ≠ 1
    ∧ peerMeets { peers true [] with syncBad := [0x2000] } { aFlit 1 0x40000 8 [] with opc := 10 } 8 = true
    ∧ peerMeets (peers true []) (aFlit 1 0x40000 8 []) 8 = false :=
  ⟨by dsimp only; and_intros <;> decide +kernel, ⟨3, by decide +kernel⟩, ⟨3, by decide +kernel⟩, by unfold Allowed; decide +kernel, by decide
    , by decide +kernel, by decide +kernel⟩

theorem test_premises_repeated_flit :
    { peers true [] with served := [((9, 5), .data [1])] }.served = [(((aFlit 1 0 8 []).src, (aFlit 1 0 8 []).tag), .data [1])] := rfl

/-- A record of a den with its weight outstanding, one that is gone; a request that waits, never and three times resent; a flit of another
module, with a route and without one. -/
theorem test_premises_link_questions_and_replies :
    (let s := { peers true [] with clusters := [(5, { Cluster.reset with dens := [(0, { record 3 with ret := 2 ^ 31 - 2 ^ 7 })] })] }
     let f := aFlit 0 0 0 []
     (denRecord s 5 0).live = true ∧ (denRecord s 5 0).gen = 3 ∧ (denRecord s 5 0).part = f.part
     ∧ 2 ^ 7 = 2 ^ 31 - (denRecord s 5 0).ret ∧ (denRecord s 5 0).prx = false ∧ (denRecord s 5 0).poison = false ∧ (denRecord s 5 1).live = false)
    ∧ (∀ r ∈ ([0, 2, 3] : List Nat), let q := { aRequest 5 .write with resent := r }
       q.tag = 5 ∧ q.st = .waiting ∧ q.kind ≠ .drop)
    ∧ (let f := { aFlit 1 0 8 [] with dest := 9 }
       f.dest ≠ moduleNo (peers true []) ∧ hasRoute (peers true []) f.dest = true ∧ hasRoute (peers true []) 8 = false
       ∧ (aFlit 1 0 8 []).dest = moduleNo (peers true [])) := by
  dsimp only; and_intros <;> decide +kernel

/-- A command word of partition `p` and context `x`. -/
def command (op p x scope : Nat) : Word := BitVec.ofNat 64 (op * 2 ^ 56 + p * 2 ^ 52 + x * 2 ^ 40 + scope * 2 ^ 37 + 1)

def anArea (base : Nat) (st : SaveState) (run : Run) : SaveArea :=
  { base := base, part := 0, ctx := 0, st := st, ret := true, halt := 0, saved := { Ctx.reset with run := run, pc := 0x8000 }, reqs := []
    qops := [], claims := [], streams := [], byFreeze := false, pool := 0x5004, srf := [] }

/-- Context 0 in the state `run`, and save areas, with two for partition 0. -/
def commanded (run : Run) (areas : List SaveArea) : State :=
  { State.reset with
      image := some settings, ctxs := [(0, { Ctx.reset with run := run, record := frozenRecord 5 false true 0 })], areas := areas, marg := 0x100000
      up := [0] }

/-- `commanded` with an area that lies in memory as the device has written it. -/
def sealed (a : SaveArea) : State :=
  let s := commanded .idle [a]
  let u := sealArea s a
  { s with devKey := u.devKey, mem := u.mem, hostMem := u.hostMem, poison := u.poison }

theorem test_premises_areas_verify :
    (let a := anArea 0x100000 .stopped .running
     areaGood (sealed a) a = true ∧ (sealed a).areas = [] ++ a :: [] ∧ a.base = (sealed a).marg.toNat ∧ a.part = 0 ∧ a.ret = true
     ∧ (∃ y, mayRestore (sealed a) a y = true) ∧ Starts (sealed a) (command 2 0 0 0) 2)
    ∧ (let a := anArea 0x100000 .stopped .running
       let s := { commanded .idle [a] with poison := [0x8000], parts := [(0, { Partition.reset with hent := 0x20001, cam := 0 })] }
       areaGood s a = false ∧ (∃ y, mayRestore s a y = true) ∧ (s.part 0).hent.toNat % 2 = 1 ∧ (s.part 0).cam.toNat / 2 ^ 15 % 2 = 0
       ∧ isHandlerCtx a.ctx = false ∧ MemForm s) := by
  refine ⟨⟨Sys2Proof.Laws.areaGood_seal (s := commanded .idle [anArea 0x100000 .stopped .running]) rfl rfl rfl rfl, rfl, rfl, rfl, rfl
    , ⟨0, by decide +kernel⟩, by unfold Starts; decide +kernel⟩, ?_, ⟨0, by decide +kernel⟩, rfl, rfl, rfl, by unfold MemForm; decide +kernel⟩
  have h : ({ commanded .idle [anArea 0x100000 .stopped .running] with
      poison := [0x8000], parts := [(0, { Partition.reset with hent := 0x20001, cam := 0 })] } : State).poisoned 0x100000 areaSize = true := by decide +kernel
  unfold areaGood
  rw [show (anArea 0x100000 .stopped .running).base = 0x100000 from rfl, h]; rfl

/-- Each command in a state that it acts on, and in one that it does not; a stop for which no area is free; a command while one runs. -/
theorem test_premises_commands_on_contexts :
    (∀ op : Fin 7, ∀ run ∈ ([.idle, .running, .frozen, .halted] : List Run), Starts (commanded run []) (command (op.val + 1) 0 0 0) (op.val + 1))
    ∧ (let s := commanded .running []
       (s.ctxs.map (·.1)).Nodup ∧ (s.ctx 0).run ≠ .idle
       ∧ (s.ctx 0).stopping = false ∧ validCtx 0 = true ∧ 1 ≤ areasFree s 0 ∧ areasFree { s with image := none } 0 < 1
       ∧ validCtx 0xFFF = false)
    ∧ (let s := commanded .idle [anArea 0x100000 .stopped .running]
       s.areas = [] ++ anArea 0x100000 .stopped .running :: [] ∧ s.marg.toNat = 0x100000 ∧ mayRestore s (anArea 0x100000 .stopped .running) 0 = true
       ∧ (∀ x ∈ ctxsOf 0, mayRestore (commanded .running [anArea 0x100000 .stopped .running]) (anArea 0x100000 .stopped .running) 0 = false))
    ∧ (anArea 0x100000 .stopped .running).ret = true ∧ MemForm (commanded .idle [anArea 0x100000 .stopped .running])
    ∧ (let s := { commanded .idle [] with parts := [(0, { Partition.reset with hent := 0x20001, cam := 0, frozen := true })] }
       (s.part 0).hent.toNat % 2 = 1 ∧ (s.part 0).cam.toNat / 2 ^ 15 % 2 = 0 ∧ (s.part 0).frozen = true
       ∧ (∀ r ∈ s.stops, r.freezes ≠ some 0) ∧ (commanded .idle []).areas = [] ∧ ((commanded .idle []).part 0).frozen = false
       ∧ ∃ r ∈ { s with stops := [{ targets := [], byCmd := false, freezes := some 0, since := 0 }] }.stops, r.freezes = some 0)
    ∧ { commanded .idle [] with mstat := 2 ^ 63 }.mstat.toNat / 2 ^ 63 = 1
    ∧ (∃ i, IsCommand (command 1 0 0 0) i 1) := by
  unfold Starts MemForm; dsimp only; and_intros <;> first | decide +kernel | rfl | exact ⟨.stop _, List.mem_cons_self⟩

/-- The last context of each scope, and one outside it. -/
theorem test_premises_scopes :
    let s := commanded .running []
    InScope s (command 1 0 0 0) 0 ∧ InScope s (command 1 0 7 1) 0 ∧ InScope s (command 1 0 31 2) 0 ∧ InScope s (command 1 0 0 3) 0
    ∧ InScope s (command 1 0 0 4) 0 ∧ ¬ InScope s (command 1 0 0 5) 0 ∧ ¬ InScope s (command 1 0 1 0) 0 :=
  ⟨rfl, rfl, rfl, rfl, trivial, id, fun h => Nat.noConfusion (h : (0 : Nat) = 1)⟩

/-- The values at the edges of what the commands take, and the first beyond them. -/
theorem test_premises_commands_on_registers :
    (∀ n : Fin 10, Starts (commanded .idle []) (command (n.val + 8) 0 0 2) (n.val + 8))
    ∧ validCore (coreOf 0) = true ∧ validCore (coreOf 0xFFF) = false
    ∧ (let v := fun (n : Nat) => ({ commanded .running [] with mval := BitVec.ofNat 64 n }).mval.toNat
       v 0x1F / 32 % 8 = 0 ∧ v 0x3F / 32 % 8 ≠ 0
       ∧ v 0xFFFFFFFFFFE01 / 2 ^ 52 = 0 ∧ v 0xFFFFFFFFFFE01 / 2 % 2 ^ 8 = 0 ∧ v 0x10000000000000 / 2 ^ 52 ≠ 0
       ∧ v 0x1FFFFFFFFFFFFF9 / 2 ^ 57 = 0 ∧ v 0x1FFFFFFFFFFFFF9 / 2 % 4 = 0 ∧ v 0x7FFFE / 2 ^ 19 = 0 ∧ v 0x7FFFE % 2 = 0
       ∧ v 0xFFFFFFFFFFFC0003 / 4 % 2 ^ 14 = 0 ∧ v 4 / 4 % 2 ^ 14 ≠ 0)
    ∧ (commanded .running []).snap = none ∧ ((commanded .running []).ctx 0).run ≠ .idle
    ∧ (let n : Snapshot := { ctxs := (commanded .running []).ctxs, srfs := [], slots := [] }
       { commanded .running [] with snap := some n }.snap = some n ∧ (mget n.ctxs 0 Ctx.reset).run ≠ .idle)
    ∧ ((63 : CtxId).toNat < 64 ∧ (383 : CtxId).toNat < 384 ∧ 384 ≤ (384 : CtxId).toNat)
    ∧ ({ commanded .idle [] with ctxs := [] }).ctxs = [] ∧ (clusterOf 0).toNat ≤ 95 ∧ 95 < (clusterOf 0xFFF).toNat
    ∧ (commanded .idle []).hostMem.wf = true := by
  unfold Starts; dsimp only; and_intros <;> decide +kernel

/-- No node, the largest number of nodes in a mapped page, and a run that leaves it. -/
theorem test_premises_window_registers :
    (commanded .idle []).mstat.toNat / 2 ^ 63 = 0 ∧ { commanded .idle [] with mstat := 2 ^ 63 }.mstat.toNat / 2 ^ 63 = 1
    ∧ (∃ i, IsCommand (command 8 0 0 0) i 8) ∧ (command 8 0 0 0).toNat % 2 = 1 ∧ (command 8 0 0 0).toNat / 2 ^ 56 = 8
    ∧ (let s := { mapped id with up := [0], garma := 0x40000, garmaBad := false }
       let a := s.garma.toNat
       (0 : ClusterId) ∈ s.up ∧ s.garmaBad = false ∧ { s with garmaBad := true }.garmaBad = true ∧ a / 2 ^ 8 % 2 ^ 49 * 256 = 0x40000
       ∧ (match walk s 0 0x40000 with | .leaf _ _ _ => true | _ => false) = true)
    ∧ (∀ k ∈ (mapped id).up, k.toNat ≤ 95)
    ∧ { commanded .idle [] with epin := true }.epin = true := by
  dsimp only; and_intros <;> try decide +kernel
  exact ⟨_, by simp [IsCommand]; rfl⟩

theorem test_premises_host_accesses :
    let s := { peers true [0x2001] with lsz := 0x40040 }
    (s.lsz < 0x40000 + 65 ∧ 0x40000 + 64 ≤ s.lsz ∧ (0x40000 + 32) / 32 ∈ s.poison ∧ ∀ b, b < 32 → (0x40000 + b) / 32 ∉ s.poison)
    ∧ (0x2001 ∈ s.poison ∧ 32 * 0x2001 < 0x40000 + 63 ∧ 0x40000 < 32 * 0x2001 + 32 ∧ 0x40000 + 63 < 32 * 0x2001 + 32)
    ∧ (∀ x ∈ s.poison, ¬ (32 * x < 0x40000 + 64 ∧ 0x40000 < 32 * x + 32 ∧ (32 * x < 0x40000 ∨ 0x40000 + 64 < 32 * x + 32))) ∧ MemForm s := by
  unfold MemForm; decide +kernel

theorem test_premises_bring_up :
    ({ State.reset with phase := 1 }.phase = 1 ∧ { State.reset with phase := 1 }.running = none)
    ∧ (∀ n x, ¬ Verifies ([] : List FirmwareSlot) n x)
    ∧ (let s := { handles with phase := 3, up := [], clusters := [(5, { Cluster.reset with toArm := [.mem 0 0x40000] })] }
       3 ≤ s.phase.toNat ∧ (5 : ClusterId).toNat ≤ 95 ∧ (5 : ClusterId) ∉ s.up ∧ (s.cluster 5).toArm = [.mem 0 0x40000] ∧ (s.cluster 4).toArm = []
       ∧ s.phase = 3 ∧ EnoughAreas s ∧ Holding s 0)
    ∧ (settings.slots.map (·.1)).Nodup := by
  unfold EnoughAreas Holding Verifies; and_intros <;> first | decide +kernel | (intro n x h; simp at h)

/-! ## Premises met: steps -/

/-- An event and a context first in the agenda; a fetched word, one of a script, one of a body; a failed store; an illegal word. -/
theorem test_premises_step_runs_decoded :
    (∃ i rest, { State.reset with agenda := [.event i, .run 0] }.agenda = .event i :: rest)
    ∧ (∃ x rest, { State.reset with agenda := [.run 0] }.agenda = .run x :: rest)
    ∧ (validCtx 0 = true ∧ validCtx 5 = false ∧ runnable formats 0 = true ∧ runnable formats 1 = false ∧ (formats.ctx 0).failed = none
      ∧ freezeWaits formats 0 = false)
    ∧ (let st : PendingStore := { seq := 0, pc := 0xFFF8, word := 0, released := true, va := 0x40000, pa := 0x40000, bytes := [1] }
       let s := task fun c => { c with failed := some st }
       (s.ctx 0).failed ≠ none ∧ appending (s.ctx 0) = false)
    ∧ (tasked.ctx 0).script = [] ∧ (tasked.ctx 0).bodyPos = none ∧ okAnd (fetchWord tasked 0 (tasked.ctx 0).pc) (fun w _ => w == 0x8238000000000000) = true
    ∧ okAnd (nextWord tasked 0) (fun w u => w == 0x8238000000000000 && u.cur == 0 && decide (∀ y ∈ (u.ctx 0).window, y.held = [])
        && (match decodeFor u 0 w, decodeFor u 0 0 with | .ok i, .error _ => i == .nop | _, _ => false)) = true
    ∧ (match nextWord (task fun c => { c with pc := 0x0200000000000000 }) 0 with | .fault _ _ u => u.cur == 0 | _ => false) = true := by
  and_intros <;> first | decide +kernel | exact ⟨.nop, _, rfl⟩ | exact ⟨_, _, rfl⟩

theorem test_premises_step_keeps_memory_form : MemForm State.reset ∧ MemForm tasked := by unfold MemForm; decide +kernel

theorem test_premises_decode_of_encode : Instr.WF (.add 3 (.s 1) (.lit 17)) := by decide

/-! ## Results that the spec writes out -/

/-- The value of a register after one instruction of context 0, from registers as listed. -/
def after (i : Instr) (l : List (SReg × Word)) (r : SReg) : Option Word :=
  match exec i (task (withS l)) with | .next t => some (getS t.me r) | _ => none

/-- The rows of the table of R127: div, rem, divn, remn of 7 by −2, of −7 by 2 and of −2^63 by −1. -/
theorem test_division_table :
    (after (.div 3 (.s 1) (.s 2)) [(1, 7), (2, -2)] 3 = some (-3) ∧ after (.rem 3 (.s 1) (.s 2)) [(1, 7), (2, -2)] 3 = some 1
      ∧ after (.divn 3 (.s 1) (.s 2)) [(1, 7), (2, -2)] 3 = some 0 ∧ after (.remn 3 (.s 1) (.s 2)) [(1, 7), (2, -2)] 3 = some 7)
    ∧ (after (.div 3 (.s 1) (.s 2)) [(1, -7), (2, 2)] 3 = some (-3) ∧ after (.rem 3 (.s 1) (.s 2)) [(1, -7), (2, 2)] 3 = some (-1)
      ∧ after (.divn 3 (.s 1) (.s 2)) [(1, -7), (2, 2)] 3 = some 0x7FFFFFFFFFFFFFFC ∧ after (.remn 3 (.s 1) (.s 2)) [(1, -7), (2, 2)] 3 = some 1)
    ∧ (after (.div 3 (.s 1) (.s 2)) [(1, 0x8000000000000000), (2, -1)] 3 = some 0x8000000000000000
      ∧ after (.rem 3 (.s 1) (.s 2)) [(1, 0x8000000000000000), (2, -1)] 3 = some 0
      ∧ after (.divn 3 (.s 1) (.s 2)) [(1, 0x8000000000000000), (2, -1)] 3 = some 0
      ∧ after (.remn 3 (.s 1) (.s 2)) [(1, 0x8000000000000000), (2, -1)] 3 = some 0x8000000000000000) := by decide +kernel

/-- Division by 0 freezes with cause 0x0A (R127); the record names it. (Partition 0 has a handler and its CAM is 0.) -/
theorem test_division_by_zero :
    (match exec (.rem 3 (.s 1) (.s 0)) { task (withS [(1, 7), (3, 9)]) with parts := [(0, { Partition.reset with hent := 0x20001, cam := 0 })] } with
     | .next t => t.me.run == .frozen && (recWord t.me 0).toNat % 2 ^ 8 == 0x0A && getS t.me 3 == 9 && t.me.pc == 0x10000
     | _ => false) = true := by decide +kernel

/-- The pair of R129 builds 0x0000_1234_1234_5678. -/
theorem test_ldi_ldhi :
    after (.ldi 1 305419896) [] 1 = some 0x12345678 ∧ after (.ldhi 1 9320) [(1, 0x12345678)] 1 = some 0x0000123412345678 := by decide +kernel

/-- A source that is also the destination; a shift count of 64 counts as 0 (R126); `bfi` into s0 (R128); a jump through s62 (R133). -/
theorem test_scalar_corners :
    after (.sub 1 (.s 2) (.s 1)) [(1, 3), (2, 10)] 1 = some 7 ∧ after (.shl 1 (.s 2) (.lit 64)) [(2, 10)] 1 = some 10
    ∧ after (.bfi 0 (.s 2) (.lit 0) (.lit 8)) [(2, 10)] 0 = some 0 ∧ after (.bfxn 1 (.s 2) (.lit 60) (.lit 4)) [(2, -1)] 1 = some 15
    ∧ after (.callr (.s 62)) [(62, 0x20000)] 62 = some 0x10008
    ∧ (match exec (.callr (.s 62)) (task (withS [(62, 0x20000)])) with | .next t => t.me.pc == 0x20000 | _ => false) = true := by decide +kernel

/-! ## Premises met: refusals and waits of the statements on branches, management, streams, planes and `cyc` -/

theorem test_premises_refusals :
    (let s := task fun c => { c with window := [{ mkEntry .nop with dests := [{ reg := .c 1, fmt := .i32, len := none, oldLen := 0 }] }] }
     (∃ e ∈ s.me.window, e.dests ≠ []) ∧ s.me.window ≠ [])
    ∧ (NothingHeld buffers ∧ (getCol buffers.me (.c 7)).strm = true ∧ inFlight buffers.me (.c 7) = false ∧ hazard buffers.me [.s 1] [] = false
      ∧ 2 ^ 24 - 1 < (readSrc buffers.me (.s 4)).toNat ∧ (getCol buffers.me (.c 1)).strm = false)
    ∧ (sameWidth (getCol formats.me (.c 10)).fmt .i8 = false ∧ (getCol formats.me (.c 10)).len ≠ 0 ∧ inFlight formats.me (.c 10) = false
      ∧ NothingHeld formats ∧ formats.me.gmask = 0 ∧ matrixBusy formats.me = false)
    ∧ (let s := buffers
       let e := { getBuf s 0 31 with st := .filling }
       (getCol s.me (.c 7)).buf = 31 ∧ e.st = .filling ∧ ∃ st, e.stream = some st ∧ st.fault = none) := by
  unfold NothingHeld; dsimp only; and_intros <;> decide +kernel

end
end

section
/-! PROOFS. Branches and jumps (R106, R131, R133): what each one does, case by case, a fetch outside the address space (R107), and
the statement on them assembled. -/

open Sys2Proof.Machine Sys2Proof.Claims

namespace Sys2Proof.Proofs

section
variable {i : Instr} {s : State} {a : Src} {c : Ctx} {t : Word}

/-! ## Branches -/

theorem bra_goes (s : State) (disp : BitVec 45) : Goes (.bra disp) s (Machine.target s.me.pc disp) := Laws.goes_of rfl

/-- A conditional branch: to its target when taken, else past itself. -/
theorem goes_of_choice (taken : Bool) (h : exec i s = .next (s.setMe (if taken then retireTo s.me t else retire s.me))) :
    Goes i s (if taken then t else s.me.pc + 8) := by
  cases taken with
  | true => exact Laws.goes_of h
  | false => exact Laws.goes_of h

theorem br_goes {f : FReg} (disp : BitVec 45) (neg : Bool) (h : FlagsReady s [f]) :
    Goes (.br neg f disp) s (if s.me.f[f] != neg then Machine.target s.me.pc disp else s.me.pc + 8) :=
  goes_of_choice _ (Laws.onFlags_of h _)

theorem call_links (disp : BitVec 45) (h : Ready s [] [62]) : Links (.call disp) s (Machine.target s.me.pc disp) :=
  Laws.links_of (Laws.onReady_of h _)

theorem allYielded_iff : allYielded c = true ↔ ∀ e ∈ c.window, e.dests = [] := by simp [allYielded]

theorem bryl_goes (disp : BitVec 45) (neg : Bool) (h : ∀ e ∈ s.me.window, e.dests = []) :
    Goes (.bryl neg disp) s (if (s.me.yl == 0) != neg then Machine.target s.me.pc disp else s.me.pc + 8) := by
  apply goes_of_choice
  show execBryl neg disp s = _
  rw [execBryl, allYielded_iff.2 h]
  rfl

/-- `bryl` is tried again until every earlier producer has yielded (R32). -/
theorem bryl_waits (disp : BitVec 45) (neg : Bool) (h : ∃ e ∈ s.me.window, e.dests ≠ []) : exec (.bryl neg disp) s = .next s := by
  have hy : allYielded s.me = false := by
    rw [← Bool.not_eq_true, allYielded_iff]
    push Not
    exact h
  show execBryl neg disp s = _
  rw [execBryl, hy]
  rfl

/-! ## Jumps: each is `jumpTo` once its operands are there -/

theorem exec_jr (h : Ready s [a] []) : exec (.jr a) s = jumpTo s s.me (readSrc s.me a) := Laws.onReady_of h _

theorem exec_ret (h : Ready s [] [62]) : exec .ret s = jumpTo s s.me (getS s.me 62) := Laws.onReady_of h _

theorem exec_callr (h : Ready s [a] [62]) :
    exec (.callr a) s = jumpTo s (if (readSrc s.me a).toNat ≥ 2 ^ 57 then s.me else setS s.me 62 (s.me.pc + 8)) (readSrc s.me a) :=
  Laws.onReady_of h _

theorem goes_of_jumpTo (h : exec i s = jumpTo s s.me t) (ht : t.toNat % 8 = 0) : Goes i s t :=
  Laws.goes_of (h.trans (Laws.jumpTo_aligned ht _))

theorem links_of_jumpTo (h : exec i s = jumpTo s (setS s.me 62 (s.me.pc + 8)) t) (ht : t.toNat % 8 = 0) : Links i s t :=
  Laws.links_of (h.trans (Laws.jumpTo_aligned ht _))

/-- Whatever the jump would have written, a misaligned target discards it. -/
theorem freezes_of_jumpTo (h : exec i s = jumpTo s c t) (hn : NothingHeld s) (ht : t.toNat % 8 ≠ 0) : Freezes i s 0x0B t :=
  (h.trans (Laws.jumpTo_misaligned ht c)).trans (congrArg _ (Laws.freezeHere_of hn.1 hn.2 _ _ _))

theorem callr_links (h : Ready s [a] [62]) (ht : (readSrc s.me a).toNat % 8 = 0) (hin : (readSrc s.me a).toNat < 2 ^ 57) :
    Links (.callr a) s (readSrc s.me a) := by
  have he := exec_callr h
  rw [if_neg (Nat.not_le.2 hin)] at he
  exact links_of_jumpTo he ht

/-- The link is not written where the fetch at the target faults (R133). -/
theorem callr_goes (h : Ready s [a] [62]) (ht : (readSrc s.me a).toNat % 8 = 0) (hout : (readSrc s.me a).toNat ≥ 2 ^ 57) :
    Goes (.callr a) s (readSrc s.me a) := by
  have he := exec_callr h
  rw [if_pos hout] at he
  exact goes_of_jumpTo he ht

/-! ## A fetch outside the address space -/

theorem fetchWord_outside (s : State) (x : CtxId) (h : 2 ^ 57 ≤ t.toNat) : fetchWord s x t = .fault 0x01 t s := by
  simp only [fetchWord, resolve, if_pos h, Acc.bind]

theorem nextWord_outside {x : CtxId} (hs : (s.ctx x).script = []) (hb : (s.ctx x).bodyPos = none) (h : 2 ^ 57 ≤ (s.ctx x).pc.toNat) :
    nextWord s x = .fault 0x01 (s.ctx x).pc s := by
  simp only [nextWord, hs, hb, fetchWord_outside s x h, Acc.bind]

/-- Answered requests hold no freeze back, so dropping them delays none. -/
theorem freezeWaits_clearReqs {x : CtxId} (y : CtxId) (unit lo hi : Nat) (h : freezeWaits s x = false) :
    freezeWaits (clearReqs s y unit lo hi) x = false := by
  have ⟨hm, hp⟩ := Bool.or_eq_false_iff.1 h
  refine Bool.or_eq_false_iff.2 ⟨?_, hp⟩
  rw [midGroup, List.any_eq_false] at hm ⊢
  exact fun r hr => hm r (List.mem_of_mem_filter hr)

/-- The record of a fetch fault: word 0, the PC as fault address (R107). -/
theorem fetchFault_of (hn : NothingHeld s) (cause : Nat) :
    fetchFault s cause = freeze { clearReqs s s.cur 0 (2 ^ 32) (2 ^ 64) with ir := 0 } s.cur
      { cause := cause, elem := 0, addr := s.me.pc, pc := s.me.pc, word := 0, nc := true, async := false } :=
  Laws.freezeHere_of (s := { clearReqs s s.cur 0 (2 ^ 32) (2 ^ 64) with ir := 0 }) hn.1
    (freezeWaits_clearReqs s.cur 0 (2 ^ 32) (2 ^ 64) hn.2) cause 0 s.me.pc

theorem fetch_outside_freezes (hn : NothingHeld s) (hr : runnable s s.cur = true) (hs : s.me.script = []) (hb : s.me.bodyPos = none)
    (h : 2 ^ 57 ≤ s.me.pc.toNat) :
    ∃ t, exec .instructionFetch s = .next (freeze t s.cur
      { cause := 0x01, elem := 0, addr := s.me.pc, pc := s.me.pc, word := 0, nc := true, async := false }) ∧ ∀ y, t.ctx y = s.ctx y := by
  refine ⟨{ clearReqs s s.cur 0 (2 ^ 32) (2 ^ 64) with ir := 0 }, ?_, fun _ => rfl⟩
  show execInstructionFetch s = _
  rw [execInstructionFetch, if_pos hr, instructionFetch, nextWord_outside hs hb h, ← fetchFault_of hn]

end

/-- Settles O4, from what each branch and jump does, taken and not taken, aligned and misaligned, and from the fetch of a PC
outside the address space. -/
theorem branchesAndJumps : Obligations.branches_and_jumps := by
  refine ⟨fun s f disp neg => ⟨bra_goes s disp, br_goes disp neg, call_links disp, bryl_goes disp neg, bryl_waits disp neg⟩,
    fun s a => ⟨fun h => goes_of_jumpTo (exec_jr h), fun h ht => ⟨callr_links h ht, callr_goes h ht⟩,
      fun h => goes_of_jumpTo (exec_ret h)⟩,
    fun s a hn => ⟨fun h => freezes_of_jumpTo (exec_jr h) hn, fun h => freezes_of_jumpTo (exec_callr h) hn,
      fun h => freezes_of_jumpTo (exec_ret h) hn, fetch_outside_freezes hn⟩⟩

end Sys2Proof.Proofs
end

section
/-! PROOFS. Division (R127) and bit fields (R128): the bits of the words they form, their faults, and the statement on them. -/

open Sys2Proof Sys2Proof.Machine Sys2Proof.Claims

namespace Sys2Proof.Proofs

/-! ## Bits of the words that fields form -/

theorem bitsAt_lt (v lo n : Nat) : bitsAt v lo n < 2 ^ n := Nat.mod_lt _ (Nat.two_pow_pos n)

theorem testBit_bitsAt (v lo n k : Nat) : (bitsAt v lo n).testBit k = (decide (k < n) && v.testBit (lo + k)) := by
  rw [bitsAt, Nat.testBit_mod_two_pow, Nat.testBit_div_two_pow, Nat.add_comm]

/-- A number cut at `lo` and at `lo + n`. -/
theorem eq_cut (v lo n : Nat) : v = 2 ^ lo * (2 ^ n * (v / 2 ^ lo / 2 ^ n) + bitsAt v lo n) + v % 2 ^ lo := by
  rw [bitsAt, Nat.div_add_mod, Nat.div_add_mod]

/-- What `withBits` makes of a word, as a number cut at the same places. -/
theorem withBits_cut (w : Word) (lo n v : Nat) :
    withBits w lo n v = BitVec.ofNat 64 (2 ^ lo * (2 ^ n * (w.toNat / 2 ^ lo / 2 ^ n) + v % 2 ^ n) + w.toNat % 2 ^ lo) := by
  have hcut := eq_cut w.toNat lo n
  rw [Nat.mul_add] at hcut ⊢
  rw [withBits, Nat.mul_comm (bitsAt _ _ _), Nat.mul_comm (v % _)]
  congr 1
  omega

/-- Of a word with `n` bits from `lo` replaced, these are the new ones and the others stand. -/
theorem getLsbD_withBits (w : Word) (lo n v k : Nat) (hk : k < 64) :
    (withBits w lo n v).getLsbD k = if lo ≤ k ∧ k < lo + n then v.testBit (k - lo) else w.getLsbD k := by
  have hlow : w.toNat % 2 ^ lo < 2 ^ lo := Nat.mod_lt _ (Nat.two_pow_pos lo)
  have hmid : v % 2 ^ n < 2 ^ n := Nat.mod_lt _ (Nat.two_pow_pos n)
  rw [withBits_cut, BitVec.getLsbD_ofNat, Nat.testBit_two_pow_mul_add _ hlow, Nat.testBit_two_pow_mul_add _ hmid]
  simp only [hk, decide_true, Bool.true_and, Nat.testBit_mod_two_pow, Nat.testBit_div_two_pow, BitVec.getLsbD]
  by_cases hlo : k < lo
  · simp [hlo, Nat.not_le.2 hlo]
  · have hle := Nat.not_lt.1 hlo
    by_cases hn : k - lo < n
    · have : k < lo + n := by omega
      simp [hlo, hn, hle, this]
    · have hnot : ¬ k < lo + n := by omega
      have hsum : k - lo - n + n + lo = k := by omega
      simp [hlo, hn, hnot, hsum]

/-- A field sign-extended from its top bit is a word of its width sign-extended. -/
theorem signField_eq_signExtend {v w : Nat} (hw : 1 ≤ w) (hv : v < 2 ^ w) : signField v w = (BitVec.ofNat w v).signExtend 64 := by
  obtain ⟨m, rfl⟩ : ∃ m, w = m + 1 := ⟨w - 1, by omega⟩
  have htop : v / 2 ^ m % 2 = 1 ↔ 2 ^ m ≤ v := by
    have hlt : v / 2 ^ m < 2 := Nat.div_lt_of_lt_mul (by rw [Nat.pow_succ] at hv; omega)
    rw [Nat.mod_eq_of_lt hlt, ← Nat.one_le_div_iff (Nat.two_pow_pos m)]
    omega
  rw [signField, BitVec.signExtend, BitVec.toInt_eq_toNat_cond, BitVec.toNat_ofNat, Nat.mod_eq_of_lt hv, Nat.add_sub_cancel]
  by_cases h : 2 ^ m ≤ v
  · have : ¬ 2 * v < 2 ^ (m + 1) := by rw [Nat.pow_succ]; omega
    rw [if_pos (htop.2 h), if_neg this]
    norm_cast
  · have : 2 * v < 2 ^ (m + 1) := by rw [Nat.pow_succ]; omega
    rw [if_neg (h ∘ htop.1), if_pos this, BitVec.ofInt_natCast]

theorem getLsbD_fieldOf (x : Word) (pos w k : Nat) (hk : k < 64) :
    (BitVec.ofNat 64 (fieldOf x pos w)).getLsbD k = (decide (k < w) && x.getLsbD (pos + k)) := by
  rw [BitVec.getLsbD_ofNat, fieldOf, testBit_bitsAt, decide_eq_true hk, Bool.true_and]
  rfl

/-- Past its width a sign-extended field repeats its top bit. -/
theorem getLsbD_signField (x : Word) (pos w k : Nat) (hw : 1 ≤ w) (hk : k < 64) :
    (signField (fieldOf x pos w) w).getLsbD k = x.getLsbD (pos + min k (w - 1)) := by
  have hbit : ∀ j < w, (BitVec.ofNat w (fieldOf x pos w)).getLsbD j = x.getLsbD (pos + j) := by
    intro j hj
    rw [BitVec.getLsbD_ofNat, fieldOf, testBit_bitsAt, decide_eq_true hj]
    rfl
  rw [signField_eq_signExtend hw (v := fieldOf x pos w) (bitsAt_lt _ _ _), BitVec.getLsbD_signExtend, decide_eq_true hk, Bool.true_and]
  split
  · next hlt => rw [hbit k hlt, Nat.min_eq_left (by omega)]
  · next hge => rw [BitVec.msb_eq_getLsbD_last, hbit _ (by omega), Nat.min_eq_right (by omega)]

/-! ## Values of R127 -/

theorem sdiv_eq_ofInt_tdiv (x y : Word) : x.sdiv y = BitVec.ofInt 64 (x.toInt.tdiv y.toInt) := by
  apply BitVec.eq_of_toInt_eq
  rw [BitVec.toInt_sdiv, BitVec.toInt_ofInt]

theorem srem_eq_ofInt_tmod (x y : Word) : x.srem y = BitVec.ofInt 64 (x.toInt.tmod y.toInt) := by
  rw [← BitVec.toInt_srem, BitVec.ofInt_toInt]

theorem udiv_eq_ofNat (x y : Word) : x / y = BitVec.ofNat 64 (x.toNat / y.toNat) := by
  rw [← BitVec.toNat_udiv, BitVec.ofNat_toNat, BitVec.setWidth_eq]

theorem umod_eq_ofNat (x y : Word) : x % y = BitVec.ofNat 64 (x.toNat % y.toNat) := by
  rw [← BitVec.toNat_umod, BitVec.ofNat_toNat, BitVec.setWidth_eq]

/-! ## The two shapes: a division and a bit-field instruction -/

section
variable {i : Instr} {s : State} {d : SReg} {a b c : Src}

theorem divide_gives {g : Word → Word → Word} {v : Word} (hex : exec i s = divide d a b g s) (h : Ready s [a, b] [d])
    (hb : readSrc s.me b ≠ 0) (hv : g (readSrc s.me a) (readSrc s.me b) = v) : Gives i s d v := by
  refine Laws.gives_of ((hex.trans (Laws.onReady_of h _)).trans ?_)
  rw [if_neg hb, hv]

theorem divide_freezes {g : Word → Word → Word} (hex : exec i s = divide d a b g s) (hn : NothingHeld s) (h : Ready s [a, b] [d])
    (hb : readSrc s.me b = 0) : FreezesSomewhere i s 0x0A :=
  Laws.freezes_somewhere hn _ ((hex.trans (Laws.onReady_of h _)).trans (if_pos hb))

/-- The field lies outside the word, or is empty (R128). -/
def FieldOutside (s : State) (b c : Src) : Prop :=
  (readSrc s.me b).toNat > 63 ∨ (readSrc s.me c).toNat = 0 ∨ (readSrc s.me c).toNat > 64 - (readSrc s.me b).toNat

theorem bitField_gives {g : Word → Nat → Nat → Word} (hex : exec i s = bitField d a b c g s) (h : Ready s [a, b, c] [d])
    (hin : ¬ FieldOutside s b c) : Gives i s d (g (readSrc s.me a) (readSrc s.me b).toNat (readSrc s.me c).toNat) :=
  Laws.gives_of ((hex.trans (Laws.onReady_of h _)).trans (if_neg hin))

theorem bitField_freezes {g : Word → Nat → Nat → Word} (hex : exec i s = bitField d a b c g s) (hn : NothingHeld s)
    (h : Ready s [a, b, c] [d]) (hout : FieldOutside s b c) : FreezesSomewhere i s 0x05 :=
  Laws.freezes_somewhere hn _ ((hex.trans (Laws.onReady_of h _)).trans (if_pos hout))

/-! ## The bit-field instructions -/

theorem exec_bfx (s : State) (d : SReg) (a b c : Src) :
    exec (.bfx d a b c) s = bitField d a b c (fun x pos w => signField (fieldOf x pos w) w) s := rfl

theorem exec_bfxn (s : State) (d : SReg) (a b c : Src) :
    exec (.bfxn d a b c) s = bitField d a b c (fun x pos w => BitVec.ofNat 64 (fieldOf x pos w)) s := rfl

theorem exec_bfi (s : State) (d : SReg) (a b c : Src) :
    exec (.bfi d a b c) s = bitField d a b c (fun x pos w => withBits (getS s.me d) pos w x.toNat) s := rfl

theorem bfxn_gives_field (h : Ready s [a, b, c] [d]) (hin : ¬ FieldOutside s b c) :
    ∃ v, Gives (.bfxn d a b c) s d v ∧ ∀ k < 64, v.getLsbD k =
      (decide (k < (readSrc s.me c).toNat) && (readSrc s.me a).getLsbD ((readSrc s.me b).toNat + k)) :=
  ⟨_, bitField_gives (exec_bfxn s d a b c) h hin, fun k hk => getLsbD_fieldOf _ _ _ k hk⟩

theorem bfx_gives_field (h : Ready s [a, b, c] [d]) (hin : ¬ FieldOutside s b c) (hw : 1 ≤ (readSrc s.me c).toNat) :
    ∃ v, Gives (.bfx d a b c) s d v ∧ ∀ k < 64, v.getLsbD k =
      (readSrc s.me a).getLsbD ((readSrc s.me b).toNat + min k ((readSrc s.me c).toNat - 1)) :=
  ⟨_, bitField_gives (exec_bfx s d a b c) h hin, fun k hk => getLsbD_signField _ _ _ k hw hk⟩

theorem bfi_gives_field (h : Ready s [a, b, c] [d]) (hin : ¬ FieldOutside s b c) :
    ∃ v, Gives (.bfi d a b c) s d v ∧ ∀ k < 64, v.getLsbD k =
      if (readSrc s.me b).toNat ≤ k ∧ k < (readSrc s.me b).toNat + (readSrc s.me c).toNat
        then (readSrc s.me a).getLsbD (k - (readSrc s.me b).toNat) else (getS s.me d).getLsbD k :=
  ⟨_, bitField_gives (exec_bfi s d a b c) h hin, fun k hk => getLsbD_withBits _ _ _ _ k hk⟩

end

/-- Settles O2: a division by its divisor, 0 or not; a bit field by its place, inside the word or outside. -/
theorem divisionAndBitFields : Obligations.division_and_bit_fields := by
  refine ⟨fun s d a b h hb => ⟨divide_gives rfl h hb (sdiv_eq_ofInt_tdiv _ _), divide_gives rfl h hb (srem_eq_ofInt_tmod _ _),
      divide_gives rfl h hb (udiv_eq_ofNat _ _), divide_gives rfl h hb (umod_eq_ofNat _ _)⟩, ?_, ?_⟩
  · intro s d a b c h x pos w hpos hw hfit
    have hin : ¬ FieldOutside s b c := by
      rintro (hp | hz | hl)
      · exact Nat.not_lt.2 hpos hp
      · exact Nat.ne_of_gt hw hz
      · exact Nat.not_lt.2 hfit hl
    exact ⟨bfxn_gives_field h hin, bfx_gives_field h hin hw, bfi_gives_field h hin⟩
  · intro s d a b c hn
    refine ⟨fun h hb => ⟨divide_freezes rfl hn h hb, divide_freezes rfl hn h hb, divide_freezes rfl hn h hb,
      divide_freezes rfl hn h hb⟩, fun h hout => ?_⟩
    have hout : FieldOutside s b c := hout.imp_right (Or.imp_left (congrArg BitVec.toNat))
    exact ⟨bitField_freezes (exec_bfx s d a b c) hn h hout, bitField_freezes (exec_bfxn s d a b c) hn h hout,
      bitField_freezes (exec_bfi s d a b c) hn h hout⟩

end Sys2Proof.Proofs
end

section
/-! PROOFS. Immediates (R129), comparisons, predicate logic and predicates as words (R130), and the statement on them. -/

open Sys2Proof Sys2Proof.Machine Sys2Proof.Claims

namespace Sys2Proof.Proofs

section
variable {i : Instr} {s : State} {d : SReg} {a b : Src} {f g h : FReg}

/-! ## Immediates -/

/-- An instruction on one source and its immediate writes what it computes. -/
theorem alu1_gives {e : Word → Word} (hex : exec i s = alu1 d a e s) (hr : Ready s [a] [d]) : Gives i s d (e (readSrc s.me a)) :=
  Laws.gives_of (hex.trans (Laws.exec_alu1 hr))

theorem ldi_gives (imm : BitVec 33) (hr : Ready s [] [d]) : Gives (.ldi d imm) s d (immOf imm) := Laws.gives_of (Laws.onReady_of hr _)

/-- `ldhi` puts its immediate above the low 31 bits of its register, which stand. -/
theorem ldhi_gives (imm : BitVec 33) (hr : Ready s [] [d]) :
    ∃ v, Gives (.ldhi d imm) s d v ∧ ∀ k < 64, v.getLsbD k = if k < 31 then (getS s.me d).getLsbD k else imm.getLsbD (k - 31) := by
  refine ⟨withBits (getS s.me d) 31 33 imm.toNat, Laws.gives_of (Laws.onReady_of hr _), fun k hk => ?_⟩
  rw [getLsbD_withBits _ _ _ _ k hk]
  by_cases hlow : k < 31
  · rw [if_neg (fun hin => Nat.not_le.2 hlow hin.1), if_pos hlow]
  · rw [if_pos ⟨Nat.not_lt.1 hlow, hk⟩, if_neg hlow]
    rfl

/-! ## Predicates -/

theorem scmp_sets (cc : Cond) (hr : Ready s [a, b] []) (hf : FlagsReady s [f]) :
    Sets (.scmp f a b cc) s f (condHolds cc (readSrc s.me a) (readSrc s.me b)) :=
  Laws.sets_of ((Laws.onReady_of hr _).trans (Laws.onFlags_of hf _))

theorem flog_sets (op : Logic) (hf : FlagsReady s [f, g, h]) : Sets (.flog f g h op) s f (logicOf op s.me.f[g] s.me.f[h]) :=
  Laws.sets_of (Laws.onFlags_of hf _)

theorem fset_sets (hr : Ready s [a] []) (hf : FlagsReady s [f]) : Sets (.fset f a) s f (readSrc s.me a != 0) :=
  Laws.sets_of ((Laws.onReady_of hr _).trans (Laws.onFlags_of hf _))

theorem ofNat_toNat_bool (v : Bool) : BitVec.ofNat 64 v.toNat = if v then 1 else 0 := by cases v <;> rfl

theorem ftos_gives (hr : Ready s [] [d]) (hf : FlagsReady s [g]) : Gives (.ftos d g) s d (if s.me.f[g] then 1 else 0) := by
  rw [← ofNat_toNat_bool]
  exact Laws.gives_of ((Laws.onReady_of hr _).trans (Laws.onFlags_of hf _))

end

/-- Settles O3, instruction by instruction: an immediate by its shape, a predicate by the operands it waits for. -/
theorem immediatesAndPredicates : Obligations.immediates_and_predicates := by
  refine ⟨fun s d a imm => ⟨fun hr => ?_, fun hr => ⟨ldi_gives imm hr, ldhi_gives imm hr⟩⟩, fun s a b f g h d =>
    ⟨fun hr hf cc => scmp_sets cc hr hf, fun hf op => flog_sets op hf, fset_sets, ftos_gives⟩⟩
  exact ⟨alu1_gives (e := (· + immOf imm)) rfl hr, alu1_gives (e := (· &&& immOf imm)) rfl hr,
    alu1_gives (e := (· ||| immOf imm)) rfl hr, alu1_gives (e := (· ^^^ immOf imm)) rfl hr,
    alu1_gives (e := (· <<< (imm.toNat % 64))) rfl hr, alu1_gives (e := (· >>> (imm.toNat % 64))) rfl hr,
    alu1_gives (e := fun x => x.sshiftRight (imm.toNat % 64)) rfl hr, alu1_gives (e := (· * immOf imm)) rfl hr⟩

end Sys2Proof.Proofs
end

section
/-! PROOFS. System instructions: what drains leave, the removal of translations (R370), traps and breakpoints (R347), and reads of
CYCLE (R144). -/

open Sys2Proof Sys2Proof.Machine Sys2Proof.Claims

namespace Sys2Proof.Proofs

/-! ## What drains leave: the translations, and the requests to peers -/

/-- No translation and no request differs, nor does a context's partition. -/
structure KeepsRequests (s t : State) : Prop where
  cur  : t.cur = s.cur
  tlb  : t.tlb = s.tlb
  reqs : t.reqs = s.reqs
  part : ∀ x, (t.ctx x).part = (s.ctx x).part

theorem KeepsRequests.rfl {s : State} : KeepsRequests s s := ⟨Eq.refl _, Eq.refl _, Eq.refl _, fun _ => Eq.refl _⟩

theorem KeepsRequests.trans {s t u : State} (h : KeepsRequests s t) (k : KeepsRequests t u) : KeepsRequests s u :=
  ⟨k.cur.trans h.cur, k.tlb.trans h.tlb, k.reqs.trans h.reqs, fun x => (k.part x).trans (h.part x)⟩

theorem KeepsRequests.peersOwe {s t : State} (h : KeepsRequests s t) : peersOwe t = peersOwe s := by
  simp only [Machine.peersOwe, State.me, h.reqs, h.cur, h.part]

theorem keepsRequests_setCtx {s : State} {x : CtxId} {c : Ctx} (h : c.part = (s.ctx x).part) : KeepsRequests s (s.setCtx x c) := by
  refine ⟨rfl, rfl, rfl, fun y => ?_⟩
  by_cases hxy : x = y
  · subst hxy
    rw [Laws.ctx_setCtx_same, h]
  · rw [Laws.ctx_setCtx_ne _ _ _ hxy]

theorem keepsRequests_drain (s : State) (x : CtxId) : KeepsRequests s (drainStores s x) := by
  have hd := Laws.drained s x
  obtain ⟨ss, fl, hx⟩ := hd.me
  refine ⟨Laws.drain_cur' s x, by rw [hd.rest], by rw [hd.rest], fun y => ?_⟩
  by_cases hy : y = x
  · rw [hy, hx]
  · rw [hd.other y hy]

theorem keepsRequests_markReleased (s : State) (x : CtxId) : KeepsRequests s (markReleased s x) :=
  keepsRequests_setCtx (s := s) (x := x) (c := { s.ctx x with stores := _ }) rfl

theorem keepsRequests_drainReleased (s : State) (x : CtxId) : KeepsRequests s (drainReleased s x) :=
  (keepsRequests_markReleased s x).trans (keepsRequests_drain _ x)

theorem drainReleased_stores (s : State) : (drainReleased s s.cur).me.stores = [] := by
  rw [State.me, (keepsRequests_drainReleased s s.cur).cur]
  exact Laws.drain_stores _ _ _ (le_refl _)

/-! ## The removal of translations (R370) -/

/-- A context's stores are performed if it is of the partition whose translations go. -/
def drainIn (part : PartId) (s : State) (x : CtxId) : State := if (s.ctx x).part = part then drainStores s x else s

/-- Draining any contexts keeps the requests, and the executing context where it has no store. -/
theorem foldl_drainIn (part : PartId) (xs : List CtxId) (s : State) :
    KeepsRequests s (xs.foldl (drainIn part) s) ∧ (s.me.stores = [] → (xs.foldl (drainIn part) s).me = s.me) := by
  induction xs generalizing s with
  | nil => exact ⟨.rfl, fun _ => rfl⟩
  | cons x xs ih =>
    have hk : KeepsRequests s (drainIn part s x) := by
      rw [drainIn]
      split
      · exact keepsRequests_drain s x
      · exact .rfl
    have hme : s.me.stores = [] → (drainIn part s x).me = s.me := by
      intro hs
      rw [State.me, hk.cur, drainIn]
      split
      · by_cases hx : s.cur = x
        · rw [← hx, Laws.drain_none hs]
        · exact (Laws.drained s x).other _ hx
      · rfl
    obtain ⟨ihk, ihme⟩ := ih (drainIn part s x)
    exact ⟨hk.trans ihk, fun hs => (ihme (by rw [hme hs, hs])).trans (hme hs)⟩

section
variable {i : Instr} {s : State} {d : SReg} {a : Src} {gone : TlbEntry → Bool} {P : TlbEntry → Prop}

theorem invalidate_me (hs : s.me.stores = []) : (invalidate s gone).me = s.me := (foldl_drainIn s.me.part (s.ctxs.map Prod.fst) s).2 hs

theorem peersOwe_invalidate : peersOwe (invalidate s gone) = peersOwe s :=
  (foldl_drainIn s.me.part (s.ctxs.map Prod.fst) s).1.peersOwe

theorem mem_tlb_invalidate (e : TlbEntry) : e ∈ (invalidate s gone).tlb ↔ e ∈ s.tlb ∧ ¬ (e.part = s.me.part ∧ gone e = true) := by
  have htlb := (foldl_drainIn s.me.part (s.ctxs.map Prod.fst) s).1.tlb
  show e ∈ List.filter _ (List.foldl (drainIn s.me.part) s _).tlb ↔ _
  rw [htlb, List.mem_filter]
  simp [-not_and, not_and_or]

/-- A `tlbi` that no earlier access of its context holds back: the translations go at once. -/
theorem exec_tlbi (hex : exec i s = releaseThen s fun s => tlbInvalidate s gone) (hq : enginesQuiet s s.cur = true) :
    exec i s = (if peersOwe s then .next (invalidate (drainReleased s s.cur) gone) else
      .next ((invalidate (drainReleased s s.cur) gone).setMe (retire (drainReleased s s.cur).me))) := by
  have howe := (peersOwe_invalidate (gone := gone)).trans (keepsRequests_drainReleased s s.cur).peersOwe
  rw [hex, releaseThen, hq]
  show (if peersOwe (invalidate (drainReleased s s.cur) gone) then _ else _) = _
  rw [howe, invalidate_me (drainReleased_stores s)]

theorem mem_tlb_tlbi (e : TlbEntry) :
    e ∈ (invalidate (drainReleased s s.cur) gone).tlb ↔ e ∈ s.tlb ∧ ¬ (e.part = s.me.part ∧ gone e = true) := by
  have hk := keepsRequests_drainReleased s s.cur
  rw [mem_tlb_invalidate, hk.tlb, State.me, hk.cur, hk.part]

/-- With no peer access of the partition outstanding, the `tlbi` retires too. -/
theorem tlbi_invalidates (hex : exec i s = releaseThen s fun s => tlbInvalidate s gone) (hq : enginesQuiet s s.cur = true)
    (hp : peersOwe s = false) (hgone : ∀ e, gone e = true ↔ P e) : Invalidated i s (drainReleased s s.cur) P := by
  refine ⟨_, (exec_tlbi hex hq).trans (by rw [hp]; rfl), Laws.me_setMe _ _, fun e => ?_⟩
  rw [← hgone]
  exact mem_tlb_tlbi e

theorem exec_tlbiPage (hr : Ready s [a] []) (hva : (readSrc s.me a).toNat < 2 ^ 57) :
    exec (.tlbiPage a) s = releaseThen s fun s' => tlbInvalidate s' fun e =>
      e.vbase ≤ (readSrc s.me a).toNat && (readSrc s.me a).toNat < e.vbase + 2 ^ e.bits :=
  (Laws.onReady_of hr _).trans (if_neg (Nat.not_le.2 hva))

theorem exec_tlbiRange {count : BitVec 19} (hr : Ready s [a] []) (hva : (readSrc s.me a).toNat < 2 ^ 57) (hc : count ≠ 0) :
    exec (.tlbiRange a count) s = releaseThen s fun s' => tlbInvalidate s' fun e =>
      e.vbase < (readSrc s.me a).toNat / 4096 * 4096 + 4096 * count.toNat
        && (readSrc s.me a).toNat / 4096 * 4096 < e.vbase + 2 ^ e.bits :=
  (Laws.onReady_of hr _).trans (if_neg (by simpa using And.intro hva hc))

/-- With one outstanding, the translations go and the `tlbi` is tried again (log entry 92). -/
theorem tlbiAll_waits (hq : enginesQuiet s s.cur = true) (hp : peersOwe s = true) :
    ∃ t, exec .tlbiAll s = .next t ∧ t.me = (drainReleased s s.cur).me ∧ ∀ e, e ∈ t.tlb ↔ e ∈ s.tlb ∧ e.part ≠ s.me.part := by
  refine ⟨_, (exec_tlbi (gone := fun _ => true) rfl hq).trans (by rw [hp]; rfl), invalidate_me (drainReleased_stores s), fun e => ?_⟩
  rw [mem_tlb_tlbi]
  simp

/-! ## Refusals, traps and breakpoints -/

theorem freezes_of_freezeHere {cause : Nat} {addr : Word} (hex : exec i s = .next (freezeHere s cause 0 addr)) (hn : NothingHeld s) :
    Freezes i s cause addr := hex.trans (congrArg _ (Laws.freezeHere_of hn.1 hn.2 _ _ _))

theorem tlbiPage_refused (hr : Ready s [a] []) (hn : NothingHeld s) (hva : 2 ^ 57 ≤ (readSrc s.me a).toNat) :
    Freezes (.tlbiPage a) s 0x05 s.me.pc := freezes_of_freezeHere ((Laws.onReady_of hr _).trans (if_pos hva)) hn

theorem tlbiRange_refused {count : BitVec 19} (hr : Ready s [a] []) (hn : NothingHeld s)
    (h : 2 ^ 57 ≤ (readSrc s.me a).toNat ∨ count = 0) : Freezes (.tlbiRange a count) s 0x05 s.me.pc :=
  freezes_of_freezeHere ((Laws.onReady_of hr _).trans (if_pos (by simpa using h))) hn

theorem trap_freezes (n : BitVec 21) (hn : NothingHeld s) : Freezes (.trap n) s 0x10 (n.setWidth 64) := freezes_of_freezeHere rfl hn

/-- A breakpoint that nothing holds back triggers the snapshot registers where these are enabled, and freezes. -/
theorem exec_brk (n : BitVec 21) (hn : NothingHeld s) :
    exec (.brk n) s = .next (freezeHere (if s.ebrk then latch s else s) 0x11 0 (n.setWidth 64)) := by
  have hheld : s.me.window.any (fun e => e.held != []) = false := by simpa using hn.1
  show execBrk n s = _
  rw [execBrk, hheld, hn.2]
  rfl

theorem brk_freezes (n : BitVec 21) (hn : NothingHeld s) (hb : s.ebrk = false) : Freezes (.brk n) s 0x11 (n.setWidth 64) := by
  have hex := exec_brk n hn
  rw [hb, if_neg Bool.false_ne_true] at hex
  exact freezes_of_freezeHere hex hn

theorem latch_free (h : s.snap = none) : latch s = { s with sntime := s.cycle, snap := some (snapshotOf s) } := by
  rw [latch, h]
  rfl

theorem brk_latches (n : BitVec 21) (hn : NothingHeld s) (hb : s.ebrk = true) (hs : s.snap = none) :
    exec (.brk n) s = .next (freeze { s with sntime := s.cycle, snap := some (snapshotOf s) } s.cur
      { cause := 0x11, elem := 0, addr := n.setWidth 64, pc := s.me.pc, word := s.ir, nc := true, async := false }) := by
  have hl : NothingHeld { s with sntime := s.cycle, snap := some (snapshotOf s) } := hn
  have hex := exec_brk n hn
  rw [hb, if_pos rfl, latch_free hs, Laws.freezeHere_of hl.1 hl.2] at hex
  exact hex

/-! ## CYCLE -/

/-- The end of a load whose value is there: the state `u`, and one register of it. -/
theorem loads_of_writeBack {u : State} {v : Word} (hex : exec i s = writeBack u d v) : Loads i s u d v := by
  obtain ⟨t, ht, hw, hpc, hret, hf, hrest, hset⟩ := Laws.writeBack_spec u d v
  obtain ⟨-, hother, hmem⟩ := Laws.onlyMe hset
  exact ⟨t, hex.trans ht, hw, hpc, hret, hf, hrest, hother, hmem, fun k => by rw [hset]; exact ⟨rfl, rfl⟩⟩

theorem drain_cycle (s : State) (x : CtxId) : (drainStores s x).cycle = s.cycle := by rw [(Laws.drained s x).rest]

theorem cyc_loads (hr : Ready s [] [d]) (hw : s.me.window = []) (hl : s.me.locks = []) (hs : s.me.pendS = []) (hf : s.me.pendF = []) :
    Loads (.cyc d) s (drainStores s s.cur) d (drainStores s s.cur).cycle := by
  refine loads_of_writeBack ((Laws.onReady_of hr _).trans ?_)
  rw [drain_cycle, hw, hl, hs, hf]
  rfl

/-- Whether it waits for its register or for an access, `cyc` is tried again. -/
theorem cyc_waits (h : s.me.window ≠ [] ∨ s.me.locks ≠ [] ∨ s.me.pendS ≠ [] ∨ s.me.pendF ≠ []) : exec (.cyc d) s = .next s := by
  show onReady s [] [d] _ = _
  cases hz : hazard s.me [] [d] with
  | true => exact Laws.onReady_waits hz _
  | false => exact (Laws.onReady_of hz _).trans (if_pos (by simpa [or_assoc] using h))

theorem mfs_cycle_gives (hr : Ready s [] [d]) : Gives (.mfs d 0x040) s d s.cycle := by
  have hread : srRead s s.cur 0x040 = some s.cycle := rfl
  refine Laws.gives_of ((Laws.onReady_of hr _).trans ?_)
  simp [srWaits, hread]

end

end Sys2Proof.Proofs
end

section
/-! PROOFS. `halt` (R147): the save area a context goes into (R359), what the save leaves, and the statement on system
instructions. -/

open Sys2Proof Sys2Proof.Machine Sys2Proof.Claims

namespace Sys2Proof.Proofs

/-! ## The save of a context -/

/-- Steps that write nothing but cores write nothing but cores together. -/
theorem foldl_writes_cores {β : Type} {g : State → β → State} (h : ∀ s b, g s b = { s with cores := (g s b).cores }) (l : List β)
    (s : State) : l.foldl g s = { s with cores := (l.foldl g s).cores } := by
  induction l generalizing s with
  | nil => rfl
  | cons b l ih =>
    rw [List.foldl_cons, ih (g s b), h s b]

theorem detachBufs_frame (s : State) (x : CtxId) : detachBufs s x = { s with cores := (detachBufs s x).cores } := by
  rw [detachBufs, foldl_writes_cores (fun _ _ => rfl), foldl_writes_cores (fun _ _ => rfl)]

/-- An area is written to memory whole. -/
theorem sealArea_eq_store (s : State) (a : SaveArea) : ∃ bs, bs.length = areaSize ∧ sealArea s a = storePA s.draw a.base bs := by
  refine ⟨_, ?_, rfl⟩
  rw [List.length_append, Laws.leBytes_length, Laws.areaRest_length]
  rfl

/-- Sealing an area writes memory, and of it only the area. -/
theorem sealArea_frame {s : State} (hm : MemForm s) (a : SaveArea) :
    (sealArea s a).cur = s.cur ∧ (sealArea s a).ctxs = s.ctxs ∧ (sealArea s a).areas = s.areas ∧ OnlyAreas [a] s (sealArea s a) := by
  obtain ⟨bs, hlen, heq⟩ := sealArea_eq_store s a
  have hframe := Laws.storePA_frame s.draw a.base bs
  have hmem := Laws.storePA_mem s.draw a.base bs
  have hhost := Laws.storePA_hostMem s.draw a.base bs
  rw [← heq] at hframe hmem hhost
  have outside : ∀ {b x : Nat}, ¬ (b ≤ x ∧ x < b + areaSize) → x < b ∨ b + bs.length ≤ x := by omega
  refine ⟨by rw [hframe]; rfl, by rw [hframe]; rfl, by rw [hframe]; rfl, fun x => ⟨fun hout => ?_, fun hout => ?_⟩⟩
  · rw [hmem]
    split
    · rfl
    · exact Laws.read_put_outside hm.1 (outside (hout a (List.mem_singleton_self a)))
  · rw [hhost]
    split
    · exact Laws.read_put_outside hm.2 (outside (hout a (List.mem_singleton_self a)))
    · rfl

/-- The area that `saveCtx` makes. -/
def areaFor (s : State) (x : CtxId) (st : SaveState) (byFreeze : Bool) : SaveArea :=
  { base := areaPlace s (s.ctx x).part, part := (s.ctx x).part, ctx := x, st := st, ret := true, halt := (s.ctx x).halt
    saved := savedCtx (s.ctx x), reqs := s.reqs.filter (fun r => (r.ctx = x && r.kind ≠ .drop) && resendable r)
    qops := (takeQueueOps s x).1, claims := claimsOf s x, streams := streamsOf s x, byFreeze := byFreeze
    pool := (s.core (coreOf x)).poolw, srf := [] }

/-- The state in which the area is sealed: the buffers forget the context, its requests go. -/
def beforeSeal (s : State) (x : CtxId) (st : SaveState) (byFreeze : Bool) : State :=
  { detachBufs (takeQueueOps s x).2 x with
      areas := (detachBufs (takeQueueOps s x).2 x).areas ++ [areaFor s x st byFreeze]
      reqs := (detachBufs (takeQueueOps s x).2 x).reqs.filter (fun r => !(r.ctx = x && r.kind ≠ .drop)) }

theorem saveCtx_eq (s : State) (x : CtxId) (st : SaveState) (byFreeze : Bool) :
    saveCtx s x st byFreeze =
      idleCtx ((sealArea (beforeSeal s x st byFreeze) (areaFor s x st byFreeze)).modCluster (clusterOf x)
        (fun k => { k with groups := k.groups.map (fun o => if o = some x then none else o) })) x := rfl

theorem beforeSeal_frame (s : State) (x : CtxId) (st : SaveState) (byFreeze : Bool) :
    beforeSeal s x st byFreeze = { s with
      cores := (beforeSeal s x st byFreeze).cores, areas := s.areas ++ [areaFor s x st byFreeze]
      reqs := (beforeSeal s x st byFreeze).reqs } := by
  rw [beforeSeal, detachBufs_frame]
  rfl

theorem idleCtx_ctx (s : State) (x y : CtxId) : (idleCtx s x).ctx y = if x = y then Ctx.reset else s.ctx y :=
  Laws.mget_mset s.ctxs x y Ctx.reset Ctx.reset

/-- A saved context leaves its position idle; its area is one more, and of memory only that area is written. -/
theorem saveCtx_spec {s : State} (hm : MemForm s) (x : CtxId) (st : SaveState) (byFreeze : Bool) :
    (saveCtx s x st byFreeze).cur = s.cur ∧ (saveCtx s x st byFreeze).areas = s.areas ++ [areaFor s x st byFreeze]
      ∧ (∀ y, (saveCtx s x st byFreeze).ctx y = if x = y then Ctx.reset else s.ctx y)
      ∧ OnlyAreas [areaFor s x st byFreeze] s (saveCtx s x st byFreeze) := by
  have hb := beforeSeal_frame s x st byFreeze
  have hbm : MemForm (beforeSeal s x st byFreeze) := by rw [hb]; exact hm
  obtain ⟨hcur, hctxs, hareas, hmem⟩ := sealArea_frame hbm (areaFor s x st byFreeze)
  rw [hb] at hcur hctxs hareas hmem
  rw [saveCtx_eq, hb]
  refine ⟨hcur, hareas, fun y => ?_, hmem⟩
  rw [idleCtx_ctx]
  show (if x = y then _ else mget (sealArea _ _).ctxs y Ctx.reset) = _
  rw [hctxs]
  rfl

/-! ## Drains keep memory in its canonical form -/

theorem memForm_performStore {s : State} (hm : MemForm s) (x : CtxId) : MemForm (performStore s x) := by
  rw [performStore]
  dsimp only
  split
  · exact hm
  · next st rest _ =>
    split
    · exact hm
    · have hset : MemForm (s.setCtx x { s.ctx x with stores := rest }) := hm
      have hu := Laws.unseen_l1Update (storePA (s.setCtx x { s.ctx x with stores := rest }) st.pa st.bytes) (coreOf x) st.pa
        st.bytes.length
      rw [MemForm, hu.mem, hu.host]
      exact Laws.storePA_wf hset st.pa st.bytes

theorem memForm_drain {s : State} (hm : MemForm s) (x : CtxId) : MemForm (drainStores s x) := by
  have hfuel : ∀ n, ∀ {s : State}, MemForm s → MemForm (drainFuel x n s) := by
    intro n
    induction n with
    | zero => exact id
    | succ n ih => exact fun hm => ih (memForm_performStore hm x)
  exact hfuel _ hm

/-! ## `halt` -/

theorem signal_frame (s : State) (v : Fin 32) : signal s v = { s with msix := (signal s v).msix } := by
  rw [signal]
  split <;> rfl

theorem mem_msix_signal (s : State) (v : Fin 32) : v ∈ (signal s v).msix := by
  rw [signal]
  split
  · next h => exact List.contains_iff_mem.1 h
  · exact List.mem_append_right _ (List.mem_singleton_self v)

theorem areasFree_setCtx {s : State} {x : CtxId} {c : Ctx} (h : c.part = (s.ctx x).part) (p : PartId) :
    areasFree (s.setCtx x c) p = areasFree s p := by
  have hpart := (keepsRequests_setCtx (s := s) h).part
  simp only [areasFree, hpart]
  rfl

/-- What `halt` makes of its context: past the instruction, and halted with its code. -/
def haltedCtx (c : Ctx) (n : BitVec 21) : Ctx := { retire c with run := .halted, halt := n }

/-- The state in which its context is halted, not yet saved. -/
def haltedIn (u : State) (n : BitVec 21) : State := u.setMe (haltedCtx u.me n)

/-- How `halt` ends: the context is saved where an area is free, and the management core hears of it. -/
def haltEnd (u : State) (n : BitVec 21) : State :=
  signal (if areasFree (haltedIn u n) (haltedIn u n).me.part ≠ 0 then saveCtx (haltedIn u n) (haltedIn u n).cur .halted false
    else haltedIn u n) 1

section
variable {s u : State} (n : BitVec 21)

theorem halt_waits (hw : s.me.window ≠ []) : exec (.halt n) s = .next s := by
  show execHalt n s = _
  rw [execHalt]
  simp [hw]

/-- A `halt` that nothing holds back. -/
theorem exec_halt (hw : s.me.window = []) (hq : contextQuiet (drainStores s s.cur) s.cur = true)
    (hf : (drainStores s s.cur).me.failed = none) : exec (.halt n) s = .next (haltEnd (drainStores s s.cur) n) := by
  have hfailed : storeFailed (drainStores s s.cur) (drainStores s s.cur).cur = false := by
    rw [storeFailed, hf]
    rfl
  rw [Laws.drain_cur'] at hfailed
  have hgo : (decide (s.me.window ≠ []) || !contextQuiet (drainStores s s.cur) s.cur) = false := by simp [hw, hq]
  show execHalt n s = _
  rw [execHalt]
  dsimp only
  rw [if_neg (ne_true_of_eq_false hgo), Laws.drain_cur', if_neg (ne_true_of_eq_false hfailed)]
  rfl

theorem mem_msix_haltEnd : (1 : Fin 32) ∈ (haltEnd u n).msix := mem_msix_signal _ 1

theorem haltedIn_me : (haltedIn u n).me = haltedCtx u.me n := Laws.me_setMe _ _

theorem areasFree_haltedIn : areasFree (haltedIn u n) (haltedIn u n).me.part = areasFree u u.me.part := by
  rw [haltedIn_me]
  exact areasFree_setCtx (s := u) (x := u.cur) (c := haltedCtx u.me n) rfl _

/-- With no area free the context stays in place. -/
theorem haltEnd_in_place (h : areasFree u u.me.part = 0) : haltEnd u n = signal (haltedIn u n) 1 := by
  rw [haltEnd, areasFree_haltedIn, if_neg (not_not_intro h)]

theorem haltEnd_saved (h : areasFree u u.me.part ≠ 0) : haltEnd u n = signal (saveCtx (haltedIn u n) u.cur .halted false) 1 := by
  rw [haltEnd, areasFree_haltedIn, if_pos h]
  rfl

theorem halt_ends_in_place (hex : exec (.halt n) s = .next (haltEnd u n)) (hcur : u.cur = s.cur) (h : areasFree u u.me.part = 0) :
    Ends (.halt n) s u (haltedCtx u.me n) := by
  refine ⟨_, hex, ?_⟩
  rw [haltEnd_in_place n h, signal_frame]
  exact ⟨haltedIn_me n, fun x hx => Laws.setMe_other (hcur ▸ hx) _, fun _ => ⟨rfl, rfl⟩, fun _ => ⟨rfl, rfl⟩⟩

/-- With an area free the context leaves its position, and is in the area as it halted. -/
theorem haltEnd_saves (hm : MemForm u) (h : areasFree u u.me.part ≠ 0) :
    ∃ a, (haltEnd u n).me = Ctx.reset ∧ (haltEnd u n).areas = u.areas ++ [a] ∧ a.st = .halted ∧ a.ctx = u.cur
      ∧ a.part = u.me.part ∧ a.halt = n ∧ a.saved = savedCtx (haltedCtx u.me n)
      ∧ (∀ x, x ≠ u.cur → (haltEnd u n).ctx x = u.ctx x) ∧ OnlyAreas [a] u (haltEnd u n) := by
  obtain ⟨hcur, hareas, hctx, hmem⟩ := saveCtx_spec (s := haltedIn u n) hm u.cur .halted false
  have hme : (haltedIn u n).ctx u.cur = haltedCtx u.me n := haltedIn_me n
  rw [haltEnd_saved n h, signal_frame]
  generalize saveCtx (haltedIn u n) u.cur .halted false = t at *
  refine ⟨areaFor (haltedIn u n) u.cur .halted false, ?_, hareas, rfl, rfl, (congrArg Ctx.part hme).trans rfl, congrArg Ctx.halt hme,
    congrArg savedCtx hme, fun x hx => ?_, hmem⟩
  · show t.ctx t.cur = _
    rw [hctx, hcur]
    exact if_pos rfl
  · show t.ctx x = _
    rw [hctx, if_neg (Ne.symm hx)]
    exact Laws.setMe_other hx _

end

/-- Settles O38: each instruction from its own lemmas. `halt` drains its context's stores first, which leaves its partition, its
registers and its number as they are. -/
theorem systemInstructions : Obligations.system_instructions := by
  refine ⟨fun s d a n count => ⟨Laws.goes_of rfl, cyc_loads, cyc_waits, mfs_cycle_gives,
      fun hn => ⟨trap_freezes n hn, brk_freezes n hn, brk_latches n hn⟩,
      fun hq hp => ⟨tlbi_invalidates rfl hq hp (by simp), fun hr hva =>
        ⟨tlbi_invalidates (exec_tlbiPage hr hva) hq hp (by simp), fun hc =>
          tlbi_invalidates (exec_tlbiRange hr hva hc) hq hp (by simp)⟩⟩,
      tlbiAll_waits, fun hr hn => ⟨fun hva => ⟨tlbiPage_refused hr hn hva, tlbiRange_refused hr hn (.inl hva)⟩,
        fun hc => tlbiRange_refused hr hn (.inr hc)⟩⟩,
    fun s n => ⟨halt_waits n, fun hw hq hf => ?_⟩⟩
  have hex := exec_halt n hw hq hf
  have hcur := Laws.drain_cur' s s.cur
  have hpart : (drainStores s s.cur).me.part = s.me.part := by
    rw [State.me, hcur]
    exact (keepsRequests_drain s s.cur).part s.cur
  obtain ⟨ss, fl, hme⟩ := Laws.drained_me s
  rw [← hpart]
  refine ⟨halt_ends_in_place n hex hcur, fun hfree hm => ?_, _, hex, mem_msix_haltEnd n⟩
  obtain ⟨a, hreset, hareas, hst, hctx, hap, hhalt, hsaved, hother, hmem⟩ := haltEnd_saves n (memForm_drain hm s.cur) hfree
  rw [hcur] at hctx hother
  rw [hme] at hsaved
  exact ⟨_, a, hex, hreset, hareas, hst, hctx, hap, hhalt, by rw [hsaved]; rfl, by rw [hsaved]; rfl, by rw [hsaved]; rfl, hother,
    hmem⟩

end Sys2Proof.Proofs
end

section
/-! PROOFS. Column management (R183 to R186): what each instruction answers where nothing holds it back, the two that are refused, and
the statement on them. -/

open Sys2Proof Sys2Proof.Machine Sys2Proof.Claims

namespace Sys2Proof.Proofs

section
variable {s : State} {d r : Col} {c : CReg} {a : Src} {e : SReg} {fmt : Fmt} {n : Nat}

/-! ## What the guards and the updates come to -/

theorem windowFull_of (hw : s.me.window.length < 8) : windowFull s.me = false := by simpa [windowFull] using hw

theorem targetFree_of (hf : inFlight s.me r = false) : targetFree s.me r = true := by simp [targetFree, hf]

@[simp] theorem setS_seq (x : Ctx) (d : SReg) (v : Word) : (setS x d v).seq = x.seq := by
  unfold setS
  split <;> rfl

@[simp] theorem setFmt_seq (x : Ctx) (r : Col) (f : Fmt) : (setFmt x r f).seq = x.seq := Laws.setCol_seq _ _ _

@[simp] theorem setFmt_retired (x : Ctx) (r : Col) (f : Fmt) : (setFmt x r f).retired = x.retired := Laws.setCol_retired _ _ _

/-- A yield of the executing context writes its column, whose LEN is then `n`, and YL (R31). -/
theorem me_yieldTo (s : State) (r : Col) (n : Nat) :
    ∃ x : Column, x.len = n ∧ (yieldTo s s.cur r n).me = { setCol s.me r x with yl := BitVec.ofNat 32 n } := by
  refine ⟨{ getCol s.me r with
      len := n
      extents := (getCol s.me r).extents.take (extentsFor (getCol s.me r).fmt (getCol s.me r).cap n)
      spill := (getCol s.me r).spill.filter (fun p => p.1 < bytesOf (getCol s.me r).fmt n) }, rfl, ?_⟩
  show (yieldTo s s.cur r n).ctx s.cur = _
  rw [yieldTo, setLen, State.modCtx, State.modCtx, Laws.ctx_setCtx_same, Laws.ctx_setCtx_same]

theorem getCol_with_yl (x : Ctx) (v : BitVec 32) (r : Col) : getCol { x with yl := v } r = getCol x r := by cases r <;> rfl

theorem yieldTo_other {x : CtxId} (hx : x ≠ s.cur) (r : Col) (n : Nat) : (yieldTo s s.cur r n).ctx x = s.ctx x :=
  (Laws.ctx_setCtx_ne _ _ _ hx.symm).trans (Laws.ctx_setCtx_ne _ _ _ hx.symm)

/-! ## `cfree`, of a column in stream mode too -/

theorem exec_cfree (hw : s.me.window.length < 8) (hf : inFlight s.me d = false) :
    exec (.cfree d) s = if (getCol s.me d).strm then .next (refuse s 0x05) else managed s (releaseCol s.me d (emptyFmt d)) := by
  show execCfree d s = _
  rw [execCfree, windowFull_of hw, targetFree_of hf]
  rfl

theorem cfree_freezes (hn : NothingHeld s) (hw : s.me.window.length < 8) (hf : inFlight s.me d = false)
    (hs : (getCol s.me d).strm = true) : Freezes (.cfree d) s 0x05 s.me.pc :=
  freezes_of_freezeHere ((exec_cfree hw hf).trans (if_pos hs)) hn

/-! ## A register that no instruction in flight uses, not in stream mode: `calloc`, `cfree` and `trunc` -/

section
variable (hw : s.me.window.length < 8) (hf : inFlight s.me d = false) (hs : (getCol s.me d).strm = false)
include hw hf hs

/-- `calloc` leaves its register with a descriptor of its own, whether it finds a place or not. -/
theorem exec_calloc (ha : hazard s.me [a] [] = false) (hn : (readSrc s.me a).toNat < 2 ^ 24) (hp : ∀ p, d = .p p → fmt = .pos32) :
    ∃ x, exec (.calloc d a fmt) s = managed (s.setMe (releaseCol s.me d fmt)).draw (setCol s.me d x) := by
  show ∃ x, execCalloc d a fmt s = _
  unfold execCalloc
  dsimp only
  rw [if_neg, if_neg]
  · rw [Laws.me_setMe]
    split
    · exact ⟨_, congrArg _ (Laws.setCol_setCol _ _ _ _)⟩
    · exact ⟨_, rfl⟩
  · have hcap : (readSrc s.me a).toNat ≤ 16777215 := by omega
    cases d with
    | c i => simp [hcap, hs]
    | p i => simp [hcap, hs, hp i rfl]
  · simp [windowFull_of hw, targetFree_of hf, ha]

theorem calloc_manages (ha : hazard s.me [a] [] = false) (hn : (readSrc s.me a).toNat < 2 ^ 24) (hp : ∀ p, d = .p p → fmt = .pos32) :
    ∃ x, Manages (.calloc d a fmt) s (setCol s.me d x) := by
  obtain ⟨x, hex⟩ := exec_calloc hw hf hs ha hn hp
  exact ⟨x, Laws.managed_of hex rfl (by simp) (by simp) (fun y hy => Laws.setMe_other hy _) rfl rfl⟩

theorem cfree_manages : Manages (.cfree d) s (setCol s.me d (Column.empty (emptyFmt d))) :=
  Laws.managed_self ((exec_cfree hw hf).trans (by rw [hs]; rfl)) (by simp) (by simp)

theorem exec_trunc (ha : hazard s.me [a] [] = false) (hy : allYielded s.me = true)
    (hn : n = min (getCol s.me d).len (readSrc s.me a).toNat) :
    exec (.trunc d a) s = managed (yieldTo s s.cur d n) (yieldTo s s.cur d n).me := by
  subst hn
  show execTrunc d a s = _
  rw [execTrunc, windowFull_of hw, ha, targetFree_of hf, hy, hs]
  rfl

/-- `trunc` yields its column at the smaller length: that column and YL are all it writes (R32, R186). -/
theorem trunc_manages (ha : hazard s.me [a] [] = false) (hy : allYielded s.me = true)
    (hn : n = min (getCol s.me d).len (readSrc s.me a).toNat) :
    ∃ x : Column, x.len = n ∧ Manages (.trunc d a) s { setCol s.me d x with yl := BitVec.ofNat 32 n } := by
  obtain ⟨x, hlen, hme⟩ := me_yieldTo s d n
  have hex := exec_trunc hw hf hs ha hy hn
  rw [hme] at hex
  exact ⟨x, hlen, Laws.managed_of hex rfl (Laws.setCol_seq _ _ _) (Laws.setCol_retired _ _ _) (fun y hy => yieldTo_other hy _ _) rfl rfl⟩

/-- The same, by what a reader of the context sees of it. -/
theorem trunc_manages_len (ha : hazard s.me [a] [] = false) (hy : allYielded s.me = true)
    (hn : n = min (getCol s.me d).len (readSrc s.me a).toNat) :
    ∃ v, Manages (.trunc d a) s v ∧ (getCol v d).len = n ∧ v.yl = BitVec.ofNat 32 n
      ∧ (∀ u, u ≠ d → getCol v u = getCol s.me u) ∧ v = { s.me with c := v.c, p := v.p, yl := v.yl } := by
  obtain ⟨x, hlen, hm⟩ := trunc_manages hw hf hs ha hy hn
  refine ⟨_, hm, ?_, rfl, fun u hu => ?_, ?_⟩
  · rw [getCol_with_yl, Laws.getCol_setCol, if_pos rfl, hlen]
  · rw [getCol_with_yl, Laws.getCol_setCol, if_neg hu]
  · rw [Laws.setCol_frame]

end

/-! ## `cfmt` -/

theorem exec_cfmt (hw : s.me.window.length < 8) (hf : inFlight s.me (.c c) = false) :
    exec (.cfmt c fmt) s =
      if (getCol s.me (.c c)).strm || !(sameWidth (getCol s.me (.c c)).fmt fmt || (getCol s.me (.c c)).len = 0) then .next (refuse s 0x05)
      else managed s (setFmt s.me (.c c) fmt) := by
  show execCfmt c fmt s = _
  rw [execCfmt, windowFull_of hw, targetFree_of hf]
  rfl

theorem cfmt_manages (hw : s.me.window.length < 8) (hf : inFlight s.me (.c c) = false) (hs : (getCol s.me (.c c)).strm = false)
    (hok : sameWidth (getCol s.me (.c c)).fmt fmt = true ∨ (getCol s.me (.c c)).len = 0) :
    Manages (.cfmt c fmt) s (setFmt s.me (.c c) fmt) :=
  Laws.managed_self ((exec_cfmt hw hf).trans (if_neg (by simpa [hs, or_iff_not_imp_left] using hok))) (by simp) (by simp)

theorem cfmt_freezes (hn : NothingHeld s) (hw : s.me.window.length < 8) (hf : inFlight s.me (.c c) = false)
    (hbad : (getCol s.me (.c c)).strm = true ∨ sameWidth (getCol s.me (.c c)).fmt fmt = false ∧ (getCol s.me (.c c)).len ≠ 0) :
    Freezes (.cfmt c fmt) s 0x05 s.me.pc :=
  freezes_of_freezeHere ((exec_cfmt hw hf).trans (if_pos (by simpa using hbad))) hn

/-! ## Readers of a length: `setvl`, `len` and `cdesc` -/

theorem readLen_of_column (hw : s.me.window.length < 8) (hy : allYielded s.me = true) (hs : (getCol s.me r).strm = false) :
    readLen s r = some (getCol s.me r).len := by
  rw [readLen, windowFull_of hw, hy, hs]
  rfl

theorem setvl_scalar_manages (hw : s.me.window.length < 8) (ha : hazard s.me [a] [] = false) :
    Manages (.setvl (.sc a)) s { s.me with vl := BitVec.ofNat 32 (min (readSrc s.me a).toNat (2 ^ 32 - 1)) } := by
  refine Laws.managed_self ?_ rfl rfl
  show execSetvl (.sc a) s = _
  rw [execSetvl, windowFull_of hw, ha]
  rfl

theorem setvl_column_manages (hr : readLen s r = some n) : Manages (.setvl (.col r)) s { s.me with vl := BitVec.ofNat 32 n } := by
  refine Laws.managed_self ?_ rfl rfl
  show execSetvl (.col r) s = _
  rw [execSetvl, hr]

theorem len_manages (hr : readLen s r = some n) (he : hazard s.me [] [e] = false) :
    Manages (.len e r) s (setS s.me e (BitVec.ofNat 64 n)) := by
  refine Laws.managed_self ?_ (setS_seq _ _ _) (Laws.setS_retired _ _ _)
  show execLen e r s = _
  rw [execLen, hr, he]
  rfl

theorem seenColumn_of (hr : readLen s r = some n) : seenColumn s r = { getCol s.me r with len := n } := by rw [seenColumn, hr]; rfl

/-- `cdesc` captures the two descriptor words as they are at issue (R24, R186). -/
theorem cdesc_enters (hr : readLen s r = some n) (hm : MayIssue s [] [] [] none) (hd : Writable s [(.c c, .n64)] [r]) :
    Enters (.cdesc c r) s
      { fmt := .n64, len := 2, dests := [(.c c, .n64)], a := { col := none, val := descWord0 { getCol s.me r with len := n } (workOf s.me r) }
        b := { col := none, val := descWord1 { getCol s.me r with len := n } } } := by
  obtain ⟨hoverlap, hdests⟩ := Laws.overlap_of hd
  refine Laws.enters (lanePlan (.cdesc c r) .n64 2 [(.c c, .n64)]
    { col := none, val := descWord0 { getCol s.me r with len := n } (workOf s.me r) }
    { col := none, val := descWord1 { getCol s.me r with len := n } } Operand.none) plain hm ?_ Laws.keep_plain
    ⟨rfl, rfl, rfl, rfl, rfl, rfl, rfl, rfl, rfl, rfl⟩ [r] hd
  show execCdesc c r s = _
  rw [execCdesc, seenColumn_of hr, hr, hoverlap, hdests]
  rfl

end

/-- Settles O14, instruction by instruction: each by what it answers once its guards let it pass. -/
theorem columnManagement : Obligations.column_management := by
  intro s d c r a e fmt x k hw
  exact ⟨fun hf hs => ⟨fun ha hn hp => (calloc_manages hw hf hs ha hn hp).imp' _ fun _ => id, cfree_manages hw hf hs,
      fun ha hy => trunc_manages_len hw hf hs ha hy rfl⟩,
    cfmt_manages hw,
    fun hn => ⟨cfree_freezes hn hw, cfmt_freezes hn hw⟩,
    setvl_scalar_manages hw,
    fun n hr => ⟨setvl_column_manages hr, len_manages hr, cdesc_enters hr⟩,
    readLen_of_column hw⟩

end Sys2Proof.Proofs
end

section
/-! PROOFS. The buffer table (R237 to R244): what a release performed at once or held back comes to, what each instruction on an
entry answers once its guards let it pass, and the statement on them. -/

open Sys2Proof Sys2Proof.Machine Sys2Proof.Claims

namespace Sys2Proof.Proofs

/-! ## The end of an instruction that takes no place in the window -/

@[simp] theorem retireWord_parked (c : Ctx) : (retireWord c).parked = c.parked := by
  rw [retireWord, Laws.pastWord_frame]

/-- An instruction retires alike whatever the context has posted and stored. -/
theorem retireWord_with (c : Ctx) (ps : List Posted) (ss : List PendingStore) :
    retireWord { c with posted := ps, stores := ss } = { retireWord c with posted := ps, stores := ss } := by
  unfold retireWord pastWord
  cases c.bodyPos with
  | none => rfl
  | some i =>
    dsimp only
    split
    · rfl
    · split <;> rfl

/-! ## Releases (R241, R279): performed at once, or held back at their home -/

/-- A context once a release has left after its stores (R294). -/
def releasedCtx (c : Ctx) : Ctx := { c with stores := c.stores.map fun st => { st with released := true } }

theorem releasedCtx_of_no_stores {c : Ctx} (h : c.stores = []) : releasedCtx c = c := by
  rw [releasedCtx, h, List.map_nil, ← h]

section
variable {i : Instr} {s : State} {now : State → State}

theorem markReleased_eq : markReleased s s.cur = s.setMe (releasedCtx s.me) := rfl

theorem drainStores_setMe_self (h : s.me.stores = []) : drainStores (s.setMe s.me) s.cur = s.setMe s.me :=
  Laws.drain_none ((congrArg Ctx.stores (Laws.me_setMe s s.me)).trans h)

/-- With no store on its way, what a release does first changes nothing. -/
theorem drainReleased_of_no_stores (h : s.me.stores = []) : drainReleased s s.cur = s.setMe s.me := by
  rw [drainReleased, markReleased_eq, releasedCtx_of_no_stores h, drainStores_setMe_self h]

/-- Whether every access is performed depends on the context's locks, window and posted releases alone. -/
theorem enginesQuiet_setMe {c : Ctx} (hl : c.locks = s.me.locks) (hw : c.window = s.me.window) (hp : c.posted = s.me.posted) :
    enginesQuiet (s.setMe c) s.cur = enginesQuiet s s.cur := by
  rw [enginesQuiet, enginesQuiet, Laws.ctx_setCtx_same, hl, hw, hp]

theorem enginesQuiet_released : enginesQuiet (s.setMe (releasedCtx s.me)) s.cur = enginesQuiet s s.cur := enginesQuiet_setMe rfl rfl rfl

theorem postRelease_quiet (hq : Quiet s) (ops : List Word) (later : Ctx → Ctx) :
    postRelease s i ops later now = now (s.setMe s.me) := by
  obtain ⟨hengines, hstores⟩ := hq
  rw [postRelease, markReleased_eq, Laws.setMe_cur, enginesQuiet_released, hengines, if_pos rfl, releasedCtx_of_no_stores hstores,
    drainStores_setMe_self hstores]

/-- A release that waits at its home leaves the core, and its instruction retires (R279). -/
theorem posted_of_postRelease (hq : enginesQuiet s s.cur = false) (hex : exec i s = .next (postRelease s i [] retireWord now)) :
    Posted i s (retireWord s.me) := by
  rw [postRelease, markReleased_eq, Laws.setMe_cur, enginesQuiet_released, hq, if_neg Bool.false_ne_true, Laws.me_setMe,
    Laws.setMe_setMe] at hex
  refine ⟨_, { seq := s.me.seq, instr := i, ops := [], clock := s.me.vc }, hex, rfl, rfl, rfl, ?_, fun x hx => Laws.setMe_other hx _,
    fun _ => ⟨rfl, rfl⟩, fun _ => ⟨rfl, rfl⟩⟩
  exact (Laws.me_setMe _ _).trans (retireWord_with s.me _ _)

end

/-! ## Entries -/

/-- The entry that an instruction of the executing context names. -/
abbrev ownBuf (s : State) (a : BReg) : BufEntry := getBuf s (coreOf s.cur) a

section
variable {i : Instr} {s t : State} {a : BReg} {x : BufEntry}

theorem bufForeign_of_own (h : OwnEntry s x) : bufForeign s.me x = false := by simpa [bufForeign, OwnEntry, or_iff_not_imp_left] using h

theorem bufForeign_of (hsize : x.size ≠ 0) (hpart : x.part ≠ s.me.part) : bufForeign s.me x = true := by simp [bufForeign, hsize, hpart]

theorem bufBad_foreign (hsize : x.size ≠ 0) (hpart : x.part ≠ s.me.part) (configures : Bool) :
    bufBad s.me x configures = some 0x02 := by
  rw [bufBad, bufForeign_of hsize hpart]
  rfl

theorem bufBad_strm (h : OwnEntry s x) (hs : x.strm = true) (configures : Bool) : bufBad s.me x configures = some 0x0E := by
  rw [bufBad, bufForeign_of_own h, hs]
  rfl

theorem bufBad_empty (h : OwnEntry s x) (hs : x.size = 0) : bufBad s.me x false = some 0x0E := by
  simp [bufBad, bufForeign_of_own h, hs]

theorem bufBad_none (h : OwnEntry s x) (hs : x.strm = false) {configures : Bool} (hsize : configures = true ∨ x.size ≠ 0) :
    bufBad s.me x configures = none := by
  have hany : (x.strm || (!configures && x.size = 0)) = false := by simpa [hs, or_iff_not_imp_left] using hsize
  rw [bufBad, bufForeign_of_own h, hany]
  rfl

/-- What may be wrong with an entry of one's own is a misuse. -/
theorem bufBad_own (h : OwnEntry s x) (configures : Bool) : bufBad s.me x configures = some 0x0E ∨ bufBad s.me x configures = none := by
  rw [bufBad, bufForeign_of_own h, if_neg Bool.false_ne_true]
  split
  · exact .inl rfl
  · exact .inr rfl

/-- An instruction that ends in `t` leaves entry `a` as `x`: what `t` must be. -/
theorem leaves_of (hex : exec i s = .next t) (hme : t.me = retireWord s.me) (hmem : t.mem = s.mem) (hhost : t.hostMem = s.hostMem)
    (hbuf : ∀ k b, getBuf t k b = if coreOf s.cur = k ∧ b = a then x else getBuf s k b) : Leaves i s s a x := by
  refine ⟨t, hex, hme, fun _ => by rw [hmem, hhost]; exact ⟨rfl, rfl⟩, fun k b => ?_⟩
  exact (hbuf k b).trans (if_congr (and_congr_left fun _ => eq_comm) rfl rfl)

end

/-! ## `bfwait`, `bftry` and `bfinfo` (R242, R244) -/

section
variable {s : State} {a : BReg} {d : SReg} {f : FReg}

theorem bufWaits_of (hw : s.me.window.length < 8) (hp : bufPending s.me a = false) : bufWaits s.me a = false := by
  rw [bufWaits, windowFull_of hw, hp]
  rfl

theorem exec_bfwait (hw : s.me.window.length < 8) (hp : bufPending s.me a = false) (full : Bool) :
    exec (.bfwait a full) s =
      if bufForeign s.me (ownBuf s a) then .next (refuse s 0x02)
      else if bufMatches full (ownBuf s a).st then .next (l1DropAll (s.setMe (retireWord s.me)) (coreOf s.cur))
      else .next (s.setMe { s.me with parked := some (.buffer a full) }) := by
  show execBfwait a full s = _
  rw [execBfwait, bufWaits_of hw hp]
  rfl

theorem bfwait_leaves (hw : s.me.window.length < 8) (hp : bufPending s.me a = false) (ho : OwnEntry s (ownBuf s a)) {full : Bool}
    (hm : bufMatches full (ownBuf s a).st = true) : Leaves (.bfwait a full) s s a (ownBuf s a) := by
  have hex := exec_bfwait hw hp full
  rw [bufForeign_of_own ho, hm] at hex
  refine leaves_of hex (Laws.me_setMe s _) rfl rfl fun k b => ?_
  rw [Laws.getBuf_l1DropAll, Laws.getBuf_setMe]
  split
  · next h => rw [← h.1, h.2]
  · rfl

theorem bfwait_parks (hw : s.me.window.length < 8) (hp : bufPending s.me a = false) (ho : OwnEntry s (ownBuf s a)) {full : Bool}
    (hm : bufMatches full (ownBuf s a).st = false) :
    exec (.bfwait a full) s = .next (s.setMe { s.me with parked := some (.buffer a full) }) := by
  rw [exec_bfwait hw hp, bufForeign_of_own ho, hm]
  rfl

theorem exec_bftry (hw : s.me.window.length < 8) (hp : bufPending s.me a = false) (hf : FlagsReady s [f]) (st : Fin 4) :
    exec (.bftry f a st) s =
      if bufForeign s.me (ownBuf s a) then .next (refuse s 0x02) else managed s (setF s.me f (bufCode (ownBuf s a).st == st.val)) := by
  refine (Laws.onFlags_of hf _).trans ?_
  rw [bufWaits_of hw hp]
  rfl

theorem exec_bfinfo (hw : s.me.window.length < 8) (hr : Claims.Ready s [] [d]) :
    exec (.bfinfo d a) s =
      if bufForeign s.me (ownBuf s a) then .next (refuse s 0x02) else managed s (setS s.me d (bufWord (ownBuf s a))) := by
  refine (Laws.onReady_of hr _).trans ?_
  rw [windowFull_of hw]
  rfl

theorem bftry_manages (hw : s.me.window.length < 8) (hp : bufPending s.me a = false) (hf : FlagsReady s [f])
    (ho : OwnEntry s (ownBuf s a)) (st : Fin 4) :
    Manages (.bftry f a st) s (setF s.me f (bufCode (ownBuf s a).st == st.val)) := by
  have hex := exec_bftry hw hp hf st
  rw [bufForeign_of_own ho] at hex
  exact Laws.managed_self hex rfl rfl

theorem bfinfo_manages (hw : s.me.window.length < 8) (hr : Claims.Ready s [] [d]) (ho : OwnEntry s (ownBuf s a)) :
    Manages (.bfinfo d a) s (setS s.me d (bufWord (ownBuf s a))) := by
  have hex := exec_bfinfo (a := a) hw hr
  rw [bufForeign_of_own ho] at hex
  exact Laws.managed_self hex (setS_seq _ _ _) (Laws.setS_retired _ _ _)

theorem bufCode_le (st : BufState) : bufCode st ≤ 3 := by cases st <;> decide

/-- The fields of the word that `bfinfo` reads (R237). -/
theorem bufWord_fields (x : BufEntry) (hu : x.uses < 512) (hs : x.size < 65536) (hb : x.base < 2 ^ 17) :
    let v := (bufWord x).toNat
    v / 2 ^ 62 = bufCode x.st ∧ v / 2 ^ 61 % 2 = x.auto.toNat ∧ v / 2 ^ 60 % 2 = x.strm.toNat ∧ v / 2 ^ 56 % 16 = x.part.toNat
      ∧ v / 2 ^ 47 % 512 = x.uses ∧ v / 2 ^ 31 % 65536 = x.size ∧ v / 2 ^ 14 % 2 ^ 17 = x.base ∧ v / 2 ^ 13 % 2 = x.clm.toNat
      ∧ v / 2 ^ 5 % 2 ^ 8 = 0 ∧ v % 32 = if x.strm then x.creg.val else 0 := by
  have hst := bufCode_le x.st
  have hauto := Bool.toNat_lt x.auto
  have hstrm := Bool.toNat_lt x.strm
  have hclm := Bool.toNat_lt x.clm
  have hpart := x.part.isLt
  have hcreg : (if x.strm then x.creg.val else 0) < 32 := by split <;> omega
  intro v
  have hv : v = bufCode x.st * 2 ^ 62 + x.auto.toNat * 2 ^ 61 + x.strm.toNat * 2 ^ 60 + x.part.toNat * 2 ^ 56 + x.uses * 2 ^ 47
      + x.size * 2 ^ 31 + x.base * 2 ^ 14 + x.clm.toNat * 2 ^ 13 + if x.strm then x.creg.val else 0 := by
    show (BitVec.ofNat 64 _).toNat = _
    rw [BitVec.toNat_ofNat, Nat.mod_eq_of_lt hu, Nat.mod_eq_of_lt hs, Nat.mod_eq_of_lt hb]
    exact Nat.mod_eq_of_lt (by omega)
  clear_value v
  generalize (if x.strm then x.creg.val else 0) = creg at *
  refine ⟨?_, ?_, ?_, ?_, ?_, ?_, ?_, ?_, ?_, ?_⟩ <;> omega

end

/-! ## `bfset.cfg` and `bfset.cfga` (R243) -/

section
variable {s : State} {a : BReg} {b c : Src}

/-- A range that `bfset.cfg` may name: whole 256-byte units of the present pools, at least one (R243). -/
def UnitRange (s : State) (at_ n : Word) : Prop :=
  at_.toNat % 256 = 0 ∧ n.toNat % 256 = 0 ∧ n ≠ 0 ∧ InPool (s.core (coreOf s.cur)) at_.toNat n.toNat

theorem UnitRange.passes {at_ n : Word} (h : UnitRange s at_ n) :
    (decide (at_.toNat % 256 = 0) && decide (n.toNat % 256 = 0) && n.toNat != 0 && inWindow at_.toNat
      && (poolAt (s.core (coreOf s.cur)) (at_.toNat - windowBase) n.toNat).isSome) = true := by
  obtain ⟨hat, hn, hn0, hin⟩ := h
  obtain ⟨q, off, hplace, -⟩ := Laws.inPool_at hin
  have hwindow : inWindow at_.toNat = true := by
    rw [inWindow, Bool.and_eq_true]
    exact ⟨decide_eq_true hin.1, decide_eq_true hin.2.1⟩
  have hne : (n.toNat != 0) = true := by simpa [← BitVec.toNat_inj] using hn0
  rw [hat, hn, hne, hwindow, hplace]
  rfl

theorem exec_bfset_configure (auto : Bool) : exec (if auto then .bfsetCfga a b c else .bfsetCfg a b c) s = configure a b c auto s := by
  cases auto <;> rfl

section
variable (hw : s.me.window.length < 8) (hr : Claims.Ready s [b, c] []) (hp : bufPending s.me a = false)
include hw hr hp

theorem configure_refused (hn : NothingHeld s) {cause : Nat} (hbad : bufBad s.me (ownBuf s a) true = some cause) (auto : Bool) :
    Freezes (if auto then .bfsetCfga a b c else .bfsetCfg a b c) s cause s.me.pc := by
  refine freezes_of_freezeHere ((exec_bfset_configure auto).trans ?_) hn
  rw [configure, windowFull_of hw, hr, hp]
  dsimp only
  rw [hbad]
  rfl

theorem configure_leaves (auto : Bool) (ho : OwnEntry s (ownBuf s a)) (hq : Quiet s) (hpark : s.me.parked = none)
    (hs : (ownBuf s a).strm = false) (hst : (ownBuf s a).st = .free) (hu : (ownBuf s a).uses = 0)
    (hwait : bufWaited s (coreOf s.cur) a = false) (hrange : UnitRange s (readSrc s.me b) (readSrc s.me c)) :
    Leaves (if auto then .bfsetCfga a b c else .bfsetCfg a b c) s s a
      { BufEntry.reset with
        auto := auto, part := s.me.part, size := (readSrc s.me c).toNat / 256, base := ((readSrc s.me b).toNat - windowBase) / 256 } := by
  obtain ⟨hengines, hstores⟩ := hq
  have hex : exec (if auto then .bfsetCfga a b c else .bfsetCfg a b c) s = _ := exec_bfset_configure auto
  rw [configure, windowFull_of hw, hr, hp] at hex
  dsimp only at hex
  rw [bufBad_none ho hs (.inl rfl)] at hex
  dsimp only at hex
  rw [hrange.passes, hst, hu, hwait, hengines, drainReleased_of_no_stores hstores] at hex
  refine leaves_of hex ?_ (by simp) (by simp) fun k b' => ?_
  · rw [Laws.me_setMe, Laws.setBuf_me _ _ _ _ ((congrArg Ctx.parked (Laws.me_setMe s s.me)).trans hpark), Laws.me_setMe]
  · rw [Laws.getBuf_setMe, Laws.getBuf_setBuf, Laws.getBuf_setMe]

end
end

/-! ## `bfset.full`, `bfset.rel` and `bfset.claim` (R243) -/

section
variable {s : State} {a : BReg}

theorem exec_bfsetFull (hw : s.me.window.length < 8) (hp : bufPending s.me a = false) (hbad : bufBad s.me (ownBuf s a) false = none) :
    exec (.bfsetFull a) s =
      if !((ownBuf s a).st == .filling && (ownBuf s a).clm) then .next (refuse s 0x0E)
      else .next (postRelease s (.bfsetFull a) [] retireWord (fun s => bufFill (s.setMe (retireWord s.me)) s.cur a)) := by
  show execBfsetFull a s = _
  rw [execBfsetFull, bufWaits_of hw hp, hbad]
  rfl

theorem exec_bfsetRel (hw : s.me.window.length < 8) (hp : bufPending s.me a = false) (hbad : bufBad s.me (ownBuf s a) false = none) :
    exec (.bfsetRel a) s =
      if (ownBuf s a).st != .full then .next (refuse s 0x0E)
      else .next (postRelease s (.bfsetRel a) [] retireWord (fun s => bufFree (s.setMe (retireWord s.me)) s.cur a)) := by
  show execBfsetRel a s = _
  rw [execBfsetRel, bufWaits_of hw hp, hbad]
  rfl

theorem bfset_refused (hn : NothingHeld s) (hw : s.me.window.length < 8) (hp : bufPending s.me a = false) {cause : Nat}
    (hbad : bufBad s.me (ownBuf s a) false = some cause) :
    ∀ i ∈ [Instr.bfsetClaim a, .bfsetFull a, .bfsetRel a], Freezes i s cause s.me.pc := by
  have hclaim : exec (.bfsetClaim a) s = .next (refuse s cause) := by
    show execBfsetClaim a s = _
    rw [execBfsetClaim, windowFull_of hw, hbad]
    rfl
  have hfull : exec (.bfsetFull a) s = .next (refuse s cause) := by
    show execBfsetFull a s = _
    rw [execBfsetFull, bufWaits_of hw hp, hbad]
    rfl
  have hrel : exec (.bfsetRel a) s = .next (refuse s cause) := by
    show execBfsetRel a s = _
    rw [execBfsetRel, bufWaits_of hw hp, hbad]
    rfl
  simp only [List.forall_mem_cons]
  exact ⟨freezes_of_freezeHere hclaim hn, freezes_of_freezeHere hfull hn, freezes_of_freezeHere hrel hn, by simp⟩

section
variable (hn : NothingHeld s) (hw : s.me.window.length < 8) (hp : bufPending s.me a = false) (ho : OwnEntry s (ownBuf s a))
include hn hw hp ho

theorem bfsetFull_misused (h : ¬ ((ownBuf s a).st = .filling ∧ (ownBuf s a).clm = true)) : Freezes (.bfsetFull a) s 0x0E s.me.pc := by
  rcases bufBad_own ho false with hbad | hbad
  · exact bfset_refused hn hw hp hbad _ (by simp)
  · exact freezes_of_freezeHere ((exec_bfsetFull hw hp hbad).trans (if_pos (by simpa [imp_iff_not_or] using h))) hn

theorem bfsetRel_misused (h : (ownBuf s a).st ≠ .full) : Freezes (.bfsetRel a) s 0x0E s.me.pc := by
  rcases bufBad_own ho false with hbad | hbad
  · exact bfset_refused hn hw hp hbad _ (by simp)
  · exact freezes_of_freezeHere ((exec_bfsetRel hw hp hbad).trans (if_pos (by simpa using h))) hn

end

/-- The end of a release of the table that is performed at once: the context is past it, its entry changed. -/
theorem leaves_of_retired_setBuf {i : Instr} {x : BufEntry} (hpark : s.me.parked = none)
    (hex : exec i s = .next (setBuf (s.setMe (retireWord s.me)) (coreOf s.cur) a x)) : Leaves i s s a x := by
  refine leaves_of hex ?_ (by simp) (by simp) fun k b => by rw [Laws.getBuf_setBuf, Laws.getBuf_setMe]
  have hme := Laws.me_setMe s (retireWord s.me)
  rw [Laws.setBuf_me _ _ _ _ (by rw [hme, retireWord_parked, hpark]), hme]

/-- A release of the table whose change `g` is a new state `x` of its entry, performed at once or held back (R241, R279). -/
theorem bfset_releases {i : Instr} {x : BufEntry} {g : State → CtxId → BReg → State}
    (hex : exec i s = .next (postRelease s i [] retireWord (fun s => g (s.setMe (retireWord s.me)) s.cur a))) (hpark : s.me.parked = none)
    (hg : g (s.setMe (retireWord s.me)) s.cur a = setBuf (s.setMe (retireWord s.me)) (coreOf s.cur) a x) :
    (Quiet s → Leaves i s s a x) ∧ (enginesQuiet s s.cur = false → Posted i s (retireWord s.me)) := by
  refine ⟨fun hq => leaves_of_retired_setBuf hpark ?_, fun hq => posted_of_postRelease hq hex⟩
  rw [hex, postRelease_quiet hq, Laws.me_setMe, Laws.setMe_setMe, Laws.setMe_cur, hg]

section
variable (hw : s.me.window.length < 8) (hpark : s.me.parked = none) (hbad : bufBad s.me (ownBuf s a) false = none)
include hw hpark hbad

theorem bfsetFull_releases (hp : bufPending s.me a = false) (hst : (ownBuf s a).st = .filling) (hclm : (ownBuf s a).clm = true) :
    (Quiet s → Leaves (.bfsetFull a) s s a { ownBuf s a with st := .full, clm := false, filler := none })
      ∧ (enginesQuiet s s.cur = false → Posted (.bfsetFull a) s (retireWord s.me)) := by
  have hex := exec_bfsetFull hw hp hbad
  rw [hst, hclm] at hex
  refine bfset_releases (g := bufFill) hex hpark ?_
  rw [bufFill, Laws.getBuf_setMe, hst, hclm]
  rfl

theorem bfsetRel_releases (hp : bufPending s.me a = false) (hst : (ownBuf s a).st = .full) :
    (Quiet s → Leaves (.bfsetRel a) s s a { ownBuf s a with st := if (ownBuf s a).uses > 0 then .draining else .free })
      ∧ (enginesQuiet s s.cur = false → Posted (.bfsetRel a) s (retireWord s.me)) := by
  have hex := exec_bfsetRel hw hp hbad
  rw [hst] at hex
  refine bfset_releases (g := bufFree) hex hpark ?_
  rw [bufFree, Laws.getBuf_setMe, hst]
  rfl

end

/-- A claim is its context's only request where no instruction in flight asks anything of the table. -/
theorem headRequests_claim {c : Ctx} {since : Word} (h : ∀ x ∈ c.window, bufNeeds c x = [])
    (hpark : c.parked = some (.admission a since)) : headRequests c = [(none, a, true, since)] := by
  have hnone : c.window.flatMap (fun e => (bufNeeds c e).map (fun n => (some e, n.1, n.2, e.issueAt))) = [] :=
    List.flatMap_eq_nil_iff.2 fun x hx => by rw [h x hx, List.map_nil]
  rw [headRequests, requestsOf, hnone, hpark]
  rfl

/-- Whom the table serves before a context does not depend on that context. -/
theorem mayFill_setMe (c : Ctx) (since : Word) : mayFill (s.setMe c) s.cur a since = mayFill s s.cur a since := by
  have hserved : servedBefore (s.setMe c) s.cur a true since = servedBefore s s.cur a true since := by
    unfold servedBefore
    refine congrArg (List.any _) (funext fun n => ?_)
    by_cases hx : ctxOn (coreOf s.cur) n = s.cur
    · simp [hx]
    · dsimp only
      rw [Laws.setMe_other hx]
  rw [mayFill, mayFill, hserved]
  rfl

/-- The context that waits for the table to serve its claim. -/
def claiming (s : State) (a : BReg) : Ctx := { s.me with parked := some (.admission a s.cycle) }

theorem exec_bfsetClaim (hw : s.me.window.length < 8) (hbad : bufBad s.me (ownBuf s a) false = none) :
    exec (.bfsetClaim a) s = .next (bufferAdmission (s.setMe (claiming s a)) s.cur) := by
  show execBfsetClaim a s = _
  rw [execBfsetClaim, windowFull_of hw, hbad]
  rfl

/-- A claim that the table admits: the entry is filling, and its context goes on (R238, R239). -/
theorem serve_claim {since : Word} (hfill : mayFill s s.cur a since = true) (hq : Quiet s) :
    serve s s.cur (none, a, true, since) =
      some (l1DropAll ((setBuf (s.setMe s.me) (coreOf s.cur) a
        { ownBuf s a with st := .filling, clm := true, filler := some s.cur }).modCtx s.cur
          fun c => retireWord { c with parked := none }) (coreOf s.cur)) := by
  obtain ⟨hengines, hstores⟩ := hq
  rw [serve]
  dsimp only
  rw [hfill, hengines, drainReleased_of_no_stores hstores]
  rfl

theorem claiming_me : (s.setMe (claiming s a)).me = claiming s a := Laws.me_setMe s _

theorem quiet_claiming (hq : Quiet s) : Quiet (s.setMe (claiming s a)) :=
  ⟨(enginesQuiet_setMe (c := claiming s a) rfl rfl rfl).trans hq.1, (congrArg Ctx.stores claiming_me).trans hq.2⟩

theorem active_claiming (hrun : s.me.run = .running) (hstop : s.me.stopping = false) : active (claiming s a) = true := by
  show (s.me.run == .running && !s.me.stopping) = true
  rw [hrun, hstop]
  rfl

/-- The table serves an active context's only request. -/
theorem bufferAdmission_single {u t : State} {r : Option Entry × BReg × Bool × Word} (hactive : active u.me = true)
    (hreqs : headRequests u.me = [r]) (hserve : serve u u.cur r = some t) : bufferAdmission u u.cur = t := by
  rw [bufferAdmission, hactive, if_pos rfl, hreqs, List.findSome?_cons, hserve]
  rfl

/-- A context that waits for admission is not one that a new state of the entry wakes. -/
theorem setBuf_claiming (x : BufEntry) : (setBuf (s.setMe (claiming s a)) (coreOf s.cur) a x).ctx s.cur = claiming s a := by
  have hme : (s.setMe (claiming s a)).ctx s.cur = claiming s a := claiming_me
  refine (Laws.setBuf_ctx _ _ _ _ _ fun f h => ?_).trans hme
  rw [hme] at h
  cases h

theorem claiming_admitted (hpark : s.me.parked = none) : { claiming s a with parked := none } = s.me := by
  rw [← hpark]
  rfl

theorem me_l1DropAll (v : State) (k : CoreId) : (l1DropAll v k).me = v.me := rfl

theorem me_modCtx {v : State} {x : CtxId} (hcur : v.cur = x) (g : Ctx → Ctx) : (v.modCtx x g).me = g (v.ctx x) := by
  subst hcur
  exact Laws.ctx_setCtx_same _ _ _

/-- A claim that the table serves at once. -/
theorem bfsetClaim_leaves (hw : s.me.window.length < 8) (hpark : s.me.parked = none) (hbad : bufBad s.me (ownBuf s a) false = none)
    (hq : Quiet s) (hrun : s.me.run = .running) (hstop : s.me.stopping = false) (hneeds : ∀ x ∈ s.me.window, bufNeeds s.me x = [])
    (hfill : mayFill s s.cur a s.cycle = true) :
    Leaves (.bfsetClaim a) s s a { ownBuf s a with st := .filling, clm := true, filler := some s.cur } := by
  have hme := claiming_me (s := s) (a := a)
  have hreqs := headRequests_claim (c := claiming s a) hneeds rfl
  have hserve := serve_claim (s := s.setMe (claiming s a)) ((mayFill_setMe _ _).trans hfill) (quiet_claiming hq)
  have hadmit := bufferAdmission_single (by rw [hme]; exact active_claiming hrun hstop) (by rw [hme]; exact hreqs) hserve
  rw [hme, Laws.setMe_setMe, Laws.setMe_cur] at hadmit
  refine leaves_of ((exec_bfsetClaim hw hbad).trans (congrArg _ hadmit)) ?_ (by simp [State.modCtx]) (by simp [State.modCtx])
    fun k b => ?_
  · rw [me_l1DropAll, me_modCtx (x := s.cur) (Laws.setBuf_cur (s.setMe _) _ _ _), setBuf_claiming, claiming_admitted hpark]
  · rw [Laws.getBuf_l1DropAll, State.modCtx, Laws.getBuf_setCtx, Laws.getBuf_setBuf, Laws.getBuf_setMe]
    rfl

end

/-- Settles O17: by instruction, where the entry is the context's own; then by what is wrong with the entry. -/
theorem bufferInstructions : Obligations.buffer_instructions := by
  refine ⟨fun s a b c d f auto => ?_, fun s a b c d f st full => ?_⟩
  · intro e hpark ho hw
    refine ⟨fun hp full hm => bfwait_leaves hw hp ho hm, fun hp full hm => bfwait_parks hw hp ho hm,
      fun hp hf st => bftry_manages hw hp hf ho st, fun hr hu hs hb => ⟨_, bfinfo_manages hw hr ho, ?_⟩,
      fun hr hq hs hst hu hp hwait hb hc hc0 hin =>
        configure_leaves hw hr hp auto ho hq hpark hs hst hu hwait ⟨hb, hc, hc0, hin⟩,
      fun hs hsize => ?_⟩
    · obtain ⟨h62, h61, h60, h56, h47, h31, h14, h13, h5, h0⟩ := bufWord_fields e hu hs hb
      exact ⟨h62, h61, h60, h56, h47, h31, h14, h13, h5, fun hstrm => h0.trans (if_pos hstrm)⟩
    · have hbad : bufBad s.me (ownBuf s a) false = none := bufBad_none ho hs (.inr hsize)
      exact ⟨fun hp hst hclm => bfsetFull_releases hw hpark hbad hp hst hclm, fun hp hst => bfsetRel_releases hw hpark hbad hp hst,
        fun hq hrun hstop hneeds hfill => bfsetClaim_leaves hw hpark hbad hq hrun hstop hneeds hfill⟩
  · intro e hn hw hp
    refine ⟨fun hsize hpart => ?_, fun ho => ?_⟩
    · have hforeign := bufForeign_of hsize hpart
      have hcfg := fun hr => configure_refused (b := b) (c := c) hw hr hp hn (bufBad_foreign hsize hpart true)
      refine ⟨freezes_of_freezeHere ((exec_bfwait hw hp full).trans (if_pos hforeign)) hn,
        fun hf => freezes_of_freezeHere ((exec_bftry hw hp hf st).trans (if_pos hforeign)) hn,
        fun hr => freezes_of_freezeHere ((exec_bfinfo hw hr).trans (if_pos hforeign)) hn,
        fun hr => ⟨hcfg hr false, hcfg hr true⟩, bfset_refused hn hw hp (bufBad_foreign hsize hpart false)⟩
    · refine ⟨fun hbad => bfset_refused hn hw hp ?_, fun hr hs => ?_, fun hst => ?_, fun hst => ?_⟩
      · exact hbad.elim (bufBad_empty ho) fun hs => bufBad_strm ho hs false
      · have hcfg := configure_refused hw hr hp hn (bufBad_strm ho hs true)
        exact ⟨hcfg false, hcfg true⟩
      · exact bfsetFull_misused hn hw hp ho hst
      · exact bfsetRel_misused hn hw hp ho hst

end Sys2Proof.Proofs
end

section
/-! PROOFS. Streams bound and ended (R245, R247): what each instruction makes of its entry, its column and its context once its guards
let it pass, what holds `unstrm` back, and the statement on them. -/

open Sys2Proof Sys2Proof.Machine Sys2Proof.Claims

namespace Sys2Proof.Proofs

/-! ## The end of an instruction on a column -/

theorem getCol_retireWord (c : Ctx) (r : Col) : getCol (retireWord c) r = getCol c r := by
  rw [retireWord, Laws.pastWord_frame]
  cases r <;> rfl

theorem getCol_with_locks (c : Ctx) (l : List Interlock) (r : Col) : getCol { c with locks := l } r = getCol c r := by cases r <;> rfl

/-- Where issue moves on to does not depend on columns and locks. -/
theorem pastWord_pc_with (c : Ctx) (cs : Vector Column 32) (ps : Vector Column 16) (l : List Interlock) :
    (pastWord { c with c := cs, p := ps, locks := l }).pc = (pastWord c).pc :=
  (congrArg Ctx.pc (Laws.pastWord_with c cs ps c.window c.seq l c.vc c.sat c.awaited) :)

/-- A context of which a column and the interlock table are written. -/
def withColumn (c : Ctx) (r : Col) (x : Column) (l : List Interlock) : Ctx := { setCol c r x with locks := l }

section
variable (c : Ctx) (r : Col) (x : Column) (l : List Interlock)

theorem getCol_withColumn (r' : Col) : getCol (withColumn c r x l) r' = if r' = r then x else getCol c r' := by
  rw [withColumn, getCol_with_locks, Laws.getCol_setCol]

@[simp] theorem withColumn_parked : (withColumn c r x l).parked = c.parked := by rw [withColumn, Laws.setCol_frame]

@[simp] theorem withColumn_retired : (withColumn c r x l).retired = c.retired := Laws.setCol_retired c r x

theorem pastWord_withColumn_pc : (pastWord (withColumn c r x l)).pc = (pastWord c).pc := by
  rw [withColumn, Laws.setCol_frame]
  exact pastWord_pc_with c _ _ _

end

section
variable {s t : State} {c : Ctx} {a : BReg} {e : BufEntry} {d : CReg} {x : Column} {l : List Interlock}

/-- The end of `strm` and `unstrm`: entry `a` is `e`, column `d` is `x`, and of memory no byte differs. -/
theorem rebinds_of (ht : t = (setBuf (s.setMe c) (coreOf s.cur) a e).setMe (retireWord (withColumn s.me (.c d) x l))) :
    getBuf t (coreOf s.cur) a = e ∧ (∀ y, y ≠ a → getBuf t (coreOf s.cur) y = getBuf s (coreOf s.cur) y)
      ∧ getCol t.me (.c d) = x ∧ (∀ r, r ≠ .c d → getCol t.me r = getCol s.me r) ∧ t.me.pc = (pastWord s.me).pc
      ∧ t.me.retired = s.me.retired + 1 ∧ SameMemory s t := by
  have hbuf (y : BReg) : getBuf t (coreOf s.cur) y = if y = a then e else getBuf s (coreOf s.cur) y := by
    rw [ht, Laws.getBuf_setMe, Laws.getBuf_setBuf, Laws.getBuf_setMe]
    simp
  have hcol (r : Col) : getCol t.me r = if r = .c d then x else getCol s.me r := by
    rw [ht, Laws.me_setMe, getCol_retireWord, getCol_withColumn]
  refine ⟨(hbuf a).trans (if_pos rfl), fun y hy => (hbuf y).trans (if_neg hy), (hcol _).trans (if_pos rfl),
    fun r hr => (hcol r).trans (if_neg hr), ?_, ?_, fun _ => ?_⟩
  · rw [ht, Laws.me_setMe]
    exact pastWord_withColumn_pc _ _ _ _
  · rw [ht, Laws.me_setMe]
    exact congrArg (· + 1) (withColumn_retired _ _ _ _)
  · rw [ht]
    simp

end

/-! ## `strm` (R245) -/

theorem takeLock_frame (c : Ctx) (st : Stream) : takeLock c st = { c with locks := (takeLock c st).locks } := by
  rw [takeLock]
  split <;> rfl

theorem setCol_takeLock (c : Ctx) (st : Stream) (r : Col) (x : Column) :
    setCol (takeLock c st) r x = withColumn c r x (takeLock c st).locks := by
  rw [takeLock_frame]
  cases r <;> rfl

theorem unbind_unbound {s : State} {k : CoreId} {b : BReg} (h : (getBuf s k b).stream = none) : unbind s k b = s := by
  rw [unbind, h]

/-- The stream that `strm` binds to its entry. -/
def boundStream (s : State) (e : BufEntry) (b c : Src) (fmt : Fmt) : Stream :=
  { ctx := s.cur, seq := s.me.seq, ph := ownPhase s.me, pol := s.me.pold &&& 0xFFFFFFE7, base := readSrc s.me b
    stride := readSrc s.me c, fmt := fmt, mfmt := none, total := s.me.vl.toNat, strip := stripSize e fmt, start := 0, next := 0
    fault := none }

section
variable {s : State} {d : CReg} {a : BReg} {b c : Src} {fmt : Fmt}

/-- What lets a `strm` bind its column to its entry: nothing to wait for, and the checks of R245 passed. -/
structure Bindable (s : State) (d : CReg) (a : BReg) (b c : Src) (fmt : Fmt) : Prop where
  window  : s.me.window.length < 8
  locks   : s.me.locks.length < 16
  ready   : hazard s.me [b, c] [] = false
  column  : columnUsed s.me (.c d) = false ∧ (getCol s.me (.c d)).strm = false
  own     : OwnEntry s (ownBuf s a)
  format  : packed fmt = false ∧ fmt ≠ .xacc
  srf     : 0x1000000 ≤ 256 * (ownBuf s a).base
  strip   : stripSize (ownBuf s a) fmt ≠ 0
  free    : (ownBuf s a).st = .free ∧ (ownBuf s a).uses = 0 ∧ (ownBuf s a).stream = none
  unasked : bufPending s.me a = false
  quiet   : Quiet s

theorem exec_strm (h : Bindable s d a b c fmt) (hpark : s.me.parked = none) :
    exec (.strm d a b c fmt) s =
      managed (setBuf (s.setMe s.me) (coreOf s.cur) a
        { ownBuf s a with strm := true, auto := true, creg := d, stream := some (boundStream s (ownBuf s a) b c fmt) })
        (withColumn s.me (.c d) { Column.empty fmt with strm := true, buf := a }
          (takeLock s.me (boundStream s (ownBuf s a) b c fmt)).locks) := by
  obtain ⟨hw, hl, hhazard, ⟨hd, hcol⟩, ho, ⟨hpacked, hfmt⟩, hsrf, hstrip, ⟨hst, huses, hstream⟩, hp, hengines, hstores⟩ := h
  have hbase : 0x10000 ≤ (getBuf s (coreOf s.cur) a).base := by
    have h : 0x1000000 ≤ 256 * (getBuf s (coreOf s.cur) a).base := hsrf
    omega
  have hunbind : unbind (s.setMe s.me) (coreOf s.cur) a = s.setMe s.me := unbind_unbound hstream
  show execStrm d a b c fmt s = _
  rw [execStrm]
  dsimp only
  rw [if_neg, bufForeign_of_own ho, if_neg Bool.false_ne_true, if_neg, if_neg, hcol, if_neg Bool.false_ne_true,
    drainReleased_of_no_stores hstores, hunbind]
  · have hme := Laws.me_setMe s s.me
    rw [Laws.setBuf_me _ _ _ _ ((congrArg Ctx.parked hme).trans hpark), hme, setCol_takeLock]
    rfl
  · simp [hst, huses, hp, hl, hengines]
  · simp [hpacked, hfmt, hstrip, hbase]
  · simp [windowFull_of hw, hhazard, hd]

end

/-! ## `unstrm` (R247) -/

/-- A strip of the entry's stream is being filled. -/
def fillFlies (x : BufEntry) : Bool := x.st == .filling && x.stream.any (fun st => st.fault.isNone)

theorem fillFlies_iff (x : BufEntry) : fillFlies x = true ↔ x.st = .filling ∧ ∃ st, x.stream = some st ∧ st.fault = none := by
  rw [fillFlies, Bool.and_eq_true, beq_iff_eq, Option.any_eq_true]
  simp only [Option.isNone_iff_eq_none]

/-- An entry that has left its stream. -/
def leftStream (x : BufEntry) : BufEntry :=
  { x with st := .free, auto := false, strm := false, uses := 0, clm := false, filler := none, stream := none }

section
variable {s : State} {d : CReg} {st : Stream}

/-- The column that `unstrm` names, and the entry bound to it. -/
abbrev ownCol (s : State) (d : CReg) : Column := getCol s.me (.c d)

/-- The context once its stream is gone: the column empty, the strip's interlock entry dropped. -/
def unbound (s : State) (d : CReg) (st : Stream) : Ctx :=
  withColumn s.me (.c d) (Column.empty (ownCol s d).fmt) (s.me.locks.filter (fun l => l.seq ≠ st.seq))

theorem unbind_own {b : BReg} (hb : (ownCol s d).buf = b) (hs : (ownCol s d).strm = true) (hd : (ownBuf s b).creg = d)
    (hstream : (ownBuf s b).stream = some st) (hctx : st.ctx = s.cur) :
    unbind (s.setMe s.me) (coreOf s.cur) b = setBuf (s.setMe (unbound s d st)) (coreOf s.cur) b (leftStream (ownBuf s b)) := by
  subst hd
  have hcol : ((ownCol s (ownBuf s b).creg).strm && decide ((ownCol s (ownBuf s b).creg).buf = b)) = true := by
    rw [hs, hb, decide_eq_true rfl]
    rfl
  rw [unbind, Laws.getBuf_setMe, hstream]
  dsimp only
  rw [hctx, State.modCtx, Laws.ctx_setCtx_same, if_pos hcol, dropLock, State.modCtx, Laws.ctx_setCtx_same, Laws.setCtx_setCtx,
    Laws.setCtx_setCtx]
  rfl

theorem unstrm_freezes (hn : NothingHeld s) (hs : (ownCol s d).strm = false) : Freezes (.unstrm d) s 0x05 s.me.pc := by
  refine freezes_of_freezeHere ?_ hn
  show execUnstrm d s = _
  rw [execUnstrm]
  dsimp only
  rw [hs]
  rfl

/-- `unstrm` of a column in stream mode waits, or gives back the entry and the column. -/
theorem exec_unstrm (hw : s.me.window.length < 8) (hs : (ownCol s d).strm = true) :
    exec (.unstrm d) s =
      if columnUsed s.me (.c d) || fillFlies (ownBuf s (ownCol s d).buf) || !enginesQuiet s s.cur then .next s
      else
        managed (unbind (drainReleased s s.cur) (coreOf s.cur) (ownCol s d).buf)
          (unbind (drainReleased s s.cur) (coreOf s.cur) (ownCol s d).buf).me := by
  show execUnstrm d s = _
  rw [execUnstrm, fillFlies]
  dsimp only
  rw [hs, windowFull_of hw]
  cases columnUsed s.me (.c d) with
  | true => rfl
  | false => cases (ownBuf s (ownCol s d).buf).stream <;> rfl

theorem unstrm_waits (hw : s.me.window.length < 8) (hs : (ownCol s d).strm = true)
    (h : columnUsed s.me (.c d) = true ∨ fillFlies (ownBuf s (ownCol s d).buf) = true) : exec (.unstrm d) s = .next s :=
  (exec_unstrm hw hs).trans (if_pos (by rw [Bool.or_eq_true, Bool.or_eq_true]; exact .inl h))

theorem exec_unstrm_unbinds (hw : s.me.window.length < 8) (hpark : s.me.parked = none) (hs : (ownCol s d).strm = true)
    (hfree : columnUsed s.me (.c d) = false) (hfill : fillFlies (ownBuf s (ownCol s d).buf) = false)
    (hcreg : (ownBuf s (ownCol s d).buf).creg = d) (hstream : (ownBuf s (ownCol s d).buf).stream = some st) (hctx : st.ctx = s.cur)
    (hq : Quiet s) :
    exec (.unstrm d) s =
      managed (setBuf (s.setMe (unbound s d st)) (coreOf s.cur) (ownCol s d).buf (leftStream (ownBuf s (ownCol s d).buf)))
        (unbound s d st) := by
  obtain ⟨hengines, hstores⟩ := hq
  have hme : (s.setMe (unbound s d st)).me = unbound s d st := Laws.me_setMe _ _
  have hparked : (unbound s d st).parked = none := (withColumn_parked _ _ _ _).trans hpark
  rw [exec_unstrm hw hs, if_neg (by simp [hfree, hfill, hengines]), drainReleased_of_no_stores hstores,
    unbind_own rfl hs hcreg hstream hctx, Laws.setBuf_me _ _ _ _ (by rw [hme, hparked]), hme]

end

/-- Settles O18: `strm`, then `unstrm` where it ends the stream, where it waits and where it is refused. -/
theorem streamsBindAndEnd : Obligations.streams_bind_and_end := by
  intro s d a b c fmt k hpark hw
  refine ⟨?_, ?_, fun hs h => unstrm_waits hw hs (h.imp_right (fillFlies_iff _).2), fun hs hn => unstrm_freezes hn hs⟩
  · intro e hr hd ho hpacked hfmt hbase hstrip hst huses hstream hcol hp hl hq
    have hex := exec_strm ⟨hw, hl, hr, ⟨hd, hcol⟩, ho, ⟨hpacked, hfmt⟩, hbase, hstrip, ⟨hst, huses, hstream⟩, hp, hq⟩ hpark
    obtain ⟨hbuf, hbufs, hcd, hcols, hpc, hret, hmem⟩ := rebinds_of (s := s) rfl
    exact ⟨_, _, hex, hbuf, hbufs, rfl, rfl, rfl, rfl, rfl, rfl, rfl, rfl, hcd, hcols, hpc, hret, hmem⟩
  · rintro x e hs hfree hfill hcreg ⟨st, hstream, hctx⟩ hq
    have hex := exec_unstrm_unbinds hw hpark hs hfree (Bool.eq_false_iff.2 (hfill ∘ (fillFlies_iff _).1)) hcreg hstream hctx hq
    obtain ⟨hbuf, hbufs, hcd, hcols, hpc, hret, hmem⟩ := rebinds_of (s := s) rfl
    exact ⟨_, hex, hcd, hbuf, hbufs, hpc, hret, hmem⟩

end Sys2Proof.Proofs
end

section
/-! PROOFS. The matrix array (R255 to R264): shares given up and taken, planes, accumulators, the multiplications and transfers that
enter the window, and the statement on them. -/

open Sys2Proof Sys2Proof.Machine Sys2Proof.Claims

namespace Sys2Proof.Proofs

/-! ## The mask of a share (R255, R256) -/

theorem val_freeGroups_take_sorted (s : State) (cl : ClusterId) (n : Nat) : (((freeGroups s cl).take n).map Fin.val).SortedLT :=
  List.Pairwise.sortedLT (((List.sortedLT_finRange 8).pairwise.filter _).take.map _ fun _ _ h => h)

/-- The mask of ascending row groups has the bits of those groups. -/
theorem getLsbD_groupMask {gs : List (Fin 8)} (h : (gs.map Fin.val).SortedLT) (n : Fin 8) :
    (BitVec.ofNat 8 ((gs.map (fun g => 2 ^ g.val)).foldl (· + ·) 0)).getLsbD n = gs.contains n := by
  have hsum : (gs.map (fun g => 2 ^ g.val)).foldl (· + ·) 0 = ((gs.map Fin.val).map (2 ^ ·)).sum := by
    rw [List.sum_eq_foldl, List.map_map]
    rfl
  have hbit := Nat.mem_bitIndices (i := n.val) (n := ((gs.map Fin.val).map (2 ^ ·)).sum)
  rw [Nat.bitIndices_sum_map_two_pow h] at hbit
  rw [BitVec.getLsbD_ofNat, decide_eq_true n.isLt, Bool.true_and, hsum, Bool.eq_iff_iff, ← hbit, List.contains_iff_mem]
  exact List.mem_map_of_injective Fin.val_injective

/-! ## Instructions that act as they issue -/

/-- A context without a share: its accumulators clear, its planes empty (R257). -/
def detachedCtx (c : Ctx) : Ctx := { c with gmask := 0, acc := Vector.replicate 4 Accumulator.clear, shadow := none, active := none }

section
variable {i : Instr} {s : State} {c : Ctx} {x : Src} {d : AReg} {fmt : Fmt}

/-- A matrix instruction that acts as it issues: `u` differs from `s` in the executing context, in no other, and in no byte of
memory. -/
theorem manages_of_matrixNow {u : State} (hex : exec i s = matrixNow u) (hme : u.me = c) (hcur : u.cur = s.cur)
    (hseq : c.seq = s.me.seq) (hret : c.retired = s.me.retired) (ho : ∀ y, y ≠ s.cur → u.ctx y = s.ctx y) (hmem : u.mem = s.mem)
    (hhost : u.hostMem = s.hostMem) : Manages i s c := by
  rw [matrixNow, hme] at hex
  exact Laws.managed_of hex hcur hseq hret ho hmem hhost

theorem manages_of_matrixNow_setMe (hex : exec i s = matrixNow (s.setMe c)) (hseq : c.seq = s.me.seq)
    (hret : c.retired = s.me.retired) : Manages i s c :=
  manages_of_matrixNow hex (Laws.me_setMe s c) rfl hseq hret (fun _ hy => Laws.setMe_other hy c) rfl rfl

section
variable (hw : s.me.window.length < 8) (hb : matrixBusy s.me = false)
include hw hb

theorem mdet_manages : Manages .mdet s (detachedCtx s.me) := by
  have hex : exec .mdet s = matrixNow (detach s s.cur) := by
    show execMdet s = _
    rw [execMdet, windowFull_of hw, hb]
    rfl
  exact manages_of_matrixNow hex (Laws.ctx_setCtx_same _ _ _) rfl rfl rfl (fun y hy => Laws.ctx_setCtx_ne _ _ _ hy.symm) rfl rfl

/-- `matt` of a count from 1 to 8 by a context that holds no share. -/
theorem exec_matt (hx : hazard s.me [x] [] = false) (hg : s.me.gmask = 0) (h0 : readSrc s.me x ≠ 0) (h8 : (readSrc s.me x).toNat ≤ 8) :
    exec (.matt x) s =
      if coreAttached s s.cur || poolAcs (s.core (coreOf s.cur)).poolw = 0 || freeGroups s (clusterOf s.cur) = [] then matrixNow s
      else matrixNow (grantGroups s s.cur (readSrc s.me x).toNat) := by
  have hn : ¬ (readSrc s.me x).toNat = 0 := fun h => h0 (BitVec.eq_of_toNat_eq h)
  show execMatt x s = _
  rw [execMatt]
  dsimp only
  rw [windowFull_of hw, hx, hb, if_neg (by simp), if_neg (by simp [hn, h8, hg])]

theorem matt_manages_none (hx : hazard s.me [x] [] = false) (hg : s.me.gmask = 0) (h0 : readSrc s.me x ≠ 0)
    (h8 : (readSrc s.me x).toNat ≤ 8)
    (h : coreAttached s s.cur = true ∨ poolAcs (s.core (coreOf s.cur)).poolw = 0 ∨ freeGroups s (clusterOf s.cur) = []) :
    Manages (.matt x) s s.me :=
  Laws.managed_self ((exec_matt hw hb hx hg h0 h8).trans (if_pos (by simpa [or_assoc] using h))) rfl rfl

theorem matt_manages_grant (hx : hazard s.me [x] [] = false) (hg : s.me.gmask = 0) (h0 : readSrc s.me x ≠ 0)
    (h8 : (readSrc s.me x).toNat ≤ 8) (ha : coreAttached s s.cur = false) (hp : poolAcs (s.core (coreOf s.cur)).poolw ≠ 0)
    (hf : freeGroups s (clusterOf s.cur) ≠ []) :
    ∃ g : BitVec 8, Manages (.matt x) s { detachedCtx s.me with gmask := g }
      ∧ ∀ n : Fin 8, g.getLsbD n = ((freeGroups s (clusterOf s.cur)).take (readSrc s.me x).toNat).contains n := by
  have hex := (exec_matt hw hb hx hg h0 h8).trans (if_neg (by simp [ha, hp, hf]))
  exact ⟨_, manages_of_matrixNow hex (Laws.ctx_setCtx_same _ _ _) rfl rfl rfl (fun y hy => Laws.ctx_setCtx_ne _ _ _ hy.symm) rfl rfl,
    getLsbD_groupMask (val_freeGroups_take_sorted s _ _)⟩

theorem mflip_manages (hg : s.me.gmask ≠ 0) {p : Plane} (hp : s.me.shadow = some p) :
    Manages .mflip s { s.me with active := some p, shadow := none } := by
  refine manages_of_matrixNow_setMe ?_ rfl rfl
  show execMflip s = _
  rw [execMflip]
  dsimp only
  rw [windowFull_of hw, hb, if_neg (by simp), if_neg (by simpa [hp] using hg), hp]

theorem mflip_freezes (h : s.me.gmask = 0 ∨ s.me.shadow = none) (hn : NothingHeld s) : Freezes .mflip s 0x05 s.me.pc := by
  refine freezes_of_freezeHere ?_ hn
  show execMflip s = _
  rw [execMflip, windowFull_of hw, hb, if_neg (by simp), if_pos (by simpa using h)]
  rfl

end

theorem accumulator_unused (h : ∀ k ∈ s.me.window, usesAcc k d = false) : s.me.window.any (fun e => usesAcc e d) = false := by
  simpa using h

theorem macswp_manages (hw : s.me.window.length < 8) (h : ∀ k ∈ s.me.window, usesAcc k d = false) :
    Manages (.macswp d) s
      { s.me with acc := s.me.acc.set d { working := s.me.acc[d].visible, visible := s.me.acc[d].working } } := by
  refine manages_of_matrixNow_setMe ?_ rfl rfl
  show execMacswp d s = _
  rw [execMacswp]
  dsimp only
  rw [windowFull_of hw, accumulator_unused h]
  rfl

theorem macclr_manages (hw : s.me.window.length < 8) (h : ∀ k ∈ s.me.window, usesAcc k d = false) (hf : fmt = .f32 ∨ fmt = .i32) :
    Manages (.macclr d fmt) s
      { s.me with acc := s.me.acc.set d { s.me.acc[d] with working := { tag := fmt, cells := [] } } } := by
  refine manages_of_matrixNow_setMe ?_ rfl rfl
  show execMacclr d fmt s = _
  rw [execMacclr]
  dsimp only
  rw [windowFull_of hw, accumulator_unused h, if_neg (by simp), if_neg (by simpa [or_iff_not_imp_left] using hf)]
  rfl

end

/-! ## Tiles (R258) -/

/-- The table of tile formats holds what `TileOk` and `tileTag` say. -/
theorem tileOf_of_tileOk {f : Fmt} {mode : Nat} (h : TileOk f mode) :
    ∃ t, tileOf f = some t ∧ t.2.2.1.contains mode = true ∧ t.2.2.2 mode = tileTag f mode := by
  rcases h with ⟨hf, hmode⟩ | ⟨rfl, hmode⟩ | ⟨hf, rfl⟩
  · have hmem : [0, 1, 2].contains mode = true := by simp; omega
    simp only [List.mem_cons, List.not_mem_nil, or_false] at hf
    rcases hf with rfl | rfl | rfl | rfl | rfl <;> exact ⟨_, rfl, hmem, rfl⟩
  · rcases hmode with rfl | rfl <;> exact ⟨_, rfl, rfl, rfl⟩
  · simp only [List.mem_cons, List.not_mem_nil, or_false] at hf
    rcases hf with rfl | rfl <;> exact ⟨_, rfl, rfl, rfl⟩

/-- A scale column has the format of its mode (R259, R262). -/
theorem scaleFmtOk_of {mode : Nat} {f : Fmt} (h : mode = 0 ∨ mode = 1 ∧ f = .ue8m0 ∨ mode = 2 ∧ f = .f32) :
    (decide (mode = 0) || scaleFmtOk mode f) = true := by
  rcases h with rfl | ⟨rfl, rfl⟩ | ⟨rfl, rfl⟩ <;> rfl

/-- The reduced service of phase 3 has the format f16 only (R416). -/
theorem reducedService_ok {phase : BitVec 4} {f : Fmt} (h : phase = 3 → f = .f16) :
    (decide (phase.toNat = 3) && decide (f ≠ .f16)) = false := by
  by_cases hf : f = .f16
  · simp [hf]
  · have h3 : phase.toNat ≠ 3 := fun h3 => hf (h (BitVec.eq_of_toNat_eq h3))
    simp [h3]

/-! ## Instructions that enter the window (R259, R262, R264) -/

section
variable {i : Instr} {s : State} {b : ColSrc} {r u : Col} {d : AReg} {e : CReg} {x y z : Src} {mode : ScaleLit} {m : Option Col} {fmt : Fmt}

theorem mldw_enters (hm : MayIssue s (colsOf [b] ++ m.toList) (scsOf [b]) [] none) (hrows : 32 * grantCount s.me ≠ 0)
    (ht : TileOk fmt mode.toNat) (hb : ∀ k ∈ colsOf [b], colFmt s.me k = .v256) (hnone : m = none → mode = 0)
    (hscale : ∀ k, m = some k →
      mode.toNat = 0 ∨ mode.toNat = 1 ∧ colFmt s.me k = .ue8m0 ∨ mode.toNat = 2 ∧ colFmt s.me k = .f32)
    (hphase : s.phase = 3 → fmt = .f16) :
    Enters (.mldw b mode m fmt) s
      { engine := .matrix, fmt := fmt, len := 32 * grantCount s.me, a := operandOf s b, c := m.elim Operand.none (colOperand s)
        pol := s.me.pold &&& 0xFFFFFFE7 } := by
  obtain ⟨t, htile, hmode, -⟩ := tileOf_of_tileOk ht
  have hex : exec (.mldw b mode m fmt) s = execMldw b mode m fmt s := rfl
  rw [execMldw.eq_def] at hex
  dsimp only at hex
  rw [if_neg] at hex
  · exact Laws.enters _ plain hm hex Laws.keep_plain ⟨rfl, rfl, rfl, rfl, rfl, rfl, rfl, rfl, rfl, rfl⟩ [] Laws.nodests
  · rw [htile]
    dsimp only
    rw [decide_eq_false hrows, hmode, reducedService_ok hphase]
    have hzero (h : m = none) : mode.toNat = 0 := by rw [hnone h]; rfl
    have hscaled (k : Col) (h : m = some k) := scaleFmtOk_of (hscale k h)
    cases m with
    | none =>
      cases b with
      | col k => simp [hb k (by simp [colsOf]), hzero rfl]
      | sc _ => simp [hzero rfl]
    | some u =>
      cases b with
      | col k => simp [hb k (by simp [colsOf]), hscaled u rfl]
      | sc _ => simp [hscaled u rfl]

/-- The checks of `mmul` and `mmuls` (R262). -/
theorem multiply_enters {cols : List Col} {ob oc : Operand} {modeOk : Nat → Fmt → Bool} {p : Plane}
    (hex : exec i s = multiply i d r cols x ob oc modeOk s) (hm : MayIssue s (r :: cols) [x] [] none) (hp : s.me.active = some p)
    (ht : TileOk p.fmt p.mode) (htag : s.me.acc[d].working.tag = tileTag p.fmt p.mode) (hr : colFmt s.me r = .v256)
    (hmode : modeOk p.mode p.fmt = true) :
    Enters i s
      { engine := .matrix, fmt := .v256, len := lenOf (colOperand s r).col, a := colOperand s r, b := ob, c := oc } := by
  obtain ⟨t, htile, -, ht⟩ := tileOf_of_tileOk ht
  rw [multiply, if_pos] at hex
  · exact Laws.enters _ plain hm hex Laws.keep_plain ⟨rfl, rfl, rfl, rfl, rfl, rfl, rfl, rfl, rfl, rfl⟩ [] Laws.nodests
  · simpa [hp, htile, ht, hmode, hr] using htag

/-- The columns that `macrd` reads, by the fields of its source (R264). -/
theorem readWindow_eq (c : Ctx) (v : Word) :
    readWindow c v = (v.toNat % 512, if v.toNat / 2 ^ 16 % 512 = 0 then 32 * grantCount c - v.toNat % 512 else v.toNat / 2 ^ 16 % 512) := by
  rw [readWindow, bitsAt, bitsAt, pow_zero, Nat.div_one]
  rfl

/-- The formats that `macrd` reads a bank in (R264). -/
theorem readFmtOk_of {tag f : Fmt} (h : tag = .f32 ∧ f ∈ [Fmt.f32, .f16, .bf16, .e4m3, .e5m2] ∨ tag = .i32 ∧ (f = .i32 ∨ f = .f32)) :
    (if tag = .f32 then [Fmt.f32, .f16, .bf16, .e4m3, .e5m2].contains f else f == .i32 || f == .f32) = true := by
  rcases h with ⟨rfl, hf⟩ | ⟨rfl, hf⟩
  · exact (if_pos rfl).trans (List.contains_iff_mem.2 hf)
  · rcases hf with rfl | rfl <;> rfl

theorem macrd_enters (hm : MayIssue s [] [y, z] [] none) (hs : (getCol s.me (.c e)).strm = false)
    (hwidth : sameWidth (colFmt s.me (.c e)) fmt = true ∨ inFlight s.me (.c e) = false)
    (hfmt : s.me.acc[d].visible.tag = .f32 ∧ fmt ∈ [Fmt.f32, .f16, .bf16, .e4m3, .e5m2]
      ∨ s.me.acc[d].visible.tag = .i32 ∧ (fmt = .i32 ∨ fmt = .f32))
    (hrows : (readSrc s.me y).toNat + s.me.vl.toNat ≤ accRows s s.cur)
    {col0 w : Nat} (hwindow : readWindow s.me (readSrc s.me z) = (col0, w)) (hcols : col0 + w ≤ 32 * grantCount s.me) :
    Enters (.macrd e d y z fmt) s
      { engine := .matrix, fmt := fmt, len := s.me.vl.toNat * w, dests := [(.c e, fmt)]
        b := scalarOperand s.me y, c := scalarOperand s.me z } := by
  have hd : Writable s [(.c e, fmt)] [] := ⟨by simp, by simpa using ⟨hs, hwidth⟩⟩
  have hex : exec (.macrd e d y z fmt) s = execMacrd e d y z fmt s := rfl
  rw [execMacrd, hwindow] at hex
  rw [(Laws.overlap_of hd).2, decide_eq_true hrows, decide_eq_true hcols, readFmtOk_of hfmt] at hex
  exact Laws.enters _ plain hm hex Laws.keep_plain ⟨rfl, rfl, rfl, rfl, rfl, rfl, rfl, rfl, rfl, rfl⟩ [] hd

end

/-- Settles O20, instruction by instruction. -/
theorem matrixInstructions : Obligations.matrix_instructions := by
  intro s x b r u d e y z mode fmt c rows clear hw
  refine ⟨fun hb => ⟨mdet_manages hw hb, fun hx hg h0 h8 => ⟨matt_manages_none hw hb hx hg h0 h8, matt_manages_grant hw hb hx hg h0 h8⟩,
      fun hg p hp => mflip_manages hw hb hg hp, mflip_freezes hw hb⟩,
    fun hd => ⟨macswp_manages hw hd, macclr_manages hw hd⟩,
    fun m => mldw_enters,
    fun p hp ht htag hr => ⟨fun hm hmode => ?_, fun hm hmode => ?_⟩,
    fun hm hs hwidth hfmt hrows hcols => macrd_enters hm hs hwidth hfmt hrows (readWindow_eq _ _) hcols⟩
  · exact multiply_enters (modeOk := fun m _ => m == 0) rfl hm hp ht htag hr (by simp [hmode])
  · refine multiply_enters (modeOk := fun m _ => m != 0 && scaleFmtOk m (colFmt s.me u)) rfl hm hp ht htag hr ?_
    rcases hmode with ⟨hmode, hf⟩ | ⟨hmode, hf⟩ <;> rw [hmode, hf] <;> rfl

end Sys2Proof.Proofs
end
